-- ==== Sys2Proof/Word.lean ====
section
/-! DEFINITION. The machine words: a byte (R9: a register value, a sub-address and the device address are 8 bits each)
and the 32-bit command word (R64). -/

namespace Sys2Proof

/-- A register value, a sub-address, a device address or a payload byte: 8 bits (R9). -/
abbrev Byte := BitVec 8

/-- A command word: 32 bits, bit 31 the most significant (R64). -/
abbrev Word := BitVec 32

end Sys2Proof
end

