-- ==== Sys2Proof/Config.lean ====
section
/-! DEFINITION. What one implementation fixes (R7, R8), the names its parameters speak of (pins, samples, errors,
statuses), and the free values: whatever the environment answers beyond what a script of answers says. -/

namespace Sys2Proof

/-! ## Names shared by the parameters and the machine -/

/-- The two pins of the Bus Session (R12, R14): the clock and the data pin. -/
inductive Pin where
  | scl | sda
  deriving DecidableEq, Repr, Inhabited

/-- What `PinRead` answers (R20 (b), R154): a level or an invalid value. -/
inductive Sample where
  | zero | one | invalid
  deriving DecidableEq, Repr, Inhabited

/-- The calls of the GPIO capability that can fail (R136). -/
inductive PinCall where
  | request | setOutput | setInput | release
  deriving DecidableEq, Repr, Inhabited

/-- The stage a `ProtocolError` names (R136, R138). -/
inductive Stage where
  | address | subaddress | value | sample
  deriving DecidableEq, Repr, Inhabited

/-- What a `ValidationError` rejected (R136, R139). -/
inductive Validation where
  | index | size
  deriving DecidableEq, Repr, Inhabited

/-- The error values (R136). -/
inductive Error where
  | resource (call : PinCall) (pin : Pin)
  | protocol (stage : Stage)
  | validation (kind : Validation)
  | deviceInit (cause : Error)
  deriving DecidableEq, Repr, Inhabited

/-- The statuses (R136): `Success`, an error, or, for `RUNERR` only, `TerminalIdle(status)`. -/
inductive Status where
  | success
  | error (e : Error)
  | terminalIdle (s : Status)
  deriving DecidableEq, Repr, Inhabited

namespace Config

/-! ## The parameters R7 gives a value -/

/-- R7: the half-bit-period delay, in time-units. -/
def halfPeriod : Nat := 5

/-- R7: the bring-up attempts in all. -/
def maxAttempts : Nat := 15

/-- R7: the longest buffer `LOADPROGRAM` accepts, in bytes. -/
def maxSize : Nat := 32

/-- R7: the number of predefined tapes. -/
def numTapes : Nat := 2

/-- R7: the device address the spec gives as default (decision D3). -/
def defaultDevAddr : Byte := 0x64#8

end Config

/-- The configuration record (R7): the OPEN parameters and the device address, constant for the life of the block
(R22).  The four parameters with a fixed value are the definitions of `Config` above. -/
structure Config where
  /-- `BACKOFF`, in time-units -/
  backoff : Nat
  /-- `SCL_ID` -/
  sclId : Nat
  /-- `SDA_ID` -/
  sdaId : Nat
  /-- `SCL_LABEL`; influences nothing (decision D32) -/
  sclLabel : String
  /-- `SDA_LABEL`; influences nothing (decision D32) -/
  sdaLabel : String
  /-- `DEV_ADDR` -/
  devAddr : Byte
  /-- `INIT_SEQ[0..12]`, (sub-address, value) -/
  initSeq : List (Byte × Byte)
  /-- `CUR_RED` -/
  curRed : Byte
  /-- `CUR_GREEN` -/
  curGreen : Byte
  /-- `CUR_BLUE` -/
  curBlue : Byte
  /-- `REG_ENG_MODE` -/
  regEngMode : Byte
  /-- `VAL_ENG_LOAD` -/
  valEngLoad : Byte
  /-- `VAL_ENG_HALT` -/
  valEngHalt : Byte
  /-- `REG_ENG_RUN` -/
  regEngRun : Byte
  /-- `VAL_ENG_RUN` -/
  valEngRun : Byte
  /-- `REG_FREE_RUN` -/
  regFreeRun : Byte
  /-- `VAL_FREE_RUN` -/
  valFreeRun : Byte
  /-- `REG_PAGE_SEL` -/
  regPageSel : Byte
  /-- `VAL_PAGE_MUX` -/
  valPageMux : Byte
  /-- `VAL_PAGE_PROG` -/
  valPageProg : Byte
  /-- `PROG_MEM_BASE` -/
  progMemBase : Byte
  /-- `MUX_TABLE[0]` -/
  muxTable0 : List Byte
  /-- `MUX_TABLE[1]` -/
  muxTable1 : List Byte
  /-- `PROGRAM` -/
  program : List Byte
  deriving DecidableEq, Repr, Inhabited

namespace Config

/-- R28, R112: the mux table a tape index selects; index 0 the first table, any other the second (only 0 and 1 pass
`PLAYTAPE`'s check). -/
def muxTable (c : Config) (index : Byte) : List Byte :=
  if index.toNat = 0 then c.muxTable0 else c.muxTable1

/-- R110: entries 4 to 12 of the bring-up table, the nine current-limit writes. -/
def currentEntries (c : Config) : List (Byte × Byte) := c.initSeq.drop 4

/-- R8 and R110: the constraints every admissible `Config` meets ((a) of R8 holds by definition here). -/
def admissible (c : Config) : Bool :=
  c.muxTable0.length == maxSize && c.muxTable1.length == maxSize && c.program.length == maxSize
  && c.curRed != c.curGreen && c.curRed != c.curBlue && c.curGreen != c.curBlue
  && c.valPageMux != c.valPageProg
  && c.progMemBase.toNat + 31 ≤ 0xFF
  && c.sclId != c.sdaId
  && c.initSeq.length == 13
  && (c.currentEntries.map (·.1)).Nodup
  && (c.currentEntries.map (·.2)).count c.curRed == 3
  && (c.currentEntries.map (·.2)).count c.curGreen == 3
  && (c.currentEntries.map (·.2)).count c.curBlue == 3

/-- `TESTCFG` (95_test_vectors.md section 0, decision D27): the spec's own SYNTHETIC values, the chip's in nothing. -/
def testCfg : Config where
  backoff := 1000
  sclId := 1
  sdaId := 2
  sclLabel := "scl"
  sdaLabel := "sda"
  devAddr := 0x64#8
  initSeq := [(0xA0#8, 0xF0#8), (0xA1#8, 0x01#8), (0xA2#8, 0x02#8), (0xA3#8, 0x03#8)]
    ++ [(0xB0#8, 0x11#8), (0xB1#8, 0x11#8), (0xB2#8, 0x11#8)]
    ++ [(0xB3#8, 0x22#8), (0xB4#8, 0x22#8), (0xB5#8, 0x22#8)]
    ++ [(0xB6#8, 0x33#8), (0xB7#8, 0x33#8), (0xB8#8, 0x33#8)]
  curRed := 0x11#8
  curGreen := 0x22#8
  curBlue := 0x33#8
  regEngMode := 0xC0#8
  valEngLoad := 0x01#8
  valEngHalt := 0x02#8
  regEngRun := 0xC1#8
  valEngRun := 0x01#8
  regFreeRun := 0xC2#8
  valFreeRun := 0x01#8
  regPageSel := 0xCF#8
  valPageMux := 0x00#8
  valPageProg := 0x01#8
  progMemBase := 0xD0#8
  muxTable0 := (List.range 32).map (BitVec.ofNat 8)
  muxTable1 := (List.range 32).map fun i => BitVec.ofNat 8 (0x80 + i)
  program := (List.range 32).map fun i => BitVec.ofNat 8 (0xE0 + i)

/-- The platform's parameters, OPEN (R7): no value of it can be proved. Log entry 2. -/
opaque raw : Config

/-- The configuration the block is built with: any admissible one with the default device address (R7, R8). An
inadmissible `raw` is replaced by an admissible record, so that R8 holds; which of the two it is cannot be proved
either, since `raw` has no body. Log entry 2. -/
def platform : Config :=
  if admissible { raw with devAddr := defaultDevAddr } then { raw with devAddr := defaultDevAddr } else testCfg

/-- `EXIT_CODE` (R7, R141): the integer the host sees for a status. OPEN. -/
opaque exitCode : Status → Int

/-! ## Free values: the environment draws (R13, R27, R154) beyond a script's end, by the number of draws made -/

/-- FREE VALUE. The answer of the n-th pin call: true is ok, false is fail. Log entry 3. -/
opaque freeAnswer : Nat → Bool

/-- FREE VALUE. The n-th sample. Log entry 3. -/
opaque freeSample : Nat → Sample

/-- FREE VALUE. The handle the n-th pin call, a granted request, returns. Log entry 4. -/
opaque freeHandle : Nat → Nat

/-- FREE VALUE. Byte `i` of an operand buffer that the host filled with fewer bytes than the command names, after `n`
pin calls. Log entry 5. -/
opaque freeBufferByte : Nat → Nat → Byte

end Config

end Sys2Proof
end

