-- ==== Sys2Proof/Syntax.lean ====
section
/-! DEFINITION. The twelve operations (R66): one constructor per row of spec/opcode_table.json, with the operands of
R65's formats. -/

namespace Sys2Proof

/-- An operation with its operands (R65, R66). -/
inductive Instr where
  /-- `START` (R78), format N -/
  | start
  /-- `STOP` (R79), format N -/
  | stop
  /-- `WRITEBIT v` (R80), format B: one bit -/
  | writebit (v : Bool)
  /-- `READBIT` (R81), format N -/
  | readbit
  /-- `WRITEBYTE b` (R82), format V -/
  | writebyte (b : Byte)
  /-- `SETREG dev sub val` (R97), format R -/
  | setreg (dev sub val : Byte)
  /-- `WRITEBULK dev start [n bytes of BUF0]` (R99), format K -/
  | writebulk (dev start n : Byte)
  /-- `INITIALIZE` (R109), format N -/
  | initialise
  /-- `LOADPROGRAM [m bytes of BUF0] [p bytes of BUF1]` (R111), format L -/
  | loadprogram (m p : Byte)
  /-- `PLAYTAPE index` (R112), format V -/
  | playtape (index : Byte)
  /-- `RUN index` (R125), format V -/
  | run (index : Byte)
  /-- `RUNERR index` (R127), format V -/
  | runerr (index : Byte)
  deriving DecidableEq, Repr

/-- The operation code of R66. -/
def Instr.opcode : Instr → BitVec 4
  | .start => 0x0#4
  | .stop => 0x1#4
  | .writebit _ => 0x2#4
  | .readbit => 0x3#4
  | .writebyte _ => 0x4#4
  | .setreg _ _ _ => 0x5#4
  | .writebulk _ _ _ => 0x6#4
  | .initialise => 0x7#4
  | .loadprogram _ _ => 0x8#4
  | .playtape _ => 0x9#4
  | .run _ => 0xA#4
  | .runerr _ => 0xB#4

end Sys2Proof
end

