-- ==== Sys2Proof/WellFormed.lean ====
section
/-! DEFINITION. What a command as the host presents it must meet (R29, R65): every operand field is legal at every
value, so the checks are on the operand buffers that come with the word. -/

namespace Sys2Proof

/-- R29: a buffer holds at most 255 bytes. -/
def bufferFits (buf : List Byte) : Bool := buf.length ≤ 255

/-- R65, formats K and L: the host supplied the bytes the count fields name, `BUF0[0..n-1]`, or `BUF0[0..m-1]` and
`BUF1[0..p-1]`. -/
def Instr.operandsSupplied (buf0 buf1 : List Byte) : Instr → Bool
  | .start => true
  | .stop => true
  | .writebit _ => true
  | .readbit => true
  | .writebyte _ => true
  | .setreg _ _ _ => true
  | .writebulk _ _ n => n.toNat ≤ buf0.length
  | .initialise => true
  | .loadprogram m p => decide (m.toNat ≤ buf0.length) && decide (p.toNat ≤ buf1.length)
  | .playtape _ => true
  | .run _ => true
  | .runerr _ => true

/-- A well-formed command: an operation with its two operand buffers. -/
def Instr.wellFormed (buf0 buf1 : List Byte) (i : Instr) : Bool :=
  bufferFits buf0 && bufferFits buf1 && i.operandsSupplied buf0 buf1

end Sys2Proof
end

