-- ==== Sys2Proof/Decode.lean ====
section
/-! DEFINITION. The command word (R64 to R68): the decoder, total on every 32-bit word and rejecting by name, and the
encoder. -/

namespace Sys2Proof

/-- Why a command word is illegal (R68). -/
inductive DecodeError where
  /-- `op` in 0xC to 0xF -/
  | reservedOp
  /-- bits 27:24 not 0 -/
  | reservedBits
  /-- an operand field its format requires to be 0 is not (bits 7:1 of the `WRITEBIT` operand among them) -/
  | unusedOperand
  deriving DecidableEq, Repr

/-! ## Fields (R64) -/

/-- Bits 31:28. -/
def opField (w : Word) : BitVec 4 := w.extractLsb' 28 4
/-- Bits 27:24, reserved. -/
def zField (w : Word) : BitVec 4 := w.extractLsb' 24 4
/-- Bits 23:16, the first operand byte. -/
def aField (w : Word) : Byte := w.extractLsb' 16 8
/-- Bits 15:8, the second operand byte. -/
def bField (w : Word) : Byte := w.extractLsb' 8 8
/-- Bits 7:0, the third operand byte. -/
def cField (w : Word) : Byte := w.extractLsb' 0 8

/-! ## Formats (R65) -/

/-- Format N: no operand. -/
def formatN (w : Word) (i : Instr) : Except DecodeError Instr :=
  if aField w = 0#8 ∧ bField w = 0#8 ∧ cField w = 0#8 then .ok i else .error .unusedOperand

/-- Format B: one bit, bits 7:1 of the operand 0. -/
def formatB (w : Word) (f : Bool → Instr) : Except DecodeError Instr :=
  if aField w = 0#8 ∧ bField w = 0#8 then
    if cField w = 0#8 then .ok (f false)
    else if cField w = 1#8 then .ok (f true)
    else .error .unusedOperand
  else .error .unusedOperand

/-- Format V: the operand c. -/
def formatV (w : Word) (f : Byte → Instr) : Except DecodeError Instr :=
  if aField w = 0#8 ∧ bField w = 0#8 then .ok (f (cField w)) else .error .unusedOperand

/-- Formats R and K: the operands a, b, c. -/
def formatR (w : Word) (f : Byte → Byte → Byte → Instr) : Except DecodeError Instr :=
  .ok (f (aField w) (bField w) (cField w))

/-- Format L: the operands b, c. -/
def formatL (w : Word) (f : Byte → Byte → Instr) : Except DecodeError Instr :=
  if aField w = 0#8 then .ok (f (bField w) (cField w)) else .error .unusedOperand

/-- The opcode map of R66. -/
def decodeOp (w : Word) : Nat → Except DecodeError Instr
  | 0x0 => formatN w .start
  | 0x1 => formatN w .stop
  | 0x2 => formatB w .writebit
  | 0x3 => formatN w .readbit
  | 0x4 => formatV w .writebyte
  | 0x5 => formatR w .setreg
  | 0x6 => formatR w .writebulk
  | 0x7 => formatN w .initialise
  | 0x8 => formatL w .loadprogram
  | 0x9 => formatV w .playtape
  | 0xA => formatV w .run
  | 0xB => formatV w .runerr
  | _ => .error .reservedOp

/-- The decoder: R66's map under R68's reserved field. -/
def decode (w : Word) : Except DecodeError Instr :=
  if zField w = 0#4 then decodeOp w (opField w).toNat
  else if 0xC ≤ (opField w).toNat then .error .reservedOp
  else .error .reservedBits

/-- The instruction the decoder reads from a row of spec/opcode_table.json: one 32-bit word, bit 0 its least
significant; the bits from `nbits` up are 0. -/
def decodeTableWord (nbits w : Nat) : Option Instr :=
  if nbits ≤ 32 then
    match decode (BitVec.ofNat 32 (w % 2 ^ nbits)) with
    | .ok i => some i
    | .error _ => none
  else none

/-! ## The encoder -/

/-- A word from its fields, the reserved field 0 (R64). -/
def packWord (op : BitVec 4) (a b c : Byte) : Word := op ++ 0#4 ++ a ++ b ++ c

/-- The bit operand of format B as the byte c (R65). -/
def bitOperand (v : Bool) : Byte := if v then 1#8 else 0#8

/-- The command word of an operation (R65, R66). -/
def encode : Instr → Word
  | .start => packWord 0x0#4 0#8 0#8 0#8
  | .stop => packWord 0x1#4 0#8 0#8 0#8
  | .writebit v => packWord 0x2#4 0#8 0#8 (bitOperand v)
  | .readbit => packWord 0x3#4 0#8 0#8 0#8
  | .writebyte b => packWord 0x4#4 0#8 0#8 b
  | .setreg dev sub val => packWord 0x5#4 dev sub val
  | .writebulk dev start n => packWord 0x6#4 dev start n
  | .initialise => packWord 0x7#4 0#8 0#8 0#8
  | .loadprogram m p => packWord 0x8#4 0#8 m p
  | .playtape index => packWord 0x9#4 0#8 0#8 index
  | .run index => packWord 0xA#4 0#8 0#8 index
  | .runerr index => packWord 0xB#4 0#8 0#8 index

/-- R70 (a): the host command `lp5569`. -/
def hostRunWord : Word := encode (.run 0#8)

/-- R70 (b): the host command `lp5569-error`. -/
def hostErrorWord : Word := encode (.runerr 1#8)

end Sys2Proof
end

