-- ==== Sys2Proof/Machine/State.lean ====
section
/-! DEFINITION. The state of the block as plain data (R13 to R33), the reasons a step can stop, and the state after
reset (R31). -/

namespace Sys2Proof.Machine

/-! ## Pins (R26) -/

/-- The direction of a pin (R26). -/
inductive Direction where
  | unknown | out | inp
  deriving DecidableEq, Repr, Inhabited

/-- The driven level of a pin (R26), meaningful when its direction is `out`. -/
inductive Level where
  | unknown | low | high
  deriving DecidableEq, Repr, Inhabited

/-- The state of one pin, kept by the GPIO capability and changed by the block's calls only (R26). -/
structure PinState where
  claimed : Bool
  dir : Direction
  level : Level
  deriving DecidableEq, Repr

/-! ## The event trace (R12) -/

/-- The messages of `Log` (R157): the spec's texts are placeholders (91_not_in_source.md N15), so each is a name. -/
inductive LogMessage where
  /-- "failed at byte i" (R99) -/
  | failedAtByte (i : Byte)
  /-- "rollback release failed" (R122) -/
  | rollbackReleaseFailed
  /-- "cleanup failed: c" (R126) -/
  | cleanupFailed (c : Error)
  deriving DecidableEq, Repr

/-- The event forms of R12; an answer `ok` is `true`. -/
inductive Event where
  | req (pin : Pin) (ok : Bool)
  | out (pin : Pin) (b : Bool) (ok : Bool)
  | inp (pin : Pin) (ok : Bool)
  | rd (pin : Pin) (s : Sample)
  | rel (pin : Pin) (ok : Bool)
  | dly (n : Nat)
  | log (m : LogMessage)
  deriving DecidableEq, Repr

/-! ## The control point (R18) -/

/-- The operations that have a frame below the top one (R18). -/
inductive OpName where
  | start | stop | writeBit | readBit | writeByte | setReg | writeBulk | initialise | loadProgram | playTape
  deriving DecidableEq, Repr

/-- A frame: an operation and the step number of its rule's pseudocode (R18). -/
structure Frame where
  op : OpName
  step : Nat
  deriving DecidableEq, Repr

/-- The named values of the top-level frame (R18). -/
inductive Top where
  | idle
  | acquire
  | bringUp (k : Nat)
  | backoff (k : Nat)
  | play
  | cleanup
  | done (status : Status)
  | terminalWait (status : Status)
  deriving DecidableEq, Repr

/-- `pc`: the top-level frame and the frames of the operations it is inside, the innermost first (R18). -/
structure ControlPoint where
  top : Top
  frames : List Frame
  deriving DecidableEq, Repr

/-! ## Registers -/

/-- The Bus Session (R14) and its pin handles (R15; `none` is the spec's own "no handle"). -/
structure Session where
  /-- `SESSION_VALID` -/
  valid : Bool
  /-- `H_SCL` -/
  hScl : Option Nat
  /-- `H_SDA` -/
  hSda : Option Nat
  /-- `SCL_PIN` -/
  sclPin : Nat
  /-- `SDA_PIN` -/
  sdaPin : Nat
  /-- `SESSION_T` -/
  halfPeriod : Nat
  deriving DecidableEq, Repr

/-- The working registers (R16), at R16's widths. -/
structure Work where
  /-- `SHIFT` -/
  shift : Byte
  /-- `BITCNT` -/
  bitcnt : BitVec 4
  /-- `R_DEV` -/
  rDev : Byte
  /-- `R_SUB` -/
  rSub : Byte
  /-- `R_VAL` -/
  rVal : Byte
  /-- `BULK_I` -/
  bulkI : Byte
  /-- `INIT_I` -/
  initI : BitVec 4
  /-- `ATTEMPT` -/
  attempt : BitVec 4
  /-- `TAPE` -/
  tape : Byte
  deriving DecidableEq, Repr

/-- The flags (R20). -/
structure Flags where
  /-- `NACK`: false is 0, acknowledged -/
  nack : Bool
  /-- `SAMPLE` -/
  sample : Sample
  deriving DecidableEq, Repr

/-- The status registers (R21); `none` is the spec's own value. -/
structure StatusRegs where
  /-- `PRIMARY_ERR` -/
  primaryErr : Option Error
  /-- `CLEANUP_ERR` -/
  cleanupErr : Option Error
  /-- `EXIT_STATUS` -/
  exitStatus : Status
  deriving DecidableEq, Repr

/-! ## The responder, as far as the block's own writes tell (R23 to R25, R30, R36, R51) -/

/-- A ghost memory: the values that performed writes left, by address, addresses strictly rising. An unlisted address
reads as no value: nothing is known of it. -/
abbrev Memory := List Host.Cell

/-- What the responder acknowledged (R36, R51): its register space, and the two pages behind the window. -/
structure Remote where
  /-- the remote register space, by (device address, sub-address) (R36 (a)) -/
  regs : Memory
  /-- the LED-mux page, by window offset (R36 (b)) -/
  muxPage : Memory
  /-- the program page, by window offset (R36 (b)) -/
  progPage : Memory
  deriving DecidableEq, Repr

/-- Ghost `ENGINE_CMD` (R24). -/
inductive EngineCmd where
  | none | load | halt | run
  deriving DecidableEq, Repr

/-- Ghost `PAGE_CMD` (R25). -/
inductive PageCmd where
  | none | mux | program
  deriving DecidableEq, Repr

/-- The ghosts R24, R25 and R30 (b) allow; no rule reads them. -/
structure Ghost where
  engineCmd : EngineCmd
  pageCmd : PageCmd
  busBusy : Bool
  deriving DecidableEq, Repr

/-! ## The environment as inputs (R13, R87, R159) -/

/-- The answers the environment will give to one kind of question: first those of `head`, then, for ever, the one of
`tail` where it is given, and free values where it is not. `drawn` counts the answers given so far. -/
structure Script (α : Type) where
  head : List α
  tail : Option α
  drawn : Nat
  deriving DecidableEq, Repr

/-- The environment draws to come (R13): the answers of the pin calls (true is ok) and the samples. -/
structure Env where
  answers : Script Bool
  samples : Script Sample
  deriving DecidableEq, Repr

/-- What the host can do (R159): present a command word with its operand buffers (R29, R64), or kill what runs. -/
inductive HostInput where
  | command (word : Word) (buf0 buf1 : List Byte)
  | kill
  deriving DecidableEq, Repr

/-! ## What an operation returns -/

/-- `writeByte`'s result (R82). -/
inductive Ack where
  | ack | nack
  deriving DecidableEq, Repr

/-- What the last operation returned to its issuer (R17, R20, R136). -/
inductive Result where
  /-- nothing returned yet -/
  | nothing
  /-- `START`, `STOP`, `WRITEBIT` returned -/
  | returned
  /-- `READBIT`'s bit -/
  | bit (b : Bool)
  /-- `WRITEBYTE`'s ack or nack -/
  | byteAck (a : Ack)
  /-- success, an error, or `RUN`'s or `RUNERR`'s status -/
  | status (s : Status)
  deriving DecidableEq, Repr

/-! ## The state -/

/-- The state of the block (R13), with the ghosts, the environment and the host's inputs as plain data. -/
@[ext]
structure State where
  /-- the control registers, read-only (R22) -/
  cfg : Config
  session : Session
  work : Work
  flags : Flags
  status : StatusRegs
  /-- the clock pin (R26) -/
  scl : PinState
  /-- the data pin (R26) -/
  sda : PinState
  ghost : Ghost
  remote : Remote
  env : Env
  pc : ControlPoint
  /-- the event trace in program order (R12) -/
  trace : List Event
  /-- `BUF0` (R29) -/
  buf0 : List Byte
  /-- `BUF1` (R29) -/
  buf1 : List Byte
  /-- what the last operation returned -/
  result : Result
  /-- what the host will do, in order (R159) -/
  inputs : List HostInput
  deriving DecidableEq, Repr

/-! ## Why a step stops -/

/-- The reasons the machine stops with a fault. -/
inductive Fault where
  /-- `TerminalWait` has no successor (R128, 93_implementation_defined.md U11): raised by `step`, and by every
  operation, when `pc` is there. Safe: the spec's own stuck state. -/
  | terminalWait
  /-- A Bus Engine operation would use a handle no request has returned (R33): raised by the operations that need a
  session, in states with `SESSION_VALID = 1` and a handle missing, which no run reaches. Safe. -/
  | unwrittenHandle
  deriving DecidableEq, Repr

/-- The reasons the machine gives a command no meaning. -/
inductive Refusal where
  /-- The instruction has no meaning in this model yet: raised by `exec`'s arms only. Safe. -/
  | notModelled (mnemonic : String)
  /-- The command word is illegal (R68): raised by `step`. Safe. -/
  | illegalWord (why : DecodeError)
  /-- An operation that needs a Bus Session, with none (R67): raised by operations 0x0 to 0x9. Safe. -/
  | noSession
  /-- `RUN` or `RUNERR` while a session exists (R67): raised by these two. Safe. -/
  | sessionActive
  /-- An operation issued when `pc` is not `Idle` (R125, R156): raised by every operation. Safe. -/
  | notIdle
  deriving DecidableEq, Repr

/-! ## Reset (R31) -/

/-- A script that says nothing: every answer is a free value. -/
def Script.free (α : Type) : Script α := { head := [], tail := none, drawn := 0 }

/-- R31: no session; the identifiers and the delay are unspecified (log entry 1). -/
def Session.reset : Session :=
  { valid := false, hScl := none, hSda := none, sclPin := 0, sdaPin := 0, halfPeriod := 0 }

/-- R31: `ATTEMPT` is 0; the other working registers are unspecified (log entry 1). -/
def Work.reset : Work :=
  { shift := 0#8, bitcnt := 0#4, rDev := 0#8, rSub := 0#8, rVal := 0#8, bulkI := 0#8, initI := 0#4, attempt := 0#4,
    tape := 0#8 }

/-- R31: both flags are unspecified (log entry 1). -/
def Flags.reset : Flags := { nack := false, sample := .zero }

/-- R31: no error; `EXIT_STATUS` is unspecified (log entry 1). -/
def StatusRegs.reset : StatusRegs := { primaryErr := none, cleanupErr := none, exitStatus := .success }

/-- R31: the pin unclaimed, its direction and level unknown. -/
def PinState.reset : PinState := { claimed := false, dir := .unknown, level := .unknown }

/-- R31: the ghosts. -/
def Ghost.reset : Ghost := { engineCmd := .none, pageCmd := .none, busBusy := false }

/-- R31: nothing is known of the responder. -/
def Remote.reset : Remote := { regs := [], muxPage := [], progPage := [] }

/-- The machine right after reset (R31, R162), with no command presented. -/
def State.reset : State :=
  { cfg := Config.platform
    session := Session.reset
    work := Work.reset
    flags := Flags.reset
    status := StatusRegs.reset
    scl := PinState.reset
    sda := PinState.reset
    ghost := Ghost.reset
    remote := Remote.reset
    env := { answers := Script.free Bool, samples := Script.free Sample }
    pc := { top := .idle, frames := [] }
    trace := []
    buf0 := []
    buf1 := []
    result := .nothing
    inputs := [] }

/-! ## Field updates -/

/-- Replace the session registers. -/
def State.setSession (s : State) (v : Session) : State := { s with session := v }
/-- Replace the working registers. -/
def State.setWork (s : State) (v : Work) : State := { s with work := v }
/-- Replace the flags. -/
def State.setFlags (s : State) (v : Flags) : State := { s with flags := v }
/-- Replace the status registers. -/
def State.setStatus (s : State) (v : StatusRegs) : State := { s with status := v }
/-- Replace the clock pin's state. -/
def State.setScl (s : State) (v : PinState) : State := { s with scl := v }
/-- Replace the data pin's state. -/
def State.setSda (s : State) (v : PinState) : State := { s with sda := v }
/-- Replace the ghosts. -/
def State.setGhost (s : State) (v : Ghost) : State := { s with ghost := v }
/-- Replace what is known of the responder. -/
def State.setRemote (s : State) (v : Remote) : State := { s with remote := v }
/-- Replace the environment. -/
def State.setEnv (s : State) (v : Env) : State := { s with env := v }
/-- Replace the control point. -/
def State.setPc (s : State) (v : ControlPoint) : State := { s with pc := v }
/-- Replace the trace. -/
def State.setTrace (s : State) (v : List Event) : State := { s with trace := v }
/-- Replace the result. -/
def State.setResult (s : State) (v : Result) : State := { s with result := v }

end Sys2Proof.Machine
end

