-- ==== Sys2Proof/Machine/Ops.lean ====
section
/-! DEFINITION. The named operations over the state: the ghost memories, the environment draws, the five calls of the
GPIO capability (R154), delay and log, the control point, and raising and handing over an error (R145). -/

namespace Sys2Proof.Machine

/-! ## Memory -/

/-- The canonical form: addresses strictly rising (no entry equals what an unlisted address reads as, which is no
value). -/
abbrev Memory.wf (m : Memory) : Prop := (m.map (·.1)).Pairwise (· < ·)

/-- What an address reads as: the recorded value, and no value where nothing is recorded. -/
def Memory.read (m : Memory) (a : Nat) : Option Byte :=
  match m with
  | [] => none
  | c :: m => if c.1 = a then some c.2 else Memory.read m a

/-- Record a value. -/
def Memory.write (m : Memory) (a : Nat) (v : Byte) : Memory :=
  match m with
  | [] => [(a, v)]
  | c :: m =>
    if a < c.1 then (a, v) :: c :: m
    else if a = c.1 then (a, v) :: m
    else c :: Memory.write m a v

/-- Forget what an address holds. -/
def Memory.forget (m : Memory) (a : Nat) : Memory := m.filter fun c => c.1 != a

/-! ## Remote register space (R36) -/

/-- The key of a remote register: the pair (device address, sub-address) (R96). -/
def remoteAddr (dev sub : Byte) : Nat := dev.toNat * 256 + sub.toNat

/-- R36 (b), R48: the window offset of a sub-address of the one device, where it lies in the window. -/
def windowOffset (c : Config) (dev sub : Byte) : Option Nat :=
  if dev = c.devAddr ∧ c.progMemBase.toNat ≤ sub.toNat ∧ sub.toNat < c.progMemBase.toNat + 32 then
    some (sub.toNat - c.progMemBase.toNat)
  else none

/-- R48: the page that the last performed write of the page-select register selects, where that is known. -/
def selectedPage (c : Config) (r : Remote) : PageCmd :=
  match r.regs.read (remoteAddr c.devAddr c.regPageSel) with
  | some v => if v = c.valPageMux then .mux else if v = c.valPageProg then .program else .none
  | none => .none

/-- Record a write in the page behind the window; where the page is not known, the offset is not known in either. -/
def writePage (c : Config) (r : Remote) (off : Nat) (v : Byte) : Remote :=
  match selectedPage c r with
  | .mux => { r with muxPage := r.muxPage.write off v }
  | .program => { r with progPage := r.progPage.write off v }
  | .none => { r with muxPage := r.muxPage.forget off, progPage := r.progPage.forget off }

/-- Forget an offset in the page behind the window. -/
def forgetPage (c : Config) (r : Remote) (off : Nat) : Remote :=
  match selectedPage c r with
  | .mux => { r with muxPage := r.muxPage.forget off }
  | .program => { r with progPage := r.progPage.forget off }
  | .none => { r with muxPage := r.muxPage.forget off, progPage := r.progPage.forget off }

/-- R51: a performed write of `val` to (dev, sub). The register of a window sub-address keeps the last value written through
the window to whichever page, also after the page select is rewritten and the window shows the other page; and where the
page select itself lies in the window (R8 does not exclude it), its write is recorded at its offset of the page selected
before the write, and then selects. R48 says neither: DESIGN CHOICE, log entry 12. -/
def Remote.record (c : Config) (r : Remote) (dev sub val : Byte) : Remote :=
  let p := match windowOffset c dev sub with
    | some off => writePage c r off val
    | none => r
  { p with regs := p.regs.write (remoteAddr dev sub) val }

/-- R46, U1: after a failed write nothing is known of (dev, sub). -/
def Remote.forget (c : Config) (r : Remote) (dev sub : Byte) : Remote :=
  let p := match windowOffset c dev sub with
    | some off => forgetPage c r off
    | none => r
  { p with regs := p.regs.forget (remoteAddr dev sub) }

/-- U1: nothing is known of a list of registers of one device, forgotten in the order of the list. A window offset is
forgotten in the page selected when its turn comes, and in both pages where none is known then: where the failed write was
the page select's own, or the list holds the page select before the offset. Elsewhere what was acknowledged in the other
page stays, also where the list rewrote the page select after window bytes. U1 lets a model keep or drop it: DESIGN CHOICE,
log entry 12. -/
def Remote.forgetAll (c : Config) (r : Remote) (dev : Byte) (subs : List Byte) : Remote :=
  subs.foldl (fun r sub => Remote.forget c r dev sub) r

/-! ## Environment draws (R13, R27, R154) -/

/-- The k-th answer to come, counted from 0. -/
def Script.nth {α : Type} (free : Nat → α) (sc : Script α) (k : Nat) : α :=
  match sc.head[k]? with
  | some a => a
  | none =>
    match sc.tail with
    | some a => a
    | none => free (sc.drawn + k)

/-- One answer given. -/
def Script.advance {α : Type} (sc : Script α) : Script α :=
  { sc with head := sc.head.tail, drawn := sc.drawn + 1 }

/-- The k-th pin-call answer to come (true is ok). -/
def State.answer (s : State) (k : Nat) : Bool := s.env.answers.nth Config.freeAnswer k

/-- The k-th sample to come. -/
def State.sample (s : State) (k : Nat) : Sample := s.env.samples.nth Config.freeSample k

/-- A pin-call answer was given. -/
def State.drawAnswer (s : State) : State := s.setEnv { s.env with answers := s.env.answers.advance }

/-- A sample was given. -/
def State.drawSample (s : State) : State := s.setEnv { s.env with samples := s.env.samples.advance }

/-! ## Pins (R26, R154) -/

/-- The state of a pin. -/
def State.pin (s : State) : Pin → PinState
  | .scl => s.scl
  | .sda => s.sda

/-- Replace the state of a pin. -/
def State.setPin (s : State) (p : Pin) (v : PinState) : State :=
  match p with
  | .scl => s.setScl v
  | .sda => s.setSda v

/-- The level of a driven bit. -/
def levelOf (b : Bool) : Level := if b then .high else .low

/-- R26: after a call that answered fail, direction and level are unknown. -/
def PinState.failed (p : PinState) : PinState := { p with dir := .unknown, level := .unknown }

/-- R26: after `PinRequest`. -/
def PinState.afterRequest (p : PinState) (ok : Bool) : PinState :=
  if ok then { claimed := true, dir := .unknown, level := .unknown } else p.failed

/-- R26: after `PinSetOutput`. -/
def PinState.afterSetOutput (p : PinState) (b ok : Bool) : PinState :=
  if ok then { p with dir := .out, level := levelOf b } else p.failed

/-- R26: after `PinSetInput`. -/
def PinState.afterSetInput (p : PinState) (ok : Bool) : PinState :=
  if ok then { p with dir := .inp } else p.failed

/-- R26: after `PinRelease`. -/
def PinState.afterRelease (p : PinState) (ok : Bool) : PinState :=
  if ok then { claimed := false, dir := .unknown, level := .unknown } else p.failed

/-- Append one event to the trace (R12). -/
def State.emit (s : State) (e : Event) : State := s.setTrace (s.trace ++ [e])

/-! ## Operations that may raise (R145) -/

/-- A piece of an operation: it ends normally with a value or raises an error, and leaves a state either way. -/
abbrev Op := ExceptT Error (StateM State)

/-- Build a piece from its effect. -/
def Op.mk {α : Type} (f : State → Except Error α × State) : Op α := f

/-- Run a piece at a state. -/
def Op.apply {α : Type} (x : Op α) (s : State) : Except Error α × State := x s

/-- `raise e` (R11, R145): it saves nothing and switches no mode; the frame it leaves is popped by `call`. -/
def raise {α : Type} (e : Error) : Op α := Op.mk fun s => (.error e, s)

/-- Run a piece and hand its error, if it raises one, to the caller's error arm (R145). -/
def attempt {α : Type} (x : Op α) : Op (Except Error α) := Op.mk fun s => ((.ok (x.apply s).1), (x.apply s).2)

/-- Change the state. -/
def update (f : State → State) : Op Unit := Op.mk fun s => (.ok (), f s)

/-- Read the state. -/
def readState {α : Type} (f : State → α) : Op α := Op.mk fun s => (.ok (f s), s)

/-! ## Control point (R18, R19, R145) -/

/-- A call pushes a frame (R19). -/
def ControlPoint.push (p : ControlPoint) (op : OpName) : ControlPoint :=
  { p with frames := { op := op, step := 1 } :: p.frames }

/-- Completion and `raise` pop the frame (R19, R145). -/
def ControlPoint.pop (p : ControlPoint) : ControlPoint := { p with frames := p.frames.tail }

/-- The innermost frame goes to a step (R19). -/
def ControlPoint.atStep (p : ControlPoint) (n : Nat) : ControlPoint :=
  { p with
    frames := match p.frames with
      | [] => []
      | f :: fs => { f with step := n } :: fs }

/-- Push a frame. -/
def State.pushFrame (s : State) (op : OpName) : State := s.setPc (s.pc.push op)

/-- Pop the innermost frame. -/
def State.popFrame (s : State) : State := s.setPc s.pc.pop

/-- Go to a step in the innermost frame. -/
def State.goToStep (s : State) (n : Nat) : State := s.setPc (s.pc.atStep n)

/-- The top-level frame takes a named value (R18). -/
def State.setTop (s : State) (t : Top) : State := s.setPc { s.pc with top := t }

/-- Call an operation (R19): push its frame, run it, pop the frame however it ended, and hand its value or its error
to the caller (R145). -/
def call {α : Type} (op : OpName) (x : Op α) : Op α := Op.mk fun s =>
  ((x.apply (s.pushFrame op)).1, (x.apply (s.pushFrame op)).2.popFrame)

/-- Step n of the running operation's pseudocode. -/
def line (n : Nat) : Op Unit := update fun s => s.goToStep n

/-- `pc <- t` for the top-level frame. -/
def goTop (t : Top) : Op Unit := update fun s => s.setTop t

/-! ## The five calls of the GPIO capability (R154), delay and log -/

/-- `PinRequest` fails if the pin is already claimed, and otherwise as drawn (R154). -/
def State.requestAnswer (s : State) (p : Pin) : Bool := s.answer 0 && !(s.pin p).claimed

/-- The state after `PinRequest`. -/
def State.pinRequest (s : State) (p : Pin) : State :=
  (s.drawAnswer.setPin p ((s.pin p).afterRequest (s.requestAnswer p))).emit (.req p (s.requestAnswer p))

/-- `PinRequest(id, label)` (R154): the handle, or none on fail. Identifier and label pick the pin in the capability
and influence nothing else (decision D32). -/
def pinRequest (p : Pin) (_id : Nat) (_label : String) : Op (Option Nat) := Op.mk fun s =>
  (.ok (if s.requestAnswer p then some (Config.freeHandle s.env.answers.drawn) else none), s.pinRequest p)

/-- The state after `PinSetOutput`. -/
def State.pinSetOutput (s : State) (p : Pin) (b : Bool) : State :=
  (s.drawAnswer.setPin p ((s.pin p).afterSetOutput b (s.answer 0))).emit (.out p b (s.answer 0))

/-- `PinSetOutput(h, b)` on the pin the handle stands for (R154): ok or fail. -/
def pinSetOutput (p : Pin) (b : Bool) : Op Bool := Op.mk fun s => (.ok (s.answer 0), s.pinSetOutput p b)

/-- The state after `PinSetInput`. -/
def State.pinSetInput (s : State) (p : Pin) : State :=
  (s.drawAnswer.setPin p ((s.pin p).afterSetInput (s.answer 0))).emit (.inp p (s.answer 0))

/-- `PinSetInput(h)` (R154): ok or fail. -/
def pinSetInput (p : Pin) : Op Bool := Op.mk fun s => (.ok (s.answer 0), s.pinSetInput p)

/-- The state after `PinRead`. -/
def State.pinRead (s : State) (p : Pin) : State := s.drawSample.emit (.rd p (s.sample 0))

/-- `PinRead(h)` (R154): 0, 1 or invalid, whatever was driven (R27). -/
def pinRead (p : Pin) : Op Sample := Op.mk fun s => (.ok (s.sample 0), s.pinRead p)

/-- The state after `PinRelease`. -/
def State.pinRelease (s : State) (p : Pin) : State :=
  (s.drawAnswer.setPin p ((s.pin p).afterRelease (s.answer 0))).emit (.rel p (s.answer 0))

/-- `PinRelease(h)` (R154): ok or fail. -/
def pinRelease (p : Pin) : Op Bool := Op.mk fun s => (.ok (s.answer 0), s.pinRelease p)

/-- `Delay(n)` (R11, R151): an annotation. -/
def delay (n : Nat) : Op Unit := update fun s => s.emit (.dly n)

/-- `Delay(k*T)`, T the session's half-period (R14, R76). -/
def delayHalves (k : Nat) : Op Unit := update fun s => s.emit (.dly (k * s.session.halfPeriod))

/-- `Log(text)` (R157): an annotation. -/
def logMessage (m : LogMessage) : Op Unit := update fun s => s.emit (.log m)

/-! ## The session a successful `Acquire` leaves (R14, R15, R122) -/

/-- Steps 10 and 11 of `Acquire`: the session registers are written and the session is valid. -/
def Session.open (v : Session) (c : Config) : Session :=
  { v with sclPin := c.sclId, sdaPin := c.sdaId, halfPeriod := Config.halfPeriod, valid := true }

/-- Steps 1 to 3 of `Release`: the handles are forgotten and the session ends. -/
def Session.closed (v : Session) : Session := { v with hSda := none, hScl := none, valid := false }

/-- The session that the direct issue of operations 0x0 to 0x9 presupposes, set up by a successful `Acquire`
(95_test_vectors.md, decision D29): pins claimed, direction and level unknown. Log entry 7. -/
def State.openSession (s : State) : State :=
  ((s.setSession ({ s.session with
      hScl := some (Config.freeHandle s.env.answers.drawn)
      hSda := some (Config.freeHandle (s.env.answers.drawn + 1)) }.open s.cfg)).setScl
    (s.scl.afterRequest true)).setSda (s.sda.afterRequest true)

/-- The state with no session that `RUN` and `RUNERR` presuppose (R67): handles forgotten, pins released. -/
def State.closeSession (s : State) : State :=
  ((s.setSession s.session.closed).setScl (s.scl.afterRelease true)).setSda (s.sda.afterRelease true)

/-! ## Reset by the host (R31, R161) -/

/-- Reset at the start of a host command and on a kill (R161): the block's own state as R31 says; the parameters, the
pins, the responder, the environment and the host's further inputs are not touched. -/
def State.hostReset (s : State) : State :=
  { State.reset with
    cfg := s.cfg
    scl := s.scl
    sda := s.sda
    remote := s.remote
    env := s.env
    inputs := s.inputs }

/-! ## Issuing an operation (R67) -/

/-- Both handles are present (R15). -/
def Session.handlesHeld (v : Session) : Bool := v.hScl.isSome && v.hSda.isSome

/-- An operation that takes the Bus Session as an implicit operand (R67). -/
def withSession (s : State) (k : State → State) : Host.Outcome State Fault Refusal :=
  match s.pc.top with
  | .idle =>
    if s.session.valid then
      if s.session.handlesHeld then .next (k s) else .fault .unwrittenHandle
    else .refused .noSession
  | .terminalWait _ => .fault .terminalWait
  | .acquire => .refused .notIdle
  | .bringUp _ => .refused .notIdle
  | .backoff _ => .refused .notIdle
  | .play => .refused .notIdle
  | .cleanup => .refused .notIdle
  | .done _ => .refused .notIdle

/-- `RUN` and `RUNERR`, which create and destroy the session themselves (R67). -/
def withoutSession (s : State) (k : State → State) : Host.Outcome State Fault Refusal :=
  match s.pc.top with
  | .idle => if s.session.valid then .refused .sessionActive else .next (k s)
  | .terminalWait _ => .fault .terminalWait
  | .acquire => .refused .notIdle
  | .bringUp _ => .refused .notIdle
  | .backoff _ => .refused .notIdle
  | .play => .refused .notIdle
  | .cleanup => .refused .notIdle
  | .done _ => .refused .notIdle

/-- What the issuer of an operation receives: its value, or its error (R136). -/
def resultOf {α : Type} (ret : α → Result) : Except Error α → Result
  | .ok a => ret a
  | .error e => .status (.error e)

/-- The state an operation leaves, with what it returned. -/
def finish {α : Type} (ret : α → Result) (x : Op α) (s : State) : State :=
  (x.apply s).2.setResult (resultOf ret (x.apply s).1)

/-- `success` as the value of an operation that returns nothing else. -/
def returnsSuccess : Unit → Result := fun _ => .status .success

/-! ## What the host receives (R129, R141, R159) -/

/-- The status delivered to the host: `EXIT_STATUS` once the command is done, and nothing in the terminal wait. -/
def State.deliveredStatus (s : State) : Option Status :=
  match s.pc.top with
  | .done st => some st
  | .idle => none
  | .acquire => none
  | .bringUp _ => none
  | .backoff _ => none
  | .play => none
  | .cleanup => none
  | .terminalWait _ => none

/-- The integer the host sees (R141): `EXIT_CODE` of the delivered status. -/
def State.exitCode (s : State) : Option Int := s.deliveredStatus.map Config.exitCode

end Sys2Proof.Machine
end

