-- ==== Sys2Proof/Machine/Operands.lean ====
section
/-! DEFINITION. Operand forms: the bytes of an operand buffer (R29, R65), the bit a bit cell carries (R38), the
effective sub-address (R43), and the two checks on operands (R139). -/

namespace Sys2Proof.Machine

/-- Byte i of an operand buffer (R29); a byte the host did not supply is a free value (log entry 5). `which` is 0 for
`BUF0` and 1 for `BUF1`. -/
def bufferByte (buf : List Byte) (which drawn i : Nat) : Byte :=
  match buf[i]? with
  | some b => b
  | none => Config.freeBufferByte drawn (256 * which + i)

/-- R65, format K and L: the first n bytes of a buffer. -/
def bufferBytes (buf : List Byte) (which drawn : Nat) (n : Byte) : List Byte :=
  (List.range n.toNat).map (bufferByte buf which drawn)

/-- `BUF0[0..n-1]`. -/
def State.operand0 (s : State) (n : Byte) : List Byte := bufferBytes s.buf0 0 s.env.answers.drawn n

/-- `BUF1[0..n-1]`. -/
def State.operand1 (s : State) (n : Byte) : List Byte := bufferBytes s.buf1 1 s.env.answers.drawn n

/-- The k-th bit of b sent, k counted from 0: `b[7-k]` (R38, R82). -/
def msbFirst (b : Byte) (k : Nat) : Bool := b.getLsbD (7 - k)

/-- `(start + i) mod 256` (R43). -/
def effectiveSub (start i : Byte) : Byte := start + i

/-- The sub-addresses of a bulk write of n bytes (R40). -/
def bulkSubs (start : Byte) (n : Nat) : List Byte := (List.range n).map fun i => start + BitVec.ofNat 8 i

/-- `index >= NUM_TAPES` (R112, R139 (a)). -/
def tapeOutOfRange (index : Byte) : Bool := Config.numTapes ≤ index.toNat

/-- `len > MAX_SIZE` (R111, R139 (b)). -/
def oversized (buf : List Byte) : Bool := Config.maxSize < buf.length

end Sys2Proof.Machine
end

