-- ==== Sys2Proof/Machine/Flags.lean ====
section
/-! DEFINITION. The flags (R20): `SAMPLE`, written by `READBIT`, and `NACK`, written by `WRITEBYTE`, with the inverted
logic of the acknowledgement (R62, R82); and the ghosts (R24, R25, R30). -/

namespace Sys2Proof.Machine

/-- `x[SAMPLE] <- v` (R81). -/
def setSample (v : Sample) : Op Unit := update fun s => s.setFlags { s.flags with sample := v }

/-- `x[NACK] <- v` (R82). -/
def setNack (v : Bool) : Op Unit := update fun s => s.setFlags { s.flags with nack := v }

/-- `return (ack if s = 0 else nack)` (R82). -/
def ackOf (bit : Bool) : Ack := if bit then .nack else .ack

/-- The value `READBIT` returns for a sample: a bit, or `ProtocolError(sample)` (R81, R138 (d)). -/
def bitOfSample : Sample → Op Bool
  | .zero => pure false
  | .one => pure true
  | .invalid => raise (.protocol .sample)

/-- Ghost `BUS_BUSY` (R30 (b)). -/
def setBusBusy (v : Bool) : Op Unit := update fun s => s.setGhost { s.ghost with busBusy := v }

/-- Ghost `ENGINE_CMD` (R24). -/
def setEngineCmd (v : EngineCmd) : Op Unit := update fun s => s.setGhost { s.ghost with engineCmd := v }

/-- Ghost `PAGE_CMD` (R25); when it is set is the model's choice (log entry 21). -/
def setPageCmd (v : PageCmd) : Op Unit := update fun s => s.setGhost { s.ghost with pageCmd := v }

end Sys2Proof.Machine
end

