-- ==== Sys2Proof/Machine/BusEngine.lean ====
section
/-! DEFINITION. The Bus Engine (R76 to R87): the pin micro-operations and `START`, `STOP`, `WRITEBIT`, `READBIT`,
`WRITEBYTE`. The numbers are the step numbers of each rule's pseudocode. -/

namespace Sys2Proof.Machine

/-! ## Pin micro-operations (R77) -/

/-- `DriveSCL(b)` and `DriveSDA(b)` (R77). -/
def drive (p : Pin) (b : Bool) : Op Unit := do
  let ok ← pinSetOutput p b
  if ok then pure () else raise (.resource .setOutput p)

/-- `SampleSDA()` (R77). -/
def sampleSda : Op Sample := do
  let ok ← pinSetInput .sda
  if ok then pinRead .sda else raise (.resource .setInput .sda)

/-! ## The operations -/

/-- `START` (R78). -/
def start : Op Unit := call .start do
  line 1
  drive .sda true
  line 2
  delayHalves 1
  line 3
  drive .scl true
  line 4
  delayHalves 1
  line 5
  drive .sda false
  line 6
  delayHalves 1
  setBusBusy true

/-- `STOP` (R79). -/
def stop : Op Unit := call .stop do
  line 1
  drive .scl false
  line 2
  delayHalves 1
  line 3
  drive .sda false
  line 4
  delayHalves 1
  line 5
  drive .scl true
  line 6
  delayHalves 1
  line 7
  drive .sda true
  line 8
  delayHalves 1
  setBusBusy false

/-- `WRITEBIT(v)` (R80). -/
def writeBit (v : Bool) : Op Unit := call .writeBit do
  line 1
  drive .scl false
  line 2
  drive .sda v
  line 3
  drive .scl true
  line 4
  delayHalves 2

/-- `READBIT` (R81). -/
def readBit : Op Bool := call .readBit do
  line 1
  drive .scl true
  line 2
  delayHalves 1
  line 3
  let v ← sampleSda
  setSample v
  line 4
  delayHalves 1
  line 5
  drive .scl false
  line 6
  delayHalves 2
  line 7
  let v ← readState (·.flags.sample)
  bitOfSample v

/-- Steps 2 to 4 of `WRITEBYTE`, with n bits to send: `x[BITCNT] < 8` as long as n is not 0. -/
def sendBits : Nat → Op Unit
  | 0 => line 2
  | n + 1 => do
    line 2
    let v ← readState fun s => msbFirst s.work.shift s.work.bitcnt.toNat
    line 3
    writeBit v
    line 4
    update fun s => s.setWork { s.work with bitcnt := s.work.bitcnt + 1#4 }
    sendBits n

/-- `WRITEBYTE(b)` (R82). -/
def writeByte (b : Byte) : Op Ack := call .writeByte do
  line 1
  update fun s => s.setWork { s.work with shift := b, bitcnt := 0#4 }
  sendBits 8
  line 5
  drive .sda true
  line 6
  let bit ← readBit
  line 7
  setNack bit
  line 8
  pure (ackOf bit)

/-! ## The instructions -/

/-- `START` as an instruction (R78). -/
def execStart (s : State) : Host.Outcome State Fault Refusal :=
  withSession s (finish (fun _ => .returned) start)

/-- `STOP` as an instruction (R79). -/
def execStop (s : State) : Host.Outcome State Fault Refusal :=
  withSession s (finish (fun _ => .returned) stop)

/-- `WRITEBIT v` as an instruction (R80). -/
def execWriteBit (v : Bool) (s : State) : Host.Outcome State Fault Refusal :=
  withSession s (finish (fun _ => .returned) (writeBit v))

/-- `READBIT` as an instruction (R81): it returns the bit. -/
def execReadBit (s : State) : Host.Outcome State Fault Refusal :=
  withSession s (finish .bit readBit)

/-- `WRITEBYTE b` as an instruction (R82): it returns ack or nack. -/
def execWriteByte (b : Byte) (s : State) : Host.Outcome State Fault Refusal :=
  withSession s (finish .byteAck (writeByte b))

end Sys2Proof.Machine
end

