-- ==== Sys2Proof/Machine/RegisterProtocol.lean ====
section
/-! DEFINITION. The Register Protocol (R96 to R100): `SETREG`, the block's one access to the remote register space
(R37), and `WRITEBULK`. -/

namespace Sys2Proof.Machine

/-- R98: a Bus Engine operation inside the transaction; if it raises e, `STOP` is attempted once, an error of that
`STOP` is discarded, and e is raised unchanged. -/
def orStop {α : Type} (x : Op α) : Op α := do
  match ← attempt x with
  | .ok a => pure a
  | .error e =>
    let _ ← attempt stop
    raise e

/-- Steps 4, 6 and 8 of `SETREG` (R97, R98): on nack, `STOP`, its error discarded, and the stage's `ProtocolError`. -/
def stopOnNack (stage : Stage) : Ack → Op Unit
  | .ack => pure ()
  | .nack => do
    let _ ← attempt stop
    raise (.protocol stage)

/-- The transaction (R97, R98). -/
def transaction (dev sub val : Byte) : Op Unit := do
  line 1
  update fun s => s.setWork { s.work with rDev := dev, rSub := sub, rVal := val }
  line 2
  orStop start
  line 3
  let b ← readState (·.work.rDev)
  let a ← orStop (writeByte b)
  line 4
  stopOnNack .address a
  line 5
  let b ← readState (·.work.rSub)
  let a ← orStop (writeByte b)
  line 6
  stopOnNack .subaddress a
  line 7
  let b ← readState (·.work.rVal)
  let a ← orStop (writeByte b)
  line 8
  stopOnNack .value a
  line 9
  stop
  line 10

/-- What is known of the register after the transaction: a success performs the write (R51), a failure leaves it
unknown (R46). -/
def noteWrite (dev sub val : Byte) (x : Op Unit) : Op Unit := do
  match ← attempt x with
  | .ok _ => update fun s => s.setRemote (s.remote.record s.cfg dev sub val)
  | .error e =>
    update fun s => s.setRemote (s.remote.forget s.cfg dev sub)
    raise e

/-- `SETREG dev sub val` (R97, R98). -/
def setReg (dev sub val : Byte) : Op Unit := call .setReg (noteWrite dev sub val (transaction dev sub val))

/-- `x[BULK_I] <- v`. -/
def State.setBulkI (s : State) (v : Byte) : State := s.setWork { s.work with bulkI := v }

/-- Steps 2 to 7 of `WRITEBULK` (R99) over the bytes not yet sent. -/
def bulkLoop (dev start : Byte) : List Byte → Op Unit
  | [] => line 2
  | b :: rest => do
    line 2
    let i ← readState (·.work.bulkI)
    line 3
    match ← attempt (setReg dev (effectiveSub start i) b) with
    | .ok _ =>
      line 7
      update fun s => s.setBulkI (s.work.bulkI + 1#8)
      bulkLoop dev start rest
    | .error e =>
      line 5
      logMessage (.failedAtByte i)
      line 6
      raise e

/-- U1: after a failure nothing is known of the listed registers, the acknowledged ones among them. -/
def forgettingOnError (dev : State → Byte) (subs : State → List Byte) (x : Op Unit) : Op Unit := do
  match ← attempt x with
  | .ok _ => pure ()
  | .error e =>
    update fun s => s.setRemote (s.remote.forgetAll s.cfg (dev s) (subs s))
    raise e

/-- `WRITEBULK dev start bytes` (R99). -/
def writeBulk (dev start : Byte) (bytes : List Byte) : Op Unit := call .writeBulk do
  forgettingOnError (fun _ => dev) (fun _ => bulkSubs start bytes.length) do
    line 1
    update fun s => s.setBulkI 0#8
    bulkLoop dev start bytes
    line 8

/-! ## The instructions -/

/-- `SETREG dev sub val` as an instruction (R97). -/
def execSetReg (dev sub val : Byte) (s : State) : Host.Outcome State Fault Refusal :=
  withSession s (finish returnsSuccess (setReg dev sub val))

/-- `WRITEBULK dev start [n bytes of BUF0]` as an instruction (R99). -/
def execWriteBulk (dev start n : Byte) (s : State) : Host.Outcome State Fault Refusal :=
  withSession s (finish returnsSuccess (writeBulk dev start (s.operand0 n)))

end Sys2Proof.Machine
end

