-- ==== Sys2Proof/Machine/DeviceProgrammer.lean ====
section
/-! DEFINITION. The Device Programmer (R106 to R113): the internal steps `SetEngine` and `SelectPage`, and
`INITIALIZE`, `LOADPROGRAM`, `PLAYTAPE`. -/

namespace Sys2Proof.Machine

/-- `MemWrite(sub, 1, v)` (R11, R37): one write to the one device, its sub-address and value taken from `Config`. -/
def memWrite (sub val : Config → Byte) : Op Unit := do
  let c ← readState (·.cfg)
  setReg c.devAddr (sub c) (val c)

/-! ## INITIALIZE (R109, R110) -/

/-- `x[INIT_I] <- v`. -/
def State.setInitI (s : State) (v : BitVec 4) : State := s.setWork { s.work with initI := v }

/-- Steps 2 to 6 of `INITIALIZE` over the entries of `INIT_SEQ` not yet written. -/
def initLoop : List (Byte × Byte) → Op Unit
  | [] => line 2
  | (sub, val) :: rest => do
    line 2
    line 3
    line 4
    memWrite (fun _ => sub) (fun _ => val)
    line 6
    update fun s => s.setInitI (s.work.initI + 1#4)
    initLoop rest

/-- `INITIALIZE` (R109): no rollback; after a failure nothing is known of the registers it writes (U2). -/
def initialise : Op Unit := call .initialise do
  forgettingOnError (fun s => s.cfg.devAddr) (fun s => s.cfg.initSeq.map (·.1)) do
    line 1
    update fun s => s.setInitI 0#4
    let entries ← readState (·.cfg.initSeq)
    initLoop entries
    line 7

/-! ## LOADPROGRAM (R107, R108, R111) -/

/-- `SetEngine(Load)` (R107). -/
def setEngineLoad : Op Unit := do
  memWrite (·.regEngMode) (·.valEngLoad)
  setEngineCmd .load

/-- `SetEngine(Halt)` (R107). -/
def setEngineHalt : Op Unit := do
  memWrite (·.regEngMode) (·.valEngHalt)
  setEngineCmd .halt

/-- `SetEngine(Run)` (R107): steps 7 and 8 of `LOADPROGRAM`. -/
def setEngineRun : Op Unit := do
  line 7
  memWrite (·.regEngRun) (·.valEngRun)
  line 8
  memWrite (·.regFreeRun) (·.valFreeRun)
  setEngineCmd .run

/-- `SelectPage(mux)` (R108). When the ghost `PAGE_CMD` changes is the model's choice (DESIGN CHOICE, log entry 21): when the
write returns success, a failed one leaving it as it was. -/
def selectMuxPage : Op Unit := do
  memWrite (·.regPageSel) (·.valPageMux)
  setPageCmd .mux

/-- `SelectPage(program)` (R108), `PAGE_CMD` as in `selectMuxPage` (DESIGN CHOICE, log entry 21). -/
def selectProgramPage : Op Unit := do
  memWrite (·.regPageSel) (·.valPageProg)
  setPageCmd .program

/-- `WRITEBULK(DEV_ADDR, PROG_MEM_BASE, bytes)`: steps 3 and 5 of `LOADPROGRAM`. -/
def upload (bytes : List Byte) : Op Unit := do
  let c ← readState (·.cfg)
  writeBulk c.devAddr c.progMemBase bytes

/-- Steps 1 to 8 of `LOADPROGRAM`. -/
def uploadSequence (mux program : List Byte) : Op Unit := do
  line 1
  setEngineLoad
  line 2
  selectMuxPage
  line 3
  upload mux
  line 4
  selectProgramPage
  line 5
  upload program
  line 6
  setEngineHalt
  setEngineRun

/-- `LOADPROGRAM mux program` (R111): both lengths are checked before anything is sent. -/
def loadProgram (mux program : List Byte) : Op Unit := call .loadProgram do
  line 0
  if oversized mux || oversized program then raise (.validation .size) else uploadSequence mux program

/-! ## PLAYTAPE (R112) -/

/-- `x[TAPE] <- v`. -/
def State.setTape (s : State) (v : Byte) : State := s.setWork { s.work with tape := v }

/-- Step 3 of `PLAYTAPE`. -/
def playSelected (tape : Byte) : Op Unit := do
  line 3
  let c ← readState (·.cfg)
  loadProgram (c.muxTable tape) c.program

/-- `PLAYTAPE index` (R112). -/
def playTape (index : Byte) : Op Unit := call .playTape do
  line 1
  update fun s => s.setTape index
  line 2
  let tape ← readState (·.work.tape)
  if tapeOutOfRange tape then raise (.validation .index) else playSelected tape

/-! ## The instructions -/

/-- `INITIALIZE` as an instruction (R109). -/
def execInitialise (s : State) : Host.Outcome State Fault Refusal :=
  withSession s (finish returnsSuccess initialise)

/-- `LOADPROGRAM [m bytes of BUF0] [p bytes of BUF1]` as an instruction (R111). -/
def execLoadProgram (m p : Byte) (s : State) : Host.Outcome State Fault Refusal :=
  withSession s (finish returnsSuccess (loadProgram (s.operand0 m) (s.operand1 p)))

/-- `PLAYTAPE index` as an instruction (R112). -/
def execPlayTape (index : Byte) (s : State) : Host.Outcome State Fault Refusal :=
  withSession s (finish returnsSuccess (playTape index))

end Sys2Proof.Machine
end

