-- ==== Sys2Proof/Machine/Sequencer.lean ====
section
/-! DEFINITION. The Sequencer (R121 to R131): the internal steps `Acquire`, `Release`, `BringUp` and `Combine`, and
`RUN`, `RUNERR`. -/

namespace Sys2Proof.Machine

/-! ## Acquire and Release (R122, R123) -/

/-- `x[H_SCL] <- h`. -/
def setHandleScl (h : Option Nat) : Op Unit := update fun s => s.setSession { s.session with hScl := h }

/-- `x[H_SDA] <- h`. -/
def setHandleSda (h : Option Nat) : Op Unit := update fun s => s.setSession { s.session with hSda := h }

/-- Steps 6 to 8 of `Acquire` (R122): the rollback; its failure is logged and does not change the error raised. -/
def rollback : Op Unit := do
  let ok ← pinRelease .scl
  setHandleScl none
  if ok then pure () else logMessage .rollbackReleaseFailed
  raise (.resource .request .sda)

/-- `Acquire` (R122). -/
def acquire : Op Unit := do
  let c ← readState (·.cfg)
  match ← pinRequest .scl c.sclId c.sclLabel with
  | none => raise (.resource .request .scl)
  | some h =>
    setHandleScl (some h)
    match ← pinRequest .sda c.sdaId c.sdaLabel with
    | none => rollback
    | some h =>
      setHandleSda (some h)
      update fun s => s.setSession (s.session.open s.cfg)

/-- Step 4 of `Release` (R123): the first release that failed. -/
def cleanupError (okSda okScl : Bool) : Option Error :=
  if !okSda then some (.resource .release .sda)
  else if !okScl then some (.resource .release .scl)
  else none

/-- `Release` (R123): both releases are attempted even if the first fails. -/
def release : Op Unit := do
  let okSda ← pinRelease .sda
  setHandleSda none
  let okScl ← pinRelease .scl
  setHandleScl none
  update fun s => s.setSession { s.session with valid := false }
  update fun s => s.setStatus { s.status with cleanupErr := cleanupError okSda okScl }

/-! ## BringUp (R124) -/

/-- Steps 3 and 4 of `BringUp`: one attempt, its error handed over. -/
def bringUpAttempt : Op (Except Error Unit) := do
  update fun s => s.setWork { s.work with attempt := s.work.attempt + 1#4 }
  let k ← readState (·.work.attempt)
  goTop (.bringUp k.toNat)
  attempt initialise

/-- Steps 2 to 8 of `BringUp` with n retries left: `x[ATTEMPT] = MAX_ATTEMPTS` when none is. -/
def bringUpLoop : Nat → Op Unit
  | 0 => do
    match ← bringUpAttempt with
    | .ok _ => pure ()
    | .error e => raise (.deviceInit e)
  | n + 1 => do
    match ← bringUpAttempt with
    | .ok _ => pure ()
    | .error _ =>
      let k ← readState (·.work.attempt)
      goTop (.backoff k.toNat)
      let c ← readState (·.cfg)
      delay c.backoff
      bringUpLoop n

/-- `BringUp` (R124). -/
def bringUp : Op Unit := do
  update fun s => s.setWork { s.work with attempt := 0#4 }
  bringUpLoop (Config.maxAttempts - 1)

/-! ## Combine (R126) -/

/-- The status `Combine` gives. -/
def combineStatus : Option Error → Option Error → Status
  | none, none => .success
  | none, some c => .error c
  | some e, none => .error e
  | some e, some _ => .error e

/-- The message `Combine` logs: a cleanup error that does not override an earlier one. -/
def combineLog : Option Error → Option Error → Op Unit
  | none, none => pure ()
  | none, some _ => pure ()
  | some _, none => pure ()
  | some _, some c => logMessage (.cleanupFailed c)

/-- `Combine(x[PRIMARY_ERR], x[CLEANUP_ERR])` (R126). -/
def combine : Op Status := do
  let p ← readState (·.status.primaryErr)
  let c ← readState (·.status.cleanupErr)
  combineLog p c
  pure (combineStatus p c)

/-! ## RUN and RUNERR (R125, R127) -/

/-- `x[PRIMARY_ERR] <- e`. -/
def setPrimaryErr (e : Option Error) : Op Unit := update fun s => s.setStatus { s.status with primaryErr := e }

/-- `x[EXIT_STATUS] <- s; pc <- Done(s); return s`. -/
def exitWith (st : Status) : Op Status := do
  update fun s => s.setStatus { s.status with exitStatus := st }
  goTop (.done st)
  pure st

/-- Steps 3 and 4 of `RUN`: bring-up, then playback unless bring-up failed; an error becomes `PRIMARY_ERR`. -/
def bringUpAndPlay : Op Unit := do
  match ← attempt bringUp with
  | .error e => setPrimaryErr (some e)
  | .ok _ =>
    goTop .play
    let tape ← readState (·.work.tape)
    match ← attempt (playTape tape) with
    | .error e => setPrimaryErr (some e)
    | .ok _ => pure ()

/-- Steps 5 to 7 of `RUN`. -/
def cleanUpAndExit : Op Status := do
  goTop .cleanup
  release
  let st ← combine
  exitWith st

/-- `RUN index` (R125). -/
def run (index : Byte) : Op Status := do
  update fun s => s.setTape index
  update fun s => s.setStatus { s.status with primaryErr := none, cleanupErr := none }
  goTop .acquire
  match ← attempt acquire with
  | .error e => exitWith (.error e)
  | .ok _ =>
    bringUpAndPlay
    cleanUpAndExit

/-- `RUNERR index` (R127). -/
def runErr (index : Byte) : Op Status := do
  let st ← run index
  goTop (.terminalWait st)
  pure (.terminalIdle st)

/-! ## The instructions -/

/-- `RUN index` as an instruction (R125). -/
def execRun (index : Byte) (s : State) : Host.Outcome State Fault Refusal :=
  withoutSession s (finish .status (run index))

/-- `RUNERR index` as an instruction (R127). -/
def execRunErr (index : Byte) (s : State) : Host.Outcome State Fault Refusal :=
  withoutSession s (finish .status (runErr index))

end Sys2Proof.Machine
end

