-- ==== Sys2Proof/Machine/Dispatch.lean ====
section
/-! DEFINITION. One arm per operation: each calls its meaning. -/

namespace Sys2Proof.Machine

/-- The meaning of each operation (R66). -/
def exec (i : Instr) (s : State) : Host.Outcome State Fault Refusal :=
  match i with
  | .start => Sys2Proof.Machine.execStart s
  | .stop => Sys2Proof.Machine.execStop s
  | .writebit v => Sys2Proof.Machine.execWriteBit v s
  | .readbit => Sys2Proof.Machine.execReadBit s
  | .writebyte b => Sys2Proof.Machine.execWriteByte b s
  | .setreg dev sub val => Sys2Proof.Machine.execSetReg dev sub val s
  | .writebulk dev start n => Sys2Proof.Machine.execWriteBulk dev start n s
  | .initialise => Sys2Proof.Machine.execInitialise s
  | .loadprogram m p => Sys2Proof.Machine.execLoadProgram m p s
  | .playtape index => Sys2Proof.Machine.execPlayTape index s
  | .run index => Sys2Proof.Machine.execRun index s
  | .runerr index => Sys2Proof.Machine.execRunErr index s

end Sys2Proof.Machine
end

