-- ==== Sys2Proof/Machine/Fetch.lean ====
section
/-! DEFINITION. How a command reaches the block (R56, R64, R159, R161, R162): what `step` does around `exec`. -/

namespace Sys2Proof.Machine

/-- The state in which a presented command runs: the command is taken and its operand buffers are supplied (R29). -/
def State.accept (s : State) (buf0 buf1 : List Byte) (rest : List HostInput) : State :=
  { s with buf0 := buf0, buf1 := buf1, inputs := rest }

/-- The state an operation presented at `Idle` starts from: `RUN` and `RUNERR`, the host's commands (R70), from the reset
state (R31, R161), unless a session exists, where R67 refuses them; operations 0x0 to 0x9, the test interface, from the
state as it is, in their session. Log entry 8. -/
def State.beforeCommand (s : State) (i : Instr) : State :=
  if i.opcode.toNat < 0xA then s else if s.session.valid then s else s.hostReset

/-- Decode a presented word and run it; an illegal word is refused: no event, no status (R68). -/
def runWord (ex : Instr → State → Host.Outcome State Fault Refusal) (w : Word) (buf0 buf1 : List Byte)
    (rest : List HostInput) (s : State) : Host.Outcome State Fault Refusal :=
  match decode w with
  | .ok i => ex i ((s.beforeCommand i).accept buf0 buf1 rest)
  | .error why => .refused (.illegalWord why)

/-- A presented command by the control point: taken at `Idle` (R162); after `Done` the block is first reset, a step of
its own (R161); in `TerminalWait` nothing is accepted (R128); inside an operation nothing is either (R156). -/
def acceptCommand (ex : Instr → State → Host.Outcome State Fault Refusal) (w : Word) (buf0 buf1 : List Byte)
    (rest : List HostInput) (s : State) : Host.Outcome State Fault Refusal :=
  match s.pc.top with
  | .idle => runWord ex w buf0 buf1 rest s
  | .done _ => .next s.hostReset
  | .terminalWait _ => .fault .terminalWait
  | .acquire => .refused .notIdle
  | .bringUp _ => .refused .notIdle
  | .backoff _ => .refused .notIdle
  | .play => .refused .notIdle
  | .cleanup => .refused .notIdle

/-- With nothing presented the block waits, unchanged (R162); `TerminalWait` has no successor (R128). -/
def waitForCommand (s : State) : Host.Outcome State Fault Refusal :=
  match s.pc.top with
  | .terminalWait _ => .fault .terminalWait
  | .idle => .next s
  | .acquire => .next s
  | .bringUp _ => .next s
  | .backoff _ => .next s
  | .play => .next s
  | .cleanup => .next s
  | .done _ => .next s

/-- One step with a given meaning of the operations: the host's next input decides. A kill resets the block (R161). -/
def stepWith (ex : Instr → State → Host.Outcome State Fault Refusal) (s : State) : Host.Outcome State Fault Refusal :=
  match s.inputs with
  | [] => waitForCommand s
  | .kill :: rest => .next { s.hostReset with inputs := rest }
  | .command w buf0 buf1 :: rest => acceptCommand ex w buf0 buf1 rest s

/-- The session state a word's operation presupposes (R67): a session for operations 0x0 to 0x9, none for 0xA and
0xB. -/
def State.forWord (s : State) (w : Word) : State :=
  if (opField w).toNat < 0xA then
    if s.session.valid && s.session.handlesHeld then s else s.openSession
  else if s.session.valid then s.closeSession else s

/-- Present a word as the next command of an idle block, with the buffers it holds and the session state the word
presupposes. Log entry 7. -/
def State.presentWord (s : State) (w : Word) : State :=
  { (s.forWord w) with
    pc := { top := .idle, frames := [] }
    inputs := .command w s.buf0 s.buf1 :: s.inputs }

end Sys2Proof.Machine
end

