-- ==== Sys2Proof/Machine/Step.lean ====
section
/-! DEFINITION. One step of the block: one command of the host, whole. -/

namespace Sys2Proof.Machine

/-- One step: the host's next input is taken and, if it is a command the block accepts, its operation runs to its end
(R45, R130). -/
def step (s : State) : Host.Outcome State Fault Refusal := stepWith exec s

/-- `s` with a word of the opcode table presented as the very next command; the bits from `nbits` up are 0. -/
def State.withFetchWord (s : State) (nbits w : Nat) : State :=
  s.presentWord (BitVec.ofNat 32 (w % 2 ^ nbits))

end Sys2Proof.Machine
end

