-- ==== Sys2Proof/Safety.lean ====
section
/-! DEFINITION. The terms claims use: the environments of R154 and §8, the wire waveforms of R58 to R63 as events, the
write lists of R40, R110 and R111, and the invariant of a safe run. -/

namespace Sys2Proof.Machine

/-! ## Environments -/

/-- Every pin call to come answers ok (the first half of the benign environment, R154). -/
def State.PinsOk (s : State) : Prop := ∀ k, s.answer k = true

/-- Every sample to come is 0: the always-acknowledging responder. -/
def State.AllAck (s : State) : Prop := ∀ k, s.sample k = .zero

/-- Every sample to come is 1: the never-acknowledging responder. -/
def State.NeverAck (s : State) : Prop := ∀ k, s.sample k = .one

/-- The next n pin calls answer ok. -/
def State.OkFor (s : State) (n : Nat) : Prop := ∀ k, k < n → s.answer k = true

/-- The next n samples are 0. -/
def State.AckFor (s : State) (n : Nat) : Prop := ∀ k, k < n → s.sample k = .zero

/-! ## When an operation executes (R67) -/

/-- An operation that needs a session executes: `pc` is `Idle` and a session with both handles exists. -/
def State.SessionReady (s : State) : Prop :=
  s.pc.top = .idle ∧ s.session.valid = true ∧ s.session.handlesHeld = true

/-- `RUN` and `RUNERR` execute: `pc` is `Idle` and there is no session. -/
def State.RunReady (s : State) : Prop := s.pc.top = .idle ∧ s.session.valid = false

/-- R165 (2): both pins are unclaimed. -/
def State.PinsFree (s : State) : Prop := s.scl.claimed = false ∧ s.sda.claimed = false

/-- R84: the pin is an output at a level. -/
def PinState.drives (p : PinState) (b : Bool) : Prop := p.dir = .out ∧ p.level = levelOf b

/-! ## Waveforms, every call answering ok, T the half-period (R58 to R63, R78 to R82) -/

/-- R78: the events of `START`. -/
def startWave (T : Nat) : List Event :=
  [.out .sda true true, .dly T, .out .scl true true, .dly T, .out .sda false true, .dly T]

/-- R79: the events of `STOP`. -/
def stopWave (T : Nat) : List Event :=
  [.out .scl false true, .dly T, .out .sda false true, .dly T, .out .scl true true, .dly T, .out .sda true true, .dly T]

/-- R80: the events of `WRITEBIT v`. -/
def bitWave (T : Nat) (v : Bool) : List Event :=
  [.out .scl false true, .out .sda v true, .out .scl true true, .dly (2 * T)]

/-- R81: the events of `READBIT` with a sample. -/
def readWave (T : Nat) (v : Sample) : List Event :=
  [.out .scl true true, .dly T, .inp .sda true, .rd .sda v, .dly T, .out .scl false true, .dly (2 * T)]

/-- R38: the bits of a byte, the most significant first. -/
def bitsMsbFirst (b : Byte) : List Bool :=
  [b.getLsbD 7, b.getLsbD 6, b.getLsbD 5, b.getLsbD 4, b.getLsbD 3, b.getLsbD 2, b.getLsbD 1, b.getLsbD 0]

/-- R82: the events of `WRITEBYTE b` with a sample. -/
def byteWave (T : Nat) (b : Byte) (v : Sample) : List Event :=
  (bitsMsbFirst b).flatMap (bitWave T) ++ .out .sda true true :: readWave T v

/-- R63: the events of an acknowledged transaction. -/
def transactionWave (T : Nat) (dev sub val : Byte) : List Event :=
  startWave T ++ byteWave T dev .zero ++ byteWave T sub .zero ++ byteWave T val .zero ++ stopWave T

/-- R63: the events of a transaction that has sent the bytes `acked`, acknowledged, and then `b` with the sample `v`. -/
def openWave (T : Nat) (acked : List Byte) (b : Byte) (v : Sample) : List Event :=
  startWave T ++ acked.flatMap (fun a => byteWave T a .zero) ++ byteWave T b v

/-- R63: the events of a failed transaction: the stop condition follows. -/
def failedWave (T : Nat) (acked : List Byte) (b : Byte) (v : Sample) : List Event := openWave T acked b v ++ stopWave T

/-- The calls of the GPIO capability whose answer can be fail, up to the k-th, which fails: what is left of a waveform
when the operation ends there (R86). -/
def cutAt : Nat → List Event → List Event
  | _, [] => []
  | 0, .out p b _ :: _ => [.out p b false]
  | k + 1, .out p b ok :: es => .out p b ok :: cutAt k es
  | 0, .inp p _ :: _ => [.inp p false]
  | k + 1, .inp p ok :: es => .inp p ok :: cutAt k es
  | k, e :: es => e :: cutAt k es

/-- Which of the next n calls is the first to answer fail; n if none is. -/
def firstFail (a : Nat → Bool) : Nat → Nat
  | 0 => 0
  | n + 1 => if a 0 then firstFail (fun k => a (k + 1)) n + 1 else 0

/-- The events of one `STOP`, its four calls answered by `a` (R79, R86). -/
def stopEvents (T : Nat) (a : Nat → Bool) : List Event := cutAt (firstFail a 4) (stopWave T)

/-- How many calls of a waveform can answer fail: the outputs and the inputs. -/
def callsOf : List Event → Nat
  | [] => 0
  | .out _ _ _ :: es => callsOf es + 1
  | .inp _ _ :: es => callsOf es + 1
  | .req _ _ :: es => callsOf es
  | .rd _ _ :: es => callsOf es
  | .rel _ _ :: es => callsOf es
  | .dly _ :: es => callsOf es
  | .log _ :: es => callsOf es

/-- R77, R137: the error of the k-th such call, if it answers fail. -/
def callError : Nat → List Event → Option Error
  | _, [] => none
  | 0, .out p _ _ :: _ => some (.resource .setOutput p)
  | k + 1, .out _ _ _ :: es => callError k es
  | 0, .inp p _ :: _ => some (.resource .setInput p)
  | k + 1, .inp _ _ :: es => callError k es
  | k, .req _ _ :: es => callError k es
  | k, .rd _ _ :: es => callError k es
  | k, .rel _ _ :: es => callError k es
  | k, .dly _ :: es => callError k es
  | k, .log _ :: es => callError k es

/-! ## Writes: (device address, sub-address, value) -/

/-- The events of a list of acknowledged transactions. -/
def wavesOf (T : Nat) (writes : List (Byte × Byte × Byte)) : List Event :=
  writes.flatMap fun w => transactionWave T w.1 w.2.1 w.2.2

/-- R40: the writes of `WRITEBULK`. -/
def bulkWrites (dev : Byte) : Byte → List Byte → List (Byte × Byte × Byte)
  | _, [] => []
  | sub, b :: bytes => (dev, sub, b) :: bulkWrites dev (sub + 1#8) bytes

/-- R109, R110: the writes of `INITIALIZE`. -/
def initWrites (c : Config) : List (Byte × Byte × Byte) := c.initSeq.map fun e => (c.devAddr, e.1, e.2)

/-- R111: the writes of `LOADPROGRAM`. -/
def loadWrites (c : Config) (mux program : List Byte) : List (Byte × Byte × Byte) :=
  [(c.devAddr, c.regEngMode, c.valEngLoad), (c.devAddr, c.regPageSel, c.valPageMux)]
  ++ bulkWrites c.devAddr c.progMemBase mux
  ++ [(c.devAddr, c.regPageSel, c.valPageProg)]
  ++ bulkWrites c.devAddr c.progMemBase program
  ++ [(c.devAddr, c.regEngMode, c.valEngHalt), (c.devAddr, c.regEngRun, c.valEngRun),
      (c.devAddr, c.regFreeRun, c.valFreeRun)]

/-- R99, R111: the log of a `LOADPROGRAM` of m and p bytes whose write number j fails: a bulk write's own log, if the
write belongs to one. -/
def loadLog (m p j : Nat) : List Event :=
  if 2 ≤ j ∧ j < 2 + m then [.log (.failedAtByte (BitVec.ofNat 8 (j - 2)))]
  else if 3 + m ≤ j ∧ j < 3 + m + p then [.log (.failedAtByte (BitVec.ofNat 8 (j - 3 - m)))]
  else []

/-- R107, R111: the engine state last commanded by a `LOADPROGRAM` of m and p bytes whose write number j fails. -/
def loadEngine (m p j : Nat) (before : EngineCmd) : EngineCmd :=
  if j = 0 then before else if j ≤ m + p + 3 then .load else .halt

/-- R108, R111: the page last selected by a `LOADPROGRAM` whose mux buffer has m bytes and whose write number j fails. -/
def loadPage (m j : Nat) (before : PageCmd) : PageCmd :=
  if j ≤ 1 then before else if j ≤ m + 2 then .mux else .program

/-- What performed writes leave known of the responder. -/
def recordWrites (c : Config) (r : Remote) (writes : List (Byte × Byte × Byte)) : Remote :=
  writes.foldl (fun r w => Remote.record c r w.1 w.2.1 w.2.2) r

/-! ## RUN (R122 to R126) -/

/-- R124: the events of j attempts that no responder acknowledges, each followed by the backoff. -/
def failedAttempts (c : Config) (T : Nat) (j : Nat) : List Event :=
  (List.replicate j (failedWave T [] c.devAddr .one ++ [.dly c.backoff])).flatten

/-- R112: what `PLAYTAPE` writes, every byte acknowledged: nothing where the index is out of range. -/
def playWrites (c : Config) (index : Byte) : List (Byte × Byte × Byte) :=
  if index.toNat < 2 then loadWrites c (c.muxTable index) c.program else []

/-- R112: the error of `PLAYTAPE`, every byte acknowledged. -/
def playError (index : Byte) : Option Error := if index.toNat < 2 then none else some (.validation .index)

/-- R123: the cleanup error by the answers of the two releases, the data pin's first. -/
def releaseFailure : Bool → Bool → Option Error
  | true, true => none
  | true, false => some (.resource .release .scl)
  | false, true => some (.resource .release .sda)
  | false, false => some (.resource .release .sda)

/-- R126: the status by the primary and the cleanup error. -/
def combinedStatus : Option Error → Option Error → Status
  | none, none => .success
  | none, some c => .error c
  | some e, none => .error e
  | some e, some _ => .error e

/-- R126: the events of the combination: a cleanup error that does not override is logged. -/
def combinedLog : Option Error → Option Error → List Event
  | some _, some c => [.log (.cleanupFailed c)]
  | some _, none => []
  | none, some _ => []
  | none, none => []

/-- R123, R126: the events that end a `RUN` that acquired its pins. -/
def cleanupEvents (primary : Option Error) (okSda okScl : Bool) : List Event :=
  [.rel .sda okSda, .rel .scl okScl] ++ combinedLog primary (releaseFailure okSda okScl)

/-! ## The state after answers and events -/

/-- n answers given. -/
def Script.advanceBy {α : Type} (n : Nat) (sc : Script α) : Script α :=
  { sc with head := sc.head.drop n, drawn := sc.drawn + n }

/-- The state after `a` pin-call answers, `n` samples and the events `evs`. -/
def State.waved (s : State) (a n : Nat) (evs : List Event) : State :=
  (s.setEnv { answers := s.env.answers.advanceBy a, samples := s.env.samples.advanceBy n }).setTrace (s.trace ++ evs)

/-- A pin driven to a level, its claim as before. -/
def PinState.driven (p : PinState) (b : Bool) : PinState := { p with dir := .out, level := levelOf b }

/-- The data pin after the acknowledgement slot: driven 1, then made an input (R61). -/
def PinState.released (p : PinState) : PinState := { p with dir := .inp, level := .high }

/-- R78: the state `START` leaves when its three calls answer ok. -/
def State.afterStart (s : State) : State :=
  { s.waved 3 0 (startWave s.session.halfPeriod) with
    scl := s.scl.driven true
    sda := s.sda.driven false
    ghost := { s.ghost with busBusy := true } }

/-- R79: the state `STOP` leaves when its four calls answer ok. -/
def State.afterStop (s : State) : State :=
  { s.waved 4 0 (stopWave s.session.halfPeriod) with
    scl := s.scl.driven true
    sda := s.sda.driven true
    ghost := { s.ghost with busBusy := false } }

/-- R80: the state `WRITEBIT v` leaves when its three calls answer ok. -/
def State.afterWriteBit (s : State) (v : Bool) : State :=
  { s.waved 3 0 (bitWave s.session.halfPeriod v) with scl := s.scl.driven true, sda := s.sda.driven v }

/-- R81: what `READBIT` returns for a sample. -/
def readOutcome : Sample → Except Error Bool
  | .zero => .ok false
  | .one => .ok true
  | .invalid => .error (.protocol .sample)

/-- R81: the state `READBIT` leaves when its three calls answer ok, whatever the sample. -/
def State.afterReadBit (s : State) : State :=
  { s.waved 3 1 (readWave s.session.halfPeriod (s.sample 0)) with
    scl := s.scl.driven false
    sda := { s.sda with dir := .inp }
    flags := { s.flags with sample := s.sample 0 } }

/-- R82: what `WRITEBYTE` returns for a sample: 0 is acknowledged. -/
def byteOutcome : Sample → Except Error Ack
  | .zero => .ok .ack
  | .one => .ok .nack
  | .invalid => .error (.protocol .sample)

/-- R20, R82: the flags `WRITEBYTE` leaves: `SAMPLE` always, `NACK` when it completed. -/
def Flags.afterByte (f : Flags) : Sample → Flags
  | .zero => { nack := false, sample := .zero }
  | .one => { nack := true, sample := .one }
  | .invalid => { f with sample := .invalid }

/-- R82: the state `WRITEBYTE b` leaves when its 28 calls answer ok, whatever the sample. -/
def State.afterByte (s : State) (b : Byte) : State :=
  { s.waved 28 1 (byteWave s.session.halfPeriod b (s.sample 0)) with
    scl := s.scl.driven false
    sda := s.sda.released
    flags := s.flags.afterByte (s.sample 0)
    work := { s.work with shift := b, bitcnt := 8#4 } }

/-- The state a performed write leaves: 91 calls ok, three samples of 0 (R63, R97). -/
def State.wrote (s : State) (w : Byte × Byte × Byte) : State :=
  { s.waved 91 3 (transactionWave s.session.halfPeriod w.1 w.2.1 w.2.2) with
    scl := s.scl.driven true
    sda := s.sda.driven true
    ghost := { s.ghost with busBusy := false }
    flags := { nack := false, sample := .zero }
    work := { s.work with shift := w.2.2, bitcnt := 8#4, rDev := w.1, rSub := w.2.1, rVal := w.2.2 }
    remote := s.remote.record s.cfg w.1 w.2.1 w.2.2 }

/-- The state a write leaves when the bytes `acked` were acknowledged, the next byte `b` was not (its sample is `v`),
and `STOP` was emitted, every call ok (R63, R97, R98). -/
def State.stoppedAt (s : State) (w : Byte × Byte × Byte) (acked : List Byte) (b : Byte) (v : Sample) : State :=
  { s.waved (35 + 28 * acked.length) (1 + acked.length) (failedWave s.session.halfPeriod acked b v) with
    scl := s.scl.driven true
    sda := s.sda.driven true
    ghost := { s.ghost with busBusy := false }
    flags := (if acked = [] then s.flags else { nack := false, sample := .zero }).afterByte v
    work := { s.work with shift := b, bitcnt := 8#4, rDev := w.1, rSub := w.2.1, rVal := w.2.2 }
    remote := s.remote.forget s.cfg w.1 w.2.1 }

/-- R97, R98: the error of a byte that was not acknowledged. -/
def nackError (stage : Stage) : Sample → Error
  | .zero => .protocol stage
  | .one => .protocol stage
  | .invalid => .protocol .sample

/-- The state a sequence of performed writes leaves. -/
def State.wroteAll (s : State) (writes : List (Byte × Byte × Byte)) : State := writes.foldl State.wrote s

/-- The ghosts of R24 and R25 as commanded. -/
def State.commanded (s : State) (engine : EngineCmd) (page : PageCmd) : State :=
  s.setGhost { s.ghost with engineCmd := engine, pageCmd := page }

/-! ## Operations made of operations (R97, R99, R109, R111, R125) -/

/-- Issue an operation and take the state it leaves. -/
def issue (i : Instr) (s : State) : State :=
  match exec i s with
  | .next t => t
  | .fault _ => s
  | .refused _ => s

/-- The error the last operation returned. -/
def State.failure (s : State) : Option Error :=
  match s.result with
  | .status (.error e) => some e
  | .status .success => none
  | .status (.terminalIdle _) => none
  | .nothing => none
  | .returned => none
  | .bit _ => none
  | .byteAck _ => none

/-- `SETREG` issued for each write in order, up to the first that fails. -/
def setRegs : List (Byte × Byte × Byte) → State → State
  | [], s => s
  | w :: ws, s =>
    match (issue (.setreg w.1 w.2.1 w.2.2) s).failure with
    | some _ => issue (.setreg w.1 w.2.1 w.2.2) s
    | none => setRegs ws (issue (.setreg w.1 w.2.1 w.2.2) s)

/-- R50 (d): the writes of one operation, each a `SETREG` of its own, issued only if every earlier one succeeded. -/
def State.afterSetRegs (s : State) (writes : List (Byte × Byte × Byte)) : State :=
  setRegs writes (s.setResult (.status .success))

/-- Two operations did the same on the bus, as far as the pins, the environment, the flags, the transaction's registers
and what was returned show. -/
structure State.SameBus (s t : State) : Prop where
  result : s.result = t.result
  env : s.env = t.env
  pins : s.scl = t.scl ∧ s.sda = t.sda
  flags : s.flags = t.flags
  busBusy : s.ghost.busBusy = t.ghost.busBusy
  session : s.session = t.session
  bytes : s.work.shift = t.work.shift ∧ s.work.bitcnt = t.work.bitcnt
  operands : s.work.rDev = t.work.rDev ∧ s.work.rSub = t.work.rSub ∧ s.work.rVal = t.work.rVal

/-- A `Log` event (R12: two traces agree if they agree without them). -/
def Event.isLog : Event → Bool
  | .log _ => true
  | .req _ _ => false
  | .out _ _ _ => false
  | .inp _ _ => false
  | .rd _ _ => false
  | .rel _ _ => false
  | .dly _ => false

/-- The state a successful `Acquire` leaves. -/
def State.acquired (s : State) : State :=
  { s.waved 2 0 [.req .scl true, .req .sda true] with
    session := ({ s.session with
      hScl := some (Config.freeHandle s.env.answers.drawn)
      hSda := some (Config.freeHandle (s.env.answers.drawn + 1)) } : Session).open s.cfg
    scl := s.scl.afterRequest true
    sda := s.sda.afterRequest true }

/-- R124 step 3: one more attempt. -/
def State.attempting (s : State) : State := s.setWork { s.work with attempt := s.work.attempt + 1#4 }

/-- R124 over `INITIALIZE` as an operation, with n retries left: the error, if all fail, and the state. -/
def bringUpSteps : Nat → State → Option Error × State
  | 0, s => ((issue .initialise s.attempting).failure.map .deviceInit, issue .initialise s.attempting)
  | n + 1, s =>
    match (issue .initialise s.attempting).failure with
    | none => (none, issue .initialise s.attempting)
    | some _ => bringUpSteps n ((issue .initialise s.attempting).emit (.dly s.cfg.backoff))

/-- R125 step 4 over `PLAYTAPE` as an operation: skipped if bring-up failed. -/
def playSteps (index : Byte) : Option Error × State → Option Error × State
  | (some e, s) => (some e, s)
  | (none, s) => ((issue (.playtape index) s).failure, issue (.playtape index) s)

/-- R123, R126: release, combination and exit, after a primary error or none. -/
def State.ending (s : State) (primary : Option Error) : State :=
  { s.waved 2 0 (cleanupEvents primary (s.answer 0) (s.answer 1)) with
    session := s.session.closed
    scl := s.scl.afterRelease (s.answer 1)
    sda := s.sda.afterRelease (s.answer 0)
    status :=
      { primaryErr := primary
        cleanupErr := releaseFailure (s.answer 0) (s.answer 1)
        exitStatus := combinedStatus primary (releaseFailure (s.answer 0) (s.answer 1)) } }

/-- R125 step 1, `Acquire` granted and R124 step 1: the state before the first attempt. -/
def State.beforeBringUp (s : State) (index : Byte) : State :=
  ({ s with
      work := { s.work with tape := index, attempt := 0#4 }
      status := { s.status with primaryErr := none, cleanupErr := none } } : State).acquired

/-- R125 by its steps, each an operation of its own, with both pins granted. -/
def runSteps (index : Byte) (s : State) : State :=
  (playSteps index (bringUpSteps (Config.maxAttempts - 1) (s.beforeBringUp index))).2.ending
    (playSteps index (bringUpSteps (Config.maxAttempts - 1) (s.beforeBringUp index))).1

/-! ## Errors by operation (R137 to R140) -/

/-- R137 (c): the error of a drive that fails. -/
def driveError : Error → Bool
  | .resource .setOutput _ => true
  | _ => false

/-- R137 (c), R138 (d): the errors of a bit cell and of a byte. -/
def bitError : Error → Bool
  | .resource .setOutput _ => true
  | .resource .setInput .sda => true
  | .protocol .sample => true
  | _ => false

/-- R137 (c), R138: the errors of a transaction. -/
def transactionError : Error → Bool
  | .resource .setOutput _ => true
  | .resource .setInput .sda => true
  | .protocol _ => true
  | _ => false

/-- R137 to R140: the errors `RUN` reports. -/
def runError : Error → Bool
  | .resource .request _ => true
  | .resource .release _ => true
  | .validation .index => true
  | .deviceInit cause => transactionError cause
  | e => transactionError e

/-- R137 to R140: which errors each operation can report. -/
def mayReport : Instr → Error → Bool
  | .start, e => driveError e
  | .stop, e => driveError e
  | .writebit _, e => driveError e
  | .readbit, e => bitError e
  | .writebyte _, e => bitError e
  | .setreg _ _ _, e => transactionError e
  | .writebulk _ _ _, e => transactionError e
  | .initialise, e => transactionError e
  | .loadprogram _ _, e => transactionError e || e == .validation .size
  | .playtape _, e => transactionError e || e == .validation .index
  | .run _, e => runError e
  | .runerr _, e => runError e

/-! ## Where an operation stores (R36, R40, R110, R111) -/

/-- The registers `LOADPROGRAM` writes with buffers of m and p bytes, by (device address, sub-address). -/
def loadTargets (c : Config) (m p : Nat) : List (Byte × Byte) :=
  [(c.devAddr, c.regEngMode), (c.devAddr, c.regPageSel), (c.devAddr, c.regEngRun), (c.devAddr, c.regFreeRun)]
  ++ (bulkSubs c.progMemBase m).map (fun sub => (c.devAddr, sub))
  ++ (bulkSubs c.progMemBase p).map (fun sub => (c.devAddr, sub))

/-- The registers `INITIALIZE` writes. -/
def initTargets (c : Config) : List (Byte × Byte) := c.initSeq.map fun e => (c.devAddr, e.1)

/-- The registers `PLAYTAPE` writes. -/
def playTargets (c : Config) (index : Byte) : List (Byte × Byte) :=
  if index.toNat < 2 then loadTargets c (c.muxTable index).length c.program.length else []

/-- The registers an operation writes, by (device address, sub-address). -/
def targetsOf (c : Config) : Instr → List (Byte × Byte)
  | .start => []
  | .stop => []
  | .writebit _ => []
  | .readbit => []
  | .writebyte _ => []
  | .setreg dev sub _ => [(dev, sub)]
  | .writebulk dev start n => (bulkSubs start n.toNat).map fun sub => (dev, sub)
  | .initialise => initTargets c
  | .loadprogram m p => loadTargets c m.toNat p.toNat
  | .playtape index => playTargets c index
  | .run index => initTargets c ++ playTargets c index
  | .runerr index => initTargets c ++ playTargets c index

/-- What is known of the responder is the same outside a list of registers: every other register, and in both pages
every offset whose window address is not in the list. -/
structure Remote.SameOutside (c : Config) (targets : List (Byte × Byte)) (r r' : Remote) : Prop where
  regs : ∀ a, (∀ p ∈ targets, a ≠ remoteAddr p.1 p.2) → r'.regs.read a = r.regs.read a
  muxPage : ∀ off, (∀ p ∈ targets, windowOffset c p.1 p.2 ≠ some off) → r'.muxPage.read off = r.muxPage.read off
  progPage : ∀ off, (∀ p ∈ targets, windowOffset c p.1 p.2 ≠ some off) → r'.progPage.read off = r.progPage.read off

/-! ## Illegal command words (R68) -/

/-- R65, R68: an operand field that the format of `op` requires to be 0 is not. -/
def unusedOperandSet (w : Word) : Bool :=
  match (opField w).toNat with
  | 0x0 | 0x1 | 0x3 | 0x7 => aField w != 0#8 || bField w != 0#8 || cField w != 0#8
  | 0x2 => aField w != 0#8 || bField w != 0#8 || (cField w).extractLsb' 1 7 != 0#7
  | 0x4 | 0x9 | 0xA | 0xB => aField w != 0#8 || bField w != 0#8
  | 0x8 => aField w != 0#8
  | _ => false

/-- R68: the illegal command words. -/
def illegal (w : Word) : Bool := 0xC ≤ (opField w).toNat || zField w != 0#4 || unusedOperandSet w

/-! ## Observations -/

/-- R12: a pin event is an `Out`, `In` or `Rd` event. -/
def Event.isPinEvent : Event → Bool
  | .out _ _ _ => true
  | .inp _ _ => true
  | .rd _ _ => true
  | .req _ _ => false
  | .rel _ _ => false
  | .dly _ => false
  | .log _ => false

/-- A request, whatever its answer. -/
def Event.isRequest : Event → Bool
  | .req _ _ => true
  | .out _ _ _ => false
  | .inp _ _ => false
  | .rd _ _ => false
  | .rel _ _ => false
  | .dly _ => false
  | .log _ => false

/-- A release call, whatever its answer. -/
def Event.isRelease : Event → Bool
  | .rel _ _ => true
  | .req _ _ => false
  | .out _ _ _ => false
  | .inp _ _ => false
  | .rd _ _ => false
  | .dly _ => false
  | .log _ => false

/-- A granted request of one pin. -/
def Event.grants (p : Pin) : Event → Bool
  | .req q ok => q == p && ok
  | .out _ _ _ => false
  | .inp _ _ => false
  | .rd _ _ => false
  | .rel _ _ => false
  | .dly _ => false
  | .log _ => false

/-- A release call for one pin, whatever its answer. -/
def Event.releases (p : Pin) : Event → Bool
  | .rel q _ => q == p
  | .req _ _ => false
  | .out _ _ _ => false
  | .inp _ _ => false
  | .rd _ _ => false
  | .dly _ => false
  | .log _ => false

/-- An event on the clock pin that makes it an input or reads it (R77 forbids both). -/
def Event.readsClock : Event → Bool
  | .inp .scl _ => true
  | .rd .scl _ => true
  | .inp .sda _ => false
  | .rd .sda _ => false
  | .out _ _ _ => false
  | .req _ _ => false
  | .rel _ _ => false
  | .dly _ => false
  | .log _ => false

/-- An event that is no request, no release, and neither reads the clock pin nor makes it an input. -/
def Event.isQuiet (e : Event) : Bool := !e.isRequest && !e.isRelease && !e.readsClock

/-- R57: the bus is idle, the block last drove clock 1 and data 1. -/
def State.BusIdle (s : State) : Prop :=
  s.scl.dir = .out ∧ s.scl.level = .high ∧ s.sda.dir = .out ∧ s.sda.level = .high

/-- How a `RUN` that acquired both pins ends (R123, R125, R126): `evs` are the events of bring-up and playback, `primary`
is their error, and the two releases answered `okSda` and `okScl`. -/
structure State.RanTo (s t : State) (primary : Option Error) (okSda okScl : Bool) (evs : List Event) : Prop where
  trace : t.trace = s.trace ++ [.req .scl true, .req .sda true] ++ evs ++ cleanupEvents primary okSda okScl
  status : t.status =
    { primaryErr := primary
      cleanupErr := releaseFailure okSda okScl
      exitStatus := combinedStatus primary (releaseFailure okSda okScl) }
  returned : t.result = .status (combinedStatus primary (releaseFailure okSda okScl))
  pc : t.pc = { s.pc with top := .done (combinedStatus primary (releaseFailure okSda okScl)) }
  session : t.session.valid = false ∧ t.session.hScl = none ∧ t.session.hSda = none
  pins : t.scl.claimed = !okScl ∧ t.sda.claimed = !okSda
  cfg : t.cfg = s.cfg
  buffers : t.buf0 = s.buf0 ∧ t.buf1 = s.buf1
  inputs : t.inputs = s.inputs

/-! ## The invariant of a safe run -/

/-- What holds of the block between two steps. -/
structure State.Inv (s : State) : Prop where
  /-- R8: the parameters are admissible -/
  admissible : s.cfg.admissible = true
  /-- R18: between two steps no operation is running -/
  noFrames : s.pc.frames = []
  /-- R18: and the top-level frame is `Idle`, `Done` or `TerminalWait`, with the exit status it was entered with -/
  atRest : s.pc.top = .idle ∨ s.pc.top = .done s.status.exitStatus ∨ s.pc.top = .terminalWait s.status.exitStatus
  /-- R121: a session exists only at `Idle` -/
  sessionAtIdle : s.session.valid = true → s.pc.top = .idle
  /-- R15: `SESSION_VALID = 1` if and only if both handles are present, and neither is held without the other -/
  handles : s.session.hScl.isSome = s.session.valid ∧ s.session.hSda.isSome = s.session.valid
  /-- R14: the session registers hold the values copied at creation -/
  sessionCopies : s.session.valid = true →
    s.session.sclPin = s.cfg.sclId ∧ s.session.sdaPin = s.cfg.sdaId ∧ s.session.halfPeriod = Config.halfPeriod
  /-- R14: both pins are held -/
  pinsHeld : s.session.valid = true → s.scl.claimed = true ∧ s.sda.claimed = true
  /-- R16: `BITCNT` takes the values 0 to 8 -/
  bitcntRange : s.work.bitcnt.toNat ≤ 8
  /-- R16: `INIT_I` takes the values 0 to 13 -/
  initIRange : s.work.initI.toNat ≤ 13
  /-- R21: `CLEANUP_ERR` is none or the failure of releasing a pin -/
  cleanupKind : ∀ e, s.status.cleanupErr = some e → ∃ p, e = .resource .release p
  /-- the ghost memories are canonical -/
  regsWf : s.remote.regs.wf
  muxWf : s.remote.muxPage.wf
  progWf : s.remote.progPage.wf

end Sys2Proof.Machine
end

