-- ==== Sys2Proof/Certificates/Slice0/Obligations.lean ====
section
/-! DEFINITION. The statements for the provers, in the order of the spec's files. A statement that says what an operation
does in any environment quantifies over every script of answers and samples; one that names the answers says so in its
premises (`OkFor n`: the next n pin calls answer ok; `AckFor n`: the next n samples are 0). -/

open Sys2Proof Sys2Proof.Machine

/-! ## The command word (R64 to R70) -/

/-- R65, R66, R70: words written out from the tables decode to the operations they stand for, and three illegal ones do
not decode. -/
def Obligations.SpecWordsDecode : Prop :=
  decode 0x00000000#32 = .ok .start
  ∧ decode 0x10000000#32 = .ok .stop
  ∧ decode 0x20000001#32 = .ok (.writebit true)
  ∧ decode 0x30000000#32 = .ok .readbit
  ∧ decode 0x400000A5#32 = .ok (.writebyte 0xA5#8)
  ∧ decode 0x50643FFF#32 = .ok (.setreg 0x64#8 0x3F#8 0xFF#8)
  ∧ decode 0x6064FE03#32 = .ok (.writebulk 0x64#8 0xFE#8 0x03#8)
  ∧ decode 0x70000000#32 = .ok .initialise
  ∧ decode 0x80000102#32 = .ok (.loadprogram 0x01#8 0x02#8)
  ∧ decode 0x90000001#32 = .ok (.playtape 0x01#8)
  ∧ decode 0xA0000000#32 = .ok (.run 0x00#8)
  ∧ decode 0xB0000001#32 = .ok (.runerr 0x01#8)
  ∧ decode 0xC0000000#32 = .error .reservedOp
  ∧ decode 0x01000000#32 = .error .reservedBits
  ∧ decode 0x20000002#32 = .error .unusedOperand

/-- R64 to R66: every operation, with every operand, is read back from its command word. -/
def Obligations.DecodeInvertsEncode : Prop := ∀ i : Instr, decode (encode i) = .ok i

/-- R64 to R66, R68: a word that decodes is the command word of what it decodes to: no two words mean one operation. -/
def Obligations.EncodeInvertsDecode : Prop := ∀ (w : Word) (i : Instr), decode w = .ok i → encode i = w

/-- R68: exactly the illegal words do not decode, and an idle block refuses one: there is no next state, so no event and
no status. That an illegal word is refused is the spec's own choice (D19). -/
def Obligations.IllegalWordsAreRefused : Prop :=
  ∀ w : Word, (illegal w = true ↔ ∃ why, decode w = .error why) ∧
    ∀ (s : State) (b0 b1 : List Byte) (rest : List HostInput), s.pc.top = .idle →
      s.inputs = .command w b0 b1 :: rest → illegal w = true → ∃ why, step s = .refused (.illegalWord why)

/-- R29, R65: the bytes of a count operand are the first bytes of its buffer, where the host supplied them. -/
def Obligations.SuppliedBytesAreTheOperands : Prop :=
  ∀ (s : State) (n : Byte),
    (n.toNat ≤ s.buf0.length → s.operand0 n = s.buf0.take n.toNat) ∧
    (n.toNat ≤ s.buf1.length → s.operand1 n = s.buf1.take n.toNat)

/-! ## The host (R70, R128, R129, R159 to R162) -/

/-- R31, R56, R67, R161, R162: at `Idle`, a step with a legal command word is the operation it decodes to, with the command
taken and its buffers supplied: operations 0x0 to 0x9 in the state as it is; `RUN` and `RUNERR`, the host's commands, in
the reset state (HostCommandsRunTheTapes says what that is), and refused where a session exists (the spec's own choice,
D29). That operations 0x0 to 0x9, the test interface, do not reset, and that the refusal comes before the reset, is the
model's own choice (log entry 8). -/
def Obligations.StepRunsTheDecodedOperation : Prop :=
  ∀ (s : State) (w : Word) (b0 b1 : List Byte) (rest : List HostInput) (i : Instr), s.pc.top = .idle →
    s.inputs = .command w b0 b1 :: rest → decode w = .ok i →
    (i.opcode.toNat < 0xA → step s = exec i { s with buf0 := b0, buf1 := b1, inputs := rest }) ∧
    (0xA ≤ i.opcode.toNat → s.session.valid = false →
      step s = exec i { s.hostReset with buf0 := b0, buf1 := b1, inputs := rest }) ∧
    (0xA ≤ i.opcode.toNat → s.session.valid = true → step s = .refused .sessionActive)

/-- R31, R70, R129, R161: the two host commands are `RUN 0` and `RUNERR 1`, and each starts from the reset state, whatever
was issued before: every value the spec gives for reset, the pins, the responder, the environment and the parameters not
touched. That an idle block with a session refuses them is said by StepRunsTheDecodedOperation. That each pin keeps its
direction and level, which the table of R31 gives as unknown, is the model's own choice (log entry 8). -/
def Obligations.HostCommandsRunTheTapes : Prop :=
  ∀ (s : State) (w : Word) (b0 b1 : List Byte) (rest : List HostInput) (i : Instr), s.pc.top = .idle →
    s.session.valid = false → s.inputs = .command w b0 b1 :: rest →
    (w = 0xA0000000#32 ∧ i = .run 0#8) ∨ (w = 0xB0000001#32 ∧ i = .runerr 1#8) →
    ∃ r, step s = exec i r
      ∧ r.pc = { top := .idle, frames := [] }
      ∧ r.session.valid = false ∧ r.session.hScl = none ∧ r.session.hSda = none
      ∧ r.work.attempt = 0#4 ∧ r.status.primaryErr = none ∧ r.status.cleanupErr = none
      ∧ r.ghost = { engineCmd := .none, pageCmd := .none, busBusy := false } ∧ r.trace = []
      ∧ r.scl = s.scl ∧ r.sda = s.sda ∧ r.remote = s.remote ∧ r.env = s.env ∧ r.cfg = s.cfg
      ∧ r.buf0 = b0 ∧ r.buf1 = b1 ∧ r.inputs = rest

/-- R162: at `Idle` with nothing presented, the block waits. -/
def Obligations.IdleWaitsForACommand : Prop :=
  ∀ s : State, s.pc.top = .idle → s.inputs = [] → step s = .next s

/-- R128: the terminal wait has no successor, whatever is presented and whatever is issued, and delivers no status; a
kill leaves it. That "no successor" is the fault `terminalWait` is the model's choice (log entry 10). -/
def Obligations.TerminalWaitHasNoSuccessor : Prop :=
  ∀ (s : State) (st : Status), s.pc.top = .terminalWait st →
    (∀ i, exec i s = .fault .terminalWait) ∧
    (s.inputs = [] → step s = .fault .terminalWait) ∧
    (∀ w b0 b1 rest, s.inputs = .command w b0 b1 :: rest → step s = .fault .terminalWait) ∧
    s.deliveredStatus = none ∧
    (∀ rest, s.inputs = .kill :: rest → ∃ t, step s = .next t ∧ t.pc = { top := .idle, frames := [] })

/-- R31, R162: the values the spec gives for reset; and, in its last clause, the model's own choice (log entry 12): the spec
leaves the responder unspecified at reset, and the ghost memories of the model hold nothing of it. -/
def Obligations.ResetValues : Prop :=
  State.reset.pc = { top := .idle, frames := [] }
  ∧ State.reset.session.valid = false
  ∧ State.reset.session.hScl = none ∧ State.reset.session.hSda = none
  ∧ State.reset.work.attempt = 0#4
  ∧ State.reset.status.primaryErr = none ∧ State.reset.status.cleanupErr = none
  ∧ State.reset.scl = { claimed := false, dir := .unknown, level := .unknown }
  ∧ State.reset.sda = { claimed := false, dir := .unknown, level := .unknown }
  ∧ State.reset.ghost = { engineCmd := .none, pageCmd := .none, busBusy := false }
  ∧ State.reset.trace = []
  ∧ ∀ a, State.reset.remote.regs.read a = none ∧ State.reset.remote.muxPage.read a = none ∧
      State.reset.remote.progPage.read a = none

/-- R161: a kill resets the block, in any state; the pins, the responder and the parameters are not touched. That a kill is
taken between two steps only, and that each pin keeps its direction and level, which R31 gives as unknown after reset, is
the model's own choice (log entry 9); U10 claims no property across a kill. -/
def Obligations.KillResetsTheBlock : Prop :=
  ∀ (s : State) (rest : List HostInput), s.inputs = .kill :: rest →
    ∃ t, step s = .next t
      ∧ t.pc = { top := .idle, frames := [] }
      ∧ t.session.valid = false ∧ t.session.hScl = none ∧ t.session.hSda = none
      ∧ t.work.attempt = 0#4 ∧ t.status.primaryErr = none ∧ t.status.cleanupErr = none
      ∧ t.ghost = { engineCmd := .none, pageCmd := .none, busBusy := false } ∧ t.trace = []
      ∧ t.scl = s.scl ∧ t.sda = s.sda ∧ t.remote = s.remote ∧ t.cfg = s.cfg ∧ t.inputs = rest

/-- R31, R161: a command presented after `Done` finds the block reset: every value the spec gives for reset, but for each
pin's direction and level, which stay. That they stay, and that the reset is a step of its own, after which the command is
still presented, is the model's choice (log entry 8). -/
def Obligations.CommandAfterDoneResets : Prop :=
  ∀ (s : State) (st : Status) (w : Word) (b0 b1 : List Byte) (rest : List HostInput), s.pc.top = .done st →
    s.inputs = .command w b0 b1 :: rest →
    ∃ t, step s = .next t
      ∧ t.pc = { top := .idle, frames := [] }
      ∧ t.session.valid = false ∧ t.session.hScl = none ∧ t.session.hSda = none
      ∧ t.work.attempt = 0#4 ∧ t.status.primaryErr = none ∧ t.status.cleanupErr = none
      ∧ t.ghost = { engineCmd := .none, pageCmd := .none, busBusy := false } ∧ t.trace = []
      ∧ t.scl = s.scl ∧ t.sda = s.sda ∧ t.remote = s.remote ∧ t.cfg = s.cfg ∧ t.inputs = s.inputs

/-- R129, R141: what the host receives: after `RUN` the exit status and its integer, after `RUNERR` nothing. That `RUNERR`
itself returns `TerminalIdle` of the status is R127 with the spec's own choice (D16, log entry 18). -/
def Obligations.HostReceivesTheExitStatus : Prop :=
  ∀ (s : State) (index : Byte), s.RunReady →
    (∃ t, exec (.run index) s = .next t ∧ t.result = .status t.status.exitStatus ∧
      t.deliveredStatus = some t.status.exitStatus ∧ t.exitCode = some (Config.exitCode t.status.exitStatus)) ∧
    (∃ t, exec (.runerr index) s = .next t ∧ t.result = .status (.terminalIdle t.status.exitStatus) ∧
      t.deliveredStatus = none ∧ t.exitCode = none)

/-! ## The whole machine (R18, R22, R67, R121, R130, R137 to R140) -/

/-- The invariant holds at reset. Its ranges of `BITCNT` and `INIT_I` (R16), which R31 leaves unspecified at reset, rest on
the zeros the model names (log entry 1), and its canonical ghost memories on their being empty (log entry 12). -/
def Obligations.ResetMeetsTheInvariant : Prop := State.reset.Inv

/-- Every step keeps the invariant, from every state that meets it and in every environment (R8, R14 to R16, R18, R21,
R121). -/
def Obligations.StepKeepsTheInvariant : Prop := ∀ s t : State, s.Inv → step s = .next t → t.Inv

/-- R22: no step and no operation changes a parameter. -/
def Obligations.ParametersAreConstant : Prop :=
  (∀ s t : State, step s = .next t → t.cfg = s.cfg) ∧
  ∀ (i : Instr) (s t : State), exec i s = .next t → t.cfg = s.cfg

/-- R67: an operation in the wrong session state is refused (the spec's own choice, D29, which speaks of the session state
only). That an operation issued at any control point but `Idle` and the terminal wait, inside another operation or at
`Done`, is refused too is the model's reading of R125 and R156 (log entry 17). -/
def Obligations.WrongSessionStateIsRefused : Prop :=
  ∀ (s : State) (i : Instr),
    (s.pc.top = .idle → i.opcode.toNat < 0xA → s.session.valid = false → exec i s = .refused .noSession) ∧
    (s.pc.top = .idle → 0xA ≤ i.opcode.toNat → s.session.valid = true → exec i s = .refused .sessionActive) ∧
    (s.pc.top ≠ .idle → (∀ st, s.pc.top ≠ .terminalWait st) → exec i s = .refused .notIdle)

/-- R67, R130: every operation ends, in every environment: with a session those that take it, without one the two that
make it. -/
def Obligations.EveryOperationEnds : Prop :=
  ∀ (i : Instr) (s : State),
    (i.opcode.toNat < 0xA → s.SessionReady → ∃ t, exec i s = .next t) ∧
    (0xA ≤ i.opcode.toNat → s.RunReady → ∃ t, exec i s = .next t)

/-- R121: only the Sequencer creates or destroys the session; it enters from `Idle` without one and leaves without one,
holding no handle; it releases each pin as often as it was granted, and a pin it leaves claimed is one whose release
call answered fail; on every path and in every environment. The pairing of grants and releases is read from R123 and R26; that a failed
release leaves the claim is the model's own choice (log entry 11). -/
def Obligations.OnlyTheSequencerOwnsTheSession : Prop :=
  ∀ (i : Instr) (s t : State), exec i s = .next t →
    (i.opcode.toNat < 0xA → t.session = s.session ∧ t.scl.claimed = s.scl.claimed ∧ t.sda.claimed = s.sda.claimed) ∧
    (0xA ≤ i.opcode.toNat →
      s.pc.top = .idle ∧ s.session.valid = false ∧ t.session.valid = false ∧
      (s.session.hScl = none → s.session.hSda = none → t.session.hScl = none ∧ t.session.hSda = none) ∧
      ∃ evs, t.trace = s.trace ++ evs ∧
        ∀ p, evs.countP (Event.grants p) = evs.countP (Event.releases p) ∧
          ((s.pin p).claimed = false → (t.pin p).claimed = true → .rel p false ∈ evs))

/-- R137 to R140: which errors each operation can return, in every environment. -/
def Obligations.ErrorsByOperation : Prop :=
  ∀ (i : Instr) (s t : State) (e : Error), s.cfg.admissible = true → exec i s = .next t →
    (t.result = .status (.error e) ∨ t.result = .status (.terminalIdle (.error e))) → mayReport i e = true

/-- R11, R12, R77: an operation takes answers and appends events; it neither reads the clock pin nor makes it an input;
operations 0x0 to 0x9 request and release no pin (R76). -/
def Obligations.OperationsOnlyAppendEvents : Prop :=
  ∀ (i : Instr) (s t : State), exec i s = .next t →
    ∃ a n evs, t.env = { answers := s.env.answers.advanceBy a, samples := s.env.samples.advanceBy n } ∧
      t.trace = s.trace ++ evs ∧ (∀ e ∈ evs, Event.readsClock e = false) ∧
      (i.opcode.toNat < 0xA → ∀ e ∈ evs, Event.isQuiet e = true)

/-- R36, R40, R51: in every environment an operation changes what is known of the responder (log entry 12) at its targets
only: every
other register and every other offset of both pages is as it was; START, STOP, WRITEBIT, READBIT and WRITEBYTE have no
target. -/
def Obligations.StoresReachOnlyTheTargets : Prop :=
  ∀ (i : Instr) (s t : State), exec i s = .next t → s.remote.SameOutside s.cfg (targetsOf s.cfg i) t.remote

/-! ## The Bus Engine (R26, R76 to R86) -/

/-- R26, R154: what the five calls answer and what they leave of the pin, each when it answers ok and when it answers fail,
as a request of a claimed pin always does. What a failed call leaves is the spec's own choice
(D30); that its claim stays is the model's (log entry 11). -/
def Obligations.PinCallsFollowTheCapability : Prop :=
  ∀ (s : State) (p : Pin) (b : Bool) (id : Nat) (label : String),
    ((s.pin p).claimed = false → s.answer 0 = true → ∃ h, (Op.apply (pinRequest p id label) s).1 = .ok (some h) ∧
      (Op.apply (pinRequest p id label) s).2.pin p = { claimed := true, dir := .unknown, level := .unknown }) ∧
    (s.answer 0 = true →
      (Op.apply (pinSetOutput p b) s).1 = .ok true ∧
      (Op.apply (pinSetOutput p b) s).2.pin p = { s.pin p with dir := .out, level := levelOf b } ∧
      (Op.apply (pinSetInput p) s).1 = .ok true ∧
      (Op.apply (pinSetInput p) s).2.pin p = { s.pin p with dir := .inp } ∧
      (Op.apply (pinRelease p) s).1 = .ok true ∧
      (Op.apply (pinRelease p) s).2.pin p = { claimed := false, dir := .unknown, level := .unknown }) ∧
    ((s.pin p).claimed = true ∨ s.answer 0 = false →
      (Op.apply (pinRequest p id label) s).1 = .ok none ∧
      (Op.apply (pinRequest p id label) s).2.pin p = { s.pin p with dir := .unknown, level := .unknown }) ∧
    (s.answer 0 = false →
      (Op.apply (pinSetOutput p b) s).1 = .ok false ∧
      (Op.apply (pinSetOutput p b) s).2.pin p = { s.pin p with dir := .unknown, level := .unknown } ∧
      (Op.apply (pinSetInput p) s).1 = .ok false ∧
      (Op.apply (pinSetInput p) s).2.pin p = { s.pin p with dir := .unknown, level := .unknown } ∧
      (Op.apply (pinRelease p) s).1 = .ok false ∧
      (Op.apply (pinRelease p) s).2.pin p = { s.pin p with dir := .unknown, level := .unknown }) ∧
    (Op.apply (pinRead p) s).1 = .ok (s.sample 0) ∧ (Op.apply (pinRead p) s).2.pin p = s.pin p

/-- R78: `START`: its word; its events and its state when its three calls answer ok; and where it ends, with which error,
when the k-th call fails (R86). Its last delay is the spec's own choice ("trailing delay: this spec's choice, D5"). -/
def Obligations.StartDrivesTheStartCondition : Prop :=
  encode .start = 0x00000000#32 ∧ ∀ s : State, s.SessionReady →
    (s.OkFor 3 → exec .start s = .next (s.afterStart.setResult .returned)) ∧
    (∀ k, k < 3 → s.OkFor k → s.answer k = false →
      ∃ e t, exec .start s = .next t ∧ callError k (startWave s.session.halfPeriod) = some e ∧
        t.result = .status (.error e) ∧ t.trace = s.trace ++ cutAt k (startWave s.session.halfPeriod) ∧
        t.flags = s.flags ∧ t.ghost = s.ghost)

/-- R79: `STOP`, likewise; its last delay is the spec's own choice (D5). -/
def Obligations.StopDrivesTheStopCondition : Prop :=
  encode .stop = 0x10000000#32 ∧ ∀ s : State, s.SessionReady →
    (s.OkFor 4 → exec .stop s = .next (s.afterStop.setResult .returned)) ∧
    (∀ k, k < 4 → s.OkFor k → s.answer k = false →
      ∃ e t, exec .stop s = .next t ∧ callError k (stopWave s.session.halfPeriod) = some e ∧
        t.result = .status (.error e) ∧ t.trace = s.trace ++ cutAt k (stopWave s.session.halfPeriod) ∧
        t.flags = s.flags ∧ t.ghost = s.ghost)

/-- R80: `WRITEBIT v`, likewise; that there is no delay between its first three steps is the spec's own choice (D5). -/
def Obligations.WriteBitDrivesOneCell : Prop :=
  ∀ v : Bool, encode (.writebit v) = 0x20000000#32 + (if v then 1#32 else 0#32) ∧ ∀ s : State, s.SessionReady →
    (s.OkFor 3 → exec (.writebit v) s = .next ((s.afterWriteBit v).setResult .returned)) ∧
    (∀ k, k < 3 → s.OkFor k → s.answer k = false →
      ∃ e t, exec (.writebit v) s = .next t ∧ callError k (bitWave s.session.halfPeriod v) = some e ∧
        t.result = .status (.error e) ∧ t.trace = s.trace ++ cutAt k (bitWave s.session.halfPeriod v) ∧
        t.flags = s.flags ∧ t.ghost = s.ghost)

/-- R81: `READBIT`: the bit for a sample of 0 or 1, `ProtocolError(sample)` after the whole sequence for an invalid one
(that it comes after it is the spec's own choice, D6); and where it ends when a call fails: `SAMPLE` is written only if
the sample was taken. -/
def Obligations.ReadBitSamplesTheDataPin : Prop :=
  encode .readbit = 0x30000000#32 ∧ ∀ s : State, s.SessionReady →
    (s.OkFor 3 → s.sample 0 = .zero → exec .readbit s = .next (s.afterReadBit.setResult (.bit false))) ∧
    (s.OkFor 3 → s.sample 0 = .one → exec .readbit s = .next (s.afterReadBit.setResult (.bit true))) ∧
    (s.OkFor 3 → s.sample 0 = .invalid →
      exec .readbit s = .next (s.afterReadBit.setResult (.status (.error (.protocol .sample))))) ∧
    (∀ k, k < 3 → s.OkFor k → s.answer k = false →
      ∃ e t, exec .readbit s = .next t ∧ callError k (readWave s.session.halfPeriod (s.sample 0)) = some e ∧
        t.result = .status (.error e) ∧
        t.trace = s.trace ++ cutAt k (readWave s.session.halfPeriod (s.sample 0)) ∧
        t.flags.nack = s.flags.nack ∧ t.flags.sample = (if k = 2 then s.sample 0 else s.flags.sample))

/-- R82: `WRITEBYTE b`, for every byte: its bits, the most significant first, each a `WRITEBIT` cell, then the
acknowledgement slot; 0 is ack and 1 is nack; a failing call or an invalid sample abandons the byte where it is, `NACK`
unwritten. That the whole acknowledgement slot precedes the error of an invalid sample is the spec's own choice (D6), as is
the place of the delays (D5). -/
def Obligations.WriteByteSendsMsbFirst : Prop :=
  ∀ b : Byte, encode (.writebyte b) = 0x40000000#32 + b.setWidth 32 ∧ ∀ s : State, s.SessionReady →
    (s.OkFor 28 → s.sample 0 = .zero → exec (.writebyte b) s = .next ((s.afterByte b).setResult (.byteAck .ack))) ∧
    (s.OkFor 28 → s.sample 0 = .one → exec (.writebyte b) s = .next ((s.afterByte b).setResult (.byteAck .nack))) ∧
    (s.OkFor 28 → s.sample 0 = .invalid →
      exec (.writebyte b) s = .next ((s.afterByte b).setResult (.status (.error (.protocol .sample))))) ∧
    (∀ k, k < 28 → s.OkFor k → s.answer k = false →
      ∃ e t, exec (.writebyte b) s = .next t ∧ callError k (byteWave s.session.halfPeriod b (s.sample 0)) = some e ∧
        t.result = .status (.error e) ∧
        t.trace = s.trace ++ cutAt k (byteWave s.session.halfPeriod b (s.sample 0)) ∧
        t.flags.nack = s.flags.nack)

/-- R84, which the spec derives from R78 to R82: the pin state after each Bus Engine operation that completes normally,
whatever the state before. -/
def Obligations.PinStateAfterBusOperations : Prop :=
  ∀ s t : State,
    (exec .start s = .next t → t.result = .returned → t.scl.drives true ∧ t.sda.drives false) ∧
    (exec .stop s = .next t → t.result = .returned → t.scl.drives true ∧ t.sda.drives true) ∧
    (∀ v, exec (.writebit v) s = .next t → t.result = .returned → t.scl.drives true ∧ t.sda.drives v) ∧
    (∀ b, exec .readbit s = .next t → t.result = .bit b → t.scl.drives false ∧ t.sda.dir = .inp) ∧
    (∀ b a, exec (.writebyte b) s = .next t → t.result = .byteAck a → t.scl.drives false ∧ t.sda.dir = .inp)

/-- What START, STOP, WRITEBIT and READBIT leave alone, in every environment: every register, every flag but READBIT's
`SAMPLE`, the ghosts but START's and STOP's `BUS_BUSY`, and all that is known of the responder. -/
def Obligations.BitOperationsFrame : Prop :=
  ∀ (i : Instr) (s t : State), i = .start ∨ i = .stop ∨ (∃ v, i = .writebit v) ∨ i = .readbit → exec i s = .next t →
    t.cfg = s.cfg ∧ t.session = s.session ∧ t.work = s.work ∧ t.status = s.status ∧ t.remote = s.remote ∧ t.pc = s.pc ∧
    t.buf0 = s.buf0 ∧ t.buf1 = s.buf1 ∧ t.inputs = s.inputs ∧
    t.flags.nack = s.flags.nack ∧ (i ≠ .readbit → t.flags.sample = s.flags.sample) ∧
    t.ghost.engineCmd = s.ghost.engineCmd ∧ t.ghost.pageCmd = s.ghost.pageCmd ∧
    ((∃ v, i = .writebit v) ∨ i = .readbit → t.ghost.busBusy = s.ghost.busBusy) ∧
    t.scl.claimed = s.scl.claimed ∧ t.sda.claimed = s.sda.claimed

/-- What WRITEBYTE leaves alone, in every environment: every register but `SHIFT` and `BITCNT`, the ghosts, and all that
is known of the responder; it writes no flag but `NACK` and `SAMPLE` (there are no others). -/
def Obligations.WriteByteFrame : Prop :=
  ∀ (b : Byte) (s t : State), exec (.writebyte b) s = .next t →
    t.cfg = s.cfg ∧ t.session = s.session ∧ t.status = s.status ∧ t.remote = s.remote ∧ t.pc = s.pc ∧ t.ghost = s.ghost ∧
    t.buf0 = s.buf0 ∧ t.buf1 = s.buf1 ∧ t.inputs = s.inputs ∧
    t.work = { s.work with shift := t.work.shift, bitcnt := t.work.bitcnt } ∧
    t.scl.claimed = s.scl.claimed ∧ t.sda.claimed = s.sda.claimed

/-! ## The Register Protocol (R96 to R100) -/

/-- R97: `SETREG` when every pin call answers ok: acknowledged, it is one transaction and performs the write; a nack at a
stage sends nothing more, emits one stop condition and is that stage's error; and how many pin events each has. The place
of the delays in the waves is the spec's own choice (D5), and what the two next states record or forget of the register is
the model's (log entry 12). -/
def Obligations.SetRegIsOneTransaction : Prop :=
  ∀ dev sub val : Byte,
    encode (.setreg dev sub val) =
      0x50000000#32 + (dev.setWidth 32 <<< 16) + (sub.setWidth 32 <<< 8) + val.setWidth 32 ∧
    (∀ s : State, s.SessionReady →
      (s.OkFor 91 → s.AckFor 3 →
        exec (.setreg dev sub val) s = .next ((s.wrote (dev, sub, val)).setResult (.status .success))) ∧
      (s.OkFor 35 → s.sample 0 = .one →
        exec (.setreg dev sub val) s =
          .next ((s.stoppedAt (dev, sub, val) [] dev .one).setResult (.status (.error (.protocol .address))))) ∧
      (s.OkFor 63 → s.sample 0 = .zero → s.sample 1 = .one →
        exec (.setreg dev sub val) s =
          .next ((s.stoppedAt (dev, sub, val) [dev] sub .one).setResult (.status (.error (.protocol .subaddress))))) ∧
      (s.OkFor 91 → s.sample 0 = .zero → s.sample 1 = .zero → s.sample 2 = .one →
        exec (.setreg dev sub val) s =
          .next ((s.stoppedAt (dev, sub, val) [dev, sub] val .one).setResult (.status (.error (.protocol .value)))))) ∧
    (∀ T, (transactionWave T dev sub val).countP Event.isPinEvent = 94 ∧
      (failedWave T [] dev .one).countP Event.isPinEvent = 36 ∧
      (failedWave T [dev] sub .one).countP Event.isPinEvent = 65 ∧
      (failedWave T [dev, sub] val .one).countP Event.isPinEvent = 94)

/-- R97: the wave of a successful `SETREG` is the frame of R63: the start condition, the three bytes, the stop
condition; and it leaves the bus idle. The place of the delays is the spec's own choice (D5); that the model keeps the value
of the acknowledged register is its own (log entry 12). -/
def Obligations.SetRegLeavesTheBusIdle : Prop :=
  ∀ (s : State) (dev sub val : Byte), s.SessionReady → s.OkFor 91 → s.AckFor 3 →
    ∃ t, exec (.setreg dev sub val) s = .next t ∧ t.result = .status .success ∧ t.BusIdle ∧ t.ghost.busBusy = false ∧
      t.trace = s.trace ++ startWave s.session.halfPeriod ++ byteWave s.session.halfPeriod dev .zero
        ++ byteWave s.session.halfPeriod sub .zero ++ byteWave s.session.halfPeriod val .zero
        ++ stopWave s.session.halfPeriod ∧
      t.remote.regs.read (remoteAddr dev sub) = some val

/-- R98, the spec's own completion of R97 (D7; and D6 for the invalid sample, D5 for the delays): `SETREG` when a Bus Engine
operation raises, or when the stop condition itself fails: `STOP` is attempted exactly once, its own error is discarded
except on the success path, and the first error is reported unchanged. The three nack and invalid-sample stages, then a
failing pin call anywhere before the last `STOP`, then a failing call of that `STOP`. -/
def Obligations.SetRegStopsExactlyOnce : Prop :=
  ∀ (s : State) (dev sub val : Byte), s.SessionReady →
    (s.OkFor 31 → s.sample 0 ≠ .zero →
      ∃ t, exec (.setreg dev sub val) s = .next t ∧ t.result = .status (.error (nackError .address (s.sample 0))) ∧
        t.trace = s.trace ++ openWave s.session.halfPeriod [] dev (s.sample 0)
          ++ stopEvents s.session.halfPeriod (fun j => s.answer (31 + j)) ∧
        ((∀ j, j < 4 → s.answer (31 + j) = true) → t.BusIdle)) ∧
    (s.OkFor 59 → s.sample 0 = .zero → s.sample 1 ≠ .zero →
      ∃ t, exec (.setreg dev sub val) s = .next t ∧ t.result = .status (.error (nackError .subaddress (s.sample 1))) ∧
        t.trace = s.trace ++ openWave s.session.halfPeriod [dev] sub (s.sample 1)
          ++ stopEvents s.session.halfPeriod (fun j => s.answer (59 + j)) ∧
        ((∀ j, j < 4 → s.answer (59 + j) = true) → t.BusIdle)) ∧
    (s.OkFor 87 → s.sample 0 = .zero → s.sample 1 = .zero → s.sample 2 ≠ .zero →
      ∃ t, exec (.setreg dev sub val) s = .next t ∧ t.result = .status (.error (nackError .value (s.sample 2))) ∧
        t.trace = s.trace ++ openWave s.session.halfPeriod [dev, sub] val (s.sample 2)
          ++ stopEvents s.session.halfPeriod (fun j => s.answer (87 + j)) ∧
        ((∀ j, j < 4 → s.answer (87 + j) = true) → t.BusIdle)) ∧
    (∀ k, k < 87 → s.OkFor k → s.answer k = false → (∀ j, 31 + 28 * j ≤ k → s.sample j = .zero) →
      ∃ e t, exec (.setreg dev sub val) s = .next t ∧
        callError k (startWave s.session.halfPeriod ++ byteWave s.session.halfPeriod dev (s.sample 0)
          ++ byteWave s.session.halfPeriod sub (s.sample 1) ++ byteWave s.session.halfPeriod val (s.sample 2)) = some e ∧
        t.result = .status (.error e) ∧
        t.trace = s.trace ++ cutAt k (startWave s.session.halfPeriod ++ byteWave s.session.halfPeriod dev (s.sample 0)
          ++ byteWave s.session.halfPeriod sub (s.sample 1) ++ byteWave s.session.halfPeriod val (s.sample 2))
          ++ stopEvents s.session.halfPeriod (fun j => s.answer (k + 1 + j)) ∧
        ((∀ j, j < 4 → s.answer (k + 1 + j) = true) → t.BusIdle)) ∧
    (∀ j, j < 4 → s.OkFor (87 + j) → s.answer (87 + j) = false → s.AckFor 3 →
      ∃ e t, exec (.setreg dev sub val) s = .next t ∧ callError j (stopWave s.session.halfPeriod) = some e ∧
        t.result = .status (.error e) ∧
        t.trace = s.trace ++ openWave s.session.halfPeriod [dev, sub] val .zero
          ++ cutAt j (stopWave s.session.halfPeriod))

/-- R40, R43, R99: `WRITEBULK` with every byte acknowledged: its transactions in ascending sub-address order, modulo 256,
for every count from 0 to 255. The wrap is the spec's own choice (D8); what the next state records of the registers is the
model's (log entry 12). -/
def Obligations.WriteBulkWritesInOrder : Prop :=
  ∀ (s : State) (dev start n : Byte), s.SessionReady → s.OkFor (91 * n.toNat) → s.AckFor (3 * n.toNat) →
    exec (.writebulk dev start n) s =
      .next (((s.wroteAll (bulkWrites dev start (s.operand0 n))).setBulkI n).setResult (.status .success)) ∧
    (s.wroteAll (bulkWrites dev start (s.operand0 n))).trace =
      s.trace ++ wavesOf s.session.halfPeriod (bulkWrites dev start (s.operand0 n)) ∧
    bulkWrites dev start (s.operand0 n) =
      (List.range n.toNat).map fun i => (dev, start + BitVec.ofNat 8 i, bufferByte s.buf0 0 s.env.answers.drawn i)

/-- R99, in every environment: `WRITEBULK` does what its `SETREG`s do when each is issued on its own, up to the first that
fails, whose error it returns unchanged; it then logs the index of that byte, left in `BULK_I`. The wrap of the sub-address
(D8) and the index being in the log only (D9) are the spec's own choices; what is known of the registers after a success
is the model's (log entry 12). -/
def Obligations.WriteBulkIsItsSetRegs : Prop :=
  ∀ (s : State) (dev start n : Byte), s.SessionReady →
    ∃ t, exec (.writebulk dev start n) s = .next t ∧
      t.SameBus (s.afterSetRegs (bulkWrites dev start (s.operand0 n))) ∧
      ((s.afterSetRegs (bulkWrites dev start (s.operand0 n))).failure = none →
        t.trace = (s.afterSetRegs (bulkWrites dev start (s.operand0 n))).trace ∧
        t.remote = (s.afterSetRegs (bulkWrites dev start (s.operand0 n))).remote ∧ t.work.bulkI = n) ∧
      (∀ e, (s.afterSetRegs (bulkWrites dev start (s.operand0 n))).failure = some e →
        t.trace = (s.afterSetRegs (bulkWrites dev start (s.operand0 n))).trace ++ [.log (.failedAtByte t.work.bulkI)] ∧
        t.work.bulkI.toNat < n.toNat ∧
        s.afterSetRegs (bulkWrites dev start (s.operand0 n)) =
          s.afterSetRegs ((bulkWrites dev start (s.operand0 n)).take (t.work.bulkI.toNat + 1)) ∧
        (s.afterSetRegs ((bulkWrites dev start (s.operand0 n)).take t.work.bulkI.toNat)).failure = none)

/-- R46, R170, U1, U2: after a failure nothing is known of the registers of the transaction, of the bulk write's range,
and of the bring-up table. That the model keeps what is known, and forgets it, is its own choice (log entry 12). -/
def Obligations.FailedWritesAreForgotten : Prop :=
  ∀ (s t : State) (e : Error), t.result = .status (.error e) →
    (∀ dev sub val, exec (.setreg dev sub val) s = .next t → t.remote.regs.read (remoteAddr dev sub) = none) ∧
    (∀ dev start n, exec (.writebulk dev start n) s = .next t →
      ∀ sub ∈ bulkSubs start n.toNat, t.remote.regs.read (remoteAddr dev sub) = none) ∧
    (exec .initialise s = .next t →
      ∀ entry ∈ s.cfg.initSeq, t.remote.regs.read (remoteAddr s.cfg.devAddr entry.1) = none)

/-- What SETREG and WRITEBULK leave alone, in every environment: every register but those of the byte and the transaction,
and WRITEBULK's `BULK_I`; and the ghosts but `BUS_BUSY`. That `PAGE_CMD` stays also where they write the page-select
register is the model's own choice (log entry 21). -/
def Obligations.RegisterProtocolFrame : Prop :=
  ∀ (i : Instr) (s t : State), (∃ dev sub val, i = .setreg dev sub val) ∨ (∃ dev start n, i = .writebulk dev start n) →
    exec i s = .next t →
    t.cfg = s.cfg ∧ t.session = s.session ∧ t.status = s.status ∧ t.pc = s.pc ∧
    t.buf0 = s.buf0 ∧ t.buf1 = s.buf1 ∧ t.inputs = s.inputs ∧
    t.work.initI = s.work.initI ∧ t.work.attempt = s.work.attempt ∧ t.work.tape = s.work.tape ∧
    ((∃ dev sub val, i = .setreg dev sub val) → t.work.bulkI = s.work.bulkI) ∧
    t.ghost.engineCmd = s.ghost.engineCmd ∧ t.ghost.pageCmd = s.ghost.pageCmd ∧
    t.scl.claimed = s.scl.claimed ∧ t.sda.claimed = s.sda.claimed

/-! ## The Device Programmer (R106 to R113) -/

/-- R109, R110: `INITIALIZE` with every byte acknowledged: the 13 writes of the table, in order. What the next state records
of the registers is the model's own choice (log entry 12). -/
def Obligations.InitializeWritesTheTable : Prop :=
  ∀ s : State, s.SessionReady → s.cfg.admissible = true → s.OkFor 1183 → s.AckFor 39 →
    exec .initialise s = .next (((s.wroteAll (initWrites s.cfg)).setInitI 13#4).setResult (.status .success)) ∧
    (s.wroteAll (initWrites s.cfg)).trace = s.trace ++ wavesOf s.session.halfPeriod (initWrites s.cfg) ∧
    (initWrites s.cfg).length = 13

/-- R109, in every environment: `INITIALIZE` does what its `SETREG`s do when each is issued on its own, up to the first
that fails, whose error it returns unchanged; nothing is rolled back. `INIT_I` is the number of entries written: 13 after
a success, j when entry j fails. What is known of the registers after a success is the model's own choice (log entry 12). -/
def Obligations.InitializeIsItsSetRegs : Prop :=
  ∀ s : State, s.SessionReady →
    ∃ t, exec .initialise s = .next t ∧ t.SameBus (s.afterSetRegs (initWrites s.cfg)) ∧
      t.trace = (s.afterSetRegs (initWrites s.cfg)).trace ∧
      ((s.afterSetRegs (initWrites s.cfg)).failure = none →
        t.remote = (s.afterSetRegs (initWrites s.cfg)).remote ∧
        t.work.initI = BitVec.ofNat 4 (initWrites s.cfg).length ∧
        (s.cfg.admissible = true → t.work.initI = 13#4)) ∧
      (∀ e, (s.afterSetRegs (initWrites s.cfg)).failure = some e →
        ∃ j, j < (initWrites s.cfg).length ∧ t.work.initI = BitVec.ofNat 4 j ∧
          s.afterSetRegs (initWrites s.cfg) = s.afterSetRegs ((initWrites s.cfg).take (j + 1)) ∧
          (s.afterSetRegs ((initWrites s.cfg).take j)).failure = none)

/-- R107, R108, R111: `LOADPROGRAM` with every byte acknowledged and buffers of at most 32 bytes: m + p + 6 writes, Load
before the uploads, the page select directly before each, Halt after both, the two writes of Run last. That shorter
buffers are accepted is the spec's own choice (D21), as that Load and Halt are one write each (D11); what the next state
records of the registers is the model's (log entry 12). -/
def Obligations.LoadProgramFollowsItsSequence : Prop :=
  ∀ (s : State) (m p : Byte), s.SessionReady → m.toNat ≤ 32 → p.toNat ≤ 32 →
    s.OkFor (91 * (m.toNat + p.toNat + 6)) → s.AckFor (3 * (m.toNat + p.toNat + 6)) →
    exec (.loadprogram m p) s =
      .next ((((s.wroteAll (loadWrites s.cfg (s.operand0 m) (s.operand1 p))).setBulkI p).commanded .run
        .program).setResult (.status .success)) ∧
    (s.wroteAll (loadWrites s.cfg (s.operand0 m) (s.operand1 p))).trace =
      s.trace ++ wavesOf s.session.halfPeriod (loadWrites s.cfg (s.operand0 m) (s.operand1 p)) ∧
    (loadWrites s.cfg (s.operand0 m) (s.operand1 p)).length = m.toNat + p.toNat + 6

/-- R107, R108, R111, U3: a `LOADPROGRAM` whose write number j fails: the later writes are not attempted, a bulk write logs
its index, and engine and page stay as last commanded: the engine not halted in the uploads. First with write j not
acknowledged at its device address byte, the events written out; then in every environment and however write j fails (at
any of its bytes, by an invalid sample, at any pin call): its error is that of the `SETREG` that fails when the writes are
issued on their own, and the events are theirs up to and with it. That the index is in the log only (D9) and that an
invalid sample fails after its slot (D6) are the spec's own choices; when `PAGE_CMD` changes is the model's (log entry 21). -/
def Obligations.LoadProgramStopsAtAFailure : Prop :=
  ∀ (s : State) (m p : Byte), s.SessionReady → m.toNat ≤ 32 → p.toNat ≤ 32 →
    (∀ j, j < m.toNat + p.toNat + 6 → s.OkFor (91 * j + 35) → s.AckFor (3 * j) → s.sample (3 * j) ≠ .zero →
      ∃ t, exec (.loadprogram m p) s = .next t ∧
        t.result = .status (.error (nackError .address (s.sample (3 * j)))) ∧
        t.trace = s.trace ++ wavesOf s.session.halfPeriod ((loadWrites s.cfg (s.operand0 m) (s.operand1 p)).take j)
          ++ failedWave s.session.halfPeriod [] s.cfg.devAddr (s.sample (3 * j)) ++ loadLog m.toNat p.toNat j ∧
        t.ghost.engineCmd = loadEngine m.toNat p.toNat j s.ghost.engineCmd) ∧
    (∀ e, (s.afterSetRegs (loadWrites s.cfg (s.operand0 m) (s.operand1 p))).failure = some e →
      ∃ j t, exec (.loadprogram m p) s = .next t ∧ j < m.toNat + p.toNat + 6 ∧
        t.result = .status (.error e) ∧
        (s.afterSetRegs ((loadWrites s.cfg (s.operand0 m) (s.operand1 p)).take j)).failure = none ∧
        t.SameBus (s.afterSetRegs ((loadWrites s.cfg (s.operand0 m) (s.operand1 p)).take (j + 1))) ∧
        t.trace = (s.afterSetRegs ((loadWrites s.cfg (s.operand0 m) (s.operand1 p)).take (j + 1))).trace
          ++ loadLog m.toNat p.toNat j ∧
        t.ghost.engineCmd = loadEngine m.toNat p.toNat j s.ghost.engineCmd ∧
        t.ghost.pageCmd = loadPage m.toNat j s.ghost.pageCmd)

/-- R111, in every environment: a `LOADPROGRAM` whose buffers fit does what its `SETREG`s do when each is issued on its
own, up to the first that fails, whose error it returns unchanged; the traces agree without the log (R12). What is known of
the registers after a success is the model's own choice (log entry 12). -/
def Obligations.LoadProgramIsItsSetRegs : Prop :=
  ∀ (s : State) (m p : Byte), s.SessionReady → m.toNat ≤ 32 → p.toNat ≤ 32 →
    ∃ t, exec (.loadprogram m p) s = .next t ∧
      t.SameBus (s.afterSetRegs (loadWrites s.cfg (s.operand0 m) (s.operand1 p))) ∧
      t.trace.filter (fun e => !e.isLog) =
        (s.afterSetRegs (loadWrites s.cfg (s.operand0 m) (s.operand1 p))).trace.filter (fun e => !e.isLog) ∧
      ((s.afterSetRegs (loadWrites s.cfg (s.operand0 m) (s.operand1 p))).failure = none →
        t.remote = (s.afterSetRegs (loadWrites s.cfg (s.operand0 m) (s.operand1 p))).remote)

/-- R139: the two validations, before any hardware access: no event, no answer taken; `PLAYTAPE` has written `TAPE`. And
nothing else is validated: an operation that returns a `ValidationError` is one of these two. -/
def Obligations.ValidationPrecedesTheBus : Prop :=
  ∀ s : State, s.SessionReady → s.cfg.admissible = true →
    (∀ m p : Byte, 32 < m.toNat ∨ 32 < p.toNat →
      exec (.loadprogram m p) s = .next (s.setResult (.status (.error (.validation .size))))) ∧
    (∀ index : Byte, 2 ≤ index.toNat →
      exec (.playtape index) s = .next ((s.setTape index).setResult (.status (.error (.validation .index))))) ∧
    (∀ (i : Instr) (t : State) (kind : Validation), exec i s = .next t → t.result = .status (.error (.validation kind)) →
      (∃ m p : Byte, i = .loadprogram m p ∧ (32 < m.toNat ∨ 32 < p.toNat) ∧ kind = .size) ∨
      (∃ index : Byte, i = .playtape index ∧ 2 ≤ index.toNat ∧ kind = .index))

/-- R112, in every environment: the word of `PLAYTAPE`; from index 2 on, `ValidationError(index)` and no event; below it, what
`LOADPROGRAM` of the tape's mux table and the one program does, its result and errors unchanged; 70 transactions when
every byte is acknowledged; two tapes differ in the mux bytes only. -/
def Obligations.PlayTapeIsItsLoadProgram : Prop :=
  ∀ index : Byte, encode (.playtape index) = 0x90000000#32 + index.setWidth 32 ∧
    ∀ s : State, s.SessionReady → s.cfg.admissible = true →
      (2 ≤ index.toNat →
        exec (.playtape index) s = .next ((s.setTape index).setResult (.status (.error (.validation .index))))) ∧
      (index.toNat < 2 →
        ∃ t, exec (.loadprogram 32#8 32#8)
            { s.setTape index with buf0 := s.cfg.muxTable index, buf1 := s.cfg.program } = .next t ∧
          exec (.playtape index) s = .next { t with buf0 := s.buf0, buf1 := s.buf1 } ∧
          t.work.tape = index ∧ t.result ≠ .status (.error (.validation .size))) ∧
      (index.toNat < 2 → s.OkFor 6370 → s.AckFor 210 →
        ∃ t writes, exec (.playtape index) s = .next t ∧ t.result = .status .success ∧
          t.trace = s.trace ++ wavesOf s.session.halfPeriod writes ∧ writes.length = 70)

/-- R112: `PLAYTAPE` of tape 0 or 1 with every byte acknowledged: the 70 writes of `LOADPROGRAM` with the tape's mux table
and the one program. What the next state records of the registers is the model's own choice (log entry 12). -/
def Obligations.PlayTapeLoadsTheTape : Prop :=
  ∀ (s : State) (index : Byte), s.SessionReady → s.cfg.admissible = true → index.toNat < 2 → s.OkFor 6370 →
    s.AckFor 210 →
    exec (.playtape index) s =
      .next (((((s.wroteAll (loadWrites s.cfg (s.cfg.muxTable index) s.cfg.program)).setBulkI 32#8).commanded .run
        .program).setTape index).setResult (.status .success)) ∧
    (s.wroteAll (loadWrites s.cfg (s.cfg.muxTable index) s.cfg.program)).trace =
      s.trace ++ wavesOf s.session.halfPeriod (loadWrites s.cfg (s.cfg.muxTable index) s.cfg.program) ∧
    (loadWrites s.cfg (s.cfg.muxTable index) s.cfg.program).length = 70

/-- R36 (b), R48, R167: after an acknowledged `LOADPROGRAM`, with the window clear of the block's other registers, the
mux buffer is in the LED-mux page and the program buffer in the program page, byte for byte, as the model keeps what was
acknowledged (log entry 12). -/
def Obligations.UploadsReachTheSelectedPage : Prop :=
  ∀ (s : State) (m p : Byte), s.SessionReady → s.cfg.admissible = true → m.toNat ≤ 32 → p.toNat ≤ 32 →
    (∀ r ∈ [s.cfg.regEngMode, s.cfg.regPageSel, s.cfg.regEngRun, s.cfg.regFreeRun],
      windowOffset s.cfg s.cfg.devAddr r = none) →
    s.OkFor (91 * (m.toNat + p.toNat + 6)) → s.AckFor (3 * (m.toNat + p.toNat + 6)) →
    ∃ t, exec (.loadprogram m p) s = .next t ∧
      (∀ i, i < m.toNat → t.remote.muxPage.read i = (s.operand0 m)[i]?) ∧
      (∀ i, i < p.toNat → t.remote.progPage.read i = (s.operand1 p)[i]?)

/-- What INITIALIZE, LOADPROGRAM and PLAYTAPE leave alone, in every environment: `ATTEMPT`; `TAPE` but for PLAYTAPE, which
writes its index there; `INIT_I` and the engine and page ghosts as said. That INITIALIZE leaves `PAGE_CMD` also where its
table writes the page-select register is the model's own choice (log entry 21). -/
def Obligations.DeviceProgrammerFrame : Prop :=
  ∀ (i : Instr) (s t : State), i = .initialise ∨ (∃ m p, i = .loadprogram m p) ∨ (∃ index, i = .playtape index) →
    exec i s = .next t →
    t.cfg = s.cfg ∧ t.session = s.session ∧ t.status = s.status ∧ t.pc = s.pc ∧
    t.buf0 = s.buf0 ∧ t.buf1 = s.buf1 ∧ t.inputs = s.inputs ∧ t.work.attempt = s.work.attempt ∧
    (∀ index, i = .playtape index → t.work.tape = index) ∧
    ((∀ index, i ≠ .playtape index) → t.work.tape = s.work.tape) ∧
    (i = .initialise → t.ghost.engineCmd = s.ghost.engineCmd ∧ t.ghost.pageCmd = s.ghost.pageCmd) ∧
    (i ≠ .initialise → t.work.initI = s.work.initI) ∧
    t.scl.claimed = s.scl.claimed ∧ t.sda.claimed = s.sda.claimed

/-! ## The Sequencer (R121 to R131) -/

/-- R124, R125, R126: a `RUN` whose pins are granted, whose first j attempts at bring-up (j at most 14) are not
acknowledged and whose next is, as is playback: the attempts with the backoff between them, the 13 writes, the 70 writes
of the tape (none and `ValidationError(index)` if there is no such tape), the two releases, and the combined status. The order of
requests and releases (D12), the retry of every failure with the backoff between attempts only (D13) and the true cleanup
error (D15) are the spec's own choices; that a pin whose release failed stays claimed is the model's (log entry 11). -/
def Obligations.RunBringsUpAndPlays : Prop :=
  ∀ (s : State) (index : Byte) (j : Nat), s.RunReady → j ≤ 14 → s.PinsFree → s.cfg.admissible = true →
    s.OkFor (2 + 35 * j + 1183 + 91 * (playWrites s.cfg index).length) → (∀ k, k < j → s.sample k = .one) →
    (∀ k, k < 39 + 3 * (playWrites s.cfg index).length → s.sample (j + k) = .zero) →
    ∃ t, exec (.run index) s = .next t ∧
      s.RanTo t (playError index) (s.answer (2 + 35 * j + 1183 + 91 * (playWrites s.cfg index).length))
        (s.answer (2 + 35 * j + 1183 + 91 * (playWrites s.cfg index).length + 1))
        (failedAttempts s.cfg Config.halfPeriod j
          ++ wavesOf Config.halfPeriod (initWrites s.cfg ++ playWrites s.cfg index)) ∧
      t.work.attempt = BitVec.ofNat 4 (j + 1) ∧ t.work.tape = index ∧
      (index.toNat < 2 → t.ghost.engineCmd = .run ∧ t.ghost.pageCmd = .program)

/-- R124, R140: a responder that never acknowledges ends bring-up after exactly 15 attempts, 14 backoffs between them,
with `DeviceInitError`; playback is skipped, the pins are released, and a cleanup failure does not override. The 14 backoffs
(D13), the cause in the error (D14) and the order of requests and releases (D12) are the spec's own choices; that a pin
whose release failed stays claimed is the model's (log entry 11). -/
def Obligations.RunGivesUpAfterFifteenAttempts : Prop :=
  ∀ (s : State) (index : Byte), s.RunReady → s.PinsFree → s.cfg.admissible = true → s.OkFor 527 →
    (∀ k, k < 15 → s.sample k = .one) →
    ∃ t, exec (.run index) s = .next t ∧
      s.RanTo t (some (.deviceInit (.protocol .address))) (s.answer 527) (s.answer 528)
        (failedAttempts s.cfg Config.halfPeriod 14 ++ failedWave Config.halfPeriod [] s.cfg.devAddr .one) ∧
      t.work.attempt = 15#4 ∧ t.ghost.engineCmd = s.ghost.engineCmd ∧ t.ghost.pageCmd = s.ghost.pageCmd

/-- R122, R125: a refused pin ends `RUN` at once with its `ResourceError`: nothing is played and no cleanup runs; a granted
clock pin is given back first, and a failure of that is only logged. That the clock pin is requested first (D12) and that
the failed rollback is only logged (D24) are the spec's own choices; that a pin whose release failed stays claimed is the
model's (log entry 11). -/
def Obligations.RunWithoutItsPins : Prop :=
  ∀ (s : State) (index : Byte), s.RunReady →
    (s.answer 0 = false ∨ s.scl.claimed = true →
      ∃ t, exec (.run index) s = .next t ∧ t.trace = s.trace ++ [.req .scl false] ∧
        t.result = .status (.error (.resource .request .scl)) ∧
        t.status.exitStatus = .error (.resource .request .scl) ∧
        t.pc.top = .done (.error (.resource .request .scl)) ∧ t.session = s.session) ∧
    (s.answer 0 = true → s.scl.claimed = false → s.answer 1 = false ∨ s.sda.claimed = true →
      ∃ t, exec (.run index) s = .next t ∧
        t.trace = s.trace ++ [.req .scl true, .req .sda false, .rel .scl (s.answer 2)]
          ++ (if s.answer 2 then [] else [.log .rollbackReleaseFailed]) ∧
        t.result = .status (.error (.resource .request .sda)) ∧
        t.status.exitStatus = .error (.resource .request .sda) ∧
        t.pc.top = .done (.error (.resource .request .sda)) ∧ t.session = { s.session with hScl := none } ∧
        t.scl.claimed = !s.answer 2)

/-- R123, R126, in every environment: once both pins are granted, the release of both ends `RUN`, and the status combines
the primary and the cleanup error by the table of R126; nothing in between requests or releases a pin. That the cleanup
error is the true one (D15), and the order of the releases and which of two failed ones it is (D12), are the spec's own
choices. -/
def Obligations.RunCombinesTheOutcomes : Prop :=
  ∀ (s : State) (index : Byte), s.RunReady → s.PinsFree → s.OkFor 2 →
    ∃ t evs okSda okScl, exec (.run index) s = .next t ∧
      t.trace = s.trace ++ [.req .scl true, .req .sda true] ++ evs ++ [.rel .sda okSda, .rel .scl okScl]
        ++ combinedLog t.status.primaryErr t.status.cleanupErr ∧
      (∀ e ∈ evs, Event.isQuiet e = true) ∧
      t.status.cleanupErr = releaseFailure okSda okScl ∧
      t.status.exitStatus = combinedStatus t.status.primaryErr t.status.cleanupErr ∧
      t.result = .status t.status.exitStatus ∧ t.pc.top = .done t.status.exitStatus ∧
      t.session.valid = false ∧ t.session.hScl = none ∧ t.session.hSda = none

/-- R124, R125, in every environment: once both pins are granted, `RUN` does what its steps do when each is issued on its
own: `INITIALIZE` until it succeeds, at most 15 times, the backoff after each failure but the last; `PLAYTAPE` unless they
all failed; the releases and the combination. The order of requests and releases (D12), the retries and backoffs (D13), the
cause in the error (D14) and the true cleanup error (D15) are the spec's own choices; the claim that a failed release
leaves (log entry 11) and what is known of the responder (log entry 12) are the model's. -/
def Obligations.RunIsItsOperations : Prop :=
  ∀ (s : State) (index : Byte), s.RunReady → s.PinsFree → s.OkFor 2 →
    exec (.run index) s =
      .next { runSteps index s with
        pc := { s.pc with top := .done (runSteps index s).status.exitStatus }
        result := .status (runSteps index s).status.exitStatus }

/-- R127: `RUNERR` is `RUN` and then, regardless of its outcome, the terminal wait; it returns `TerminalIdle` of the
status (that it returns one is the spec's own choice, D16). -/
def Obligations.RunErrIsRunThenTerminalWait : Prop :=
  ∀ (s : State) (index : Byte), encode (.runerr index) = 0xB0000000#32 + index.setWidth 32 ∧
    (s.RunReady → ∃ st t, exec (.run index) s = .next t ∧ t.result = .status st ∧
      exec (.runerr index) s =
        .next { t with pc := { t.pc with top := .terminalWait st }, result := .status (.terminalIdle st) })

/-- What RUN and RUNERR leave alone, in every environment: the parameters, the buffers, the host's further inputs and the
frames below; `TAPE` holds the index. -/
def Obligations.SequencerFrame : Prop :=
  ∀ (i : Instr) (index : Byte) (s t : State), i = .run index ∨ i = .runerr index → exec i s = .next t →
    t.cfg = s.cfg ∧ t.buf0 = s.buf0 ∧ t.buf1 = s.buf1 ∧ t.inputs = s.inputs ∧ t.pc.frames = s.pc.frames ∧
    t.work.tape = index

/-! ## The property of R83 -/

/-- R83: for all bytes, `WRITEBYTE` emits exactly eight bit cells with the bits most significant first, seen in the pin
events of the trace; and a responder that holds the data line low in the acknowledgement slot makes it report ack, one
that holds it high nack. -/
def Obligations.WriteByteMeetsItsTestProperty : Prop :=
  ∀ (s : State) (b : Byte) (v : Sample), s.SessionReady → s.OkFor 28 → s.sample 0 = v → v = .zero ∨ v = .one →
    ∃ t, exec (.writebyte b) s = .next t ∧
      t.trace.filter Event.isPinEvent = s.trace.filter Event.isPinEvent
        ++ (List.range 8).flatMap (fun k =>
            [.out .scl false true, .out .sda (b.getLsbD (7 - k)) true, .out .scl true true])
        ++ [.out .sda true true, .out .scl true true, .inp .sda true, .rd .sda v, .out .scl false true] ∧
      (v = .zero → t.result = .byteAck .ack) ∧ (v = .one → t.result = .byteAck .nack)
end

