-- ==== Sys2Proof/Laws/State.lean ====
section
/-! SUPPORT. One lemma per field per update of State, and the laws of repeating an update. -/

namespace Sys2Proof.Machine

@[simp] theorem State.setSession_cfg (s : State) (v : Session) : (s.setSession v).cfg = s.cfg := rfl
@[simp] theorem State.setSession_session (s : State) (v : Session) : (s.setSession v).session = v := rfl
@[simp] theorem State.setSession_work (s : State) (v : Session) : (s.setSession v).work = s.work := rfl
@[simp] theorem State.setSession_flags (s : State) (v : Session) : (s.setSession v).flags = s.flags := rfl
@[simp] theorem State.setSession_status (s : State) (v : Session) : (s.setSession v).status = s.status := rfl
@[simp] theorem State.setSession_scl (s : State) (v : Session) : (s.setSession v).scl = s.scl := rfl
@[simp] theorem State.setSession_sda (s : State) (v : Session) : (s.setSession v).sda = s.sda := rfl
@[simp] theorem State.setSession_ghost (s : State) (v : Session) : (s.setSession v).ghost = s.ghost := rfl
@[simp] theorem State.setSession_remote (s : State) (v : Session) : (s.setSession v).remote = s.remote := rfl
@[simp] theorem State.setSession_env (s : State) (v : Session) : (s.setSession v).env = s.env := rfl
@[simp] theorem State.setSession_pc (s : State) (v : Session) : (s.setSession v).pc = s.pc := rfl
@[simp] theorem State.setSession_trace (s : State) (v : Session) : (s.setSession v).trace = s.trace := rfl
@[simp] theorem State.setSession_buf0 (s : State) (v : Session) : (s.setSession v).buf0 = s.buf0 := rfl
@[simp] theorem State.setSession_buf1 (s : State) (v : Session) : (s.setSession v).buf1 = s.buf1 := rfl
@[simp] theorem State.setSession_result (s : State) (v : Session) : (s.setSession v).result = s.result := rfl
@[simp] theorem State.setSession_inputs (s : State) (v : Session) : (s.setSession v).inputs = s.inputs := rfl
@[simp] theorem State.setSession_setSession (s : State) (v w : Session) : (s.setSession v).setSession w = s.setSession w := rfl
@[simp] theorem State.setSession_same (s : State) : s.setSession s.session = s := rfl

@[simp] theorem State.setWork_cfg (s : State) (v : Work) : (s.setWork v).cfg = s.cfg := rfl
@[simp] theorem State.setWork_session (s : State) (v : Work) : (s.setWork v).session = s.session := rfl
@[simp] theorem State.setWork_work (s : State) (v : Work) : (s.setWork v).work = v := rfl
@[simp] theorem State.setWork_flags (s : State) (v : Work) : (s.setWork v).flags = s.flags := rfl
@[simp] theorem State.setWork_status (s : State) (v : Work) : (s.setWork v).status = s.status := rfl
@[simp] theorem State.setWork_scl (s : State) (v : Work) : (s.setWork v).scl = s.scl := rfl
@[simp] theorem State.setWork_sda (s : State) (v : Work) : (s.setWork v).sda = s.sda := rfl
@[simp] theorem State.setWork_ghost (s : State) (v : Work) : (s.setWork v).ghost = s.ghost := rfl
@[simp] theorem State.setWork_remote (s : State) (v : Work) : (s.setWork v).remote = s.remote := rfl
@[simp] theorem State.setWork_env (s : State) (v : Work) : (s.setWork v).env = s.env := rfl
@[simp] theorem State.setWork_pc (s : State) (v : Work) : (s.setWork v).pc = s.pc := rfl
@[simp] theorem State.setWork_trace (s : State) (v : Work) : (s.setWork v).trace = s.trace := rfl
@[simp] theorem State.setWork_buf0 (s : State) (v : Work) : (s.setWork v).buf0 = s.buf0 := rfl
@[simp] theorem State.setWork_buf1 (s : State) (v : Work) : (s.setWork v).buf1 = s.buf1 := rfl
@[simp] theorem State.setWork_result (s : State) (v : Work) : (s.setWork v).result = s.result := rfl
@[simp] theorem State.setWork_inputs (s : State) (v : Work) : (s.setWork v).inputs = s.inputs := rfl
@[simp] theorem State.setWork_setWork (s : State) (v w : Work) : (s.setWork v).setWork w = s.setWork w := rfl
@[simp] theorem State.setWork_same (s : State) : s.setWork s.work = s := rfl

@[simp] theorem State.setFlags_cfg (s : State) (v : Flags) : (s.setFlags v).cfg = s.cfg := rfl
@[simp] theorem State.setFlags_session (s : State) (v : Flags) : (s.setFlags v).session = s.session := rfl
@[simp] theorem State.setFlags_work (s : State) (v : Flags) : (s.setFlags v).work = s.work := rfl
@[simp] theorem State.setFlags_flags (s : State) (v : Flags) : (s.setFlags v).flags = v := rfl
@[simp] theorem State.setFlags_status (s : State) (v : Flags) : (s.setFlags v).status = s.status := rfl
@[simp] theorem State.setFlags_scl (s : State) (v : Flags) : (s.setFlags v).scl = s.scl := rfl
@[simp] theorem State.setFlags_sda (s : State) (v : Flags) : (s.setFlags v).sda = s.sda := rfl
@[simp] theorem State.setFlags_ghost (s : State) (v : Flags) : (s.setFlags v).ghost = s.ghost := rfl
@[simp] theorem State.setFlags_remote (s : State) (v : Flags) : (s.setFlags v).remote = s.remote := rfl
@[simp] theorem State.setFlags_env (s : State) (v : Flags) : (s.setFlags v).env = s.env := rfl
@[simp] theorem State.setFlags_pc (s : State) (v : Flags) : (s.setFlags v).pc = s.pc := rfl
@[simp] theorem State.setFlags_trace (s : State) (v : Flags) : (s.setFlags v).trace = s.trace := rfl
@[simp] theorem State.setFlags_buf0 (s : State) (v : Flags) : (s.setFlags v).buf0 = s.buf0 := rfl
@[simp] theorem State.setFlags_buf1 (s : State) (v : Flags) : (s.setFlags v).buf1 = s.buf1 := rfl
@[simp] theorem State.setFlags_result (s : State) (v : Flags) : (s.setFlags v).result = s.result := rfl
@[simp] theorem State.setFlags_inputs (s : State) (v : Flags) : (s.setFlags v).inputs = s.inputs := rfl
@[simp] theorem State.setFlags_setFlags (s : State) (v w : Flags) : (s.setFlags v).setFlags w = s.setFlags w := rfl
@[simp] theorem State.setFlags_same (s : State) : s.setFlags s.flags = s := rfl

@[simp] theorem State.setStatus_cfg (s : State) (v : StatusRegs) : (s.setStatus v).cfg = s.cfg := rfl
@[simp] theorem State.setStatus_session (s : State) (v : StatusRegs) : (s.setStatus v).session = s.session := rfl
@[simp] theorem State.setStatus_work (s : State) (v : StatusRegs) : (s.setStatus v).work = s.work := rfl
@[simp] theorem State.setStatus_flags (s : State) (v : StatusRegs) : (s.setStatus v).flags = s.flags := rfl
@[simp] theorem State.setStatus_status (s : State) (v : StatusRegs) : (s.setStatus v).status = v := rfl
@[simp] theorem State.setStatus_scl (s : State) (v : StatusRegs) : (s.setStatus v).scl = s.scl := rfl
@[simp] theorem State.setStatus_sda (s : State) (v : StatusRegs) : (s.setStatus v).sda = s.sda := rfl
@[simp] theorem State.setStatus_ghost (s : State) (v : StatusRegs) : (s.setStatus v).ghost = s.ghost := rfl
@[simp] theorem State.setStatus_remote (s : State) (v : StatusRegs) : (s.setStatus v).remote = s.remote := rfl
@[simp] theorem State.setStatus_env (s : State) (v : StatusRegs) : (s.setStatus v).env = s.env := rfl
@[simp] theorem State.setStatus_pc (s : State) (v : StatusRegs) : (s.setStatus v).pc = s.pc := rfl
@[simp] theorem State.setStatus_trace (s : State) (v : StatusRegs) : (s.setStatus v).trace = s.trace := rfl
@[simp] theorem State.setStatus_buf0 (s : State) (v : StatusRegs) : (s.setStatus v).buf0 = s.buf0 := rfl
@[simp] theorem State.setStatus_buf1 (s : State) (v : StatusRegs) : (s.setStatus v).buf1 = s.buf1 := rfl
@[simp] theorem State.setStatus_result (s : State) (v : StatusRegs) : (s.setStatus v).result = s.result := rfl
@[simp] theorem State.setStatus_inputs (s : State) (v : StatusRegs) : (s.setStatus v).inputs = s.inputs := rfl
@[simp] theorem State.setStatus_setStatus (s : State) (v w : StatusRegs) : (s.setStatus v).setStatus w = s.setStatus w := rfl
@[simp] theorem State.setStatus_same (s : State) : s.setStatus s.status = s := rfl

@[simp] theorem State.setScl_cfg (s : State) (v : PinState) : (s.setScl v).cfg = s.cfg := rfl
@[simp] theorem State.setScl_session (s : State) (v : PinState) : (s.setScl v).session = s.session := rfl
@[simp] theorem State.setScl_work (s : State) (v : PinState) : (s.setScl v).work = s.work := rfl
@[simp] theorem State.setScl_flags (s : State) (v : PinState) : (s.setScl v).flags = s.flags := rfl
@[simp] theorem State.setScl_status (s : State) (v : PinState) : (s.setScl v).status = s.status := rfl
@[simp] theorem State.setScl_scl (s : State) (v : PinState) : (s.setScl v).scl = v := rfl
@[simp] theorem State.setScl_sda (s : State) (v : PinState) : (s.setScl v).sda = s.sda := rfl
@[simp] theorem State.setScl_ghost (s : State) (v : PinState) : (s.setScl v).ghost = s.ghost := rfl
@[simp] theorem State.setScl_remote (s : State) (v : PinState) : (s.setScl v).remote = s.remote := rfl
@[simp] theorem State.setScl_env (s : State) (v : PinState) : (s.setScl v).env = s.env := rfl
@[simp] theorem State.setScl_pc (s : State) (v : PinState) : (s.setScl v).pc = s.pc := rfl
@[simp] theorem State.setScl_trace (s : State) (v : PinState) : (s.setScl v).trace = s.trace := rfl
@[simp] theorem State.setScl_buf0 (s : State) (v : PinState) : (s.setScl v).buf0 = s.buf0 := rfl
@[simp] theorem State.setScl_buf1 (s : State) (v : PinState) : (s.setScl v).buf1 = s.buf1 := rfl
@[simp] theorem State.setScl_result (s : State) (v : PinState) : (s.setScl v).result = s.result := rfl
@[simp] theorem State.setScl_inputs (s : State) (v : PinState) : (s.setScl v).inputs = s.inputs := rfl
@[simp] theorem State.setScl_setScl (s : State) (v w : PinState) : (s.setScl v).setScl w = s.setScl w := rfl
@[simp] theorem State.setScl_same (s : State) : s.setScl s.scl = s := rfl

@[simp] theorem State.setSda_cfg (s : State) (v : PinState) : (s.setSda v).cfg = s.cfg := rfl
@[simp] theorem State.setSda_session (s : State) (v : PinState) : (s.setSda v).session = s.session := rfl
@[simp] theorem State.setSda_work (s : State) (v : PinState) : (s.setSda v).work = s.work := rfl
@[simp] theorem State.setSda_flags (s : State) (v : PinState) : (s.setSda v).flags = s.flags := rfl
@[simp] theorem State.setSda_status (s : State) (v : PinState) : (s.setSda v).status = s.status := rfl
@[simp] theorem State.setSda_scl (s : State) (v : PinState) : (s.setSda v).scl = s.scl := rfl
@[simp] theorem State.setSda_sda (s : State) (v : PinState) : (s.setSda v).sda = v := rfl
@[simp] theorem State.setSda_ghost (s : State) (v : PinState) : (s.setSda v).ghost = s.ghost := rfl
@[simp] theorem State.setSda_remote (s : State) (v : PinState) : (s.setSda v).remote = s.remote := rfl
@[simp] theorem State.setSda_env (s : State) (v : PinState) : (s.setSda v).env = s.env := rfl
@[simp] theorem State.setSda_pc (s : State) (v : PinState) : (s.setSda v).pc = s.pc := rfl
@[simp] theorem State.setSda_trace (s : State) (v : PinState) : (s.setSda v).trace = s.trace := rfl
@[simp] theorem State.setSda_buf0 (s : State) (v : PinState) : (s.setSda v).buf0 = s.buf0 := rfl
@[simp] theorem State.setSda_buf1 (s : State) (v : PinState) : (s.setSda v).buf1 = s.buf1 := rfl
@[simp] theorem State.setSda_result (s : State) (v : PinState) : (s.setSda v).result = s.result := rfl
@[simp] theorem State.setSda_inputs (s : State) (v : PinState) : (s.setSda v).inputs = s.inputs := rfl
@[simp] theorem State.setSda_setSda (s : State) (v w : PinState) : (s.setSda v).setSda w = s.setSda w := rfl
@[simp] theorem State.setSda_same (s : State) : s.setSda s.sda = s := rfl

@[simp] theorem State.setGhost_cfg (s : State) (v : Ghost) : (s.setGhost v).cfg = s.cfg := rfl
@[simp] theorem State.setGhost_session (s : State) (v : Ghost) : (s.setGhost v).session = s.session := rfl
@[simp] theorem State.setGhost_work (s : State) (v : Ghost) : (s.setGhost v).work = s.work := rfl
@[simp] theorem State.setGhost_flags (s : State) (v : Ghost) : (s.setGhost v).flags = s.flags := rfl
@[simp] theorem State.setGhost_status (s : State) (v : Ghost) : (s.setGhost v).status = s.status := rfl
@[simp] theorem State.setGhost_scl (s : State) (v : Ghost) : (s.setGhost v).scl = s.scl := rfl
@[simp] theorem State.setGhost_sda (s : State) (v : Ghost) : (s.setGhost v).sda = s.sda := rfl
@[simp] theorem State.setGhost_ghost (s : State) (v : Ghost) : (s.setGhost v).ghost = v := rfl
@[simp] theorem State.setGhost_remote (s : State) (v : Ghost) : (s.setGhost v).remote = s.remote := rfl
@[simp] theorem State.setGhost_env (s : State) (v : Ghost) : (s.setGhost v).env = s.env := rfl
@[simp] theorem State.setGhost_pc (s : State) (v : Ghost) : (s.setGhost v).pc = s.pc := rfl
@[simp] theorem State.setGhost_trace (s : State) (v : Ghost) : (s.setGhost v).trace = s.trace := rfl
@[simp] theorem State.setGhost_buf0 (s : State) (v : Ghost) : (s.setGhost v).buf0 = s.buf0 := rfl
@[simp] theorem State.setGhost_buf1 (s : State) (v : Ghost) : (s.setGhost v).buf1 = s.buf1 := rfl
@[simp] theorem State.setGhost_result (s : State) (v : Ghost) : (s.setGhost v).result = s.result := rfl
@[simp] theorem State.setGhost_inputs (s : State) (v : Ghost) : (s.setGhost v).inputs = s.inputs := rfl
@[simp] theorem State.setGhost_setGhost (s : State) (v w : Ghost) : (s.setGhost v).setGhost w = s.setGhost w := rfl
@[simp] theorem State.setGhost_same (s : State) : s.setGhost s.ghost = s := rfl

@[simp] theorem State.setRemote_cfg (s : State) (v : Remote) : (s.setRemote v).cfg = s.cfg := rfl
@[simp] theorem State.setRemote_session (s : State) (v : Remote) : (s.setRemote v).session = s.session := rfl
@[simp] theorem State.setRemote_work (s : State) (v : Remote) : (s.setRemote v).work = s.work := rfl
@[simp] theorem State.setRemote_flags (s : State) (v : Remote) : (s.setRemote v).flags = s.flags := rfl
@[simp] theorem State.setRemote_status (s : State) (v : Remote) : (s.setRemote v).status = s.status := rfl
@[simp] theorem State.setRemote_scl (s : State) (v : Remote) : (s.setRemote v).scl = s.scl := rfl
@[simp] theorem State.setRemote_sda (s : State) (v : Remote) : (s.setRemote v).sda = s.sda := rfl
@[simp] theorem State.setRemote_ghost (s : State) (v : Remote) : (s.setRemote v).ghost = s.ghost := rfl
@[simp] theorem State.setRemote_remote (s : State) (v : Remote) : (s.setRemote v).remote = v := rfl
@[simp] theorem State.setRemote_env (s : State) (v : Remote) : (s.setRemote v).env = s.env := rfl
@[simp] theorem State.setRemote_pc (s : State) (v : Remote) : (s.setRemote v).pc = s.pc := rfl
@[simp] theorem State.setRemote_trace (s : State) (v : Remote) : (s.setRemote v).trace = s.trace := rfl
@[simp] theorem State.setRemote_buf0 (s : State) (v : Remote) : (s.setRemote v).buf0 = s.buf0 := rfl
@[simp] theorem State.setRemote_buf1 (s : State) (v : Remote) : (s.setRemote v).buf1 = s.buf1 := rfl
@[simp] theorem State.setRemote_result (s : State) (v : Remote) : (s.setRemote v).result = s.result := rfl
@[simp] theorem State.setRemote_inputs (s : State) (v : Remote) : (s.setRemote v).inputs = s.inputs := rfl
@[simp] theorem State.setRemote_setRemote (s : State) (v w : Remote) : (s.setRemote v).setRemote w = s.setRemote w := rfl
@[simp] theorem State.setRemote_same (s : State) : s.setRemote s.remote = s := rfl

@[simp] theorem State.setEnv_cfg (s : State) (v : Env) : (s.setEnv v).cfg = s.cfg := rfl
@[simp] theorem State.setEnv_session (s : State) (v : Env) : (s.setEnv v).session = s.session := rfl
@[simp] theorem State.setEnv_work (s : State) (v : Env) : (s.setEnv v).work = s.work := rfl
@[simp] theorem State.setEnv_flags (s : State) (v : Env) : (s.setEnv v).flags = s.flags := rfl
@[simp] theorem State.setEnv_status (s : State) (v : Env) : (s.setEnv v).status = s.status := rfl
@[simp] theorem State.setEnv_scl (s : State) (v : Env) : (s.setEnv v).scl = s.scl := rfl
@[simp] theorem State.setEnv_sda (s : State) (v : Env) : (s.setEnv v).sda = s.sda := rfl
@[simp] theorem State.setEnv_ghost (s : State) (v : Env) : (s.setEnv v).ghost = s.ghost := rfl
@[simp] theorem State.setEnv_remote (s : State) (v : Env) : (s.setEnv v).remote = s.remote := rfl
@[simp] theorem State.setEnv_env (s : State) (v : Env) : (s.setEnv v).env = v := rfl
@[simp] theorem State.setEnv_pc (s : State) (v : Env) : (s.setEnv v).pc = s.pc := rfl
@[simp] theorem State.setEnv_trace (s : State) (v : Env) : (s.setEnv v).trace = s.trace := rfl
@[simp] theorem State.setEnv_buf0 (s : State) (v : Env) : (s.setEnv v).buf0 = s.buf0 := rfl
@[simp] theorem State.setEnv_buf1 (s : State) (v : Env) : (s.setEnv v).buf1 = s.buf1 := rfl
@[simp] theorem State.setEnv_result (s : State) (v : Env) : (s.setEnv v).result = s.result := rfl
@[simp] theorem State.setEnv_inputs (s : State) (v : Env) : (s.setEnv v).inputs = s.inputs := rfl
@[simp] theorem State.setEnv_setEnv (s : State) (v w : Env) : (s.setEnv v).setEnv w = s.setEnv w := rfl
@[simp] theorem State.setEnv_same (s : State) : s.setEnv s.env = s := rfl

@[simp] theorem State.setPc_cfg (s : State) (v : ControlPoint) : (s.setPc v).cfg = s.cfg := rfl
@[simp] theorem State.setPc_session (s : State) (v : ControlPoint) : (s.setPc v).session = s.session := rfl
@[simp] theorem State.setPc_work (s : State) (v : ControlPoint) : (s.setPc v).work = s.work := rfl
@[simp] theorem State.setPc_flags (s : State) (v : ControlPoint) : (s.setPc v).flags = s.flags := rfl
@[simp] theorem State.setPc_status (s : State) (v : ControlPoint) : (s.setPc v).status = s.status := rfl
@[simp] theorem State.setPc_scl (s : State) (v : ControlPoint) : (s.setPc v).scl = s.scl := rfl
@[simp] theorem State.setPc_sda (s : State) (v : ControlPoint) : (s.setPc v).sda = s.sda := rfl
@[simp] theorem State.setPc_ghost (s : State) (v : ControlPoint) : (s.setPc v).ghost = s.ghost := rfl
@[simp] theorem State.setPc_remote (s : State) (v : ControlPoint) : (s.setPc v).remote = s.remote := rfl
@[simp] theorem State.setPc_env (s : State) (v : ControlPoint) : (s.setPc v).env = s.env := rfl
@[simp] theorem State.setPc_pc (s : State) (v : ControlPoint) : (s.setPc v).pc = v := rfl
@[simp] theorem State.setPc_trace (s : State) (v : ControlPoint) : (s.setPc v).trace = s.trace := rfl
@[simp] theorem State.setPc_buf0 (s : State) (v : ControlPoint) : (s.setPc v).buf0 = s.buf0 := rfl
@[simp] theorem State.setPc_buf1 (s : State) (v : ControlPoint) : (s.setPc v).buf1 = s.buf1 := rfl
@[simp] theorem State.setPc_result (s : State) (v : ControlPoint) : (s.setPc v).result = s.result := rfl
@[simp] theorem State.setPc_inputs (s : State) (v : ControlPoint) : (s.setPc v).inputs = s.inputs := rfl
@[simp] theorem State.setPc_setPc (s : State) (v w : ControlPoint) : (s.setPc v).setPc w = s.setPc w := rfl
@[simp] theorem State.setPc_same (s : State) : s.setPc s.pc = s := rfl

@[simp] theorem State.setTrace_cfg (s : State) (v : List Event) : (s.setTrace v).cfg = s.cfg := rfl
@[simp] theorem State.setTrace_session (s : State) (v : List Event) : (s.setTrace v).session = s.session := rfl
@[simp] theorem State.setTrace_work (s : State) (v : List Event) : (s.setTrace v).work = s.work := rfl
@[simp] theorem State.setTrace_flags (s : State) (v : List Event) : (s.setTrace v).flags = s.flags := rfl
@[simp] theorem State.setTrace_status (s : State) (v : List Event) : (s.setTrace v).status = s.status := rfl
@[simp] theorem State.setTrace_scl (s : State) (v : List Event) : (s.setTrace v).scl = s.scl := rfl
@[simp] theorem State.setTrace_sda (s : State) (v : List Event) : (s.setTrace v).sda = s.sda := rfl
@[simp] theorem State.setTrace_ghost (s : State) (v : List Event) : (s.setTrace v).ghost = s.ghost := rfl
@[simp] theorem State.setTrace_remote (s : State) (v : List Event) : (s.setTrace v).remote = s.remote := rfl
@[simp] theorem State.setTrace_env (s : State) (v : List Event) : (s.setTrace v).env = s.env := rfl
@[simp] theorem State.setTrace_pc (s : State) (v : List Event) : (s.setTrace v).pc = s.pc := rfl
@[simp] theorem State.setTrace_trace (s : State) (v : List Event) : (s.setTrace v).trace = v := rfl
@[simp] theorem State.setTrace_buf0 (s : State) (v : List Event) : (s.setTrace v).buf0 = s.buf0 := rfl
@[simp] theorem State.setTrace_buf1 (s : State) (v : List Event) : (s.setTrace v).buf1 = s.buf1 := rfl
@[simp] theorem State.setTrace_result (s : State) (v : List Event) : (s.setTrace v).result = s.result := rfl
@[simp] theorem State.setTrace_inputs (s : State) (v : List Event) : (s.setTrace v).inputs = s.inputs := rfl
@[simp] theorem State.setTrace_setTrace (s : State) (v w : List Event) : (s.setTrace v).setTrace w = s.setTrace w := rfl
@[simp] theorem State.setTrace_same (s : State) : s.setTrace s.trace = s := rfl

@[simp] theorem State.setResult_cfg (s : State) (v : Result) : (s.setResult v).cfg = s.cfg := rfl
@[simp] theorem State.setResult_session (s : State) (v : Result) : (s.setResult v).session = s.session := rfl
@[simp] theorem State.setResult_work (s : State) (v : Result) : (s.setResult v).work = s.work := rfl
@[simp] theorem State.setResult_flags (s : State) (v : Result) : (s.setResult v).flags = s.flags := rfl
@[simp] theorem State.setResult_status (s : State) (v : Result) : (s.setResult v).status = s.status := rfl
@[simp] theorem State.setResult_scl (s : State) (v : Result) : (s.setResult v).scl = s.scl := rfl
@[simp] theorem State.setResult_sda (s : State) (v : Result) : (s.setResult v).sda = s.sda := rfl
@[simp] theorem State.setResult_ghost (s : State) (v : Result) : (s.setResult v).ghost = s.ghost := rfl
@[simp] theorem State.setResult_remote (s : State) (v : Result) : (s.setResult v).remote = s.remote := rfl
@[simp] theorem State.setResult_env (s : State) (v : Result) : (s.setResult v).env = s.env := rfl
@[simp] theorem State.setResult_pc (s : State) (v : Result) : (s.setResult v).pc = s.pc := rfl
@[simp] theorem State.setResult_trace (s : State) (v : Result) : (s.setResult v).trace = s.trace := rfl
@[simp] theorem State.setResult_buf0 (s : State) (v : Result) : (s.setResult v).buf0 = s.buf0 := rfl
@[simp] theorem State.setResult_buf1 (s : State) (v : Result) : (s.setResult v).buf1 = s.buf1 := rfl
@[simp] theorem State.setResult_result (s : State) (v : Result) : (s.setResult v).result = v := rfl
@[simp] theorem State.setResult_inputs (s : State) (v : Result) : (s.setResult v).inputs = s.inputs := rfl
@[simp] theorem State.setResult_setResult (s : State) (v w : Result) : (s.setResult v).setResult w = s.setResult w := rfl
@[simp] theorem State.setResult_same (s : State) : s.setResult s.result = s := rfl

end Sys2Proof.Machine
end

