-- ==== Sys2Proof/Laws/Ops.lean ====
section
/-! SUPPORT. What each shared operation of Machine/Ops.lean does, said once: pieces of operations, the control point,
the environment draws, the GPIO calls, and the ghost memories. -/

namespace Sys2Proof.Machine

variable {α β : Type}

/-! ## Pieces of operations -/

/-- How a sequence runs: the error of the first piece ends it. -/
theorem apply_bind (x : Op α) (f : α → Op β) (s : State) :
    Op.apply (x >>= f) s =
      match Op.apply x s with
      | (.ok a, t) => Op.apply (f a) t
      | (.error e, t) => (.error e, t) := by
  show (ExceptT.bindCont f (Op.apply x s).1 : StateM State (Except Error β)) (Op.apply x s).2 = _
  generalize Op.apply x s = y
  obtain ⟨r, t⟩ := y
  cases r <;> rfl

@[simp] theorem apply_pure (a : α) (s : State) : Op.apply (pure a : Op α) s = (.ok a, s) := rfl
@[simp] theorem apply_raise (e : Error) (s : State) : Op.apply (raise e : Op α) s = (.error e, s) := rfl
@[simp] theorem apply_mk (f : State → Except Error α × State) (s : State) : Op.apply (Op.mk f) s = f s := rfl
@[simp] theorem apply_update (f : State → State) (s : State) : Op.apply (update f) s = (.ok (), f s) := rfl
@[simp] theorem apply_readState (f : State → α) (s : State) : Op.apply (readState f) s = (.ok (f s), s) := rfl
@[simp] theorem apply_attempt (x : Op α) (s : State) :
    Op.apply (attempt x) s = (.ok (Op.apply x s).1, (Op.apply x s).2) := rfl
@[simp] theorem apply_line (n : Nat) (s : State) : Op.apply (line n) s = (.ok (), s.goToStep n) := rfl
@[simp] theorem apply_goTop (t : Top) (s : State) : Op.apply (goTop t) s = (.ok (), s.setTop t) := rfl
@[simp] theorem apply_delay (n : Nat) (s : State) : Op.apply (delay n) s = (.ok (), s.emit (.dly n)) := rfl
@[simp] theorem apply_delayHalves (k : Nat) (s : State) :
    Op.apply (delayHalves k) s = (.ok (), s.emit (.dly (k * s.session.halfPeriod))) := rfl
@[simp] theorem apply_logMessage (m : LogMessage) (s : State) :
    Op.apply (logMessage m) s = (.ok (), s.emit (.log m)) := rfl
theorem apply_call (op : OpName) (x : Op α) (s : State) :
    Op.apply (call op x) s =
      ((Op.apply x (s.pushFrame op)).1, (Op.apply x (s.pushFrame op)).2.popFrame) := rfl

/-- A sequence whose first piece ends normally. -/
theorem apply_bind_ok {x : Op α} {f : α → Op β} {s t : State} {a : α} (h : Op.apply x s = (.ok a, t)) :
    Op.apply (x >>= f) s = Op.apply (f a) t := by
  rw [apply_bind, h]

/-- A sequence whose first piece raises. -/
theorem apply_bind_error {x : Op α} {f : α → Op β} {s t : State} {e : Error} (h : Op.apply x s = (.error e, t)) :
    Op.apply (x >>= f) s = (.error e, t) := by
  rw [apply_bind, h]

@[simp] theorem apply_pure_bind (a : α) (f : α → Op β) (s : State) :
    Op.apply ((pure a : Op α) >>= f) s = Op.apply (f a) s := rfl
@[simp] theorem apply_update_bind (g : State → State) (f : Unit → Op β) (s : State) :
    Op.apply (update g >>= f) s = Op.apply (f ()) (g s) := rfl
@[simp] theorem apply_readState_bind (g : State → α) (f : α → Op β) (s : State) :
    Op.apply (readState g >>= f) s = Op.apply (f (g s)) s := rfl
@[simp] theorem apply_line_bind (n : Nat) (f : Unit → Op β) (s : State) :
    Op.apply (line n >>= f) s = Op.apply (f ()) (s.goToStep n) := rfl
@[simp] theorem apply_goTop_bind (t : Top) (f : Unit → Op β) (s : State) :
    Op.apply (goTop t >>= f) s = Op.apply (f ()) (s.setTop t) := rfl
@[simp] theorem apply_delay_bind (n : Nat) (f : Unit → Op β) (s : State) :
    Op.apply (delay n >>= f) s = Op.apply (f ()) (s.emit (.dly n)) := rfl
@[simp] theorem apply_delayHalves_bind (k : Nat) (f : Unit → Op β) (s : State) :
    Op.apply (delayHalves k >>= f) s = Op.apply (f ()) (s.emit (.dly (k * s.session.halfPeriod))) := rfl
@[simp] theorem apply_logMessage_bind (m : LogMessage) (f : Unit → Op β) (s : State) :
    Op.apply (logMessage m >>= f) s = Op.apply (f ()) (s.emit (.log m)) := rfl
@[simp] theorem apply_attempt_bind (x : Op α) (f : Except Error α → Op β) (s : State) :
    Op.apply (attempt x >>= f) s = Op.apply (f (Op.apply x s).1) (Op.apply x s).2 := rfl
@[simp] theorem apply_raise_bind (e : Error) (f : α → Op β) (s : State) :
    Op.apply ((raise e : Op α) >>= f) s = (.error e, s) := rfl

/-- The state a sequence leaves: that of the first piece, or that of the second after it. -/
theorem apply_bind_cases (x : Op α) (f : α → Op β) (s : State) :
    (∃ e, (Op.apply x s).1 = .error e ∧ Op.apply (x >>= f) s = (.error e, (Op.apply x s).2)) ∨
    (∃ a, (Op.apply x s).1 = .ok a ∧ Op.apply (x >>= f) s = Op.apply (f a) (Op.apply x s).2) := by
  rw [apply_bind]
  generalize Op.apply x s = y
  obtain ⟨r, t⟩ := y
  cases r with
  | ok a => exact .inr ⟨a, rfl, rfl⟩
  | error e => exact .inl ⟨e, rfl, rfl⟩

/-! ## Environment draws -/

/-- After an answer the k-th to come is the (k+1)-th of before. -/
@[simp] theorem Script.nth_advance (free : Nat → α) (sc : Script α) (k : Nat) :
    sc.advance.nth free k = sc.nth free (k + 1) := by
  unfold Script.nth Script.advance
  have h : sc.head.tail[k]? = sc.head[k + 1]? := by cases sc.head <;> simp
  simp only [h, Nat.add_assoc, Nat.add_comm 1 k]

@[simp] theorem State.drawAnswer_answer (s : State) (k : Nat) : s.drawAnswer.answer k = s.answer (k + 1) := by
  simp [State.drawAnswer, State.answer]

@[simp] theorem State.drawAnswer_sample (s : State) (k : Nat) : s.drawAnswer.sample k = s.sample k := rfl
@[simp] theorem State.drawSample_answer (s : State) (k : Nat) : s.drawSample.answer k = s.answer k := rfl

@[simp] theorem State.drawSample_sample (s : State) (k : Nat) : s.drawSample.sample k = s.sample (k + 1) := by
  simp [State.drawSample, State.sample]

/-! ## Memory -/

/-- Reading the address just written gives the value written. -/
@[simp] theorem Memory.read_write_same (m : Memory) (a : Nat) (v : Byte) : (m.write a v).read a = some v := by
  induction m with
  | nil => simp [Memory.write, Memory.read]
  | cons c m ih =>
    simp only [Memory.write]
    split
    · simp [Memory.read]
    · split
      · simp [Memory.read]
      · next h1 h2 =>
        have h3 : ¬c.1 = a := fun h => h2 h.symm
        simp [Memory.read, h3, ih]

/-- A write leaves every other address alone. -/
theorem Memory.read_write_other (m : Memory) (a b : Nat) (v : Byte) (h : b ≠ a) :
    (m.write a v).read b = m.read b := by
  have h' : ¬a = b := fun e => h e.symm
  induction m with
  | nil => simp [Memory.write, Memory.read, h']
  | cons c m ih =>
    simp only [Memory.write]
    split
    · simp [Memory.read, h']
    · split
      · next h1 h2 =>
        subst h2
        simp [Memory.read, h']
      · simp [Memory.read, ih]

/-- Nothing is read at a forgotten address. -/
@[simp] theorem Memory.read_forget_same (m : Memory) (a : Nat) : (m.forget a).read a = none := by
  induction m with
  | nil => rfl
  | cons c m ih =>
    unfold Memory.forget at ih ⊢
    rw [List.filter_cons]
    split
    · next h =>
      have h' : ¬c.1 = a := by simpa using h
      simp only [Memory.read, h', if_false]
      exact ih
    · exact ih

/-- Forgetting an address leaves every other one alone. -/
theorem Memory.read_forget_other (m : Memory) (a b : Nat) (h : b ≠ a) : (m.forget a).read b = m.read b := by
  induction m with
  | nil => rfl
  | cons c m ih =>
    unfold Memory.forget at ih ⊢
    rw [List.filter_cons]
    split
    · simp only [Memory.read]
      split
      · rfl
      · exact ih
    · next h1 =>
      have h2 : c.1 = a := by simpa using h1
      have h3 : ¬c.1 = b := by omega
      simp only [Memory.read, h3, if_false]
      exact ih

theorem Memory.mem_write_key (m : Memory) (a : Nat) (v : Byte) (k : Nat) :
    k ∈ (m.write a v).map (·.1) → k = a ∨ k ∈ m.map (·.1) := by
  induction m with
  | nil => simp [Memory.write]
  | cons c m ih =>
    simp only [Memory.write]
    split
    · simp
    · split
      · simp; tauto
      · simp only [List.map_cons, List.mem_cons]
        rintro (h | h)
        · exact .inr (.inl h)
        · rcases ih h with h | h
          · exact .inl h
          · exact .inr (.inr h)

/-- A write keeps the canonical form. -/
theorem Memory.write_wf (m : Memory) (a : Nat) (v : Byte) (h : m.wf) : (m.write a v).wf := by
  induction m with
  | nil => simp [Memory.write, Memory.wf]
  | cons c m ih =>
    obtain ⟨hlt, hm⟩ := List.pairwise_cons.mp h
    simp only [Memory.write]
    split
    · next h1 =>
      refine List.pairwise_cons.mpr ⟨?_, h⟩
      intro b hb
      rcases List.mem_cons.mp hb with rfl | hb
      · exact h1
      · exact Nat.lt_trans h1 (hlt b hb)
    · split
      · next h1 h2 =>
        subst h2
        exact List.pairwise_cons.mpr ⟨hlt, hm⟩
      · next h1 h2 =>
        refine List.pairwise_cons.mpr ⟨?_, ih hm⟩
        intro b hb
        rcases Memory.mem_write_key m a v b hb with rfl | hb
        · show c.1 < b
          omega
        · exact hlt b hb

/-- Forgetting keeps the canonical form. -/
theorem Memory.forget_wf (m : Memory) (a : Nat) (h : m.wf) : (m.forget a).wf := by
  have hs : (m.forget a).Sublist m := List.filter_sublist
  exact List.Pairwise.sublist (hs.map _) h

/-- The three ghost memories are canonical. -/
def Remote.wf (r : Remote) : Prop := r.regs.wf ∧ r.muxPage.wf ∧ r.progPage.wf

theorem writePage_wf (c : Config) (r : Remote) (off : Nat) (v : Byte) (h : r.wf) : (writePage c r off v).wf := by
  obtain ⟨h1, h2, h3⟩ := h
  unfold writePage
  split
  · exact ⟨h1, Memory.write_wf _ _ _ h2, h3⟩
  · exact ⟨h1, h2, Memory.write_wf _ _ _ h3⟩
  · exact ⟨h1, Memory.forget_wf _ _ h2, Memory.forget_wf _ _ h3⟩

theorem forgetPage_wf (c : Config) (r : Remote) (off : Nat) (h : r.wf) : (forgetPage c r off).wf := by
  obtain ⟨h1, h2, h3⟩ := h
  unfold forgetPage
  split
  · exact ⟨h1, Memory.forget_wf _ _ h2, h3⟩
  · exact ⟨h1, h2, Memory.forget_wf _ _ h3⟩
  · exact ⟨h1, Memory.forget_wf _ _ h2, Memory.forget_wf _ _ h3⟩

theorem Remote.record_wf (c : Config) (r : Remote) (dev sub val : Byte) (h : r.wf) : (r.record c dev sub val).wf := by
  unfold Remote.record
  cases windowOffset c dev sub with
  | none => exact ⟨Memory.write_wf _ _ _ h.1, h.2⟩
  | some off =>
    have h' := writePage_wf c r off val h
    exact ⟨Memory.write_wf _ _ _ h'.1, h'.2⟩

theorem Remote.forget_wf (c : Config) (r : Remote) (dev sub : Byte) (h : r.wf) : (r.forget c dev sub).wf := by
  unfold Remote.forget
  cases windowOffset c dev sub with
  | none => exact ⟨Memory.forget_wf _ _ h.1, h.2⟩
  | some off =>
    have h' := forgetPage_wf c r off h
    exact ⟨Memory.forget_wf _ _ h'.1, h'.2⟩

theorem Remote.forgetAll_wf (c : Config) (r : Remote) (dev : Byte) (subs : List Byte) (h : r.wf) :
    (r.forgetAll c dev subs).wf := by
  unfold Remote.forgetAll
  induction subs generalizing r with
  | nil => exact h
  | cons sub subs ih => exact ih _ (Remote.forget_wf c r dev sub h)

/-- The key of a remote register tells device and sub-address apart. -/
theorem remoteAddr_inj {d d' u u' : Byte} : remoteAddr d u = remoteAddr d' u' ↔ d = d' ∧ u = u' := by
  unfold remoteAddr
  have h1 := d.isLt
  have h2 := d'.isLt
  have h3 := u.isLt
  have h4 := u'.isLt
  constructor
  · intro h
    exact ⟨BitVec.eq_of_toNat_eq (by omega), BitVec.eq_of_toNat_eq (by omega)⟩
  · rintro ⟨rfl, rfl⟩
    rfl

theorem writePage_regs (c : Config) (r : Remote) (off : Nat) (v : Byte) : (writePage c r off v).regs = r.regs := by
  unfold writePage; split <;> rfl

theorem forgetPage_regs (c : Config) (r : Remote) (off : Nat) : (forgetPage c r off).regs = r.regs := by
  unfold forgetPage; split <;> rfl

/-- R51: a performed write is recorded in the register space. -/
theorem Remote.record_regs (c : Config) (r : Remote) (dev sub val : Byte) :
    (r.record c dev sub val).regs = r.regs.write (remoteAddr dev sub) val := by
  unfold Remote.record
  cases windowOffset c dev sub with
  | none => rfl
  | some off => simp only [writePage_regs]

/-- A failed write leaves its register unknown. -/
theorem Remote.forget_regs (c : Config) (r : Remote) (dev sub : Byte) :
    (r.forget c dev sub).regs = r.regs.forget (remoteAddr dev sub) := by
  unfold Remote.forget
  cases windowOffset c dev sub with
  | none => rfl
  | some off => simp only [forgetPage_regs]

end Sys2Proof.Machine
end

