-- ==== Sys2Proof/Laws/Moves.lean ====
section
/-! SUPPORT. Everything an operation can do to the state, said once: an operation is a chain of elementary moves, and an
invariant is proved by looking at the moves, not at the operations. -/

namespace Sys2Proof.Machine

variable {α β : Type}

/-! ## Relations between the state before and after -/

/-- A relation that can be followed along a sequence. -/
structure IsPath (R : State → State → Prop) : Prop where
  refl : ∀ s, R s s
  trans : ∀ {a b c}, R a b → R b c → R a c

/-- However x ends, the state it leaves is related to the one it found. -/
def Op.Respects (R : State → State → Prop) (x : Op α) : Prop := ∀ s, R s (Op.apply x s).2

variable {R : State → State → Prop}

theorem respects_pure (P : IsPath R) (a : α) : Op.Respects R (pure a : Op α) := fun s => P.refl s
theorem respects_raise (P : IsPath R) (e : Error) : Op.Respects R (raise e : Op α) := fun s => P.refl s
theorem respects_readState (P : IsPath R) (f : State → α) : Op.Respects R (readState f) := fun s => P.refl s
theorem respects_update {f : State → State} (h : ∀ s, R s (f s)) : Op.Respects R (update f) := h
theorem respects_attempt {x : Op α} (h : Op.Respects R x) : Op.Respects R (attempt x) := h

theorem respects_bind (P : IsPath R) {x : Op α} {f : α → Op β} (hx : Op.Respects R x)
    (hf : ∀ a, Op.Respects R (f a)) : Op.Respects R (x >>= f) := by
  intro s
  rcases apply_bind_cases x f s with ⟨e, _, h⟩ | ⟨a, _, h⟩
  · rw [h]; exact hx s
  · rw [h]; exact P.trans (hx s) (hf a _)

/-! ## What a relation must be closed under -/

/-- Closed under what the bit operations do (R78 to R81): calls and steps, pin calls on both pins (input and read on the
data pin only), delays, `BUS_BUSY` and `SAMPLE`. -/
structure PinClosed (R : State → State → Prop) : Prop where
  path : IsPath R
  call : ∀ (α : Type) (op : OpName) (x : Op α), Op.Respects R x → Op.Respects R (call op x)
  line : ∀ (s : State) (n : Nat), R s (s.goToStep n)
  out : ∀ (s : State) (p : Pin) (b : Bool), R s (s.pinSetOutput p b)
  inp : ∀ s : State, R s (s.pinSetInput .sda)
  rd : ∀ s : State, R s (s.pinRead .sda)
  dly : ∀ (s : State) (n : Nat), R s (s.emit (.dly n))
  busy : ∀ (s : State) (v : Bool), R s (s.setGhost { s.ghost with busBusy := v })
  sample : ∀ (s : State) (v : Sample), R s (s.setFlags { s.flags with sample := v })

/-- Closed under what `WRITEBYTE` does besides (R82); the bit counter moves only below 8. -/
structure ByteClosed (R : State → State → Prop) : Prop where
  pin : PinClosed R
  nack : ∀ (s : State) (v : Bool), R s (s.setFlags { s.flags with nack := v })
  load : ∀ (s : State) (b : Byte), R s (s.setWork { s.work with shift := b, bitcnt := 0#4 })
  count : ∀ s : State, s.work.bitcnt.toNat < 8 → R s (s.setWork { s.work with bitcnt := s.work.bitcnt + 1#4 })

/-- Closed under what a transaction does besides (R97). -/
structure SetClosed (R : State → State → Prop) : Prop where
  byte : ByteClosed R
  operands : ∀ (s : State) (dev sub val : Byte), R s (s.setWork { s.work with rDev := dev, rSub := sub, rVal := val })

/-- Closed under what `SETREG` and `WRITEBULK` do besides (R97 to R99). -/
structure RegClosed (R : State → State → Prop) : Prop where
  set : SetClosed R
  bulkI : ∀ (s : State) (v : Byte), R s (s.setBulkI v)
  record : ∀ (s : State) (dev sub val : Byte), R s (s.setRemote (s.remote.record s.cfg dev sub val))
  forget : ∀ (s : State) (dev sub : Byte), R s (s.setRemote (s.remote.forget s.cfg dev sub))
  forgetAll : ∀ (s : State) (dev : Byte) (subs : List Byte), R s (s.setRemote (s.remote.forgetAll s.cfg dev subs))
  log : ∀ (s : State) (i : Byte), R s (s.emit (.log (.failedAtByte i)))

theorem SetClosed.pin (C : SetClosed R) : PinClosed R := C.byte.pin
theorem RegClosed.pin (C : RegClosed R) : PinClosed R := C.set.byte.pin

/-- Closed under what `LOADPROGRAM` does besides (R107 to R111). -/
structure LoadClosed (R : State → State → Prop) : Prop where
  reg : RegClosed R
  engine : ∀ (s : State) (v : EngineCmd), R s (s.setGhost { s.ghost with engineCmd := v })
  page : ∀ (s : State) (v : PageCmd), R s (s.setGhost { s.ghost with pageCmd := v })

/-- Closed under what `PLAYTAPE` does besides (R112). -/
structure ProgClosed (R : State → State → Prop) : Prop where
  reg : RegClosed R
  tape : ∀ (s : State) (v : Byte), R s (s.setTape v)
  engine : ∀ (s : State) (v : EngineCmd), R s (s.setGhost { s.ghost with engineCmd := v })
  page : ∀ (s : State) (v : PageCmd), R s (s.setGhost { s.ghost with pageCmd := v })

theorem ProgClosed.load (C : ProgClosed R) : LoadClosed R := ⟨C.reg, C.engine, C.page⟩

/-- Closed under what `INITIALIZE` does besides (R109). -/
structure InitClosed (R : State → State → Prop) : Prop where
  reg : RegClosed R
  initI : ∀ (s : State) (v : BitVec 4), R s (s.setInitI v)

/-- Closed under what bring-up does inside `RUN` (R124). -/
structure BringUpClosed (R : State → State → Prop) : Prop where
  path : IsPath R
  init : Op.Respects R initialise
  top : ∀ (s : State) (t : Top), R s (s.setTop t)
  attempt : ∀ (s : State) (v : BitVec 4), R s (s.setWork { s.work with attempt := v })
  dly : ∀ (s : State) (n : Nat), R s (s.emit (.dly n))

/-- Closed under what bring-up and playback do inside `RUN` (R124, R125). -/
structure RunClosed (R : State → State → Prop) : Prop where
  bringUp : BringUpClosed R
  play : ∀ s : State, R s (Op.apply (playTape s.work.tape) s).2
  primary : ∀ (s : State) (v : Option Error), R s (s.setStatus { s.status with primaryErr := v })

/-- Closed under what `RUN` and `RUNERR` do besides (R122 to R127). -/
structure SeqClosed (R : State → State → Prop) : Prop where
  run : RunClosed R
  request : ∀ (s : State) (p : Pin), R s (s.pinRequest p)
  release : ∀ (s : State) (p : Pin), R s (s.pinRelease p)
  session : ∀ (s : State) (v : Session), R s (s.setSession v)
  status : ∀ (s : State) (v : StatusRegs), R s (s.setStatus v)
  log : ∀ (s : State) (m : LogMessage), R s (s.emit (.log m))

/-! ## The pieces -/

theorem respects_line (C : PinClosed R) (n : Nat) : Op.Respects R (line n) := fun s => C.line s n
theorem respects_delay (C : PinClosed R) (n : Nat) : Op.Respects R (delay n) := fun s => C.dly s n
theorem respects_delayHalves (C : PinClosed R) (k : Nat) : Op.Respects R (delayHalves k) := fun s => C.dly s _

theorem respects_call (C : PinClosed R) (op : OpName) {x : Op α} (hx : Op.Respects R x) :
    Op.Respects R (call op x) := C.call α op x hx

/-- An operation is a call of a body made of moves of one class. -/
def Op.Calls (Closed : (State → State → Prop) → Prop) (op : OpName) (y : Op α) : Prop :=
  ∃ x, y = call op x ∧ ∀ R, Closed R → Op.Respects R x

theorem respects_of_calls {Closed : (State → State → Prop) → Prop} {op : OpName} {y : Op α} (h : y.Calls Closed op)
    (P : PinClosed R) (C : Closed R) : Op.Respects R y := by
  obtain ⟨x, rfl, hx⟩ := h
  exact respects_call P op (hx R C)

theorem respects_drive (C : PinClosed R) (p : Pin) (b : Bool) : Op.Respects R (drive p b) := by
  refine respects_bind C.path (fun s => C.out s p b) fun ok => ?_
  split
  · exact respects_pure C.path _
  · exact respects_raise C.path _

theorem respects_sampleSda (C : PinClosed R) : Op.Respects R sampleSda := by
  refine respects_bind C.path (C.inp) fun ok => ?_
  split
  · exact C.rd
  · exact respects_raise C.path _

theorem start_calls : Op.Calls PinClosed .start start :=
  ⟨_, rfl, fun R C => by
    have P := C.path
    exact respects_bind P (respects_line C _) fun _ => respects_bind P (respects_drive C _ _) fun _ =>
      respects_bind P (respects_line C _) fun _ => respects_bind P (respects_delayHalves C _) fun _ =>
      respects_bind P (respects_line C _) fun _ => respects_bind P (respects_drive C _ _) fun _ =>
      respects_bind P (respects_line C _) fun _ => respects_bind P (respects_delayHalves C _) fun _ =>
      respects_bind P (respects_line C _) fun _ => respects_bind P (respects_drive C _ _) fun _ =>
      respects_bind P (respects_line C _) fun _ => respects_bind P (respects_delayHalves C _) fun _ => fun s => C.busy s _⟩

theorem respects_start (C : PinClosed R) : Op.Respects R start :=
  respects_of_calls start_calls C C

theorem stop_calls : Op.Calls PinClosed .stop stop :=
  ⟨_, rfl, fun R C => by
    have P := C.path
    exact respects_bind P (respects_line C _) fun _ => respects_bind P (respects_drive C _ _) fun _ =>
      respects_bind P (respects_line C _) fun _ => respects_bind P (respects_delayHalves C _) fun _ =>
      respects_bind P (respects_line C _) fun _ => respects_bind P (respects_drive C _ _) fun _ =>
      respects_bind P (respects_line C _) fun _ => respects_bind P (respects_delayHalves C _) fun _ =>
      respects_bind P (respects_line C _) fun _ => respects_bind P (respects_drive C _ _) fun _ =>
      respects_bind P (respects_line C _) fun _ => respects_bind P (respects_delayHalves C _) fun _ =>
      respects_bind P (respects_line C _) fun _ => respects_bind P (respects_drive C _ _) fun _ =>
      respects_bind P (respects_line C _) fun _ => respects_bind P (respects_delayHalves C _) fun _ => fun s => C.busy s _⟩

theorem respects_stop (C : PinClosed R) : Op.Respects R stop :=
  respects_of_calls stop_calls C C

theorem writeBit_calls (v : Bool) : Op.Calls PinClosed .writeBit (writeBit v) :=
  ⟨_, rfl, fun R C => by
    have P := C.path
    exact respects_bind P (respects_line C _) fun _ => respects_bind P (respects_drive C _ _) fun _ =>
      respects_bind P (respects_line C _) fun _ => respects_bind P (respects_drive C _ _) fun _ =>
      respects_bind P (respects_line C _) fun _ => respects_bind P (respects_drive C _ _) fun _ =>
      respects_bind P (respects_line C _) fun _ => respects_delayHalves C _⟩

theorem respects_writeBit (C : PinClosed R) (v : Bool) : Op.Respects R (writeBit v) :=
  respects_of_calls (writeBit_calls v) C C

theorem respects_bitOfSample (P : IsPath R) (v : Sample) : Op.Respects R (bitOfSample v) := by
  cases v <;> exact fun s => P.refl s

theorem readBit_calls : Op.Calls PinClosed .readBit readBit :=
  ⟨_, rfl, fun R C => by
    have P := C.path
    exact respects_bind P (respects_line C _) fun _ => respects_bind P (respects_drive C _ _) fun _ =>
      respects_bind P (respects_line C _) fun _ => respects_bind P (respects_delayHalves C _) fun _ =>
      respects_bind P (respects_line C _) fun _ => respects_bind P (respects_sampleSda C) fun v =>
      respects_bind P (fun s => C.sample s v) fun _ =>
      respects_bind P (respects_line C _) fun _ => respects_bind P (respects_delayHalves C _) fun _ =>
      respects_bind P (respects_line C _) fun _ => respects_bind P (respects_drive C _ _) fun _ =>
      respects_bind P (respects_line C _) fun _ => respects_bind P (respects_delayHalves C _) fun _ =>
      respects_bind P (respects_line C _) fun _ => respects_bind P (respects_readState P _) fun v =>
      respects_bitOfSample P v⟩

theorem respects_readBit (C : PinClosed R) : Op.Respects R readBit :=
  respects_of_calls readBit_calls C C

/-! ## The working registers under a bit operation -/

/-- The working registers as before is a relation closed under the bit operations. -/
theorem sameWork_closed : PinClosed (fun s t => t.work = s.work) where
  path := ⟨fun _ => rfl, fun h1 h2 => h2.trans h1⟩
  call := fun _ op _ h s => h (s.pushFrame op)
  line := fun _ _ => rfl
  out := fun _ p _ => by cases p <;> rfl
  inp := fun _ => rfl
  rd := fun _ => rfl
  dly := fun _ _ => rfl
  busy := fun _ _ => rfl
  sample := fun _ _ => rfl

/-- `WRITEBIT` changes no working register. -/
theorem writeBit_work (v : Bool) (s : State) : (Op.apply (writeBit v) s).2.work = s.work :=
  respects_writeBit sameWork_closed v s

/-! ## WRITEBYTE -/

theorem respects_sendBits (C : ByteClosed R) (n : Nat) : ∀ s : State, s.work.bitcnt.toNat + n ≤ 8 →
    R s (Op.apply (sendBits n) s).2 := by
  have P := C.pin.path
  induction n with
  | zero => exact fun s _ => C.pin.line s _
  | succ n ih =>
    intro s hs
    simp only [sendBits, apply_line_bind, apply_readState_bind]
    refine P.trans (P.trans (C.pin.line s 2) (C.pin.line _ 3)) ?_
    generalize hu : (s.goToStep 2).goToStep 3 = u
    have huw : u.work = s.work := by rw [← hu]; rfl
    generalize hv : msbFirst (s.goToStep 2).work.shift (s.goToStep 2).work.bitcnt.toNat = v
    have hw : (Op.apply (writeBit v) u).2.work = s.work := (writeBit_work v u).trans huw
    rcases apply_bind_cases (writeBit v) (fun _ => (line 4 >>= fun _ =>
        update (fun s => s.setWork { s.work with bitcnt := s.work.bitcnt + 1#4 }) >>= fun _ => sendBits n)) u with
      ⟨e, _, h⟩ | ⟨a, _, h⟩
    · rw [h]
      exact respects_writeBit C.pin v u
    · rw [h]
      refine P.trans (respects_writeBit C.pin v u) ?_
      simp only [apply_line_bind, apply_update_bind]
      refine P.trans (C.pin.line _ 4) ?_
      have hc : ((Op.apply (writeBit v) u).2.goToStep 4).work.bitcnt.toNat < 8 := by
        show (Op.apply (writeBit v) u).2.work.bitcnt.toNat < 8
        rw [hw]; omega
      refine P.trans (C.count _ hc) (ih _ ?_)
      show (((Op.apply (writeBit v) u).2.work.bitcnt + 1#4 : BitVec 4)).toNat + n ≤ 8
      rw [hw, BitVec.toNat_add]
      have : (1#4 : BitVec 4).toNat = 1 := rfl
      omega

/-- Steps 5 to 8 of `WRITEBYTE`. -/
def ackSlot : Op Ack := do
  line 5
  drive .sda true
  line 6
  let bit ← readBit
  line 7
  setNack bit
  line 8
  pure (ackOf bit)

/-- `WRITEBYTE` in three parts. -/
theorem writeByte_parts (b : Byte) : writeByte b = call .writeByte (line 1 >>= fun _ =>
    update (fun s => s.setWork { s.work with shift := b, bitcnt := 0#4 }) >>= fun _ => sendBits 8 >>= fun _ => ackSlot) :=
  rfl

theorem respects_ackSlot (C : ByteClosed R) : Op.Respects R ackSlot := by
  have P := C.pin.path
  exact respects_bind P (respects_line C.pin _) fun _ => respects_bind P (respects_drive C.pin _ _) fun _ =>
    respects_bind P (respects_line C.pin _) fun _ => respects_bind P (respects_readBit C.pin) fun bit =>
    respects_bind P (respects_line C.pin _) fun _ => respects_bind P (fun s => C.nack s bit) fun _ =>
    respects_bind P (respects_line C.pin _) fun _ => respects_pure P _

theorem writeByte_calls (b : Byte) : Op.Calls ByteClosed .writeByte (writeByte b) := by
  refine ⟨_, writeByte_parts b, fun R C => ?_⟩
  have P := C.pin.path
  intro s
  simp only [apply_line_bind, apply_update_bind]
  refine P.trans (P.trans (C.pin.line s 1) (C.load _ b)) ?_
  generalize hu : (s.goToStep 1).setWork _ = u
  have hb : u.work.bitcnt.toNat + 8 ≤ 8 := by
    rw [← hu]
    exact Nat.le_refl 8
  rcases apply_bind_cases (sendBits 8) (fun _ => ackSlot) u with ⟨e, _, h⟩ | ⟨a, _, h⟩
  · rw [h]; exact respects_sendBits C 8 u hb
  · rw [h]; exact P.trans (respects_sendBits C 8 u hb) (respects_ackSlot C _)

theorem respects_writeByte (C : ByteClosed R) (b : Byte) : Op.Respects R (writeByte b) :=
  respects_of_calls (writeByte_calls b) C.pin C

/-! ## The Register Protocol -/

theorem respects_orStop (C : SetClosed R) {x : Op α} (hx : Op.Respects R x) :
    Op.Respects R (orStop x) := by
  have P := C.pin.path
  refine respects_bind P (respects_attempt hx) fun r => ?_
  cases r with
  | ok a => exact respects_pure P a
  | error e => exact respects_bind P (respects_attempt (respects_stop C.pin)) fun _ => respects_raise P e

theorem respects_stopOnNack (C : SetClosed R) (stage : Stage) (a : Ack) :
    Op.Respects R (stopOnNack stage a) := by
  have P := C.pin.path
  cases a with
  | ack => exact respects_pure P _
  | nack => exact respects_bind P (respects_attempt (respects_stop C.pin)) fun _ => respects_raise P _

theorem respects_transaction (C : SetClosed R) (dev sub val : Byte) :
    Op.Respects R (transaction dev sub val) := by
  have P := C.pin.path
  exact respects_bind P (respects_line C.pin _) fun _ =>
    respects_bind P (fun s => C.operands s dev sub val) fun _ =>
    respects_bind P (respects_line C.pin _) fun _ => respects_bind P (respects_orStop C (respects_start C.pin)) fun _ =>
    respects_bind P (respects_line C.pin _) fun _ => respects_bind P (respects_readState P _) fun b =>
    respects_bind P (respects_orStop C (respects_writeByte C.byte b)) fun a =>
    respects_bind P (respects_line C.pin _) fun _ => respects_bind P (respects_stopOnNack C _ a) fun _ =>
    respects_bind P (respects_line C.pin _) fun _ => respects_bind P (respects_readState P _) fun b =>
    respects_bind P (respects_orStop C (respects_writeByte C.byte b)) fun a =>
    respects_bind P (respects_line C.pin _) fun _ => respects_bind P (respects_stopOnNack C _ a) fun _ =>
    respects_bind P (respects_line C.pin _) fun _ => respects_bind P (respects_readState P _) fun b =>
    respects_bind P (respects_orStop C (respects_writeByte C.byte b)) fun a =>
    respects_bind P (respects_line C.pin _) fun _ => respects_bind P (respects_stopOnNack C _ a) fun _ =>
    respects_bind P (respects_line C.pin _) fun _ => respects_bind P (respects_stop C.pin) fun _ =>
    respects_line C.pin _

theorem setReg_calls (dev sub val : Byte) : Op.Calls RegClosed .setReg (setReg dev sub val) := by
  refine ⟨_, rfl, fun R C => ?_⟩
  have P := C.pin.path
  refine respects_bind P (respects_attempt (respects_transaction C.set dev sub val)) fun r => ?_
  cases r with
  | ok a => exact fun s => C.record s dev sub val
  | error e => exact respects_bind P (fun s => C.forget s dev sub) fun _ => respects_raise P e

theorem respects_setReg (C : RegClosed R) (dev sub val : Byte) : Op.Respects R (setReg dev sub val) :=
  respects_of_calls (setReg_calls dev sub val) C.pin C

theorem respects_bulkLoop (C : RegClosed R) (dev start : Byte) (bytes : List Byte) :
    Op.Respects R (bulkLoop dev start bytes) := by
  have P := C.pin.path
  induction bytes with
  | nil => exact respects_line C.pin _
  | cons b rest ih =>
    refine respects_bind P (respects_line C.pin _) fun _ => respects_bind P (respects_readState P _) fun i =>
      respects_bind P (respects_line C.pin _) fun _ =>
      respects_bind P (respects_attempt (respects_setReg C dev _ b)) fun r => ?_
    cases r with
    | ok a =>
      exact respects_bind P (respects_line C.pin _) fun _ =>
        respects_bind P (fun s => C.bulkI s _) fun _ => ih
    | error e =>
      exact respects_bind P (respects_line C.pin _) fun _ =>
        respects_bind P (fun s => C.log s i) fun _ =>
        respects_bind P (respects_line C.pin _) fun _ => respects_raise P e

theorem respects_forgettingOnError (C : RegClosed R) (dev : State → Byte) (subs : State → List Byte) {x : Op Unit}
    (hx : Op.Respects R x) : Op.Respects R (forgettingOnError dev subs x) := by
  have P := C.pin.path
  refine respects_bind P (respects_attempt hx) fun r => ?_
  cases r with
  | ok a => exact respects_pure P _
  | error e =>
    exact respects_bind P (fun s => C.forgetAll s (dev s) (subs s)) fun _ => respects_raise P e

theorem writeBulk_calls (dev start : Byte) (bytes : List Byte) :
    Op.Calls RegClosed .writeBulk (writeBulk dev start bytes) := by
  refine ⟨_, rfl, fun R C => ?_⟩
  have P := C.pin.path
  exact respects_forgettingOnError C _ _ (respects_bind P (respects_line C.pin _) fun _ =>
    respects_bind P (fun s => C.bulkI s _) fun _ =>
    respects_bind P (respects_bulkLoop C dev start bytes) fun _ => respects_line C.pin _)

theorem respects_writeBulk (C : RegClosed R) (dev start : Byte) (bytes : List Byte) :
    Op.Respects R (writeBulk dev start bytes) :=
  respects_of_calls (writeBulk_calls dev start bytes) C.pin C

/-! ## The Device Programmer -/

theorem respects_memWrite (C : RegClosed R) (sub val : Config → Byte) :
    Op.Respects R (memWrite sub val) :=
  respects_bind C.pin.path (respects_readState C.pin.path _) fun _ => respects_setReg C _ _ _

theorem respects_initLoop (C : InitClosed R) (entries : List (Byte × Byte)) : Op.Respects R (initLoop entries) := by
  have P := C.reg.pin.path
  induction entries with
  | nil => exact respects_line C.reg.pin _
  | cons e rest ih =>
    exact respects_bind P (respects_line C.reg.pin _) fun _ => respects_bind P (respects_line C.reg.pin _) fun _ =>
      respects_bind P (respects_line C.reg.pin _) fun _ => respects_bind P (respects_memWrite C.reg _ _) fun _ =>
      respects_bind P (respects_line C.reg.pin _) fun _ =>
      respects_bind P (fun s => C.initI s _) fun _ => ih

theorem initialise_calls : Op.Calls InitClosed .initialise initialise := by
  refine ⟨_, rfl, fun R C => ?_⟩
  have P := C.reg.pin.path
  exact respects_forgettingOnError C.reg _ _ (respects_bind P (respects_line C.reg.pin _) fun _ =>
    respects_bind P (fun s => C.initI s _) fun _ =>
    respects_bind P (respects_readState P _) fun entries =>
    respects_bind P (respects_initLoop C entries) fun _ => respects_line C.reg.pin _)

theorem respects_initialise (C : InitClosed R) : Op.Respects R initialise :=
  respects_of_calls initialise_calls C.reg.pin C

theorem respects_uploadSequence (C : LoadClosed R) (mux program : List Byte) :
    Op.Respects R (uploadSequence mux program) := by
  have P := C.reg.pin.path
  have hu : ∀ bytes, Op.Respects R (upload bytes) := fun bytes =>
    respects_bind P (respects_readState P _) fun c => respects_writeBulk C.reg _ _ bytes
  have he : ∀ v, Op.Respects R (setEngineCmd v) := fun v s => C.engine s v
  have hp : ∀ v, Op.Respects R (setPageCmd v) := fun v s => C.page s v
  have hm : ∀ sub val, Op.Respects R (memWrite sub val) := fun _ _ => respects_memWrite C.reg _ _
  exact respects_bind P (respects_line C.reg.pin _) fun _ =>
    respects_bind P (respects_bind P (hm _ _) fun _ => he _) fun _ =>
    respects_bind P (respects_line C.reg.pin _) fun _ =>
    respects_bind P (respects_bind P (hm _ _) fun _ => hp _) fun _ =>
    respects_bind P (respects_line C.reg.pin _) fun _ => respects_bind P (hu mux) fun _ =>
    respects_bind P (respects_line C.reg.pin _) fun _ =>
    respects_bind P (respects_bind P (hm _ _) fun _ => hp _) fun _ =>
    respects_bind P (respects_line C.reg.pin _) fun _ => respects_bind P (hu program) fun _ =>
    respects_bind P (respects_line C.reg.pin _) fun _ =>
    respects_bind P (respects_bind P (hm _ _) fun _ => he _) fun _ =>
    respects_bind P (respects_line C.reg.pin _) fun _ => respects_bind P (hm _ _) fun _ =>
    respects_bind P (respects_line C.reg.pin _) fun _ => respects_bind P (hm _ _) fun _ => he _

theorem loadProgram_calls (mux program : List Byte) :
    Op.Calls LoadClosed .loadProgram (loadProgram mux program) := by
  refine ⟨_, rfl, fun R C => ?_⟩
  have P := C.reg.pin.path
  refine respects_bind P (respects_line C.reg.pin _) fun _ => ?_
  split
  · exact respects_raise P _
  · exact respects_uploadSequence C mux program

theorem respects_loadProgram (C : LoadClosed R) (mux program : List Byte) :
    Op.Respects R (loadProgram mux program) :=
  respects_of_calls (loadProgram_calls mux program) C.reg.pin C

theorem playTape_calls (index : Byte) : Op.Calls ProgClosed .playTape (playTape index) := by
  refine ⟨_, rfl, fun R C => ?_⟩
  have P := C.reg.pin.path
  refine respects_bind P (respects_line C.reg.pin _) fun _ =>
    respects_bind P (fun s => C.tape s index) fun _ =>
    respects_bind P (respects_line C.reg.pin _) fun _ => respects_bind P (respects_readState P _) fun tape => ?_
  split
  · exact respects_raise P _
  · exact respects_bind P (respects_line C.reg.pin _) fun _ => respects_bind P (respects_readState P _) fun c =>
      respects_loadProgram C.load _ _

theorem respects_playTape (C : ProgClosed R) (index : Byte) : Op.Respects R (playTape index) :=
  respects_of_calls (playTape_calls index) C.reg.pin C

/-! ## Bring-up and playback -/

theorem respects_bringUpAttempt (C : BringUpClosed R) : Op.Respects R bringUpAttempt := by
  have P := C.path
  exact respects_bind P (fun s => C.attempt s _) fun _ => respects_bind P (respects_readState P _) fun k =>
    respects_bind P (fun s => C.top s _) fun _ => respects_attempt C.init

theorem respects_bringUpLoop (C : BringUpClosed R) (n : Nat) : Op.Respects R (bringUpLoop n) := by
  have P := C.path
  induction n with
  | zero =>
    refine respects_bind P (respects_bringUpAttempt C) fun r => ?_
    cases r with
    | ok a => exact respects_pure P _
    | error e => exact respects_raise P _
  | succ n ih =>
    refine respects_bind P (respects_bringUpAttempt C) fun r => ?_
    cases r with
    | ok a => exact respects_pure P _
    | error e =>
      exact respects_bind P (respects_readState P _) fun k =>
        respects_bind P (fun s => C.top s _) fun _ => respects_bind P (respects_readState P _) fun c =>
        respects_bind P (fun s => C.dly s _) fun _ => ih

theorem respects_bringUp (C : BringUpClosed R) : Op.Respects R bringUp :=
  respects_bind C.path (fun s => C.attempt s _) fun _ => respects_bringUpLoop C _

theorem respects_bringUpAndPlay (C : RunClosed R) : Op.Respects R bringUpAndPlay := by
  have P := C.bringUp.path
  refine respects_bind P (respects_attempt (respects_bringUp C.bringUp)) fun r => ?_
  cases r with
  | error e => exact fun s => C.primary s _
  | ok a =>
    refine respects_bind P (fun s => C.bringUp.top s _) fun _ s => ?_
    simp only [apply_readState_bind, apply_attempt_bind]
    refine P.trans (C.play s) ?_
    cases (Op.apply (playTape s.work.tape) s).1 with
    | ok a => exact P.refl _
    | error e => exact C.primary _ _

/-! ## The Sequencer -/

theorem respects_acquire (C : SeqClosed R) : Op.Respects R acquire := by
  have P := C.run.bringUp.path
  refine respects_bind P (respects_readState P _) fun c => respects_bind P (fun s => C.request s .scl) fun r => ?_
  cases r with
  | none => exact respects_raise P _
  | some h =>
    refine respects_bind P (fun s => C.session s _) fun _ => respects_bind P (fun s => C.request s .sda) fun r => ?_
    cases r with
    | none =>
      refine respects_bind P (fun s => C.release s .scl) fun ok => respects_bind P (fun s => C.session s _) fun _ =>
        ?_
      cases ok
      · exact respects_bind P (fun s => C.log s _) fun _ => respects_raise P _
      · exact respects_raise P _
    | some h => exact respects_bind P (fun s => C.session s _) fun _ => fun s => C.session s _

theorem respects_release (C : SeqClosed R) : Op.Respects R release := by
  have P := C.run.bringUp.path
  exact respects_bind P (fun s => C.release s .sda) fun _ => respects_bind P (fun s => C.session s _) fun _ =>
    respects_bind P (fun s => C.release s .scl) fun _ => respects_bind P (fun s => C.session s _) fun _ =>
    respects_bind P (fun s => C.session s _) fun _ => fun s => C.status s _

theorem respects_combine (C : SeqClosed R) : Op.Respects R combine := by
  have P := C.run.bringUp.path
  refine respects_bind P (respects_readState P _) fun p => respects_bind P (respects_readState P _) fun c =>
    respects_bind P ?_ fun _ => respects_pure P _
  cases p <;> cases c
  · exact respects_pure P _
  · exact respects_pure P _
  · exact respects_pure P _
  · exact fun s => C.log s _

theorem respects_exitWith (C : SeqClosed R) (st : Status) : Op.Respects R (exitWith st) := by
  have P := C.run.bringUp.path
  exact respects_bind P (fun s => C.status s _) fun _ => respects_bind P (fun s => C.run.bringUp.top s _) fun _ =>
    respects_pure P _

/-- `RUN`, from the state in which `TAPE` is set. -/
theorem respects_run (C : SeqClosed R) (index : Byte) (s : State) :
    R (s.setTape index) (Op.apply (run index) s).2 := by
  have P := C.run.bringUp.path
  unfold run
  rw [apply_update_bind]
  generalize s.setTape index = u
  revert u
  show Op.Respects R _
  refine respects_bind P (fun s => C.status s _) fun _ =>
    respects_bind P (fun s => C.run.bringUp.top s _) fun _ => respects_bind P (respects_attempt (respects_acquire C)) fun r => ?_
  cases r with
  | error e => exact respects_exitWith C _
  | ok a =>
    exact respects_bind P (respects_bringUpAndPlay C.run) fun _ =>
      respects_bind P (fun s => C.run.bringUp.top s _) fun _ => respects_bind P (respects_release C) fun _ =>
      respects_bind P (respects_combine C) fun _ => respects_exitWith C _

/-- `RUNERR`, from the state in which `TAPE` is set. -/
theorem respects_runErr (C : SeqClosed R) (index : Byte) (s : State) :
    R (s.setTape index) (Op.apply (runErr index) s).2 := by
  have P := C.run.bringUp.path
  unfold runErr
  rcases apply_bind_cases (run index) (fun st => goTop (.terminalWait st) >>= fun _ => (pure (.terminalIdle st) : Op Status)) s with
    ⟨e, _, h⟩ | ⟨a, _, h⟩
  · rw [h]
    exact respects_run C index s
  · rw [h]
    exact P.trans (respects_run C index s) (C.run.bringUp.top _ _)

end Sys2Proof.Machine
end

