-- ==== Sys2Proof/Laws/Waves.lean ====
section
/-! SUPPORT. What each operation does in the environments claims speak of, in closed form: the whole state it leaves. -/

namespace Sys2Proof.Machine

variable {α β : Type}

/-! ## Several draws and events at once -/

@[simp] theorem Script.advanceBy_zero (sc : Script α) : sc.advanceBy 0 = sc := by
  simp [Script.advanceBy]

@[simp] theorem Script.advanceBy_advanceBy (m n : Nat) (sc : Script α) :
    (sc.advanceBy m).advanceBy n = sc.advanceBy (m + n) := by
  simp [Script.advanceBy, Nat.add_assoc]

@[simp] theorem Script.advance_advanceBy (n : Nat) (sc : Script α) :
    (sc.advanceBy n).advance = sc.advanceBy (n + 1) := by
  simp [Script.advanceBy, Script.advance, Nat.add_assoc]

theorem Script.advance_eq (sc : Script α) : sc.advance = sc.advanceBy 1 := by
  simp [Script.advanceBy, Script.advance]

@[simp] theorem Script.nth_advanceBy (free : Nat → α) (sc : Script α) (n k : Nat) :
    (sc.advanceBy n).nth free k = sc.nth free (n + k) := by
  simp [Script.nth, Script.advanceBy, Nat.add_assoc]

/-! ## Pin calls -/

theorem apply_drive (p : Pin) (b : Bool) (s : State) :
    Op.apply (drive p b) s =
      (if s.answer 0 then .ok () else .error (.resource .setOutput p), s.pinSetOutput p b) := by
  unfold drive pinSetOutput
  rw [apply_bind]
  simp only [apply_mk]
  split <;> simp_all

/-- What simp unfolds to run an operation on a state written out. -/
theorem apply_sampleSda (s : State) :
    Op.apply sampleSda s =
      if s.answer 0 then (.ok ((s.pinSetInput .sda).sample 0), (s.pinSetInput .sda).pinRead .sda)
      else (.error (.resource .setInput .sda), s.pinSetInput .sda) := by
  unfold sampleSda pinSetInput pinRead
  rw [apply_bind]
  simp only [apply_mk]
  split <;> simp_all

/-! ## The Bus Engine, every pin call answering ok -/

theorem start_ok (s : State) (h : s.OkFor 3) : Op.apply start s = (.ok (), s.afterStart) := by
  obtain ⟨cfg, session, work, flags, status, scl, sda, ghost, remote, env, pc, trace, buf0, buf1, result, inputs⟩ := s
  simp only [State.OkFor, State.answer] at h
  simp [start, apply_call, apply_drive, apply_bind, State.pushFrame, State.popFrame, State.goToStep, ControlPoint.push,
    ControlPoint.pop, ControlPoint.atStep, State.setPc,
    State.pinSetOutput, State.emit, State.setTrace, State.setPin, State.pin, State.setScl, State.setSda,
    State.drawAnswer, State.setEnv, State.answer, h, setBusBusy, State.setGhost, PinState.afterSetOutput, startWave, State.afterStart,
    State.waved, Script.advance_eq, PinState.driven]

theorem stop_ok (s : State) (h : s.OkFor 4) : Op.apply stop s = (.ok (), s.afterStop) := by
  obtain ⟨cfg, session, work, flags, status, scl, sda, ghost, remote, env, pc, trace, buf0, buf1, result, inputs⟩ := s
  simp only [State.OkFor, State.answer] at h
  simp [stop, apply_call, apply_drive, apply_bind, State.pushFrame, State.popFrame, State.goToStep, ControlPoint.push,
    ControlPoint.pop, ControlPoint.atStep, State.setPc,
    State.pinSetOutput, State.emit, State.setTrace, State.setPin, State.pin, State.setScl, State.setSda,
    State.drawAnswer, State.setEnv, State.answer, h, setBusBusy, State.setGhost, PinState.afterSetOutput, stopWave, State.afterStop,
    State.waved, Script.advance_eq, PinState.driven]

theorem writeBit_ok (v : Bool) (s : State) (h : s.OkFor 3) :
    Op.apply (writeBit v) s = (.ok (), s.afterWriteBit v) := by
  obtain ⟨cfg, session, work, flags, status, scl, sda, ghost, remote, env, pc, trace, buf0, buf1, result, inputs⟩ := s
  simp only [State.OkFor, State.answer] at h
  simp [writeBit, apply_call, apply_drive, apply_bind, State.pushFrame, State.popFrame, State.goToStep, ControlPoint.push,
    ControlPoint.pop, ControlPoint.atStep, State.setPc,
    State.pinSetOutput, State.emit, State.setTrace, State.setPin, State.pin, State.setScl, State.setSda,
    State.drawAnswer, State.setEnv, State.answer, h, PinState.afterSetOutput, bitWave, State.afterWriteBit,
    State.waved, Script.advance_eq, PinState.driven]

theorem apply_bitOfSample (v : Sample) (s : State) : Op.apply (bitOfSample v) s = (readOutcome v, s) := by
  cases v <;> rfl

theorem readBit_ok (s : State) (h : s.OkFor 3) :
    Op.apply readBit s = (readOutcome (s.sample 0), s.afterReadBit) := by
  obtain ⟨cfg, session, work, flags, status, scl, sda, ghost, remote, env, pc, trace, buf0, buf1, result, inputs⟩ := s
  simp only [State.OkFor, State.answer] at h
  simp [readBit, apply_call, apply_drive, apply_sampleSda, apply_bitOfSample, apply_bind, State.pushFrame, State.popFrame,
    State.goToStep, ControlPoint.push, ControlPoint.pop, ControlPoint.atStep, State.setPc,
    State.pinSetOutput, State.pinSetInput, State.pinRead, State.drawSample, State.sample, setSample, State.setFlags, State.emit, State.setTrace, State.setPin, State.pin, State.setScl, State.setSda,
    State.drawAnswer, State.setEnv, State.answer, h, PinState.afterSetOutput, PinState.afterSetInput, readWave, State.afterReadBit,
    State.waved, Script.advance_eq, PinState.driven]

@[simp] theorem waved_answer (s : State) (a n : Nat) (evs : List Event) (k : Nat) :
    (s.waved a n evs).answer k = s.answer (a + k) := by
  simp [State.waved, State.answer]

/-- The state after one more bit of `WRITEBYTE`. -/
def State.bitSent (s : State) : State :=
  ((((s.waved 3 0 (bitWave s.session.halfPeriod (msbFirst s.work.shift s.work.bitcnt.toNat))).setScl
    (s.scl.driven true)).setSda (s.sda.driven (msbFirst s.work.shift s.work.bitcnt.toNat))).setPc
    (s.goToStep 4).pc).setWork { s.work with bitcnt := s.work.bitcnt + 1#4 }

/-- Answers that come ok later come ok after the first a. -/
theorem okFor_after {s t : State} {a n m : Nat} (e : t.env.answers = s.env.answers.advanceBy a) (h : s.OkFor m)
    (hn : a + n ≤ m) : t.OkFor n := by
  intro k hk
  have := h (a + k) (by omega)
  unfold State.answer at this ⊢
  rw [e, Script.nth_advanceBy]
  exact this

theorem sample_after {s t : State} {a : Nat} (e : t.env.samples = s.env.samples.advanceBy a) (k : Nat) :
    t.sample k = s.sample (a + k) := by
  unfold State.sample
  rw [e, Script.nth_advanceBy]

theorem okFor_same {s t : State} {n m : Nat} (e : t.env = s.env) (h : s.OkFor m) (hn : n ≤ m) : t.OkFor n :=
  okFor_after (a := 0) (by rw [e, Script.advanceBy_zero]) h (by omega)

theorem sendBits_succ_ok (n : Nat) (s : State) (h : s.OkFor 3) :
    Op.apply (sendBits (n + 1)) s = Op.apply (sendBits n) s.bitSent := by
  simp only [sendBits, apply_line_bind, apply_readState_bind]
  rw [apply_bind_ok (writeBit_ok _ _ (okFor_same (t := (s.goToStep 2).goToStep 3) rfl h (Nat.le_refl 3)))]
  simp only [apply_line_bind, apply_update_bind]
  refine congrArg _ ?_
  obtain ⟨cfg, session, work, flags, status, scl, sda, ghost, remote, env, pc, trace, buf0, buf1, result, inputs⟩ := s
  obtain ⟨top, frames⟩ := pc
  cases frames <;> simp only [State.goToStep, ControlPoint.atStep, State.setPc, State.bitSent, State.afterWriteBit, State.waved, State.setWork, State.setScl,
    State.setSda, State.setEnv, State.setTrace]

theorem bitSent_answers (s : State) : s.bitSent.env.answers = s.env.answers.advanceBy 3 := rfl

/-- The state after the eight bits of `WRITEBYTE`. -/
def State.eightBits (s : State) : State :=
  ((((s.waved 24 0 ((bitsMsbFirst s.work.shift).flatMap (bitWave s.session.halfPeriod))).setScl
    (s.scl.driven true)).setSda (s.sda.driven (s.work.shift.getLsbD 0))).setPc (s.goToStep 2).pc).setWork
    { s.work with bitcnt := 8#4 }

theorem sendBits_ok (s : State) (h : s.OkFor 24) (hb : s.work.bitcnt = 0#4) :
    Op.apply (sendBits 8) s = (.ok (), s.eightBits) := by
  have step : ∀ {n : Nat} {u : State}, u.OkFor (3 + n) → u.bitSent.OkFor n := fun h =>
    okFor_after (bitSent_answers _) h (Nat.le_refl _)
  have cut : ∀ {n : Nat} {u : State}, u.OkFor (3 + n) → u.OkFor 3 := fun h =>
    okFor_same rfl h (Nat.le_add_right _ _)
  have h1 := step (n := 21) h
  have h2 := step (n := 18) h1
  have h3 := step (n := 15) h2
  have h4 := step (n := 12) h3
  have h5 := step (n := 9) h4
  have h6 := step (n := 6) h5
  have h7 := step (n := 3) h6
  rw [sendBits_succ_ok 7 s (cut (n := 21) h), sendBits_succ_ok 6 _ (cut (n := 18) h1),
    sendBits_succ_ok 5 _ (cut (n := 15) h2), sendBits_succ_ok 4 _ (cut (n := 12) h3),
    sendBits_succ_ok 3 _ (cut (n := 9) h4), sendBits_succ_ok 2 _ (cut (n := 6) h5),
    sendBits_succ_ok 1 _ (cut (n := 3) h6), sendBits_succ_ok 0 _ h7]
  clear h1 h2 h3 h4 h5 h6 h7 h step cut
  obtain ⟨cfg, session, work, flags, status, scl, sda, ghost, remote, env, pc, trace, buf0, buf1, result, inputs⟩ := s
  obtain ⟨shift, bitcnt, rDev, rSub, rVal, bulkI, initI, attempt, tape⟩ := work
  obtain ⟨top, frames⟩ := pc
  subst hb
  cases frames <;> simp [sendBits, State.eightBits, State.bitSent, State.waved, State.setEnv, State.setTrace, State.setScl, State.setSda,
    State.setPc, State.setWork, State.goToStep, ControlPoint.atStep, PinState.driven, msbFirst, bitsMsbFirst]

/-- The step `WRITEBYTE` is left at, by the sample. -/
def lastByteStep : Sample → Nat
  | .zero => 8
  | .one => 8
  | .invalid => 6

theorem ackSlot_ok (s : State) (h : s.OkFor 4) :
    Op.apply ackSlot s = (byteOutcome (s.sample 0),
      ((((s.waved 4 1 (.out .sda true true :: readWave s.session.halfPeriod (s.sample 0))).setScl
        (s.scl.driven false)).setSda s.sda.released).setFlags
        (s.flags.afterByte (s.sample 0))).setPc (s.goToStep (lastByteStep (s.sample 0))).pc) := by
  have hr : (((s.goToStep 5).pinSetOutput .sda true).goToStep 6).OkFor 3 :=
    okFor_after (a := 1) (by rw [← Script.advance_eq]; rfl) h (by omega)
  have h0 : (s.goToStep 5).answer 0 = true := h 0 (by omega)
  unfold ackSlot
  simp only [apply_line_bind]
  rw [apply_bind, apply_drive, h0]
  simp only [if_true, apply_line_bind]
  rw [apply_bind, readBit_ok _ hr]
  obtain ⟨cfg, session, work, flags, status, scl, sda, ghost, remote, env, pc, trace, buf0, buf1, result, inputs⟩ := s
  obtain ⟨top, frames⟩ := pc
  obtain ⟨nack, sample⟩ := flags
  clear h hr
  simp only [State.answer, State.goToStep, ControlPoint.atStep, State.setPc] at h0
  simp only [State.goToStep, ControlPoint.atStep, State.setPc, State.pinSetOutput, State.emit, State.setTrace, State.setPin,
      State.drawAnswer, State.setEnv, State.setSda, State.sample, State.afterReadBit]
  rcases hv : env.samples.nth Config.freeSample 0 with _ | _ | _ <;> cases frames <;>
  simp [readOutcome, byteOutcome, lastByteStep, Flags.afterByte, setNack, ackOf, State.setFlags, State.waved, State.setScl,
    State.setTrace, State.setEnv, State.setPc, State.goToStep, ControlPoint.atStep, PinState.driven, PinState.released,
    PinState.afterSetOutput,
    -bind_pure_comp, State.pin, levelOf, Script.advance_eq, State.answer, h0]

theorem writeByte_ok (b : Byte) (s : State) (h : s.OkFor 28) :
    Op.apply (writeByte b) s = (byteOutcome (s.sample 0), s.afterByte b) := by
  rw [writeByte_parts, apply_call]
  simp only [apply_line_bind, apply_update_bind]
  generalize hu : (s.pushFrame OpName.writeByte).goToStep 1 = u
  have hue : u.env = s.env := by rw [← hu]; rfl
  rw [apply_bind_ok (sendBits_ok (u.setWork { u.work with shift := b, bitcnt := 0#4 })
    (okFor_same (s := s) hue h (by omega)) rfl)]
  rw [ackSlot_ok _ (okFor_after (s := s) (a := 24) (by simp [State.eightBits, State.waved, hue]) h (by omega))]
  subst hu
  obtain ⟨cfg, session, work, flags, status, scl, sda, ghost, remote, env, pc, trace, buf0, buf1, result, inputs⟩ := s
  obtain ⟨top, frames⟩ := pc
  simp [State.sample, State.waved, State.setScl, State.setFlags, State.setWork, State.popFrame, State.pushFrame, ControlPoint.push,
    ControlPoint.pop, ControlPoint.atStep,
    State.setTrace, State.setEnv, State.setSda, State.setPc, State.goToStep, PinState.driven, PinState.released, byteWave,
    levelOf, State.afterByte, State.eightBits]

/-! ## SETREG (R97, R98) -/

theorem orStop_ok {x : Op α} {s t : State} {a : α} (h : Op.apply x s = (.ok a, t)) :
    Op.apply (orStop x) s = (.ok a, t) := by
  unfold orStop
  rw [apply_attempt_bind, h]
  rfl

theorem orStop_error {x : Op α} {s t : State} {e : Error} (h : Op.apply x s = (.error e, t)) :
    Op.apply (orStop x) s = (.error e, (Op.apply stop t).2) := by
  unfold orStop
  rw [apply_attempt_bind, h]
  rfl

theorem stopOnNack_ack (stage : Stage) (s : State) : Op.apply (stopOnNack stage .ack) s = (.ok (), s) := rfl

theorem stopOnNack_nack (stage : Stage) (s : State) :
    Op.apply (stopOnNack stage .nack) s = (.error (.protocol stage), (Op.apply stop s).2) := rfl

/-- One byte of a transaction: steps n and n + 1 of `SETREG`. -/
def byteStep (n : Nat) (f : State → Byte) (stage : Stage) : Op Unit := do
  line n
  let b ← readState f
  let a ← orStop (writeByte b)
  line (n + 1)
  stopOnNack stage a

/-- The transaction by its bytes. -/
theorem transaction_parts (dev sub val : Byte) : transaction dev sub val = (do
    line 1
    update fun s => s.setWork { s.work with rDev := dev, rSub := sub, rVal := val }
    line 2
    orStop start
    byteStep 3 (·.work.rDev) .address
    byteStep 5 (·.work.rSub) .subaddress
    byteStep 7 (·.work.rVal) .value
    line 9
    stop
    line 10) := by
  unfold transaction byteStep
  simp only [bind_assoc]

/-- After a byte sent in the transaction. -/
def State.sentByte (s : State) (n : Nat) (b : Byte) : State := ((s.goToStep n).afterByte b).goToStep (n + 1)

@[simp] theorem sentByte_answers (s : State) (n : Nat) (b : Byte) :
    (s.sentByte n b).env.answers = s.env.answers.advanceBy 28 := rfl
@[simp] theorem sentByte_samples (s : State) (n : Nat) (b : Byte) :
    (s.sentByte n b).env.samples = s.env.samples.advanceBy 1 := rfl

/-- A byte acknowledged: the transaction goes on. -/
theorem byteStep_ack (n : Nat) (f : State → Byte) (stage : Stage) (s : State) (h : s.OkFor 28)
    (ha : s.sample 0 = .zero) :
    Op.apply (byteStep n f stage) s = (.ok (), s.sentByte n (f (s.goToStep n))) := by
  have hs : (s.goToStep n).sample 0 = .zero := ha
  unfold byteStep
  simp only [apply_line_bind, apply_readState_bind]
  rw [apply_bind_ok (orStop_ok (a := Ack.ack) (t := (s.goToStep n).afterByte (f (s.goToStep n))) ?_)]
  · rfl
  · exact (writeByte_ok (f (s.goToStep n)) (s.goToStep n) (okFor_same rfl h (Nat.le_refl _))).trans (by rw [hs]; rfl)

/-- A byte not acknowledged, or with an invalid sample: the stop condition, then the error. -/
theorem byteStep_stop (n : Nat) (f : State → Byte) (stage : Stage) (s : State) (h : s.OkFor 32)
    (ha : s.sample 0 ≠ .zero) :
    (Op.apply (byteStep n f stage) s).1 = .error (nackError stage (s.sample 0)) ∧
    ∃ m, (Op.apply (byteStep n f stage) s).2 =
      (((s.goToStep n).afterByte (f (s.goToStep n))).goToStep m).afterStop := by
  have hw := writeByte_ok (f (s.goToStep n)) (s.goToStep n) (okFor_same rfl h (by omega))
  have hk : ∀ m, (((s.goToStep n).afterByte (f (s.goToStep n))).goToStep m).OkFor 4 := fun m =>
    okFor_after (a := 28) rfl h (by omega)
  have hs : (s.goToStep n).sample 0 = s.sample 0 := rfl
  rw [hs] at hw
  unfold byteStep
  simp only [apply_line_bind, apply_readState_bind]
  rcases hv : s.sample 0 with _ | _ | _
  · exact absurd hv ha
  · rw [hv] at hw
    rw [apply_bind_ok (orStop_ok (a := Ack.nack) (t := (s.goToStep n).afterByte (f (s.goToStep n))) hw),
      apply_line_bind, stopOnNack_nack, stop_ok _ (hk (n + 1))]
    exact ⟨rfl, n + 1, rfl⟩
  · rw [hv] at hw
    have hk' : ((s.goToStep n).afterByte (f (s.goToStep n))).OkFor 4 := okFor_after (a := 28) rfl h (by omega)
    rw [apply_bind_error (orStop_error hw), stop_ok _ hk']
    refine ⟨rfl, n, ?_⟩
    obtain ⟨cfg, session, work, flags, status, scl, sda, ghost, remote, env, pc, trace, buf0, buf1, result, inputs⟩ := s
    obtain ⟨top, frames⟩ := pc
    cases frames <;> rfl

/-- The state in which the three bytes of a transaction are sent: after steps 1 and 2 of `SETREG`. -/
def State.opened (s : State) (dev sub val : Byte) : State :=
  (((s.goToStep 1).setWork { s.work with rDev := dev, rSub := sub, rVal := val }).goToStep 2).afterStart

@[simp] theorem opened_answers (s : State) (dev sub val : Byte) :
    (s.opened dev sub val).env.answers = s.env.answers.advanceBy 3 := rfl
@[simp] theorem opened_samples (s : State) (dev sub val : Byte) : (s.opened dev sub val).env.samples = s.env.samples := by
  show s.env.samples.advanceBy 0 = s.env.samples
  simp

theorem transaction_opened (dev sub val : Byte) (s : State) (h : s.OkFor 3) :
    Op.apply (transaction dev sub val) s = Op.apply (do
      byteStep 3 (·.work.rDev) .address
      byteStep 5 (·.work.rSub) .subaddress
      byteStep 7 (·.work.rVal) .value
      line 9
      stop
      line 10) (s.opened dev sub val) := by
  rw [transaction_parts]
  simp only [apply_line_bind, apply_update_bind]
  exact apply_bind_ok (orStop_ok (start_ok _ (okFor_same rfl h (Nat.le_refl _))))

/-- The transaction with its bytes sent so far. -/
def State.sent1 (s : State) (dev sub val : Byte) : State := (s.opened dev sub val).sentByte 3 dev
/-- The transaction with its bytes sent so far. -/
def State.sent2 (s : State) (dev sub val : Byte) : State := (s.sent1 dev sub val).sentByte 5 sub
/-- The transaction with its bytes sent so far. -/
def State.sent3 (s : State) (dev sub val : Byte) : State := (s.sent2 dev sub val).sentByte 7 val

@[simp] theorem sent1_answers (s : State) (dev sub val : Byte) :
    (s.sent1 dev sub val).env.answers = s.env.answers.advanceBy 31 := by simp [State.sent1]
@[simp] theorem sent1_samples (s : State) (dev sub val : Byte) :
    (s.sent1 dev sub val).env.samples = s.env.samples.advanceBy 1 := by simp [State.sent1]
@[simp] theorem sent2_answers (s : State) (dev sub val : Byte) :
    (s.sent2 dev sub val).env.answers = s.env.answers.advanceBy 59 := by simp [State.sent2]
@[simp] theorem sent2_samples (s : State) (dev sub val : Byte) :
    (s.sent2 dev sub val).env.samples = s.env.samples.advanceBy 2 := by simp [State.sent2]
@[simp] theorem sent3_answers (s : State) (dev sub val : Byte) :
    (s.sent3 dev sub val).env.answers = s.env.answers.advanceBy 87 := by simp [State.sent3]
@[simp] theorem sent3_samples (s : State) (dev sub val : Byte) :
    (s.sent3 dev sub val).env.samples = s.env.samples.advanceBy 3 := by simp [State.sent3]

/-- The address byte was acknowledged. -/
theorem transaction_sent1 (dev sub val : Byte) (s : State) (h : s.OkFor 31) (h0 : s.sample 0 = .zero) :
    Op.apply (transaction dev sub val) s = Op.apply (do
      byteStep 5 (·.work.rSub) .subaddress
      byteStep 7 (·.work.rVal) .value
      line 9
      stop
      line 10) (s.sent1 dev sub val) := by
  rw [transaction_opened _ _ _ _ (okFor_same rfl h (by omega))]
  exact apply_bind_ok (byteStep_ack 3 _ _ _ (okFor_after (a := 3) rfl h (by omega))
    ((sample_after (a := 0) (by simp) 0).trans h0))

/-- The sub-address byte was acknowledged too. -/
theorem transaction_sent2 (dev sub val : Byte) (s : State) (h : s.OkFor 59) (h0 : s.sample 0 = .zero)
    (h1 : s.sample 1 = .zero) :
    Op.apply (transaction dev sub val) s = Op.apply (do
      byteStep 7 (·.work.rVal) .value
      line 9
      stop
      line 10) (s.sent2 dev sub val) := by
  rw [transaction_sent1 _ _ _ _ (okFor_same rfl h (by omega)) h0]
  exact apply_bind_ok (byteStep_ack 5 _ _ _ (okFor_after (a := 31) (by simp) h (by omega))
    ((sample_after (a := 1) (by simp) 0).trans h1))

/-- All three bytes were acknowledged. -/
theorem transaction_ok (dev sub val : Byte) (s : State) (h : s.OkFor 91) (ha : s.AckFor 3) :
    Op.apply (transaction dev sub val) s = (.ok (),
      (((s.sent3 dev sub val).goToStep 9).afterStop).goToStep 10) := by
  rw [transaction_sent2 _ _ _ _ (okFor_same rfl h (by omega)) (ha 0 (by omega)) (ha 1 (by omega))]
  rw [apply_bind_ok (byteStep_ack 7 _ _ _ (okFor_after (a := 59) (by simp) h (by omega))
    ((sample_after (a := 2) (by simp) 0).trans (ha 2 (by omega))))]
  rw [apply_line_bind]
  exact apply_bind_ok (stop_ok _ (okFor_after (a := 87) (sent3_answers s dev sub val) h (by omega)))

theorem setReg_of_ok {dev sub val : Byte} {s u : State}
    (h : Op.apply (transaction dev sub val) (s.pushFrame .setReg) = (.ok (), u)) :
    Op.apply (setReg dev sub val) s = (.ok (), (u.setRemote (u.remote.record u.cfg dev sub val)).popFrame) := by
  unfold setReg noteWrite
  rw [apply_call, apply_attempt_bind, h]
  rfl

theorem setReg_of_error {dev sub val : Byte} {s u : State} {e : Error}
    (h : Op.apply (transaction dev sub val) (s.pushFrame .setReg) = (.error e, u)) :
    Op.apply (setReg dev sub val) s = (.error e, (u.setRemote (u.remote.forget u.cfg dev sub)).popFrame) := by
  unfold setReg noteWrite
  rw [apply_call, apply_attempt_bind, h]
  rfl

/-- A write that is acknowledged leaves exactly what R97 says. -/
theorem setReg_ok (dev sub val : Byte) (s : State) (h : s.OkFor 91) (ha : s.AckFor 3) :
    Op.apply (setReg dev sub val) s = (.ok (), s.wrote (dev, sub, val)) := by
  have h0 := ha 0 (by omega)
  have h1 := ha 1 (by omega)
  have h2 := ha 2 (by omega)
  rw [setReg_of_ok (transaction_ok dev sub val (s.pushFrame .setReg) (okFor_same rfl h (Nat.le_refl _)) ha)]
  clear h ha
  obtain ⟨cfg, session, work, flags, status, scl, sda, ghost, remote, env, pc, trace, buf0, buf1, result, inputs⟩ := s
  obtain ⟨top, frames⟩ := pc
  simp only [State.sample] at h0 h1 h2
  simp [State.sample, State.waved, State.setWork, State.popFrame, State.pushFrame, ControlPoint.push,
    ControlPoint.pop, ControlPoint.atStep, State.setRemote,
    State.setTrace, State.setEnv, State.setPc, State.goToStep, PinState.driven, PinState.released,
    levelOf, State.afterByte, State.afterStop, State.sent1, State.sent2, State.sent3, State.sentByte, State.opened,
    State.afterStart, State.wrote, transactionWave, Flags.afterByte, h0, h1, h2]

/-- The address byte is not acknowledged (R97, R98). -/
theorem setReg_address (dev sub val : Byte) (s : State) (h : s.OkFor 35) (h0 : s.sample 0 ≠ .zero) :
    Op.apply (setReg dev sub val) s =
      (.error (nackError .address (s.sample 0)), s.stoppedAt (dev, sub, val) [] dev (s.sample 0)) := by
  have ht := transaction_opened dev sub val (s.pushFrame .setReg) (okFor_same rfl h (by omega))
  have hs0 : ((s.pushFrame .setReg).opened dev sub val).sample 0 = s.sample 0 := sample_after (a := 0) (by simp; rfl) 0
  obtain ⟨he, m, hu⟩ := byteStep_stop 3 (·.work.rDev) .address ((s.pushFrame .setReg).opened dev sub val)
    (okFor_after (a := 3) rfl h (by omega)) (by rw [hs0]; exact h0)
  rw [hs0] at he
  rw [setReg_of_error (ht.trans (apply_bind_error (Prod.ext he hu)))]
  refine congrArg (Prod.mk _) ?_
  clear h ht he hu hs0 h0
  obtain ⟨cfg, session, work, flags, status, scl, sda, ghost, remote, env, pc, trace, buf0, buf1, result, inputs⟩ := s
  obtain ⟨top, frames⟩ := pc
  simp [State.sample, State.waved, State.setWork, State.popFrame, State.pushFrame, ControlPoint.push,
    ControlPoint.pop, ControlPoint.atStep, State.setRemote,
    State.setTrace, State.setEnv, State.setPc, State.goToStep, PinState.driven, PinState.released,
    levelOf, State.afterByte, State.opened,
    State.afterStart, State.stoppedAt, failedWave, openWave]

/-- The sub-address byte is not acknowledged (R97, R98). -/
theorem setReg_subaddress (dev sub val : Byte) (s : State) (h : s.OkFor 63) (h0 : s.sample 0 = .zero)
    (h1 : s.sample 1 ≠ .zero) :
    Op.apply (setReg dev sub val) s =
      (.error (nackError .subaddress (s.sample 1)), s.stoppedAt (dev, sub, val) [dev] sub (s.sample 1)) := by
  have ht := transaction_sent1 dev sub val (s.pushFrame .setReg) (okFor_same rfl h (by omega)) h0
  have hs0 : ((s.pushFrame .setReg).sent1 dev sub val).sample 0 = s.sample 1 := sample_after (a := 1) (by simp; rfl) 0
  obtain ⟨he, m, hu⟩ := byteStep_stop 5 (·.work.rSub) .subaddress ((s.pushFrame .setReg).sent1 dev sub val)
    (okFor_after (a := 31) (sent1_answers _ dev sub val) h (by omega)) (by rw [hs0]; exact h1)
  rw [hs0] at he
  rw [setReg_of_error (ht.trans (apply_bind_error (Prod.ext he hu)))]
  refine congrArg (Prod.mk _) ?_
  clear h ht he hu hs0 h1
  obtain ⟨cfg, session, work, flags, status, scl, sda, ghost, remote, env, pc, trace, buf0, buf1, result, inputs⟩ := s
  obtain ⟨top, frames⟩ := pc
  simp only [State.sample] at h0
  simp [State.sample, State.waved, State.setWork, State.popFrame, State.pushFrame, ControlPoint.push,
    ControlPoint.pop, ControlPoint.atStep, State.setRemote,
    State.setTrace, State.setEnv, State.setPc, State.goToStep, PinState.driven, PinState.released,
    levelOf, State.afterByte, State.opened, State.sent1, State.sentByte,
    State.afterStart, State.stoppedAt, failedWave, openWave, h0, Flags.afterByte]

/-- The value byte is not acknowledged (R97, R98). -/
theorem setReg_value (dev sub val : Byte) (s : State) (h : s.OkFor 91) (h0 : s.sample 0 = .zero)
    (h1 : s.sample 1 = .zero) (h2 : s.sample 2 ≠ .zero) :
    Op.apply (setReg dev sub val) s =
      (.error (nackError .value (s.sample 2)), s.stoppedAt (dev, sub, val) [dev, sub] val (s.sample 2)) := by
  have ht := transaction_sent2 dev sub val (s.pushFrame .setReg) (okFor_same rfl h (by omega)) h0 h1
  have hs0 : ((s.pushFrame .setReg).sent2 dev sub val).sample 0 = s.sample 2 := sample_after (a := 2) (by simp; rfl) 0
  obtain ⟨he, m, hu⟩ := byteStep_stop 7 (·.work.rVal) .value ((s.pushFrame .setReg).sent2 dev sub val)
    (okFor_after (a := 59) (sent2_answers _ dev sub val) h (by omega)) (by rw [hs0]; exact h2)
  rw [hs0] at he
  rw [setReg_of_error (ht.trans (apply_bind_error (Prod.ext he hu)))]
  refine congrArg (Prod.mk _) ?_
  clear h ht he hu hs0 h2
  obtain ⟨cfg, session, work, flags, status, scl, sda, ghost, remote, env, pc, trace, buf0, buf1, result, inputs⟩ := s
  obtain ⟨top, frames⟩ := pc
  simp only [State.sample] at h0 h1
  simp [State.sample, State.waved, State.setWork, State.popFrame, State.pushFrame, ControlPoint.push,
    ControlPoint.pop, ControlPoint.atStep, State.setRemote,
    State.setTrace, State.setEnv, State.setPc, State.goToStep, PinState.driven, PinState.released,
    levelOf, State.afterByte, State.opened, State.sent1, State.sent2, State.sentByte,
    State.afterStart, State.stoppedAt, failedWave, openWave, h0, h1, Flags.afterByte]

end Sys2Proof.Machine
end

