-- ==== Sys2Proof/Laws/Writes.lean ====
section
/-! SUPPORT. What the writes of the Register Protocol and the Device Programmer leave when every byte is acknowledged, in
closed form: the whole state. -/

namespace Sys2Proof.Machine

variable {α β : Type}

/-! ## States written -/

@[simp] theorem wrote_cfg (s : State) (w) : (s.wrote w).cfg = s.cfg := rfl
@[simp] theorem wrote_session (s : State) (w) : (s.wrote w).session = s.session := rfl
@[simp] theorem wrote_status (s : State) (w) : (s.wrote w).status = s.status := rfl
@[simp] theorem wrote_bulkI (s : State) (w) : (s.wrote w).work.bulkI = s.work.bulkI := rfl
@[simp] theorem wrote_initI (s : State) (w) : (s.wrote w).work.initI = s.work.initI := rfl
@[simp] theorem wrote_attempt (s : State) (w) : (s.wrote w).work.attempt = s.work.attempt := rfl
@[simp] theorem wrote_tape (s : State) (w) : (s.wrote w).work.tape = s.work.tape := rfl
@[simp] theorem wrote_answers (s : State) (w) : (s.wrote w).env.answers = s.env.answers.advanceBy 91 := rfl
@[simp] theorem wrote_samples (s : State) (w) : (s.wrote w).env.samples = s.env.samples.advanceBy 3 := rfl

@[simp] theorem wroteAll_nil (s : State) : s.wroteAll [] = s := rfl
@[simp] theorem wroteAll_cons (s : State) (w : Byte × Byte × Byte) (ws : List (Byte × Byte × Byte)) :
    s.wroteAll (w :: ws) = (s.wrote w).wroteAll ws := rfl
theorem wroteAll_append (s : State) (ws vs : List (Byte × Byte × Byte)) :
    s.wroteAll (ws ++ vs) = (s.wroteAll ws).wroteAll vs := List.foldl_append

/-- A field that a performed write leaves alone is left alone by many. -/
theorem wroteAll_keeps {γ : Type} (f : State → γ) (h : ∀ s w, f (State.wrote s w) = f s) (s : State)
    (ws : List (Byte × Byte × Byte)) : f (s.wroteAll ws) = f s := by
  induction ws generalizing s with
  | nil => rfl
  | cons w ws ih => exact (ih _).trans (h s w)

/-- A change that commutes with a performed write commutes with many. -/
theorem wroteAll_comm (f : State → State) (h : ∀ s w, (f s).wrote w = f (s.wrote w)) (s : State)
    (ws : List (Byte × Byte × Byte)) : (f s).wroteAll ws = f (s.wroteAll ws) := by
  induction ws generalizing s with
  | nil => rfl
  | cons w ws ih => rw [wroteAll_cons, h, ih, wroteAll_cons]

@[simp] theorem wroteAll_cfg (s : State) (ws) : (s.wroteAll ws).cfg = s.cfg :=
  wroteAll_keeps (·.cfg) (fun _ _ => rfl) s ws
@[simp] theorem wroteAll_session (s : State) (ws) : (s.wroteAll ws).session = s.session :=
  wroteAll_keeps (·.session) (fun _ _ => rfl) s ws
@[simp] theorem wroteAll_status (s : State) (ws) : (s.wroteAll ws).status = s.status :=
  wroteAll_keeps (·.status) (fun _ _ => rfl) s ws
@[simp] theorem wroteAll_pc (s : State) (ws) : (s.wroteAll ws).pc = s.pc :=
  wroteAll_keeps (·.pc) (fun _ _ => rfl) s ws
@[simp] theorem wroteAll_buf0 (s : State) (ws) : (s.wroteAll ws).buf0 = s.buf0 :=
  wroteAll_keeps (·.buf0) (fun _ _ => rfl) s ws
@[simp] theorem wroteAll_buf1 (s : State) (ws) : (s.wroteAll ws).buf1 = s.buf1 :=
  wroteAll_keeps (·.buf1) (fun _ _ => rfl) s ws
@[simp] theorem wroteAll_result (s : State) (ws) : (s.wroteAll ws).result = s.result :=
  wroteAll_keeps (·.result) (fun _ _ => rfl) s ws
@[simp] theorem wroteAll_inputs (s : State) (ws) : (s.wroteAll ws).inputs = s.inputs :=
  wroteAll_keeps (·.inputs) (fun _ _ => rfl) s ws
@[simp] theorem wroteAll_bulkI (s : State) (ws) : (s.wroteAll ws).work.bulkI = s.work.bulkI :=
  wroteAll_keeps (·.work.bulkI) (fun _ _ => rfl) s ws
@[simp] theorem wroteAll_initI (s : State) (ws) : (s.wroteAll ws).work.initI = s.work.initI :=
  wroteAll_keeps (·.work.initI) (fun _ _ => rfl) s ws
@[simp] theorem wroteAll_attempt (s : State) (ws) : (s.wroteAll ws).work.attempt = s.work.attempt :=
  wroteAll_keeps (·.work.attempt) (fun _ _ => rfl) s ws
@[simp] theorem wroteAll_tape (s : State) (ws) : (s.wroteAll ws).work.tape = s.work.tape :=
  wroteAll_keeps (·.work.tape) (fun _ _ => rfl) s ws
@[simp] theorem wroteAll_engineCmd (s : State) (ws) : (s.wroteAll ws).ghost.engineCmd = s.ghost.engineCmd :=
  wroteAll_keeps (·.ghost.engineCmd) (fun _ _ => rfl) s ws
@[simp] theorem wroteAll_pageCmd (s : State) (ws) : (s.wroteAll ws).ghost.pageCmd = s.ghost.pageCmd :=
  wroteAll_keeps (·.ghost.pageCmd) (fun _ _ => rfl) s ws
@[simp] theorem wroteAll_sclClaimed (s : State) (ws) : (s.wroteAll ws).scl.claimed = s.scl.claimed :=
  wroteAll_keeps (·.scl.claimed) (fun _ _ => rfl) s ws
@[simp] theorem wroteAll_sdaClaimed (s : State) (ws) : (s.wroteAll ws).sda.claimed = s.sda.claimed :=
  wroteAll_keeps (·.sda.claimed) (fun _ _ => rfl) s ws

/-- What the responder has acknowledged. -/
theorem wroteAll_remote (s : State) (ws) : (s.wroteAll ws).remote = recordWrites s.cfg s.remote ws := by
  induction ws generalizing s with
  | nil => rfl
  | cons w ws ih => exact ih (s.wrote w)

/-- The events of the transactions. -/
theorem wroteAll_trace (s : State) (ws) : (s.wroteAll ws).trace = s.trace ++ wavesOf s.session.halfPeriod ws := by
  induction ws generalizing s with
  | nil => simp [wavesOf]
  | cons w ws ih =>
    rw [wroteAll_cons, ih]
    simp [State.wrote, State.waved, State.setTrace, State.setEnv, wavesOf]

@[simp] theorem wroteAll_answers (s : State) (ws) :
    (s.wroteAll ws).env.answers = s.env.answers.advanceBy (91 * ws.length) := by
  induction ws generalizing s with
  | nil => simp
  | cons w ws ih =>
    rw [wroteAll_cons, ih]
    show (s.env.answers.advanceBy 91).advanceBy _ = _
    rw [Script.advanceBy_advanceBy, List.length_cons, Nat.mul_succ, Nat.add_comm]

@[simp] theorem wroteAll_samples (s : State) (ws) :
    (s.wroteAll ws).env.samples = s.env.samples.advanceBy (3 * ws.length) := by
  induction ws generalizing s with
  | nil => simp
  | cons w ws ih =>
    rw [wroteAll_cons, ih]
    show (s.env.samples.advanceBy 3).advanceBy _ = _
    rw [Script.advanceBy_advanceBy, List.length_cons, Nat.mul_succ, Nat.add_comm]

theorem ackFor_after {s t : State} {a n m : Nat} (e : t.env.samples = s.env.samples.advanceBy a) (h : s.AckFor m)
    (hn : a + n ≤ m) : t.AckFor n := by
  intro k hk
  rw [sample_after e]
  exact h (a + k) (by omega)

@[simp] theorem wroteAll_setPc (s : State) (p : ControlPoint) (ws) :
    (s.setPc p).wroteAll ws = (s.wroteAll ws).setPc p :=
  wroteAll_comm (·.setPc p) (fun _ _ => rfl) s ws
@[simp] theorem wrote_setPc (s : State) (p : ControlPoint) (w) : (s.setPc p).wrote w = (s.wrote w).setPc p := rfl
@[simp] theorem wroteAll_setBulkI (s : State) (v : Byte) (ws) :
    (s.setBulkI v).wroteAll ws = (s.wroteAll ws).setBulkI v :=
  wroteAll_comm (·.setBulkI v) (fun _ _ => rfl) s ws
@[simp] theorem wrote_setBulkI (s : State) (v : Byte) (w) : (s.setBulkI v).wrote w = (s.wrote w).setBulkI v := rfl
@[simp] theorem wroteAll_setInitI (s : State) (v : BitVec 4) (ws) :
    (s.setInitI v).wroteAll ws = (s.wroteAll ws).setInitI v :=
  wroteAll_comm (·.setInitI v) (fun _ _ => rfl) s ws
@[simp] theorem wrote_setInitI (s : State) (v : BitVec 4) (w) : (s.setInitI v).wrote w = (s.wrote w).setInitI v := rfl

@[simp] theorem setPc_setPc (s : State) (p q : ControlPoint) : (s.setPc p).setPc q = s.setPc q := rfl
@[simp] theorem setBulkI_setBulkI (s : State) (p q : Byte) : (s.setBulkI p).setBulkI q = s.setBulkI q := rfl
@[simp] theorem setInitI_setInitI (s : State) (p q : BitVec 4) : (s.setInitI p).setInitI q = s.setInitI q := rfl
@[simp] theorem setPc_setBulkI (s : State) (p : ControlPoint) (v : Byte) :
    (s.setPc p).setBulkI v = (s.setBulkI v).setPc p := rfl
@[simp] theorem setPc_setInitI (s : State) (p : ControlPoint) (v : BitVec 4) :
    (s.setPc p).setInitI v = (s.setInitI v).setPc p := rfl
@[simp] theorem setBulkI_pc (s : State) (v : Byte) : (s.setBulkI v).pc = s.pc := rfl
@[simp] theorem setInitI_pc (s : State) (v : BitVec 4) : (s.setInitI v).pc = s.pc := rfl
@[simp] theorem setBulkI_cfg (s : State) (v : Byte) : (s.setBulkI v).cfg = s.cfg := rfl
@[simp] theorem setInitI_cfg (s : State) (v : BitVec 4) : (s.setInitI v).cfg = s.cfg := rfl
@[simp] theorem setPc_same (s : State) : s.setPc s.pc = s := rfl

@[simp] theorem atStep_atStep (p : ControlPoint) (m n : Nat) : (p.atStep m).atStep n = p.atStep n := by
  obtain ⟨top, frames⟩ := p
  cases frames <;> rfl
@[simp] theorem pop_atStep_push (p : ControlPoint) (op : OpName) (n : Nat) : ((p.push op).atStep n).pop = p := rfl
@[simp] theorem pop_push (p : ControlPoint) (op : OpName) : (p.push op).pop = p := rfl
@[simp] theorem wrote_pc (s : State) (w) : (s.wrote w).pc = s.pc := rfl

/-! ## WRITEBULK (R99) -/

@[simp] theorem bulkWrites_length (dev sub : Byte) (bytes : List Byte) :
    (bulkWrites dev sub bytes).length = bytes.length := by
  induction bytes generalizing sub with
  | nil => rfl
  | cons b bytes ih => simp [bulkWrites, ih]

/-- The loop of `WRITEBULK`, every byte acknowledged. -/
theorem bulkLoop_ok (dev start : Byte) (bytes : List Byte) (s : State) (h : s.OkFor (91 * bytes.length))
    (ha : s.AckFor (3 * bytes.length)) :
    Op.apply (bulkLoop dev start bytes) s = (.ok (),
      ((s.wroteAll (bulkWrites dev (start + s.work.bulkI) bytes)).setBulkI
        (s.work.bulkI + BitVec.ofNat 8 bytes.length)).setPc (s.pc.atStep 2)) := by
  induction bytes generalizing s with
  | nil =>
    show ((Except.ok () : Except Error Unit), s.goToStep 2) = _
    refine congrArg (Prod.mk _) ?_
    simp [bulkWrites, State.setBulkI]
    rfl
  | cons b rest ih =>
    simp only [List.length_cons, Nat.mul_succ] at h ha
    simp only [bulkLoop, apply_line_bind, apply_readState_bind]
    rw [apply_attempt_bind, setReg_ok _ _ _ ((s.goToStep 2).goToStep 3) (okFor_same rfl h (by omega))
      (ackFor_after (a := 0) (s := s) (by simp [State.goToStep]) ha (by omega))]
    simp only [apply_line_bind, apply_update_bind]
    generalize hw : (dev, effectiveSub start (s.goToStep 2).work.bulkI, b) = w
    generalize hu : ((((s.goToStep 2).goToStep 3).wrote w).goToStep 7) = u
    have hua : u.env.answers = s.env.answers.advanceBy 91 := by rw [← hu]; rfl
    have hus : u.env.samples = s.env.samples.advanceBy 3 := by rw [← hu]; rfl
    have hub : u.work.bulkI = s.work.bulkI := by rw [← hu]; rfl
    rw [ih (u.setBulkI (u.work.bulkI + 1#8)) (okFor_after (a := 91) hua h (by omega))
      (ackFor_after (a := 3) hus ha (by omega))]
    refine congrArg (Prod.mk _) ?_
    have hc : (u.setBulkI (u.work.bulkI + 1#8)).work.bulkI = s.work.bulkI + 1#8 := by rw [← hub]; rfl
    have hp : (u.setBulkI (u.work.bulkI + 1#8)).pc.atStep 2 = s.pc.atStep 2 := by
      rw [← hu]
      simp [State.goToStep]
    have e1 : start + (s.work.bulkI + 1#8) = start + s.work.bulkI + 1#8 := by rw [BitVec.add_assoc]
    have e2 : s.work.bulkI + 1#8 + BitVec.ofNat 8 rest.length = s.work.bulkI + BitVec.ofNat 8 (rest.length + 1) := by
      rw [BitVec.add_assoc, ← BitVec.ofNat_add, Nat.add_comm 1]
    rw [hp, hc, e1, e2, ← hu, ← hw]
    simp only [State.goToStep, wrote_setPc, setPc_setPc, wroteAll_setBulkI, wroteAll_setPc, setBulkI_setBulkI,
      setPc_setBulkI]
    rfl

theorem forgettingOnError_ok {dev : State → Byte} {subs : State → List Byte} {x : Op Unit} {s t : State}
    (h : Op.apply x s = (.ok (), t)) : Op.apply (forgettingOnError dev subs x) s = (.ok (), t) := by
  unfold forgettingOnError
  rw [apply_attempt_bind, h]
  rfl

theorem forgettingOnError_error {dev : State → Byte} {subs : State → List Byte} {x : Op Unit} {s t : State} {e : Error}
    (h : Op.apply x s = (.error e, t)) : Op.apply (forgettingOnError dev subs x) s =
      (.error e, t.setRemote (t.remote.forgetAll t.cfg (dev t) (subs t))) := by
  unfold forgettingOnError
  rw [apply_attempt_bind, h]
  rfl

theorem call_of {op : OpName} {x : Op α} {s t : State} {r : Except Error α} (h : Op.apply x (s.pushFrame op) = (r, t)) :
    Op.apply (call op x) s = (r, t.popFrame) := by
  rw [apply_call, h]

/-- `WRITEBULK`, every byte acknowledged. -/
theorem writeBulk_ok (dev start : Byte) (bytes : List Byte) (s : State) (h : s.OkFor (91 * bytes.length))
    (ha : s.AckFor (3 * bytes.length)) :
    Op.apply (writeBulk dev start bytes) s = (.ok (),
      (s.wroteAll (bulkWrites dev start bytes)).setBulkI (BitVec.ofNat 8 bytes.length)) := by
  have hl := bulkLoop_ok dev start bytes (((s.pushFrame .writeBulk).goToStep 1).setBulkI 0#8)
    (okFor_same rfl h (Nat.le_refl _)) (ackFor_after (a := 0) (s := s)
      (by simp [State.setBulkI, State.goToStep, State.pushFrame]) ha (by omega))
  have e0 : (((s.pushFrame .writeBulk).goToStep 1).setBulkI 0#8).work.bulkI = 0#8 := rfl
  rw [e0, BitVec.add_zero, BitVec.zero_add] at hl
  unfold writeBulk
  rw [call_of (forgettingOnError_ok (by
    simp only [apply_line_bind, apply_update_bind]
    exact apply_bind_ok hl))]
  refine congrArg (Prod.mk _) ?_
  simp [State.goToStep, State.pushFrame, State.popFrame]
  rw [← wroteAll_pc s (bulkWrites dev start bytes)]
  rfl

/-! ## INITIALIZE (R109) -/

@[simp] theorem memWrite_apply (sub val : Config → Byte) (s : State) :
    Op.apply (memWrite sub val) s = Op.apply (setReg s.cfg.devAddr (sub s.cfg) (val s.cfg)) s := rfl

/-- One write to the one device, acknowledged. -/
theorem memWrite_ok {s : State} (sub val : Config → Byte) (h : s.OkFor 91) (ha : s.AckFor 3) :
    Op.apply (memWrite sub val) s = (.ok (), s.wrote (s.cfg.devAddr, sub s.cfg, val s.cfg)) := by
  rw [memWrite_apply]
  exact setReg_ok _ _ _ s h ha

/-- The loop of `INITIALIZE`, every byte acknowledged. -/
theorem initLoop_ok (entries : List (Byte × Byte)) (s : State) (h : s.OkFor (91 * entries.length))
    (ha : s.AckFor (3 * entries.length)) :
    Op.apply (initLoop entries) s = (.ok (),
      ((s.wroteAll (entries.map fun e => (s.cfg.devAddr, e.1, e.2))).setInitI
        (s.work.initI + BitVec.ofNat 4 entries.length)).setPc (s.pc.atStep 2)) := by
  induction entries generalizing s with
  | nil =>
    show ((Except.ok () : Except Error Unit), s.goToStep 2) = _
    refine congrArg (Prod.mk _) ?_
    simp [State.setInitI]
    rfl
  | cons e rest ih =>
    obtain ⟨sub, val⟩ := e
    simp only [List.length_cons, Nat.mul_succ] at h ha
    simp only [initLoop, apply_line_bind]
    have hm := memWrite_ok (s := ((s.goToStep 2).goToStep 3).goToStep 4) (fun _ => sub) (fun _ => val)
      (okFor_same rfl h (by omega)) (ackFor_after (a := 0) (s := s) (by simp [State.goToStep]) ha (by omega))
    have hd : (((s.goToStep 2).goToStep 3).goToStep 4).cfg = s.cfg := rfl
    rw [hd] at hm
    rw [apply_bind_ok hm]
    simp only [apply_line_bind, apply_update_bind]
    generalize hu : (((((s.goToStep 2).goToStep 3).goToStep 4).wrote (s.cfg.devAddr, sub, val)).goToStep 6) = u
    have hua : u.env.answers = s.env.answers.advanceBy 91 := by rw [← hu]; simp [State.goToStep]
    have hus : u.env.samples = s.env.samples.advanceBy 3 := by rw [← hu]; simp [State.goToStep]
    have hub : u.work.initI = s.work.initI := by rw [← hu]; simp [State.goToStep]
    have huc : u.cfg = s.cfg := by rw [← hu]; simp [State.goToStep]
    rw [ih (u.setInitI (u.work.initI + 1#4)) (okFor_after (a := 91) hua h (by omega))
      (ackFor_after (a := 3) hus ha (by omega))]
    refine congrArg (Prod.mk _) ?_
    have hc : (u.setInitI (u.work.initI + 1#4)).work.initI = s.work.initI + 1#4 := by rw [← hub]; rfl
    have hp : (u.setInitI (u.work.initI + 1#4)).pc.atStep 2 = s.pc.atStep 2 := by
      rw [← hu]
      simp [State.goToStep]
    have e2 : s.work.initI + 1#4 + BitVec.ofNat 4 rest.length = s.work.initI + BitVec.ofNat 4 (rest.length + 1) := by
      rw [BitVec.add_assoc, ← BitVec.ofNat_add, Nat.add_comm 1]
    rw [hp, hc, e2, setInitI_cfg, huc, ← hu]
    simp only [State.goToStep, wrote_setPc, setPc_setPc, wroteAll_setInitI, wroteAll_setPc, setInitI_setInitI,
      setPc_setInitI]
    rfl

@[simp] theorem initWrites_length (c : Config) : (initWrites c).length = c.initSeq.length := by simp [initWrites]

/-- `INITIALIZE`, every byte acknowledged. -/
theorem initialise_ok (s : State) (h : s.OkFor (91 * s.cfg.initSeq.length)) (ha : s.AckFor (3 * s.cfg.initSeq.length)) :
    Op.apply initialise s = (.ok (),
      (s.wroteAll (initWrites s.cfg)).setInitI (BitVec.ofNat 4 s.cfg.initSeq.length)) := by
  have hl := initLoop_ok s.cfg.initSeq (((s.pushFrame .initialise).goToStep 1).setInitI 0#4)
    (okFor_same rfl h (Nat.le_refl _)) (ackFor_after (a := 0) (s := s)
      (by simp [State.setInitI, State.goToStep, State.pushFrame]) ha (by omega))
  have e0 : (((s.pushFrame .initialise).goToStep 1).setInitI 0#4).work.initI = 0#4 := rfl
  rw [e0, BitVec.zero_add] at hl
  unfold initialise
  rw [call_of (forgettingOnError_ok (by
    simp only [apply_line_bind, apply_update_bind, apply_readState_bind]
    exact apply_bind_ok hl))]
  refine congrArg (Prod.mk _) ?_
  simp [State.goToStep, State.pushFrame, State.popFrame]
  rw [← wroteAll_pc s (initWrites s.cfg)]
  rfl

/-! ## LOADPROGRAM (R111) -/

@[simp] theorem commanded_commanded (s : State) (e f : EngineCmd) (p q : PageCmd) :
    (s.commanded e p).commanded f q = s.commanded f q := rfl
@[simp] theorem wrote_commanded (s : State) (e : EngineCmd) (p : PageCmd) (w) :
    (s.commanded e p).wrote w = (s.wrote w).commanded e p := rfl
@[simp] theorem wroteAll_commanded (s : State) (e : EngineCmd) (p : PageCmd) (ws) :
    (s.commanded e p).wroteAll ws = (s.wroteAll ws).commanded e p :=
  wroteAll_comm (·.commanded e p) (fun _ _ => rfl) s ws
@[simp] theorem commanded_setBulkI (s : State) (e : EngineCmd) (p : PageCmd) (v : Byte) :
    (s.commanded e p).setBulkI v = (s.setBulkI v).commanded e p := rfl
@[simp] theorem setPc_commanded (s : State) (e : EngineCmd) (p : PageCmd) (c : ControlPoint) :
    (s.setPc c).commanded e p = (s.commanded e p).setPc c := rfl
@[simp] theorem commanded_cfg (s : State) (e : EngineCmd) (p : PageCmd) : (s.commanded e p).cfg = s.cfg := rfl
@[simp] theorem commanded_env (s : State) (e : EngineCmd) (p : PageCmd) : (s.commanded e p).env = s.env := rfl
@[simp] theorem commanded_pc (s : State) (e : EngineCmd) (p : PageCmd) : (s.commanded e p).pc = s.pc := rfl
@[simp] theorem commanded_ghost (s : State) (e : EngineCmd) (p : PageCmd) :
    (s.commanded e p).ghost = { s.ghost with engineCmd := e, pageCmd := p } := rfl
@[simp] theorem setBulkI_env (s : State) (v : Byte) : (s.setBulkI v).env = s.env := rfl
@[simp] theorem setBulkI_ghost (s : State) (v : Byte) : (s.setBulkI v).ghost = s.ghost := rfl

/-- The ghosts changed in one way by a command. -/
theorem setEngine_eq (s : State) (v : EngineCmd) :
    s.setGhost { s.ghost with engineCmd := v } = s.commanded v s.ghost.pageCmd := rfl
theorem setPage_eq (s : State) (v : PageCmd) :
    s.setGhost { s.ghost with pageCmd := v } = s.commanded s.ghost.engineCmd v := rfl

theorem upload_ok {s : State} (bytes : List Byte) (h : s.OkFor (91 * bytes.length)) (ha : s.AckFor (3 * bytes.length)) :
    Op.apply (upload bytes) s = (.ok (),
      (s.wroteAll (bulkWrites s.cfg.devAddr s.cfg.progMemBase bytes)).setBulkI (BitVec.ofNat 8 bytes.length)) := by
  unfold upload
  rw [apply_readState_bind]
  exact writeBulk_ok _ _ bytes s h ha

@[simp] theorem loadWrites_length (c : Config) (mux program : List Byte) :
    (loadWrites c mux program).length = mux.length + program.length + 6 := by
  simp [loadWrites]
  omega

/-- A state inside `LOADPROGRAM`: writes done, `BULK_I`, the ghosts as commanded, the control point. -/
def State.midLoad (s : State) (ws : List (Byte × Byte × Byte)) (i : Byte) (e : EngineCmd) (p : PageCmd)
    (c : ControlPoint) : State := (((s.wroteAll ws).setBulkI i).commanded e p).setPc c

section MidLoad
variable {s : State} {ws : List (Byte × Byte × Byte)} {i : Byte} {e : EngineCmd} {p : PageCmd} {c : ControlPoint}

theorem midLoad_step (n : Nat) : (s.midLoad ws i e p c).goToStep n = s.midLoad ws i e p (c.atStep n) := rfl

theorem midLoad_okFor {m n : Nat} (h : s.OkFor m) (hn : 91 * ws.length + n ≤ m) : (s.midLoad ws i e p c).OkFor n :=
  okFor_after (wroteAll_answers s ws) h hn

theorem midLoad_ackFor {m n : Nat} (h : s.AckFor m) (hn : 3 * ws.length + n ≤ m) : (s.midLoad ws i e p c).AckFor n :=
  ackFor_after (wroteAll_samples s ws) h hn

theorem midLoad_write {m n : Nat} (sub val : Config → Byte) (h : s.OkFor m) (ha : s.AckFor n)
    (hm : 91 * ws.length + 91 ≤ m) (hn : 3 * ws.length + 3 ≤ n) :
    Op.apply (memWrite sub val) (s.midLoad ws i e p c) =
      (.ok (), s.midLoad (ws ++ [(s.cfg.devAddr, sub s.cfg, val s.cfg)]) i e p c) := by
  rw [memWrite_ok sub val (midLoad_okFor h hm) (midLoad_ackFor ha hn)]
  refine congrArg (Prod.mk _) ?_
  unfold State.midLoad
  simp only [wroteAll_append, wrote_setPc, wrote_commanded, wrote_setBulkI, commanded_cfg, setBulkI_cfg,
    wroteAll_cfg, wroteAll_cons, wroteAll_nil, State.setPc_cfg]

theorem midLoad_upload {m n : Nat} (bytes : List Byte) (h : s.OkFor m) (ha : s.AckFor n)
    (hm : 91 * ws.length + 91 * bytes.length ≤ m) (hn : 3 * ws.length + 3 * bytes.length ≤ n) :
    Op.apply (upload bytes) (s.midLoad ws i e p c) =
      (.ok (), s.midLoad (ws ++ bulkWrites s.cfg.devAddr s.cfg.progMemBase bytes) (BitVec.ofNat 8 bytes.length) e p c) := by
  rw [upload_ok bytes (midLoad_okFor h hm) (midLoad_ackFor ha hn)]
  refine congrArg (Prod.mk _) ?_
  unfold State.midLoad
  simp only [wroteAll_append, wroteAll_setPc, wroteAll_commanded, wroteAll_setBulkI, State.setPc_cfg, commanded_cfg,
    setBulkI_cfg, wroteAll_cfg, setPc_setBulkI, commanded_setBulkI, setBulkI_setBulkI]

theorem midLoad_engine (f : EngineCmd) :
    Op.apply (setEngineCmd f) (s.midLoad ws i e p c) = (.ok (), s.midLoad ws i f p c) := rfl

theorem midLoad_page (q : PageCmd) :
    Op.apply (setPageCmd q) (s.midLoad ws i e p c) = (.ok (), s.midLoad ws i e q c) := rfl

end MidLoad

/-- Steps 1 to 8 of `LOADPROGRAM`, every byte acknowledged. -/
theorem uploadSequence_ok (mux program : List Byte) (s : State)
    (h : s.OkFor (91 * (mux.length + program.length + 6))) (ha : s.AckFor (3 * (mux.length + program.length + 6))) :
    Op.apply (uploadSequence mux program) s = (.ok (),
      s.midLoad (loadWrites s.cfg mux program) (BitVec.ofNat 8 program.length) .run .program (s.pc.atStep 8)) := by
  have h0 : s = s.midLoad [] s.work.bulkI s.ghost.engineCmd s.ghost.pageCmd s.pc := rfl
  unfold uploadSequence setEngineLoad setEngineHalt setEngineRun selectMuxPage selectProgramPage
  simp only [bind_assoc]
  rw [apply_line_bind]
  conv_lhs => rw [h0]
  rw [midLoad_step, apply_bind_ok (midLoad_write _ _ h ha (by simp) (by simp)),
    apply_bind_ok (midLoad_engine _), apply_line_bind, midLoad_step,
    apply_bind_ok (midLoad_write _ _ h ha (by simp; omega) (by simp; omega)), apply_bind_ok (midLoad_page _),
    apply_line_bind, midLoad_step, apply_bind_ok (midLoad_upload _ h ha (by simp; omega) (by simp; omega)),
    apply_line_bind, midLoad_step,
    apply_bind_ok (midLoad_write _ _ h ha (by simp; omega) (by simp; omega)), apply_bind_ok (midLoad_page _),
    apply_line_bind, midLoad_step, apply_bind_ok (midLoad_upload _ h ha (by simp; omega) (by simp; omega)),
    apply_line_bind, midLoad_step,
    apply_bind_ok (midLoad_write _ _ h ha (by simp; omega) (by simp; omega)), apply_bind_ok (midLoad_engine _),
    apply_line_bind, midLoad_step,
    apply_bind_ok (midLoad_write _ _ h ha (by simp; omega) (by simp; omega)),
    apply_line_bind, midLoad_step,
    apply_bind_ok (midLoad_write _ _ h ha (by simp; omega) (by simp; omega)), midLoad_engine]
  refine congrArg (Prod.mk _) ?_
  simp [loadWrites]

theorem loadProgram_accepts (mux program : List Byte) (hm : mux.length ≤ 32) (hp : program.length ≤ 32) :
    (oversized mux || oversized program) = false := by
  have e1 : oversized mux = false := by unfold oversized; exact decide_eq_false (Nat.not_lt.mpr hm)
  have e2 : oversized program = false := by unfold oversized; exact decide_eq_false (Nat.not_lt.mpr hp)
  rw [e1, e2]
  rfl

theorem loadProgram_body (mux program : List Byte) (s : State) :
    Op.apply (loadProgram mux program) s =
      ((Op.apply (if oversized mux || oversized program then raise (.validation .size) else uploadSequence mux program)
        ((s.pushFrame .loadProgram).goToStep 0)).1,
      (Op.apply (if oversized mux || oversized program then raise (.validation .size) else uploadSequence mux program)
        ((s.pushFrame .loadProgram).goToStep 0)).2.popFrame) := rfl

/-- `LOADPROGRAM` with two buffers of at most 32 bytes, every byte acknowledged. -/
theorem loadProgram_ok (mux program : List Byte) (s : State) (hm : mux.length ≤ 32) (hp : program.length ≤ 32)
    (h : s.OkFor (91 * (mux.length + program.length + 6))) (ha : s.AckFor (3 * (mux.length + program.length + 6))) :
    Op.apply (loadProgram mux program) s = (.ok (),
      ((s.wroteAll (loadWrites s.cfg mux program)).setBulkI (BitVec.ofNat 8 program.length)).commanded .run
        .program) := by
  have hu := uploadSequence_ok mux program ((s.pushFrame .loadProgram).goToStep 0) (okFor_same rfl h (Nat.le_refl _))
    (ackFor_after (a := 0) (s := s) (by simp [State.goToStep, State.pushFrame]) ha (by omega))
  rw [loadProgram_body, loadProgram_accepts mux program hm hp]
  simp only [Bool.false_eq_true, if_false]
  rw [hu]
  refine congrArg (Prod.mk _) ?_
  unfold State.midLoad State.goToStep State.pushFrame State.popFrame
  simp
  have hpc : (((s.wroteAll (loadWrites s.cfg mux program)).setBulkI (BitVec.ofNat 8 program.length)).commanded .run
      .program).pc = s.pc := by simp
  rw [← hpc]
  rfl

/-- `LOADPROGRAM` with an oversized buffer: nothing is sent. -/
theorem loadProgram_oversized (mux program : List Byte) (s : State) (h : 32 < mux.length ∨ 32 < program.length) :
    Op.apply (loadProgram mux program) s = (.error (.validation .size), s) := by
  have ho : (oversized mux || oversized program) = true := by
    rcases h with h | h
    · rw [show oversized mux = true from decide_eq_true h, Bool.true_or]
    · rw [show oversized program = true from decide_eq_true h, Bool.or_true]
  rw [loadProgram_body, ho]
  rfl

/-! ## PLAYTAPE (R112) -/

@[simp] theorem wroteAll_setTape (s : State) (v : Byte) (ws) :
    (s.setTape v).wroteAll ws = (s.wroteAll ws).setTape v :=
  wroteAll_comm (·.setTape v) (fun _ _ => rfl) s ws
@[simp] theorem setPc_setTape (s : State) (c : ControlPoint) (v : Byte) :
    (s.setPc c).setTape v = (s.setTape v).setPc c := rfl
@[simp] theorem setTape_setBulkI (s : State) (v b : Byte) : (s.setTape v).setBulkI b = (s.setBulkI b).setTape v := rfl
@[simp] theorem setTape_commanded (s : State) (v : Byte) (e : EngineCmd) (p : PageCmd) :
    (s.setTape v).commanded e p = (s.commanded e p).setTape v := rfl
@[simp] theorem setTape_pc (s : State) (v : Byte) : (s.setTape v).pc = s.pc := rfl
@[simp] theorem setTape_cfg (s : State) (v : Byte) : (s.setTape v).cfg = s.cfg := rfl

theorem tape_inRange {index : Byte} (h : index.toNat < 2) : tapeOutOfRange index = false :=
  decide_eq_false (Nat.not_le.mpr h)

theorem tape_outOfRange {index : Byte} (h : 2 ≤ index.toNat) : tapeOutOfRange index = true := decide_eq_true h

theorem playTape_body (index : Byte) (s : State) :
    Op.apply (playTape index) s =
      ((Op.apply (if tapeOutOfRange index then raise (.validation .index) else playSelected index)
        ((((s.pushFrame .playTape).goToStep 1).setTape index).goToStep 2)).1,
      (Op.apply (if tapeOutOfRange index then raise (.validation .index) else playSelected index)
        ((((s.pushFrame .playTape).goToStep 1).setTape index).goToStep 2)).2.popFrame) := rfl

/-- `PLAYTAPE` with an index out of range: nothing is sent. -/
theorem playTape_outOfRange (index : Byte) (s : State) (h : 2 ≤ index.toNat) :
    Op.apply (playTape index) s = (.error (.validation .index), s.setTape index) := by
  rw [playTape_body, tape_outOfRange h]
  rfl

/-- `PLAYTAPE` with an index in range, every byte acknowledged. -/
theorem playTape_ok (index : Byte) (s : State) (hi : index.toNat < 2) (hm : (s.cfg.muxTable index).length = 32)
    (hp : s.cfg.program.length = 32) (h : s.OkFor 6370) (ha : s.AckFor 210) :
    Op.apply (playTape index) s = (.ok (),
      (((s.wroteAll (loadWrites s.cfg (s.cfg.muxTable index) s.cfg.program)).setBulkI 32#8).commanded .run
        .program).setTape index) := by
  have hl := loadProgram_ok (s.cfg.muxTable index) s.cfg.program
    (((((s.pushFrame .playTape).goToStep 1).setTape index).goToStep 2).goToStep 3) (by omega) (by omega)
    (okFor_same rfl h (by omega)) (ackFor_after (a := 0) (s := s)
      (by simp [State.goToStep, State.pushFrame, State.setTape]) ha (by omega))
  rw [playTape_body, tape_inRange hi]
  simp only [Bool.false_eq_true, if_false]
  unfold playSelected
  rw [apply_line_bind, apply_readState_bind]
  have hc : (((((s.pushFrame .playTape).goToStep 1).setTape index).goToStep 2).goToStep 3).cfg = s.cfg := rfl
  rw [hc, hl, hc, hp]
  refine congrArg (Prod.mk _) ?_
  unfold State.goToStep State.pushFrame State.popFrame
  simp
  have hpc : ((((s.wroteAll (loadWrites s.cfg (s.cfg.muxTable index) s.cfg.program)).setBulkI 32#8).commanded .run
      .program).setTape index).pc = s.pc := by simp
  rw [← hpc]
  rfl

end Sys2Proof.Machine
end

