-- ==== Sys2Proof/Laws/Frames.lean ====
section
/-! SUPPORT. What an operation leaves unchanged, whatever the environment answers: the parts of the state that no move of
the operation touches, the control point, and which events it can append. -/

namespace Sys2Proof.Machine

variable {α β γ : Type}

/-! ## A part of the state that stays -/

/-- The part `f` of the state is as before. -/
def Keeps (f : State → γ) (s t : State) : Prop := f t = f s

theorem keeps_path (f : State → γ) : IsPath (Keeps f) := ⟨fun _ => rfl, fun h1 h2 => Eq.trans h2 h1⟩

@[simp] theorem afterSetOutput_claimed (p : PinState) (b ok : Bool) : (p.afterSetOutput b ok).claimed = p.claimed := by
  cases ok <;> rfl

@[simp] theorem afterSetInput_claimed (p : PinState) (ok : Bool) : (p.afterSetInput ok).claimed = p.claimed := by
  cases ok <;> rfl

/-- What a part must not look at to stay under the bit operations. -/
theorem keeps_pinClosed {f : State → γ} (hpc : ∀ (s : State) (c : ControlPoint), f (s.setPc c) = f s)
    (hout : ∀ (s : State) (p : Pin) (b : Bool), f (s.pinSetOutput p b) = f s)
    (hinp : ∀ s : State, f (s.pinSetInput .sda) = f s) (hrd : ∀ s : State, f (s.pinRead .sda) = f s)
    (hdly : ∀ (s : State) (n : Nat), f (s.emit (.dly n)) = f s)
    (hbusy : ∀ (s : State) (v : Bool), f (s.setGhost { s.ghost with busBusy := v }) = f s)
    (hsample : ∀ (s : State) (v : Sample), f (s.setFlags { s.flags with sample := v }) = f s) :
    PinClosed (Keeps f) where
  path := keeps_path f
  call := fun _ op _ h s => (hpc _ _).trans ((h (s.pushFrame op)).trans (hpc _ _))
  line := fun _ _ => hpc _ _
  out := hout
  inp := hinp
  rd := hrd
  dly := hdly
  busy := hbusy
  sample := hsample

/-! ## The parts -/

/-- What no operation but `RUN` and `RUNERR` touches. -/
def hostPart (s : State) : Config × Session × StatusRegs × List Byte × List Byte × Result × List HostInput × Bool × Bool :=
  (s.cfg, s.session, s.status, s.buf0, s.buf1, s.result, s.inputs, s.scl.claimed, s.sda.claimed)

theorem hostPart_pin : PinClosed (Keeps hostPart) :=
  keeps_pinClosed (fun _ _ => rfl)
    (fun s p b => by
      cases p <;> simp [hostPart, State.pinSetOutput, State.emit, State.setPin, State.pin, State.drawAnswer])
    (fun s => by simp [hostPart, State.pinSetInput, State.emit, State.setPin, State.pin, State.drawAnswer])
    (fun _ => rfl) (fun _ _ => rfl) (fun _ _ => rfl) (fun _ _ => rfl)

theorem hostPart_prog : ProgClosed (Keeps hostPart) where
  reg := {
    set := {
      byte := { pin := hostPart_pin, nack := fun _ _ => rfl, load := fun _ _ => rfl, count := fun _ _ => rfl }
      operands := fun _ _ _ _ => rfl }
    bulkI := fun _ _ => rfl
    record := fun _ _ _ _ => rfl
    forget := fun _ _ _ => rfl
    forgetAll := fun _ _ _ => rfl
    log := fun _ _ => rfl }
  tape := fun _ _ => rfl
  engine := fun _ _ => rfl
  page := fun _ _ => rfl

/-- What the bit operations leave alone besides. -/
def bitPart (s : State) : Work × Remote × Bool × EngineCmd × PageCmd :=
  (s.work, s.remote, s.flags.nack, s.ghost.engineCmd, s.ghost.pageCmd)

theorem bitPart_pin : PinClosed (Keeps bitPart) :=
  keeps_pinClosed (fun _ _ => rfl) (fun _ p _ => by cases p <;> rfl) (fun _ => rfl) (fun _ => rfl) (fun _ _ => rfl)
    (fun _ _ => rfl) (fun _ _ => rfl)

/-- What `WRITEBYTE` leaves alone besides: not `SHIFT`, `BITCNT` and `NACK`. -/
def bytePart (s : State) : (Byte × Byte × Byte) × Byte × BitVec 4 × BitVec 4 × Byte × Remote × EngineCmd × PageCmd :=
  ((s.work.rDev, s.work.rSub, s.work.rVal), s.work.bulkI, s.work.initI, s.work.attempt, s.work.tape, s.remote,
    s.ghost.engineCmd, s.ghost.pageCmd)

theorem bytePart_byte : ByteClosed (Keeps bytePart) where
  pin := keeps_pinClosed (fun _ _ => rfl) (fun _ p _ => by cases p <;> rfl) (fun _ => rfl) (fun _ => rfl) (fun _ _ => rfl)
    (fun _ _ => rfl) (fun _ _ => rfl)
  nack := fun _ _ => rfl
  load := fun _ _ => rfl
  count := fun _ _ => rfl

/-- What a transaction leaves alone besides. -/
def transactionPart (s : State) : Byte × BitVec 4 × BitVec 4 × Byte × Remote × EngineCmd × PageCmd :=
  (s.work.bulkI, s.work.initI, s.work.attempt, s.work.tape, s.remote, s.ghost.engineCmd, s.ghost.pageCmd)

theorem transactionPart_set : SetClosed (Keeps transactionPart) where
  byte := {
    pin := keeps_pinClosed (fun _ _ => rfl) (fun _ p _ => by cases p <;> rfl) (fun _ => rfl) (fun _ => rfl)
      (fun _ _ => rfl) (fun _ _ => rfl) (fun _ _ => rfl)
    nack := fun _ _ => rfl
    load := fun _ _ => rfl
    count := fun _ _ => rfl }
  operands := fun _ _ _ _ => rfl

/-- What `WRITEBULK` leaves alone besides. -/
def bulkPart (s : State) : BitVec 4 × BitVec 4 × Byte × EngineCmd × PageCmd :=
  (s.work.initI, s.work.attempt, s.work.tape, s.ghost.engineCmd, s.ghost.pageCmd)

/-- What `INITIALIZE` leaves alone besides. -/
def initPart (s : State) : BitVec 4 × Byte × EngineCmd × PageCmd :=
  (s.work.attempt, s.work.tape, s.ghost.engineCmd, s.ghost.pageCmd)

theorem bulkPart_reg : RegClosed (Keeps bulkPart) where
  set := {
    byte := {
      pin := keeps_pinClosed (fun _ _ => rfl) (fun _ p _ => by cases p <;> rfl) (fun _ => rfl) (fun _ => rfl)
        (fun _ _ => rfl) (fun _ _ => rfl) (fun _ _ => rfl)
      nack := fun _ _ => rfl
      load := fun _ _ => rfl
      count := fun _ _ => rfl }
    operands := fun _ _ _ _ => rfl }
  bulkI := fun _ _ => rfl
  record := fun _ _ _ _ => rfl
  forget := fun _ _ _ => rfl
  forgetAll := fun _ _ _ => rfl
  log := fun _ _ => rfl

theorem initPart_reg : RegClosed (Keeps initPart) where
  set := {
    byte := {
      pin := keeps_pinClosed (fun _ _ => rfl) (fun _ p _ => by cases p <;> rfl) (fun _ => rfl) (fun _ => rfl)
        (fun _ _ => rfl) (fun _ _ => rfl) (fun _ _ => rfl)
      nack := fun _ _ => rfl
      load := fun _ _ => rfl
      count := fun _ _ => rfl }
    operands := fun _ _ _ _ => rfl }
  bulkI := fun _ _ => rfl
  record := fun _ _ _ _ => rfl
  forget := fun _ _ _ => rfl
  forgetAll := fun _ _ _ => rfl
  log := fun _ _ => rfl

/-- What `LOADPROGRAM` leaves alone besides (`PLAYTAPE` changes `TAPE`). -/
def loadPart (s : State) : BitVec 4 × BitVec 4 := (s.work.initI, s.work.attempt)

theorem loadPart_prog : ProgClosed (Keeps loadPart) where
  reg := {
    set := {
      byte := {
        pin := keeps_pinClosed (fun _ _ => rfl) (fun _ p _ => by cases p <;> rfl) (fun _ => rfl) (fun _ => rfl)
          (fun _ _ => rfl) (fun _ _ => rfl) (fun _ _ => rfl)
        nack := fun _ _ => rfl
        load := fun _ _ => rfl
        count := fun _ _ => rfl }
      operands := fun _ _ _ _ => rfl }
    bulkI := fun _ _ => rfl
    record := fun _ _ _ _ => rfl
    forget := fun _ _ _ => rfl
    forgetAll := fun _ _ _ => rfl
    log := fun _ _ => rfl }
  tape := fun _ _ => rfl
  engine := fun _ _ => rfl
  page := fun _ _ => rfl

/-! ## The control point -/

/-- All that a piece of an operation does to the control point: it moves within the innermost frame. -/
def PcMoves (s t : State) : Prop := ∃ n, t.pc = s.pc ∨ t.pc = s.pc.atStep n

theorem pcMoves_path : IsPath PcMoves where
  refl := fun _ => ⟨0, .inl rfl⟩
  trans := by
    rintro a b c ⟨m, h1⟩ ⟨n, h2⟩
    refine ⟨if c.pc = b.pc then m else n, ?_⟩
    rcases h2 with h2 | h2
    · rw [if_pos h2, h2]
      exact h1
    · rcases h1 with h1 | h1
      · rw [h2, h1]
        split
        · next h => exact .inl h
        · exact .inr rfl
      · rw [h2, h1, atStep_atStep]
        split
        · next h => exact .inr h
        · exact .inr rfl

/-- A call gives the control point back. -/
theorem call_pc (op : OpName) {x : Op α} (h : Op.Respects PcMoves x) (s : State) :
    (Op.apply (call op x) s).2.pc = s.pc := by
  rw [apply_call]
  obtain ⟨n, h | h⟩ := h (s.pushFrame op)
  · show ControlPoint.pop _ = s.pc
    rw [h]
    rfl
  · show ControlPoint.pop _ = s.pc
    rw [h]
    rfl

theorem pcMoves_of_pc {s t : State} (h : t.pc = s.pc) : PcMoves s t := ⟨0, .inl h⟩

theorem pcMoves_prog : ProgClosed PcMoves where
  reg := {
    set := {
      byte := {
        pin := {
          path := pcMoves_path
          call := fun _ op _ h s => pcMoves_of_pc (call_pc op h s)
          line := fun _ n => ⟨n, .inr rfl⟩
          out := fun _ p _ => pcMoves_of_pc (by cases p <;> rfl)
          inp := fun _ => pcMoves_of_pc rfl
          rd := fun _ => pcMoves_of_pc rfl
          dly := fun _ _ => pcMoves_of_pc rfl
          busy := fun _ _ => pcMoves_of_pc rfl
          sample := fun _ _ => pcMoves_of_pc rfl }
        nack := fun _ _ => pcMoves_of_pc rfl
        load := fun _ _ => pcMoves_of_pc rfl
        count := fun _ _ => pcMoves_of_pc rfl }
      operands := fun _ _ _ _ => pcMoves_of_pc rfl }
    bulkI := fun _ _ => pcMoves_of_pc rfl
    record := fun _ _ _ _ => pcMoves_of_pc rfl
    forget := fun _ _ _ => pcMoves_of_pc rfl
    forgetAll := fun _ _ _ => pcMoves_of_pc rfl
    log := fun _ _ => pcMoves_of_pc rfl }
  tape := fun _ _ => pcMoves_of_pc rfl
  engine := fun _ _ => pcMoves_of_pc rfl
  page := fun _ _ => pcMoves_of_pc rfl

/-- An operation gives the control point back (R19, R145). -/
theorem pc_of_calls {Closed : (State → State → Prop) → Prop} {op : OpName} {y : Op α} (h : y.Calls Closed op)
    (C : Closed PcMoves) (s : State) : (Op.apply y s).2.pc = s.pc := by
  obtain ⟨x, rfl, hx⟩ := h
  exact call_pc op (hx _ C) s

theorem start_pc (s : State) : (Op.apply start s).2.pc = s.pc := pc_of_calls start_calls pcMoves_prog.reg.pin s
theorem stop_pc (s : State) : (Op.apply stop s).2.pc = s.pc := pc_of_calls stop_calls pcMoves_prog.reg.pin s
theorem writeBit_pc (v : Bool) (s : State) : (Op.apply (writeBit v) s).2.pc = s.pc :=
  pc_of_calls (writeBit_calls v) pcMoves_prog.reg.pin s
theorem readBit_pc (s : State) : (Op.apply readBit s).2.pc = s.pc := pc_of_calls readBit_calls pcMoves_prog.reg.pin s
theorem writeByte_pc (b : Byte) (s : State) : (Op.apply (writeByte b) s).2.pc = s.pc :=
  pc_of_calls (writeByte_calls b) pcMoves_prog.reg.set.byte s
theorem setReg_pc (dev sub val : Byte) (s : State) : (Op.apply (setReg dev sub val) s).2.pc = s.pc :=
  pc_of_calls (setReg_calls dev sub val) pcMoves_prog.reg s
theorem writeBulk_pc (dev start : Byte) (bytes : List Byte) (s : State) :
    (Op.apply (writeBulk dev start bytes) s).2.pc = s.pc :=
  pc_of_calls (writeBulk_calls dev start bytes) pcMoves_prog.reg s
theorem initialise_pc (s : State) : (Op.apply initialise s).2.pc = s.pc :=
  pc_of_calls initialise_calls { reg := pcMoves_prog.reg, initI := fun _ _ => pcMoves_of_pc rfl } s
theorem loadProgram_pc (mux program : List Byte) (s : State) : (Op.apply (loadProgram mux program) s).2.pc = s.pc :=
  pc_of_calls (loadProgram_calls mux program) pcMoves_prog.load s
theorem playTape_pc (index : Byte) (s : State) : (Op.apply (playTape index) s).2.pc = s.pc :=
  pc_of_calls (playTape_calls index) pcMoves_prog s

/-! ## The events -/

/-- The trace grew by quiet events. -/
def GrowsQuietly (s t : State) : Prop := ∃ evs, t.trace = s.trace ++ evs ∧ ∀ e ∈ evs, Event.isQuiet e = true

theorem growsQuietly_path : IsPath GrowsQuietly where
  refl := fun s => ⟨[], by simp, by simp⟩
  trans := by
    rintro a b c ⟨es, h1, q1⟩ ⟨fs, h2, q2⟩
    refine ⟨es ++ fs, by rw [h2, h1, List.append_assoc], ?_⟩
    intro e he
    rcases List.mem_append.mp he with he | he
    · exact q1 e he
    · exact q2 e he

theorem growsQuietly_one {s t : State} (e : Event) (h : t.trace = s.trace ++ [e]) (q : e.isQuiet = true) :
    GrowsQuietly s t := ⟨[e], h, by simpa using q⟩

theorem growsQuietly_same {s t : State} (h : t.trace = s.trace) : GrowsQuietly s t := ⟨[], by simp [h], by simp⟩

theorem growsQuietly_prog : ProgClosed GrowsQuietly where
  reg := {
    set := {
      byte := {
        pin := {
          path := growsQuietly_path
          call := fun _ op _ h s => h (s.pushFrame op)
          line := fun _ _ => growsQuietly_same rfl
          out := fun s p b => growsQuietly_one (.out p b (s.answer 0)) (by cases p <;> rfl) rfl
          inp := fun s => growsQuietly_one (.inp .sda (s.answer 0)) rfl rfl
          rd := fun s => growsQuietly_one (.rd .sda (s.sample 0)) rfl rfl
          dly := fun _ n => growsQuietly_one (.dly n) rfl rfl
          busy := fun _ _ => growsQuietly_same rfl
          sample := fun _ _ => growsQuietly_same rfl }
        nack := fun _ _ => growsQuietly_same rfl
        load := fun _ _ => growsQuietly_same rfl
        count := fun _ _ => growsQuietly_same rfl }
      operands := fun _ _ _ _ => growsQuietly_same rfl }
    bulkI := fun _ _ => growsQuietly_same rfl
    record := fun _ _ _ _ => growsQuietly_same rfl
    forget := fun _ _ _ => growsQuietly_same rfl
    forgetAll := fun _ _ _ => growsQuietly_same rfl
    log := fun _ i => growsQuietly_one (.log (.failedAtByte i)) rfl rfl }
  tape := fun _ _ => growsQuietly_same rfl
  engine := fun _ _ => growsQuietly_same rfl
  page := fun _ _ => growsQuietly_same rfl

end Sys2Proof.Machine
end

