-- ==== Sys2Proof/Laws/Cuts.lean ====
section
/-! SUPPORT. What an operation does when a call of the GPIO capability answers fail (R86): the events up to that call, and
the error of that call. -/

namespace Sys2Proof.Machine

variable {α β : Type}

/-! ## Waveforms cut at a call -/

theorem cutAt_append_lt (k : Nat) (w v : List Event) (h : k < callsOf w) : cutAt k (w ++ v) = cutAt k w := by
  induction w generalizing k with
  | nil => exact absurd h (Nat.not_lt_zero _)
  | cons e w ih =>
    cases e <;> cases k <;> simp_all [cutAt, callsOf]

theorem cutAt_append_ge (k : Nat) (w v : List Event) : cutAt (callsOf w + k) (w ++ v) = w ++ cutAt k v := by
  induction w with
  | nil => simp [callsOf]
  | cons e w ih =>
    cases e <;> simp_all [cutAt, callsOf, Nat.add_right_comm]

theorem callError_append_lt (k : Nat) (w v : List Event) (h : k < callsOf w) : callError k (w ++ v) = callError k w := by
  induction w generalizing k with
  | nil => exact absurd h (Nat.not_lt_zero _)
  | cons e w ih =>
    cases e <;> cases k <;> simp_all [callError, callsOf]

theorem callError_append_ge (k : Nat) (w v : List Event) : callError (callsOf w + k) (w ++ v) = callError k v := by
  induction w with
  | nil => simp [callsOf]
  | cons e w ih =>
    cases e <;> simp_all [callError, callsOf, Nat.add_right_comm]

@[simp] theorem callsOf_append (w v : List Event) : callsOf (w ++ v) = callsOf w + callsOf v := by
  induction w with
  | nil => simp [callsOf]
  | cons e w ih => cases e <;> simp [callsOf, ih] <;> omega

/-! ## Operations cut at a call -/

/-- Where a call of `x` answers fail, the events stop there and the error is that call's. -/
def Op.Cuts (x : Op α) (s : State) (w : List Event) : Prop :=
  ∀ k, k < callsOf w → s.OkFor k → s.answer k = false →
    ∃ e t, Op.apply x s = (.error e, t) ∧ callError k w = some e ∧ t.trace = s.trace ++ cutAt k w ∧
      t.env.answers = s.env.answers.advanceBy (k + 1)

/-- Where all calls of `x` answer ok, the events are `w`. -/
def Op.Runs (x : Op α) (s : State) (w : List Event) (a : α) (t : State) : Prop :=
  s.OkFor (callsOf w) → Op.apply x s = (.ok a, t) ∧ t.trace = s.trace ++ w ∧
    t.env.answers = s.env.answers.advanceBy (callsOf w)

theorem cuts_bind {x : Op α} {f : α → Op β} {s t : State} {a : α} {w v : List Event} (hc : x.Cuts s w)
    (hr : x.Runs s w a t) (hf : (f a).Cuts t v) : (x >>= f).Cuts s (w ++ v) := by
  intro k hk hok hfail
  by_cases hlt : k < callsOf w
  · obtain ⟨e, u, h1, h2, h3, h4⟩ := hc k hlt hok hfail
    exact ⟨e, u, apply_bind_error h1, by rw [callError_append_lt k w v hlt, h2], by
      rw [h3, cutAt_append_lt k w v hlt], h4⟩
  · obtain ⟨j, rfl⟩ := Nat.exists_eq_add_of_le (Nat.le_of_not_lt hlt)
    obtain ⟨h1, h2, h3⟩ := hr (okFor_same rfl hok (by omega))
    have hj : j < callsOf v := by rw [callsOf_append] at hk; omega
    have hokj : t.OkFor j := okFor_after h3 hok (Nat.le_refl _)
    have hfailj : t.answer j = false := by
      unfold State.answer at hfail ⊢
      rw [h3, Script.nth_advanceBy]
      exact hfail
    obtain ⟨e, u, g1, g2, g3, g4⟩ := hf j hj hokj hfailj
    refine ⟨e, u, (apply_bind_ok h1).trans g1, ?_, ?_, ?_⟩
    · rw [callError_append_ge, g2]
    · rw [g3, h2, cutAt_append_ge, List.append_assoc]
    · rw [g4, h3, Script.advanceBy_advanceBy, Nat.add_assoc]

theorem runs_bind {x : Op α} {f : α → Op β} {s t u : State} {a : α} {b : β} {w v : List Event}
    (hr : x.Runs s w a t) (hf : (f a).Runs t v b u) : (x >>= f).Runs s (w ++ v) b u := by
  intro hok
  rw [callsOf_append] at hok
  obtain ⟨h1, h2, h3⟩ := hr (okFor_same rfl hok (by omega))
  obtain ⟨g1, g2, g3⟩ := hf (okFor_after h3 hok (Nat.le_refl _))
  refine ⟨(apply_bind_ok h1).trans g1, ?_, ?_⟩
  · rw [g2, h2, List.append_assoc]
  · rw [g3, h3, Script.advanceBy_advanceBy, callsOf_append]

/-- A piece that makes no call. -/
theorem cuts_silent (x : Op α) (s : State) (w : List Event) (h : callsOf w = 0) : x.Cuts s w := by
  intro k hk
  rw [h] at hk
  exact absurd hk (Nat.not_lt_zero _)

theorem runs_of {x : Op α} {s t : State} {w : List Event} {a : α} (h : Op.apply x s = (.ok a, t))
    (ht : t.trace = s.trace ++ w) (he : t.env.answers = s.env.answers.advanceBy (callsOf w)) : x.Runs s w a t :=
  fun _ => ⟨h, ht, he⟩

theorem drive_cuts (p : Pin) (b : Bool) (s : State) : (drive p b).Cuts s [.out p b true] := by
  intro k hk _ hfail
  have h0 : k = 0 := by simp [callsOf] at hk; exact hk
  subst h0
  refine ⟨.resource .setOutput p, s.pinSetOutput p b, ?_, rfl, ?_, ?_⟩
  · rw [apply_drive, hfail]
    rfl
  · cases p <;> simp [State.pinSetOutput, State.emit, State.setPin, State.drawAnswer, hfail, cutAt]
  · cases p <;> simp [State.pinSetOutput, State.emit, State.setPin, State.drawAnswer, Script.advance_eq]

theorem drive_runs (p : Pin) (b : Bool) (s : State) :
    (drive p b).Runs s [.out p b true] () (s.pinSetOutput p b) := by
  intro hok
  have h0 : s.answer 0 = true := hok 0 (by simp [callsOf])
  refine ⟨?_, ?_, ?_⟩
  · rw [apply_drive, h0]
    rfl
  · cases p <;> simp [State.pinSetOutput, State.emit, State.setPin, State.drawAnswer, h0]
  · cases p <;> simp [State.pinSetOutput, State.emit, State.setPin, State.drawAnswer, Script.advance_eq, callsOf]

theorem line_runs (n : Nat) (s : State) : (line n).Runs s [] () (s.goToStep n) :=
  runs_of rfl (by simp [State.goToStep]) (by simp [State.goToStep, callsOf])

theorem delayHalves_runs (k : Nat) (s : State) :
    (delayHalves k).Runs s [.dly (k * s.session.halfPeriod)] () (s.emit (.dly (k * s.session.halfPeriod))) :=
  runs_of rfl (by simp [State.emit]) (by simp [State.emit, callsOf])

theorem cuts_call {op : OpName} {x : Op α} {s : State} {w : List Event} (h : x.Cuts (s.pushFrame op) w) :
    (call op x).Cuts s w := by
  intro k hk hok hfail
  obtain ⟨e, t, h1, h2, h3, h4⟩ := h k hk hok hfail
  exact ⟨e, t.popFrame, call_of h1, h2, h3, h4⟩

theorem cuts_line {n : Nat} {f : Op α} {s : State} {w : List Event} (h : f.Cuts (s.goToStep n) w) :
    (line n >>= fun _ => f).Cuts s w := cuts_bind (cuts_silent _ _ [] rfl) (line_runs n s) h

theorem cuts_drive {p : Pin} {b : Bool} {f : Op α} {s : State} {w : List Event} (h : f.Cuts (s.pinSetOutput p b) w) :
    (drive p b >>= fun _ => f).Cuts s (.out p b true :: w) := cuts_bind (drive_cuts p b s) (drive_runs p b s) h

theorem cuts_delay {k n : Nat} {f : Op α} {s : State} {w : List Event} (hn : n = k * s.session.halfPeriod)
    (h : f.Cuts (s.emit (.dly n)) w) : (delayHalves k >>= fun _ => f).Cuts s (.dly n :: w) := by
  subst hn
  exact cuts_bind (cuts_silent _ _ _ rfl) (delayHalves_runs k s) h

@[simp] theorem pinSetOutput_session (s : State) (p : Pin) (b : Bool) : (s.pinSetOutput p b).session = s.session := by
  cases p <;> rfl

@[simp] theorem pinSetInput_session (s : State) (p : Pin) : (s.pinSetInput p).session = s.session := by cases p <;> rfl
@[simp] theorem pinRead_session (s : State) (p : Pin) : (s.pinRead p).session = s.session := rfl
@[simp] theorem pinSetOutput_samples (s : State) (p : Pin) (b : Bool) :
    (s.pinSetOutput p b).env.samples = s.env.samples := by cases p <;> rfl
@[simp] theorem goToStep_session (s : State) (n : Nat) : (s.goToStep n).session = s.session := rfl
@[simp] theorem goToStep_env (s : State) (n : Nat) : (s.goToStep n).env = s.env := rfl
@[simp] theorem goToStep_trace (s : State) (n : Nat) : (s.goToStep n).trace = s.trace := rfl
@[simp] theorem pushFrame_session (s : State) (op : OpName) : (s.pushFrame op).session = s.session := rfl
@[simp] theorem pushFrame_env (s : State) (op : OpName) : (s.pushFrame op).env = s.env := rfl
@[simp] theorem emit_session (s : State) (e : Event) : (s.emit e).session = s.session := rfl
@[simp] theorem emit_env (s : State) (e : Event) : (s.emit e).env = s.env := rfl

@[simp] theorem pushFrame_trace (s : State) (op : OpName) : (s.pushFrame op).trace = s.trace := rfl
@[simp] theorem afterByte_session (s : State) (b : Byte) : (s.afterByte b).session = s.session := rfl
@[simp] theorem afterByte_trace (s : State) (b : Byte) :
    (s.afterByte b).trace = s.trace ++ byteWave s.session.halfPeriod b (s.sample 0) := rfl
@[simp] theorem afterByte_answers (s : State) (b : Byte) :
    (s.afterByte b).env.answers = s.env.answers.advanceBy 28 := rfl
@[simp] theorem goToStep_sample (s : State) (n k : Nat) : (s.goToStep n).sample k = s.sample k := rfl
@[simp] theorem pushFrame_sample (s : State) (op : OpName) (k : Nat) : (s.pushFrame op).sample k = s.sample k := rfl

/-- `START` cut (R78, R86). -/
theorem start_cuts (s : State) : start.Cuts s (startWave s.session.halfPeriod) := by
  refine cuts_call (cuts_line (cuts_drive (cuts_line (cuts_delay ?_ (cuts_line (cuts_drive (cuts_line (cuts_delay ?_
    (cuts_line (cuts_drive (cuts_line (cuts_delay ?_ (cuts_silent _ _ [] rfl)))))))))))))
  all_goals simp

/-- `STOP` cut (R79, R86). -/
theorem stop_cuts (s : State) : stop.Cuts s (stopWave s.session.halfPeriod) := by
  refine cuts_call (cuts_line (cuts_drive (cuts_line (cuts_delay ?_ (cuts_line (cuts_drive (cuts_line (cuts_delay ?_
    (cuts_line (cuts_drive (cuts_line (cuts_delay ?_ (cuts_line (cuts_drive (cuts_line (cuts_delay ?_
    (cuts_silent _ _ [] rfl)))))))))))))))))
  all_goals simp

/-- `WRITEBIT` cut (R80, R86). -/
theorem writeBit_cuts (v : Bool) (s : State) : (writeBit v).Cuts s (bitWave s.session.halfPeriod v) :=
  cuts_call (cuts_line (cuts_drive (cuts_line (cuts_drive (cuts_line (cuts_drive (cuts_line (cuts_silent _ _ _ rfl))))))))

theorem sampleSda_cuts (s : State) : sampleSda.Cuts s [.inp .sda true, .rd .sda (s.sample 0)] := by
  intro k hk _ hfail
  have h0 : k = 0 := by simp [callsOf] at hk; exact hk
  subst h0
  refine ⟨.resource .setInput .sda, s.pinSetInput .sda, ?_, rfl, ?_, ?_⟩
  · rw [apply_sampleSda, hfail]
    rfl
  · simp [State.pinSetInput, State.emit, State.setPin, State.drawAnswer, hfail, cutAt]
  · simp [State.pinSetInput, State.emit, State.setPin, State.drawAnswer, Script.advance_eq]

theorem sampleSda_runs (s : State) : sampleSda.Runs s [.inp .sda true, .rd .sda (s.sample 0)] (s.sample 0)
    ((s.pinSetInput .sda).pinRead .sda) := by
  intro hok
  have h0 : s.answer 0 = true := hok 0 (by simp [callsOf])
  have hs : (s.pinSetInput .sda).sample 0 = s.sample 0 := rfl
  refine ⟨?_, ?_, ?_⟩
  · rw [apply_sampleSda, h0, hs]
    rfl
  · unfold State.pinRead
    rw [hs]
    simp [State.drawSample, State.pinSetInput, State.emit, State.setPin, State.drawAnswer, h0]
  · simp [State.pinRead, State.drawSample, State.pinSetInput, State.emit, State.setPin, State.drawAnswer,
      Script.advance_eq, callsOf]

theorem cuts_sample {f : Sample → Op α} {s : State} {v : Sample} {w : List Event} (hv : s.sample 0 = v)
    (h : (f v).Cuts ((s.pinSetInput .sda).pinRead .sda) w) :
    (sampleSda >>= f).Cuts s (.inp .sda true :: .rd .sda v :: w) := by
  subst hv
  exact cuts_bind (sampleSda_cuts s) (sampleSda_runs s) h

theorem cuts_update {g : State → State} {f : Op α} {s : State} {w : List Event} (ht : (g s).trace = s.trace)
    (he : (g s).env = s.env) (h : f.Cuts (g s) w) : (update g >>= fun _ => f).Cuts s w :=
  cuts_bind (cuts_silent _ _ [] rfl) (runs_of (t := g s) rfl (by simp [ht]) (by simp [he, callsOf])) h

theorem cuts_read {g : State → β} {f : β → Op α} {s : State} {w : List Event}
    (h : (f (g s)).Cuts s w) : (readState g >>= f).Cuts s w :=
  cuts_bind (cuts_silent _ _ [] rfl) (runs_of (t := s) rfl (by simp) (by simp [callsOf])) h

/-- `READBIT` cut (R81, R86). -/
theorem readBit_cuts (s : State) : readBit.Cuts s (readWave s.session.halfPeriod (s.sample 0)) := by
  refine cuts_call (cuts_line (cuts_drive (cuts_line (cuts_delay ?_ (cuts_line (cuts_sample ?_ (cuts_update ?_ ?_
    (cuts_line (cuts_delay ?_ (cuts_line (cuts_drive (cuts_line (cuts_delay ?_ (cuts_silent _ _ [] rfl))))))))))))))
  · simp
  · unfold State.sample
    simp
  all_goals simp

/-- The bits of `WRITEBYTE` still to send, from bit k on. -/
def bitsWave (T : Nat) (b : Byte) : Nat → Nat → List Event
  | 0, _ => []
  | n + 1, k => bitWave T (msbFirst b k) ++ bitsWave T b n (k + 1)

theorem sendBits_cuts (n : Nat) (s : State) (hb : s.work.bitcnt.toNat + n ≤ 8) :
    (sendBits n).Cuts s (bitsWave s.session.halfPeriod s.work.shift n s.work.bitcnt.toNat) := by
  induction n generalizing s with
  | zero => exact cuts_silent _ _ _ rfl
  | succ n ih =>
    refine cuts_line (cuts_read (cuts_line ?_))
    generalize hu : (s.goToStep 2).goToStep 3 = u
    have hT : u.session = s.session := by rw [← hu]; rfl
    have hW : (s.goToStep 2).work = s.work := rfl
    rw [hW]
    refine cuts_bind (w := bitWave s.session.halfPeriod (msbFirst s.work.shift s.work.bitcnt.toNat))
      (a := ()) (t := u.afterWriteBit (msbFirst s.work.shift s.work.bitcnt.toNat)) ?_ ?_ ?_
    · rw [← hT]
      exact writeBit_cuts _ u
    · intro hok
      refine ⟨writeBit_ok _ u (okFor_same rfl hok (by simp [callsOf, bitWave])), ?_, ?_⟩
      · rw [← hT]
        rfl
      · rfl
    · refine cuts_line (cuts_update rfl rfl ?_)
      have hc : (s.work.bitcnt + 1#4).toNat = s.work.bitcnt.toNat + 1 := by
        rw [BitVec.toNat_add]
        have : (1#4 : BitVec 4).toNat = 1 := rfl
        omega
      have := ih (((u.afterWriteBit (msbFirst s.work.shift s.work.bitcnt.toNat)).goToStep 4).setWork
        { ((u.afterWriteBit (msbFirst s.work.shift s.work.bitcnt.toNat)).goToStep 4).work with
          bitcnt := ((u.afterWriteBit (msbFirst s.work.shift s.work.bitcnt.toNat)).goToStep 4).work.bitcnt + 1#4 })
        (by
          rw [← hu]
          show (s.work.bitcnt + 1#4).toNat + n ≤ 8
          omega)
      rw [← hu] at this ⊢
      change (sendBits n).Cuts _ (bitsWave s.session.halfPeriod s.work.shift n (s.work.bitcnt + 1#4).toNat) at this
      rw [hc] at this
      exact this

theorem bitsWave_all (T : Nat) (b : Byte) : bitsWave T b 8 0 = (bitsMsbFirst b).flatMap (bitWave T) := by
  simp [bitsWave, bitsMsbFirst, msbFirst]

/-- Steps 5 to 8 of `WRITEBYTE` cut. -/
theorem ackSlot_cuts (s : State) :
    ackSlot.Cuts s (.out .sda true true :: readWave s.session.halfPeriod (s.sample 0)) := by
  refine cuts_line (cuts_drive (cuts_line ?_))
  generalize hu : ((s.goToStep 5).pinSetOutput .sda true).goToStep 6 = u
  have hT : u.session = s.session := by rw [← hu]; rfl
  have hs : u.sample 0 = s.sample 0 := by rw [← hu]; rfl
  intro k hk hok hfail
  obtain ⟨e, t, h1, h2, h3, h4⟩ := readBit_cuts u k (by rw [hT, hs]; exact hk) hok hfail
  rw [hT, hs] at h2 h3
  exact ⟨e, t, apply_bind_error h1, h2, h3, h4⟩

/-- `WRITEBYTE` cut (R82, R86). -/
theorem writeByte_cuts (b : Byte) (s : State) : (writeByte b).Cuts s (byteWave s.session.halfPeriod b (s.sample 0)) := by
  rw [writeByte_parts]
  refine cuts_call (cuts_line (cuts_update rfl rfl ?_))
  generalize hu : ((s.pushFrame .writeByte).goToStep 1).setWork _ = u
  have hT : u.session = s.session := by rw [← hu]; rfl
  have hs : u.env = s.env := by rw [← hu]; rfl
  have hb : u.work.bitcnt = 0#4 := by rw [← hu]; rfl
  have hsh : u.work.shift = b := by rw [← hu]; rfl
  unfold byteWave
  have hc := sendBits_cuts 8 u (by rw [hb]; decide)
  rw [hT, hsh, hb] at hc
  change (sendBits 8).Cuts u (bitsWave s.session.halfPeriod b 8 0) at hc
  rw [bitsWave_all] at hc
  have hr : (sendBits 8).Runs u ((bitsMsbFirst b).flatMap (bitWave s.session.halfPeriod)) () u.eightBits := by
    intro hok
    refine ⟨sendBits_ok u (okFor_same rfl hok (by simp [callsOf, bitsMsbFirst, bitWave])) hb, ?_, ?_⟩
    · rw [← hT, ← hsh]
      rfl
    · simp [State.eightBits, State.waved, callsOf, bitsMsbFirst, bitWave]
  have hk := ackSlot_cuts u.eightBits
  have e1 : u.eightBits.sample 0 = s.sample 0 := by
    rw [sample_after (s := s) (a := 0) (by simp [State.eightBits, State.waved, hs])]
  have e2 : u.eightBits.session = s.session := hT
  rw [e1, e2] at hk
  exact cuts_bind hc hr hk

/-! ## STOP, whatever the calls answer -/

theorem firstFail_le (a : Nat → Bool) (n : Nat) : firstFail a n ≤ n := by
  induction n generalizing a with
  | zero => exact Nat.le_refl 0
  | succ n ih =>
    unfold firstFail
    split
    · exact Nat.succ_le_succ (ih _)
    · exact Nat.zero_le _

theorem firstFail_ok (a : Nat → Bool) (n k : Nat) (h : k < firstFail a n) : a k = true := by
  induction n generalizing a k with
  | zero => exact absurd h (Nat.not_lt_zero _)
  | succ n ih =>
    unfold firstFail at h
    split at h
    · next h0 =>
      cases k with
      | zero => exact h0
      | succ k => exact ih (fun k => a (k + 1)) k (by omega)
    · exact absurd h (Nat.not_lt_zero _)

theorem firstFail_fail (a : Nat → Bool) (n : Nat) (h : firstFail a n < n) : a (firstFail a n) = false := by
  induction n generalizing a with
  | zero => exact absurd h (Nat.not_lt_zero _)
  | succ n ih =>
    unfold firstFail at h ⊢
    split
    · next h0 =>
      rw [if_pos h0] at h
      exact ih (fun k => a (k + 1)) (by omega)
    · next h0 => simpa using h0

theorem cutAt_none (k : Nat) (w : List Event) (h : callsOf w ≤ k) : cutAt k w = w := by
  induction w generalizing k with
  | nil => simp [cutAt]
  | cons e w ih =>
    cases e <;> cases k <;> simp_all [cutAt, callsOf]

theorem stop_cases (s : State) :
    (s.OkFor 4 ∧ Op.apply stop s = (.ok (), s.afterStop)) ∨
    ∃ e t, firstFail s.answer 4 < 4 ∧ Op.apply stop s = (.error e, t) ∧
      callError (firstFail s.answer 4) (stopWave s.session.halfPeriod) = some e ∧
      t.trace = s.trace ++ stopEvents s.session.halfPeriod s.answer := by
  by_cases h : firstFail s.answer 4 < 4
  · obtain ⟨e, t, h1, h2, h3, _⟩ := stop_cuts s (firstFail s.answer 4) h
      (fun k hk => firstFail_ok s.answer 4 k hk) (firstFail_fail s.answer 4 h)
    exact .inr ⟨e, t, h, h1, h2, h3⟩
  · have h4 : firstFail s.answer 4 = 4 := Nat.le_antisymm (firstFail_le _ _) (Nat.le_of_not_lt h)
    have hok : s.OkFor 4 := fun k hk => firstFail_ok s.answer 4 k (by omega)
    exact .inl ⟨hok, stop_ok s hok⟩

/-- The events of a `STOP`. -/
theorem stop_trace (s : State) :
    (Op.apply stop s).2.trace = s.trace ++ stopEvents s.session.halfPeriod s.answer := by
  rcases stop_cases s with ⟨hok, h⟩ | ⟨e, t, _, h, _, ht⟩
  · have h4 : firstFail s.answer 4 = 4 := by
      rcases Nat.lt_or_ge (firstFail s.answer 4) 4 with hlt | hge
      · have := firstFail_fail s.answer 4 hlt
        rw [hok _ hlt] at this
        exact absurd this (by decide)
      · exact Nat.le_antisymm (firstFail_le _ _) hge
    rw [h]
    unfold stopEvents
    rw [h4, cutAt_none 4 _ (by simp [stopWave, callsOf])]
    rfl
  · rw [h]
    exact ht

/-! ## SETREG cut (R98) -/

theorem hostPart_eq {s t : State} (h : hostPart t = hostPart s) :
    t.cfg = s.cfg ∧ t.session = s.session ∧ t.status = s.status ∧ t.buf0 = s.buf0 ∧ t.buf1 = s.buf1 ∧
      t.result = s.result ∧ t.inputs = s.inputs ∧ t.scl.claimed = s.scl.claimed ∧ t.sda.claimed = s.sda.claimed := by
  simpa [hostPart] using h

/-- A piece that emits `STOP` when one of its own calls answers fail. -/
def Op.CutsStop (x : Op α) (s : State) (w : List Event) : Prop :=
  ∀ k, k < callsOf w → s.OkFor k → s.answer k = false →
    ∃ e t, Op.apply x s = (.error e, (Op.apply stop t).2) ∧ callError k w = some e ∧
      t.trace = s.trace ++ cutAt k w ∧ t.env.answers = s.env.answers.advanceBy (k + 1) ∧ t.session = s.session

theorem cutsStop_of {x : Op α} {f : α → Op β} {s : State} {w : List Event} (h : x.Cuts s w)
    (hx : Op.Respects (Keeps hostPart) x) : (orStop x >>= f).CutsStop s w := by
  intro k hk hok hfail
  obtain ⟨e, t, h1, h2, h3, h4⟩ := h k hk hok hfail
  have hs := (hostPart_eq (hx s)).2.1
  rw [h1] at hs
  exact ⟨e, t, apply_bind_error (orStop_error h1), h2, h3, h4, hs⟩

theorem byteStep_cuts (n : Nat) (f : State → Byte) (stage : Stage) (s : State) :
    (byteStep n f stage).CutsStop s (byteWave s.session.halfPeriod (f (s.goToStep n)) (s.sample 0)) := by
  unfold byteStep
  intro k hk hok hfail
  simp only [apply_line_bind, apply_readState_bind]
  exact cutsStop_of (writeByte_cuts (f (s.goToStep n)) (s.goToStep n))
    (respects_writeByte hostPart_prog.reg.set.byte _) k hk hok hfail

@[simp] theorem startWave_calls (T : Nat) : callsOf (startWave T) = 3 := by simp [startWave, callsOf]
@[simp] theorem stopWave_calls (T : Nat) : callsOf (stopWave T) = 4 := by simp [stopWave, callsOf]
@[simp] theorem byteWave_calls (T : Nat) (b : Byte) (v : Sample) : callsOf (byteWave T b v) = 28 := by
  simp [byteWave, bitsMsbFirst, bitWave, readWave, callsOf]

/-- What a cut transaction leaves, `w` being what it would have sent. -/
def CutTransaction (s : State) (dev sub val : Byte) (k : Nat) (w : List Event) : Prop :=
  ∃ e t, Op.apply (transaction dev sub val) s = (.error e, (Op.apply stop t).2) ∧ callError k w = some e ∧
    t.trace = s.trace ++ cutAt k w ∧ t.env.answers = s.env.answers.advanceBy (k + 1) ∧ t.session = s.session

/-- The transaction cut inside a byte: `u` is the state in which the byte is sent, after the events `p`. -/
theorem cutTransaction_byte {s u : State} {dev sub val b : Byte} {n : Nat} {f : State → Byte} {stage : Stage}
    {rest : Op Unit} {p q : List Event} {k j : Nat} {v : Sample}
    (hx : Op.apply (transaction dev sub val) s = Op.apply (byteStep n f stage >>= fun _ => rest) u)
    (ht : u.trace = s.trace ++ p) (he : u.env.answers = s.env.answers.advanceBy (callsOf p))
    (hT : u.session = s.session) (hb : f (u.goToStep n) = b) (hv : u.sample 0 = v) (hk : k = callsOf p + j) (hj : j < 28)
    (hok : s.OkFor k) (hfail : s.answer k = false) :
    CutTransaction s dev sub val k (p ++ (byteWave s.session.halfPeriod b v ++ q)) := by
  subst hk
  have hokj : u.OkFor j := okFor_after he hok (Nat.le_refl _)
  have hfailj : u.answer j = false := by
    unfold State.answer at hfail ⊢
    rw [he, Script.nth_advanceBy]
    exact hfail
  have hc := byteStep_cuts n f stage u
  rw [hb, hv, hT] at hc
  obtain ⟨e, t, h1, h2, h3, h4, h5⟩ := hc j (by simpa using hj) hokj hfailj
  refine ⟨e, t, hx.trans (apply_bind_error h1), ?_, ?_, ?_, h5.trans hT⟩
  · rw [callError_append_ge, callError_append_lt _ _ _ (by simpa using hj), h2]
  · rw [h3, ht, cutAt_append_ge, cutAt_append_lt _ _ _ (by simpa using hj), List.append_assoc]
  · rw [h4, he, Script.advanceBy_advanceBy, Nat.add_assoc]

@[simp] theorem opened_trace (s : State) (dev sub val : Byte) :
    (s.opened dev sub val).trace = s.trace ++ startWave s.session.halfPeriod := rfl
@[simp] theorem opened_session (s : State) (dev sub val : Byte) : (s.opened dev sub val).session = s.session := rfl
@[simp] theorem sentByte_trace (s : State) (n : Nat) (b : Byte) :
    (s.sentByte n b).trace = s.trace ++ byteWave s.session.halfPeriod b (s.sample 0) := rfl
@[simp] theorem sentByte_session (s : State) (n : Nat) (b : Byte) : (s.sentByte n b).session = s.session := rfl

@[simp] theorem sentByte_rSub (s : State) (n : Nat) (b : Byte) : (s.sentByte n b).work.rSub = s.work.rSub := rfl
@[simp] theorem sentByte_rVal (s : State) (n : Nat) (b : Byte) : (s.sentByte n b).work.rVal = s.work.rVal := rfl
@[simp] theorem goToStep_work (s : State) (n : Nat) : (s.goToStep n).work = s.work := rfl
@[simp] theorem opened_rDev (s : State) (dev sub val : Byte) : (s.opened dev sub val).work.rDev = dev := rfl
@[simp] theorem opened_rSub (s : State) (dev sub val : Byte) : (s.opened dev sub val).work.rSub = sub := rfl
@[simp] theorem opened_rVal (s : State) (dev sub val : Byte) : (s.opened dev sub val).work.rVal = val := rfl

/-- The transaction when a call of `START` or of a `WRITEBYTE` answers fail; a byte is only sent after every earlier one
was acknowledged. -/
theorem transaction_cuts (dev sub val : Byte) (s : State) (k : Nat) (hk : k < 87) (hok : s.OkFor k)
    (hfail : s.answer k = false) (hs : ∀ j, 31 + 28 * j ≤ k → s.sample j = .zero) :
    CutTransaction s dev sub val k (startWave s.session.halfPeriod ++ (byteWave s.session.halfPeriod dev (s.sample 0)
        ++ (byteWave s.session.halfPeriod sub (s.sample 1) ++ byteWave s.session.halfPeriod val (s.sample 2)))) := by
  by_cases h3 : k < 3
  · have hT : (((s.goToStep 1).setWork { s.work with rDev := dev, rSub := sub, rVal := val }).goToStep 2).session
        = s.session := rfl
    obtain ⟨e, t, h1, h2, h4, h5, h6⟩ := cutsStop_of (f := fun _ => (do
      byteStep 3 (·.work.rDev) .address
      byteStep 5 (·.work.rSub) .subaddress
      byteStep 7 (·.work.rVal) .value
      line 9
      stop
      line 10)) (start_cuts (((s.goToStep 1).setWork { s.work with rDev := dev, rSub := sub, rVal := val }).goToStep 2))
      (respects_start hostPart_pin) k (by simpa using h3) hok hfail
    rw [hT] at h2 h4
    refine ⟨e, t, ?_, ?_, ?_, h5, h6⟩
    · rw [transaction_parts]
      exact h1
    · rw [callError_append_lt _ _ _ (by simpa using h3), h2]
    · rw [cutAt_append_lt _ _ _ (by simpa using h3), h4]
      rfl
  · have hok3 : s.OkFor 3 := okFor_same rfl hok (by omega)
    by_cases h31 : k < 31
    · exact cutTransaction_byte (transaction_opened dev sub val s hok3) (opened_trace s dev sub val)
        (by simp) rfl rfl (sample_after (a := 0) (by simp) 0) (j := k - 3) (by simp; omega) (by omega) hok hfail
    · have h0 := hs 0 (by omega)
      by_cases h59 : k < 59
      · rw [← List.append_assoc]
        refine cutTransaction_byte (transaction_sent1 dev sub val s (okFor_same rfl hok (by omega)) h0) ?_ (by simp)
          (by simp [State.sent1]) (by simp [State.sent1]) (sample_after (a := 1) (by simp) 0) (j := k - 31)
          (by simp; omega) (by omega) hok hfail
        rw [State.sent1, sentByte_trace, sample_after (s := s) (a := 0) (by simp) 0]
        simp
      · have h1 := hs 1 (by omega)
        rw [← List.append_assoc, ← List.append_assoc,
          ← List.append_nil (byteWave s.session.halfPeriod val (s.sample 2))]
        refine cutTransaction_byte (transaction_sent2 dev sub val s (okFor_same rfl hok (by omega)) h0 h1) ?_ (by simp)
          (by simp [State.sent1, State.sent2]) (by simp [State.sent1, State.sent2]) (sample_after (a := 2) (by simp) 0)
          (j := k - 59) (by simp; omega) (by omega) hok hfail
        rw [State.sent2, sentByte_trace, sample_after (s := s) (a := 1) (by simp) 0, State.sent1, sentByte_trace,
          sample_after (s := s) (a := 0) (by simp) 0]
        simp

/-! ## SETREG, whatever the calls of its STOP answer (R97, R98) -/

theorem afterStop_idle (s : State) : s.afterStop.BusIdle := ⟨rfl, rfl, rfl, rfl⟩

/-- A completed `STOP` leaves the bus idle (R79). -/
theorem stop_idle (s : State) (h : s.OkFor 4) : (Op.apply stop s).2.BusIdle := by
  rw [stop_ok s h]
  exact afterStop_idle s

theorem stop_remote (s : State) : (Op.apply stop s).2.remote = s.remote := by
  have h : bitPart (Op.apply stop s).2 = bitPart s := respects_stop bitPart_pin s
  simp [bitPart] at h
  exact h.2.1

theorem answer_after {s t : State} {a : Nat} (e : t.env.answers = s.env.answers.advanceBy a) (k : Nat) :
    t.answer k = s.answer (a + k) := by
  unfold State.answer
  rw [e, Script.nth_advanceBy]

/-- `SETREG` that raised `e` and then attempted `STOP` in a state `u` reached by the events `p`. -/
theorem setReg_stopAttempt {dev sub val : Byte} {s u : State} {e : Error} {p : List Event} {a : Nat}
    (h : Op.apply (transaction dev sub val) (s.pushFrame .setReg) = (.error e, (Op.apply stop u).2))
    (ht : u.trace = s.trace ++ p) (he : u.env.answers = s.env.answers.advanceBy a) (hT : u.session = s.session) :
    ∃ t, Op.apply (setReg dev sub val) s = (.error e, t) ∧
      t.trace = s.trace ++ p ++ stopEvents s.session.halfPeriod (fun j => s.answer (a + j)) ∧
      ((∀ j, j < 4 → s.answer (a + j) = true) → t.BusIdle) := by
  refine ⟨_, setReg_of_error h, ?_, ?_⟩
  · show (Op.apply stop u).2.trace = _
    rw [stop_trace, ht, hT]
    have ha : u.answer = fun j => s.answer (a + j) := funext fun j => answer_after he j
    rw [ha]
  · intro hok
    exact stop_idle u fun k hk => (answer_after he k).trans (hok k hk)

/-- `SETREG` when a call of `START` or of a `WRITEBYTE` answers fail: one `STOP`, and that call's error. -/
theorem setReg_cut (dev sub val : Byte) (s : State) (k : Nat) (hk : k < 87) (hok : s.OkFor k)
    (hfail : s.answer k = false) (hs : ∀ j, 31 + 28 * j ≤ k → s.sample j = .zero) :
    ∃ e t, Op.apply (setReg dev sub val) s = (.error e, t) ∧
      callError k (startWave s.session.halfPeriod ++ (byteWave s.session.halfPeriod dev (s.sample 0)
        ++ (byteWave s.session.halfPeriod sub (s.sample 1) ++ byteWave s.session.halfPeriod val (s.sample 2)))) = some e ∧
      t.trace = s.trace ++ cutAt k (startWave s.session.halfPeriod ++ (byteWave s.session.halfPeriod dev (s.sample 0)
        ++ (byteWave s.session.halfPeriod sub (s.sample 1) ++ byteWave s.session.halfPeriod val (s.sample 2))))
        ++ stopEvents s.session.halfPeriod (fun j => s.answer (k + 1 + j)) ∧
      ((∀ j, j < 4 → s.answer (k + 1 + j) = true) → t.BusIdle) := by
  obtain ⟨e, u, h1, h2, h3, h4, h5⟩ := transaction_cuts dev sub val (s.pushFrame .setReg) k hk hok hfail hs
  obtain ⟨t, g1, g2, g3⟩ := setReg_stopAttempt h1 h3 h4 h5
  exact ⟨e, t, g1, h2, g2, g3⟩

/-- A byte not acknowledged, or with an invalid sample: the `STOP` attempted, then the error. -/
theorem byteStep_unacked (n : Nat) (f : State → Byte) (stage : Stage) (s : State) (h : s.OkFor 28)
    (ha : s.sample 0 ≠ .zero) :
    ∃ m, Op.apply (byteStep n f stage) s = (.error (nackError stage (s.sample 0)),
      (Op.apply stop (((s.goToStep n).afterByte (f (s.goToStep n))).goToStep m)).2) := by
  have hw := writeByte_ok (f (s.goToStep n)) (s.goToStep n) (okFor_same rfl h (by omega))
  have hs : (s.goToStep n).sample 0 = s.sample 0 := rfl
  rw [hs] at hw
  unfold byteStep
  simp only [apply_line_bind, apply_readState_bind]
  rcases hv : s.sample 0 with _ | _ | _
  · exact absurd hv ha
  · rw [hv] at hw
    rw [apply_bind_ok (orStop_ok (a := Ack.nack) (t := (s.goToStep n).afterByte (f (s.goToStep n))) hw),
      apply_line_bind, stopOnNack_nack]
    exact ⟨n + 1, rfl⟩
  · rw [hv] at hw
    rw [apply_bind_error (orStop_error hw)]
    refine ⟨n, ?_⟩
    have hg : ((s.goToStep n).afterByte (f (s.goToStep n))).goToStep n = (s.goToStep n).afterByte (f (s.goToStep n)) := by
      obtain ⟨cfg, session, work, flags, status, scl, sda, ghost, remote, env, pc, trace, buf0, buf1, result, inputs⟩ := s
      obtain ⟨top, frames⟩ := pc
      cases frames <;> rfl
    rw [hg]
    rfl

theorem setReg_address_stop (dev sub val : Byte) (s : State) (h : s.OkFor 31) (h0 : s.sample 0 ≠ .zero) :
    ∃ t, Op.apply (setReg dev sub val) s = (.error (nackError .address (s.sample 0)), t) ∧
      t.trace = s.trace ++ openWave s.session.halfPeriod [] dev (s.sample 0)
        ++ stopEvents s.session.halfPeriod (fun j => s.answer (31 + j)) ∧
      ((∀ j, j < 4 → s.answer (31 + j) = true) → t.BusIdle) := by
  have ht := transaction_opened dev sub val (s.pushFrame .setReg) (okFor_same rfl h (by omega))
  have hs0 : ((s.pushFrame .setReg).opened dev sub val).sample 0 = s.sample 0 := sample_after (a := 0) (by simp) 0
  obtain ⟨m, hm⟩ := byteStep_unacked 3 (·.work.rDev) .address ((s.pushFrame .setReg).opened dev sub val)
    (okFor_after (a := 3) rfl h (by omega)) (by rw [hs0]; exact h0)
  rw [hs0] at hm
  refine setReg_stopAttempt (ht.trans (apply_bind_error hm)) ?_ (by simp) ?_
  · rw [goToStep_trace, afterByte_trace, goToStep_trace, goToStep_session, goToStep_sample, hs0, opened_trace]
    simp [openWave]
  · simp

theorem setReg_subaddress_stop (dev sub val : Byte) (s : State) (h : s.OkFor 59) (h0 : s.sample 0 = .zero)
    (h1 : s.sample 1 ≠ .zero) :
    ∃ t, Op.apply (setReg dev sub val) s = (.error (nackError .subaddress (s.sample 1)), t) ∧
      t.trace = s.trace ++ openWave s.session.halfPeriod [dev] sub (s.sample 1)
        ++ stopEvents s.session.halfPeriod (fun j => s.answer (59 + j)) ∧
      ((∀ j, j < 4 → s.answer (59 + j) = true) → t.BusIdle) := by
  have ht := transaction_sent1 dev sub val (s.pushFrame .setReg) (okFor_same rfl h (by omega)) h0
  have hs0 : ((s.pushFrame .setReg).sent1 dev sub val).sample 0 = s.sample 1 := sample_after (a := 1) (by simp) 0
  obtain ⟨m, hm⟩ := byteStep_unacked 5 (·.work.rSub) .subaddress ((s.pushFrame .setReg).sent1 dev sub val)
    (okFor_after (a := 31) (sent1_answers _ dev sub val) h (by omega)) (by rw [hs0]; exact h1)
  rw [hs0] at hm
  refine setReg_stopAttempt (ht.trans (apply_bind_error hm)) ?_ (by simp) ?_
  · rw [goToStep_trace, afterByte_trace, goToStep_trace, goToStep_session, goToStep_sample, hs0, State.sent1,
      sentByte_trace, sample_after (s := s) (a := 0) (by simp) 0, h0, opened_trace]
    simp [openWave]
  · simp [State.sent1]

theorem setReg_value_stop (dev sub val : Byte) (s : State) (h : s.OkFor 87) (h0 : s.sample 0 = .zero)
    (h1 : s.sample 1 = .zero) (h2 : s.sample 2 ≠ .zero) :
    ∃ t, Op.apply (setReg dev sub val) s = (.error (nackError .value (s.sample 2)), t) ∧
      t.trace = s.trace ++ openWave s.session.halfPeriod [dev, sub] val (s.sample 2)
        ++ stopEvents s.session.halfPeriod (fun j => s.answer (87 + j)) ∧
      ((∀ j, j < 4 → s.answer (87 + j) = true) → t.BusIdle) := by
  have ht := transaction_sent2 dev sub val (s.pushFrame .setReg) (okFor_same rfl h (by omega)) h0 h1
  have hs0 : ((s.pushFrame .setReg).sent2 dev sub val).sample 0 = s.sample 2 := sample_after (a := 2) (by simp) 0
  obtain ⟨m, hm⟩ := byteStep_unacked 7 (·.work.rVal) .value ((s.pushFrame .setReg).sent2 dev sub val)
    (okFor_after (a := 59) (sent2_answers _ dev sub val) h (by omega)) (by rw [hs0]; exact h2)
  rw [hs0] at hm
  refine setReg_stopAttempt (ht.trans (apply_bind_error hm)) ?_ (by simp) ?_
  · rw [goToStep_trace, afterByte_trace, goToStep_trace, goToStep_session, goToStep_sample, hs0, State.sent2,
      sentByte_trace, sample_after (s := s) (a := 1) (by simp) 0, h1, State.sent1, sentByte_trace,
      sample_after (s := s) (a := 0) (by simp) 0, h0, opened_trace]
    simp [openWave]
  · simp [State.sent1, State.sent2]

/-- The `STOP` of step 9 fails: its error is raised, and no second `STOP` is attempted (R98). -/
theorem setReg_lastStop (dev sub val : Byte) (s : State) (j : Nat) (hj : j < 4) (hok : s.OkFor (87 + j))
    (hfail : s.answer (87 + j) = false) (ha : s.AckFor 3) :
    ∃ e t, Op.apply (setReg dev sub val) s = (.error e, t) ∧
      callError j (stopWave s.session.halfPeriod) = some e ∧
      t.trace = s.trace ++ openWave s.session.halfPeriod [dev, sub] val .zero ++ cutAt j (stopWave s.session.halfPeriod) := by
  have h0 := ha 0 (by omega)
  have h1 := ha 1 (by omega)
  have h2 := ha 2 (by omega)
  have ht := transaction_sent2 dev sub val (s.pushFrame .setReg) (okFor_same rfl hok (by omega)) h0 h1
  have hb := byteStep_ack 7 (·.work.rVal) .value ((s.pushFrame .setReg).sent2 dev sub val)
    (okFor_after (a := 59) (sent2_answers _ dev sub val) hok (by omega)) ((sample_after (a := 2) (by simp) 0).trans h2)
  have hse : (((s.pushFrame .setReg).sent3 dev sub val).goToStep 9).session = s.session := by
    simp [State.sent3, State.sent2, State.sent1]
  have hen : (((s.pushFrame .setReg).sent3 dev sub val).goToStep 9).env.answers = s.env.answers.advanceBy 87 := by simp
  obtain ⟨e, t, g1, g2, g3, _⟩ := stop_cuts (((s.pushFrame .setReg).sent3 dev sub val).goToStep 9) j (by simpa using hj)
    (okFor_after hen hok (by omega)) ((answer_after hen j).trans hfail)
  rw [hse] at g2 g3
  have hx : Op.apply (transaction dev sub val) (s.pushFrame .setReg) = (.error e, t) := by
    rw [ht, apply_bind_ok hb, apply_line_bind]
    exact apply_bind_error g1
  refine ⟨e, _, setReg_of_error hx, g2, g3.trans ?_⟩
  · rw [goToStep_trace, State.sent3, sentByte_trace, sample_after (s := s) (a := 2) (by simp) 0, h2, State.sent2,
      sentByte_trace, sample_after (s := s) (a := 1) (by simp) 0, h1, State.sent1, sentByte_trace,
      sample_after (s := s) (a := 0) (by simp) 0, h0, opened_trace]
    simp [openWave]

end Sys2Proof.Machine
end

