-- ==== Sys2Proof/Laws/Failures.lean ====
section
/-! SUPPORT. What the composed operations do when a write is not acknowledged: where they stop, what they have sent, and
what is then known of the responder. -/

namespace Sys2Proof.Machine

variable {α β : Type}

/-! ## What is known after a failure (U1, U2) -/

theorem forget_read_same (c : Config) (r : Remote) (dev sub : Byte) :
    (r.forget c dev sub).regs.read (remoteAddr dev sub) = none := by
  rw [Remote.forget_regs, Memory.read_forget_same]

theorem forget_read_none (c : Config) (r : Remote) (dev sub : Byte) (a : Nat) (h : r.regs.read a = none) :
    (r.forget c dev sub).regs.read a = none := by
  rw [Remote.forget_regs]
  by_cases ha : a = remoteAddr dev sub
  · rw [ha, Memory.read_forget_same]
  · rw [Memory.read_forget_other _ _ _ ha, h]

theorem forgetAll_read_none (c : Config) (r : Remote) (dev : Byte) (subs : List Byte) (a : Nat)
    (h : r.regs.read a = none) : (r.forgetAll c dev subs).regs.read a = none := by
  unfold Remote.forgetAll
  induction subs generalizing r with
  | nil => exact h
  | cons sub subs ih => exact ih _ (forget_read_none c r dev sub a h)

/-- Nothing is known of the listed registers. -/
theorem forgetAll_read (c : Config) (r : Remote) (dev : Byte) (subs : List Byte) (sub : Byte) (h : sub ∈ subs) :
    (r.forgetAll c dev subs).regs.read (remoteAddr dev sub) = none := by
  unfold Remote.forgetAll
  induction subs generalizing r with
  | nil => exact absurd h (List.not_mem_nil)
  | cons u subs ih =>
    rcases List.mem_cons.mp h with rfl | h
    · exact forgetAll_read_none c _ dev subs _ (forget_read_same c r dev sub)
    · exact ih _ h

/-- Every other register is as known as before. -/
theorem forgetAll_read_other (c : Config) (r : Remote) (dev : Byte) (subs : List Byte) (a : Nat)
    (h : ∀ sub ∈ subs, a ≠ remoteAddr dev sub) : (r.forgetAll c dev subs).regs.read a = r.regs.read a := by
  unfold Remote.forgetAll
  induction subs generalizing r with
  | nil => rfl
  | cons u subs ih =>
    rw [List.foldl_cons, ih _ (fun sub hs => h sub (List.mem_cons_of_mem _ hs)), Remote.forget_regs,
      Memory.read_forget_other _ _ _ (h u (List.mem_cons_self))]

/-- A register that no listed write names reads as before. -/
theorem recordWrites_read_other (c : Config) (r : Remote) (ws : List (Byte × Byte × Byte)) (a : Nat)
    (h : ∀ w ∈ ws, a ≠ remoteAddr w.1 w.2.1) : (recordWrites c r ws).regs.read a = r.regs.read a := by
  unfold recordWrites
  induction ws generalizing r with
  | nil => rfl
  | cons w ws ih =>
    rw [List.foldl_cons, ih _ (fun v hv => h v (List.mem_cons_of_mem _ hv)), Remote.record_regs,
      Memory.read_write_other _ _ _ _ (h w (List.mem_cons_self))]

/-! ## A transaction not acknowledged at the address stage, inside the composed operations -/

/-- The loop of `WRITEBULK` with a byte not acknowledged. -/
theorem bulkLoop_fails (dev start b : Byte) (pre post : List Byte) (s : State) (h : s.OkFor (91 * pre.length + 35))
    (ha : s.AckFor (3 * pre.length)) (hv : s.sample (3 * pre.length) ≠ .zero) :
    ∃ t, Op.apply (bulkLoop dev start (pre ++ b :: post)) s =
        (.error (nackError .address (s.sample (3 * pre.length))), t) ∧
      t.trace = s.trace ++ wavesOf s.session.halfPeriod (bulkWrites dev (start + s.work.bulkI) pre)
        ++ failedWave s.session.halfPeriod [] dev (s.sample (3 * pre.length))
        ++ [.log (.failedAtByte (s.work.bulkI + BitVec.ofNat 8 pre.length))] ∧
      t.env.answers = s.env.answers.advanceBy (91 * pre.length + 35) ∧
      t.env.samples = s.env.samples.advanceBy (3 * pre.length + 1) ∧
      t.work.bulkI = s.work.bulkI + BitVec.ofNat 8 pre.length := by
  induction pre generalizing s with
  | nil =>
    simp only [List.length_nil, Nat.mul_zero, Nat.zero_add] at h hv
    have hs := setReg_address dev (effectiveSub start (s.goToStep 2).work.bulkI) b ((s.goToStep 2).goToStep 3)
      (okFor_same rfl h (Nat.le_refl _)) hv
    simp only [List.nil_append, bulkLoop, apply_line_bind, apply_readState_bind]
    rw [apply_attempt_bind, hs]
    simp only [apply_line_bind, apply_logMessage_bind, apply_raise]
    refine ⟨_, rfl, ?_, ?_, ?_, ?_⟩ <;>
      simp [State.goToStep, State.emit, State.stoppedAt, State.waved, wavesOf, bulkWrites, State.sample]
  | cons c rest ih =>
    simp only [List.length_cons, Nat.mul_succ] at h ha hv
    simp only [List.cons_append, bulkLoop, apply_line_bind, apply_readState_bind]
    rw [apply_attempt_bind, setReg_ok _ _ _ ((s.goToStep 2).goToStep 3) (okFor_same rfl h (by omega))
      (ackFor_after (a := 0) (s := s) (by simp [State.goToStep]) ha (by omega))]
    simp only [apply_line_bind, apply_update_bind]
    generalize hw : (dev, effectiveSub start (s.goToStep 2).work.bulkI, c) = w
    generalize hu : ((((s.goToStep 2).goToStep 3).wrote w).goToStep 7) = u
    have hua : u.env.answers = s.env.answers.advanceBy 91 := by rw [← hu]; simp
    have hus : u.env.samples = s.env.samples.advanceBy 3 := by rw [← hu]; simp
    have hub : u.work.bulkI = s.work.bulkI := by rw [← hu]; simp
    have huT : u.session = s.session := by rw [← hu]; simp
    have hut : u.trace = s.trace ++ transactionWave s.session.halfPeriod w.1 w.2.1 w.2.2 := by rw [← hu]; rfl
    have hsm : (u.setBulkI (u.work.bulkI + 1#8)).sample (3 * rest.length) = s.sample (3 * rest.length + 3) := by
      rw [Nat.add_comm]
      exact sample_after (t := u.setBulkI _) hus _
    obtain ⟨t, h1, h2, h3, h4, h5⟩ := ih (u.setBulkI (u.work.bulkI + 1#8)) (okFor_after (a := 91) hua h (by omega))
      (ackFor_after (a := 3) hus ha (by omega)) (by rw [hsm]; exact hv)
    rw [hsm] at h1 h2
    refine ⟨t, h1, ?_, ?_, ?_, ?_⟩
    · have e1 : start + (s.work.bulkI + 1#8) = start + s.work.bulkI + 1#8 := by rw [BitVec.add_assoc]
      have e2 : s.work.bulkI + 1#8 + BitVec.ofNat 8 rest.length = s.work.bulkI + BitVec.ofNat 8 (rest.length + 1) := by
        rw [BitVec.add_assoc, ← BitVec.ofNat_add, Nat.add_comm 1]
      rw [h2]
      change u.trace ++ wavesOf u.session.halfPeriod (bulkWrites dev (start + (u.work.bulkI + 1#8)) rest) ++
        failedWave u.session.halfPeriod [] dev _ ++ [.log (.failedAtByte (u.work.bulkI + 1#8 + _))] = _
      rw [huT, hub, hut, e1, e2, ← hw]
      simp [wavesOf, bulkWrites, effectiveSub, List.append_assoc, Nat.mul_succ]
    · rw [h3]
      change u.env.answers.advanceBy _ = _
      rw [hua, Script.advanceBy_advanceBy]
      congr 1
      simp only [List.length_cons]
      omega
    · rw [h4]
      change u.env.samples.advanceBy _ = _
      rw [hus, Script.advanceBy_advanceBy]
      congr 1
      simp only [List.length_cons]
      omega
    · rw [h5]
      change u.work.bulkI + 1#8 + _ = _
      rw [hub, BitVec.add_assoc, ← BitVec.ofNat_add, Nat.add_comm 1]
      rfl

/-- `WRITEBULK` with a byte not acknowledged at the address stage (R99). -/
theorem writeBulk_fails (dev start b : Byte) (pre post : List Byte) (s : State) (h : s.OkFor (91 * pre.length + 35))
    (ha : s.AckFor (3 * pre.length)) (hv : s.sample (3 * pre.length) ≠ .zero) :
    ∃ t, Op.apply (writeBulk dev start (pre ++ b :: post)) s =
        (.error (nackError .address (s.sample (3 * pre.length))), t) ∧
      t.trace = s.trace ++ wavesOf s.session.halfPeriod (bulkWrites dev start pre)
        ++ failedWave s.session.halfPeriod [] dev (s.sample (3 * pre.length))
        ++ [.log (.failedAtByte (BitVec.ofNat 8 pre.length))] ∧
      t.env.answers = s.env.answers.advanceBy (91 * pre.length + 35) ∧
      t.env.samples = s.env.samples.advanceBy (3 * pre.length + 1) ∧
      t.work.bulkI = BitVec.ofNat 8 pre.length := by
  have he : (((s.pushFrame .writeBulk).goToStep 1).setBulkI 0#8).env.samples = s.env.samples.advanceBy 0 := by
    simp [State.setBulkI]
  have hs : (((s.pushFrame .writeBulk).goToStep 1).setBulkI 0#8).sample (3 * pre.length) = s.sample (3 * pre.length) := by
    rw [sample_after he, Nat.zero_add]
  obtain ⟨t, h1, h2, h3, h4, h5⟩ := bulkLoop_fails dev start b pre post
    (((s.pushFrame .writeBulk).goToStep 1).setBulkI 0#8) (okFor_same rfl h (Nat.le_refl _))
    (ackFor_after he ha (by omega)) (by rw [hs]; exact hv)
  have e0 : (((s.pushFrame .writeBulk).goToStep 1).setBulkI 0#8).work.bulkI = 0#8 := rfl
  rw [hs] at h1 h2
  rw [e0, BitVec.add_zero, BitVec.zero_add] at h2
  rw [e0, BitVec.zero_add] at h5
  unfold writeBulk
  refine ⟨_, call_of (forgettingOnError_error (by
    simp only [apply_line_bind, apply_update_bind]
    exact apply_bind_error h1)), h2, h3, h4, h5⟩

/-- However `WRITEBULK` fails, nothing is known afterwards of the registers it names (U1). -/
theorem writeBulk_forgets (dev start : Byte) (bytes : List Byte) (s : State) (e : Error)
    (he : (Op.apply (writeBulk dev start bytes) s).1 = .error e) (sub : Byte) (hs : sub ∈ bulkSubs start bytes.length) :
    (Op.apply (writeBulk dev start bytes) s).2.remote.regs.read (remoteAddr dev sub) = none := by
  unfold writeBulk at he ⊢
  rw [apply_call] at he ⊢
  unfold forgettingOnError at he ⊢
  rw [apply_attempt_bind] at he ⊢
  generalize Op.apply (_ : Op Unit) (s.pushFrame .writeBulk) = y at he ⊢
  obtain ⟨r, u⟩ := y
  cases r with
  | ok a => exact absurd he (by simp)
  | error e' => exact forgetAll_read _ _ _ _ _ hs

/-- The loop of `INITIALIZE` with an entry not acknowledged. -/
theorem initLoop_fails (e : Byte × Byte) (pre post : List (Byte × Byte)) (s : State)
    (h : s.OkFor (91 * pre.length + 35)) (ha : s.AckFor (3 * pre.length)) (hv : s.sample (3 * pre.length) ≠ .zero) :
    ∃ t, Op.apply (initLoop (pre ++ e :: post)) s =
        (.error (nackError .address (s.sample (3 * pre.length))), t) ∧
      t.trace = s.trace ++ wavesOf s.session.halfPeriod (pre.map fun e => (s.cfg.devAddr, e.1, e.2))
        ++ failedWave s.session.halfPeriod [] s.cfg.devAddr (s.sample (3 * pre.length)) ∧
      t.env.answers = s.env.answers.advanceBy (91 * pre.length + 35) ∧
      t.env.samples = s.env.samples.advanceBy (3 * pre.length + 1) ∧
      t.work.initI = s.work.initI + BitVec.ofNat 4 pre.length := by
  induction pre generalizing s with
  | nil =>
    simp only [List.length_nil, Nat.mul_zero, Nat.zero_add] at h hv
    have hs := setReg_address s.cfg.devAddr e.1 e.2 (((s.goToStep 2).goToStep 3).goToStep 4)
      (okFor_same rfl h (Nat.le_refl _)) hv
    have hm : Op.apply (memWrite (fun _ => e.1) (fun _ => e.2)) (((s.goToStep 2).goToStep 3).goToStep 4) = _ :=
      (memWrite_apply _ _ _).trans hs
    obtain ⟨sub, val⟩ := e
    simp only [List.nil_append, initLoop, apply_line_bind]
    rw [apply_bind_error hm]
    refine ⟨_, rfl, ?_, ?_, ?_, ?_⟩ <;>
      simp [State.goToStep, State.stoppedAt, State.waved, wavesOf, State.sample]
  | cons c rest ih =>
    obtain ⟨sub, val⟩ := c
    simp only [List.length_cons, Nat.mul_succ] at h ha hv
    have hm := memWrite_ok (s := ((s.goToStep 2).goToStep 3).goToStep 4) (fun _ => sub) (fun _ => val)
      (okFor_same rfl h (by omega)) (ackFor_after (a := 0) (s := s) (by simp) ha (by omega))
    have hd : (((s.goToStep 2).goToStep 3).goToStep 4).cfg = s.cfg := rfl
    rw [hd] at hm
    simp only [List.cons_append, initLoop, apply_line_bind]
    rw [apply_bind_ok hm]
    simp only [apply_line_bind, apply_update_bind]
    generalize hu : (((((s.goToStep 2).goToStep 3).goToStep 4).wrote (s.cfg.devAddr, sub, val)).goToStep 6) = u
    have hua : u.env.answers = s.env.answers.advanceBy 91 := by rw [← hu]; simp
    have hus : u.env.samples = s.env.samples.advanceBy 3 := by rw [← hu]; simp
    have hub : u.work.initI = s.work.initI := by rw [← hu]; simp
    have huT : u.session = s.session := by rw [← hu]; simp
    have huc : u.cfg = s.cfg := by rw [← hu]; simp [State.goToStep]
    have hut : u.trace = s.trace ++ transactionWave s.session.halfPeriod s.cfg.devAddr sub val := by rw [← hu]; rfl
    have hsm : (u.setInitI (u.work.initI + 1#4)).sample (3 * rest.length) = s.sample (3 * rest.length + 3) := by
      rw [Nat.add_comm]
      exact sample_after (t := u.setInitI _) hus _
    obtain ⟨t, h1, h2, h3, h4, h5⟩ := ih (u.setInitI (u.work.initI + 1#4)) (okFor_after (a := 91) hua h (by omega))
      (ackFor_after (a := 3) hus ha (by omega)) (by rw [hsm]; exact hv)
    rw [hsm] at h1 h2
    refine ⟨t, h1, ?_, ?_, ?_, ?_⟩
    · rw [h2]
      change u.trace ++ wavesOf u.session.halfPeriod (rest.map fun e => (u.cfg.devAddr, e.1, e.2)) ++
        failedWave u.session.halfPeriod [] u.cfg.devAddr _ = _
      rw [huT, huc, hut]
      simp [wavesOf, List.append_assoc, Nat.mul_succ]
    · rw [h3]
      change u.env.answers.advanceBy _ = _
      rw [hua, Script.advanceBy_advanceBy]
      congr 1
      simp only [List.length_cons]
      omega
    · rw [h4]
      change u.env.samples.advanceBy _ = _
      rw [hus, Script.advanceBy_advanceBy]
      congr 1
      simp only [List.length_cons]
      omega
    · rw [h5]
      change u.work.initI + 1#4 + _ = _
      rw [hub, BitVec.add_assoc, ← BitVec.ofNat_add, Nat.add_comm 1]
      rfl

/-- `INITIALIZE` with entry j not acknowledged at the address stage (R109). -/
theorem initialise_fails (e : Byte × Byte) (pre post : List (Byte × Byte)) (s : State)
    (hc : s.cfg.initSeq = pre ++ e :: post)
    (h : s.OkFor (91 * pre.length + 35)) (ha : s.AckFor (3 * pre.length)) (hv : s.sample (3 * pre.length) ≠ .zero) :
    ∃ t, Op.apply initialise s = (.error (nackError .address (s.sample (3 * pre.length))), t) ∧
      t.trace = s.trace ++ wavesOf s.session.halfPeriod (pre.map fun e => (s.cfg.devAddr, e.1, e.2))
        ++ failedWave s.session.halfPeriod [] s.cfg.devAddr (s.sample (3 * pre.length)) ∧
      t.env.answers = s.env.answers.advanceBy (91 * pre.length + 35) ∧
      t.env.samples = s.env.samples.advanceBy (3 * pre.length + 1) ∧
      t.work.initI = BitVec.ofNat 4 pre.length := by
  have he : (((s.pushFrame .initialise).goToStep 1).setInitI 0#4).env.samples = s.env.samples.advanceBy 0 := by
    simp [State.setInitI]
  have hs : (((s.pushFrame .initialise).goToStep 1).setInitI 0#4).sample (3 * pre.length) = s.sample (3 * pre.length) := by
    rw [sample_after he, Nat.zero_add]
  obtain ⟨t, h1, h2, h3, h4, h5⟩ := initLoop_fails e pre post
    (((s.pushFrame .initialise).goToStep 1).setInitI 0#4) (okFor_same rfl h (Nat.le_refl _))
    (ackFor_after he ha (by omega)) (by rw [hs]; exact hv)
  have e0 : (((s.pushFrame .initialise).goToStep 1).setInitI 0#4).work.initI = 0#4 := rfl
  rw [hs] at h1 h2
  rw [e0, BitVec.zero_add] at h5
  rw [← hc] at h1
  unfold initialise
  refine ⟨_, call_of (forgettingOnError_error (by
    simp only [apply_line_bind, apply_update_bind, apply_readState_bind]
    exact apply_bind_error h1)), h2, h3, h4, h5⟩

/-- However `INITIALIZE` fails, nothing is known afterwards of the registers of the table (U2). -/
theorem initialise_forgets (s : State) (e : Error) (he : (Op.apply initialise s).1 = .error e) (sub : Byte)
    (hs : sub ∈ s.cfg.initSeq.map (·.1)) :
    (Op.apply initialise s).2.remote.regs.read (remoteAddr s.cfg.devAddr sub) = none := by
  have hk := (hostPart_eq (respects_initialise
    { reg := hostPart_prog.reg, initI := fun _ _ => rfl } s)).1
  unfold initialise at he hk ⊢
  rw [apply_call] at he hk ⊢
  unfold forgettingOnError at he hk ⊢
  rw [apply_attempt_bind] at he hk ⊢
  generalize Op.apply (_ : Op Unit) (s.pushFrame .initialise) = y at he hk ⊢
  obtain ⟨r, u⟩ := y
  cases r with
  | ok a => exact absurd he (by simp)
  | error e' =>
    have hk' : u.cfg = s.cfg := hk
    show (Remote.forgetAll u.cfg u.remote u.cfg.devAddr (u.cfg.initSeq.map (·.1))).regs.read _ = none
    rw [hk']
    exact forgetAll_read _ _ _ _ _ hs

end Sys2Proof.Machine
end

