-- ==== Sys2Proof/Laws/LoadFailures.lean ====
section
/-! SUPPORT. `LOADPROGRAM` with a write that is not acknowledged (R111). -/

namespace Sys2Proof.Machine

@[simp] theorem stoppedAt_trace (s : State) (w : Byte × Byte × Byte) (acked : List Byte) (b : Byte) (v : Sample) :
    (s.stoppedAt w acked b v).trace = s.trace ++ failedWave s.session.halfPeriod acked b v := rfl

section
variable {s : State} {ws : List (Byte × Byte × Byte)} {i : Byte} {e : EngineCmd} {p : PageCmd} {c : ControlPoint}

/-- Where `LOADPROGRAM` stopped. -/
def LoadStopped (s t : State) (ws : List (Byte × Byte × Byte)) (v : Sample) (log : List Event) (e : EngineCmd) : Prop :=
  t.trace = s.trace ++ wavesOf s.session.halfPeriod ws ++ failedWave s.session.halfPeriod [] s.cfg.devAddr v ++ log ∧
  t.ghost.engineCmd = e

theorem midLoad_sample (k : Nat) : (s.midLoad ws i e p c).sample k = s.sample (3 * ws.length + k) :=
  sample_after (t := s.midLoad ws i e p c) (wroteAll_samples s ws) k

theorem midLoad_trace : (s.midLoad ws i e p c).trace = s.trace ++ wavesOf s.session.halfPeriod ws := wroteAll_trace s ws
theorem midLoad_session : (s.midLoad ws i e p c).session = s.session := wroteAll_session s ws
theorem midLoad_cfg : (s.midLoad ws i e p c).cfg = s.cfg := wroteAll_cfg s ws
theorem midLoad_engineCmd : (s.midLoad ws i e p c).ghost.engineCmd = e := rfl

theorem midLoad_write_fails {m j : Nat} (sub val : Config → Byte) (hw : ws.length = j) (h : s.OkFor m)
    (hm : 91 * j + 35 ≤ m) (hv : s.sample (3 * j) ≠ .zero) :
    ∃ t, Op.apply (memWrite sub val) (s.midLoad ws i e p c) = (.error (nackError .address (s.sample (3 * j))), t) ∧
      LoadStopped s t ws (s.sample (3 * j)) [] e := by
  subst hw
  have hs := midLoad_sample (s := s) (ws := ws) (i := i) (e := e) (p := p) (c := c) 0
  rw [Nat.add_zero] at hs
  have hx := setReg_address s.cfg.devAddr (sub s.cfg) (val s.cfg) (s.midLoad ws i e p c)
    (midLoad_okFor h hm) (by rw [hs]; exact hv)
  rw [hs] at hx
  rw [memWrite_apply, midLoad_cfg, hx]
  refine ⟨_, rfl, ?_, rfl⟩
  rw [List.append_nil, stoppedAt_trace, midLoad_trace, midLoad_session]

theorem midLoad_upload_fails {m n j : Nat} (pre post : List Byte) (b : Byte) (hw : ws.length + pre.length = j)
    (h : s.OkFor m) (ha : s.AckFor n) (hm : 91 * j + 35 ≤ m) (hn : 3 * j ≤ n) (hv : s.sample (3 * j) ≠ .zero) :
    ∃ t, Op.apply (upload (pre ++ b :: post)) (s.midLoad ws i e p c) =
        (.error (nackError .address (s.sample (3 * j))), t) ∧
      LoadStopped s t (ws ++ bulkWrites s.cfg.devAddr s.cfg.progMemBase pre) (s.sample (3 * j))
        [.log (.failedAtByte (BitVec.ofNat 8 pre.length))] e := by
  subst hw
  have hs := midLoad_sample (s := s) (ws := ws) (i := i) (e := e) (p := p) (c := c) (3 * pre.length)
  rw [← Nat.mul_add] at hs
  obtain ⟨t, h1, h2, _, _, _⟩ := writeBulk_fails s.cfg.devAddr s.cfg.progMemBase b pre post (s.midLoad ws i e p c)
    (midLoad_okFor h (by omega)) (midLoad_ackFor ha (by omega)) (by rw [hs]; exact hv)
  rw [hs] at h1 h2
  refine ⟨t, ?_, ?_, ?_⟩
  · unfold upload
    rw [apply_readState_bind, midLoad_cfg]
    exact h1
  · rw [h2, midLoad_trace, midLoad_session]
    simp [wavesOf, List.append_assoc]
  · have hk : bulkPart (Op.apply (writeBulk s.cfg.devAddr s.cfg.progMemBase (pre ++ b :: post)) (s.midLoad ws i e p c)).2
        = bulkPart (s.midLoad ws i e p c) := respects_writeBulk bulkPart_reg _ _ _ _
    rw [h1] at hk
    simp only [bulkPart, Prod.mk.injEq] at hk
    exact hk.2.2.2.1

end

theorem bulkWrites_take (dev sub : Byte) (bytes : List Byte) (n : Nat) :
    (bulkWrites dev sub bytes).take n = bulkWrites dev sub (bytes.take n) := by
  induction bytes generalizing sub n with
  | nil => simp [bulkWrites]
  | cons b bytes ih => cases n <;> simp [bulkWrites, ih]

/-- Where the writes of `LOADPROGRAM` stop. -/
theorem loadWrites_take (c : Config) (mux program : List Byte) (j : Nat) :
    (loadWrites c mux program).take j =
      ([(c.devAddr, c.regEngMode, c.valEngLoad), (c.devAddr, c.regPageSel, c.valPageMux)].take j)
      ++ bulkWrites c.devAddr c.progMemBase (mux.take (j - 2))
      ++ [(c.devAddr, c.regPageSel, c.valPageProg)].take (j - 2 - mux.length)
      ++ bulkWrites c.devAddr c.progMemBase (program.take (j - 3 - mux.length))
      ++ [(c.devAddr, c.regEngMode, c.valEngHalt), (c.devAddr, c.regEngRun, c.valEngRun),
        (c.devAddr, c.regFreeRun, c.valFreeRun)].take (j - 3 - mux.length - program.length) := by
  unfold loadWrites
  simp only [List.take_append, List.length_append, List.length_cons, List.length_nil, bulkWrites_length, bulkWrites_take]
  have e1 : j - (0 + 1 + 1) = j - 2 := by omega
  have e2 : j - (0 + 1 + 1 + mux.length) = j - 2 - mux.length := by omega
  have e3 : j - (0 + 1 + 1 + mux.length + (0 + 1)) = j - 3 - mux.length := by omega
  have e4 : j - (0 + 1 + 1 + mux.length + (0 + 1) + program.length) = j - 3 - mux.length - program.length := by omega
  rw [e1, e2, e3, e4]

/-- Steps 1 to 8 of `LOADPROGRAM` with write number j not acknowledged at the address stage. -/
theorem uploadSequence_fails (mux program : List Byte) (s : State) (j : Nat) (hj : j < mux.length + program.length + 6)
    (h : s.OkFor (91 * j + 35)) (ha : s.AckFor (3 * j)) (hv : s.sample (3 * j) ≠ .zero) :
    ∃ t, Op.apply (uploadSequence mux program) s = (.error (nackError .address (s.sample (3 * j))), t) ∧
      LoadStopped s t ((loadWrites s.cfg mux program).take j) (s.sample (3 * j))
        (loadLog mux.length program.length j) (loadEngine mux.length program.length j s.ghost.engineCmd) := by
  have h0 : s = s.midLoad [] s.work.bulkI s.ghost.engineCmd s.ghost.pageCmd s.pc := rfl
  unfold uploadSequence setEngineLoad setEngineHalt setEngineRun selectMuxPage selectProgramPage
  simp only [bind_assoc]
  rw [apply_line_bind]
  conv in Op.apply _ (s.goToStep 1) => rw [h0]
  rw [midLoad_step]
  generalize hws : (loadWrites s.cfg mux program).take j = ws
  by_cases c0 : j = 0
  · subst c0
    obtain ⟨t, g1, g2⟩ := midLoad_write_fails (s := s) (j := 0) (ws := []) (i := s.work.bulkI) (e := s.ghost.engineCmd)
      (p := s.ghost.pageCmd) (c := s.pc.atStep 1) (·.regEngMode) (·.valEngLoad) rfl h (by omega) hv
    refine ⟨t, apply_bind_error g1, ?_⟩
    rw [← hws]
    simpa [loadLog, loadEngine] using g2
  rw [apply_bind_ok (midLoad_write (ws := []) _ _ h ha
    (by simp only [List.length_nil]; omega) (by simp only [List.length_nil]; omega)),
    apply_bind_ok (midLoad_engine _), apply_line_bind, midLoad_step]
  by_cases c1 : j = 1
  · obtain ⟨t, g1, g2⟩ := midLoad_write_fails (s := s) (ws := [] ++ [(s.cfg.devAddr, s.cfg.regEngMode, s.cfg.valEngLoad)]) (i := s.work.bulkI) (e := .load) (p := s.ghost.pageCmd)
      (c := ((s.pc.atStep 1).atStep 2)) (j := j) (·.regPageSel) (·.valPageMux) (by simp; omega) h (by omega) hv
    have e1 : loadLog mux.length program.length j = [] := by
      unfold loadLog
      rw [if_neg (by omega), if_neg (by omega)]
    have e2 : loadEngine mux.length program.length j s.ghost.engineCmd = .load := by
      unfold loadEngine
      rw [if_neg (by omega), if_pos (by omega)]
    refine ⟨t, apply_bind_error g1, ?_⟩
    rw [e1, e2, ← hws, loadWrites_take]
    subst c1
    simpa [bulkWrites] using g2
  rw [apply_bind_ok (midLoad_write _ _ h ha (by simp; omega) (by simp; omega)), apply_bind_ok (midLoad_page _), apply_line_bind, midLoad_step]
  by_cases c2 : j < 2 + mux.length
  · have hlt : j - 2 < mux.length := by omega
    have hsplit : mux = mux.take (j - 2) ++ mux[j - 2] :: mux.drop (j - 2 + 1) := by simp
    have hlen : (mux.take (j - 2)).length = j - 2 := by rw [List.length_take]; omega
    obtain ⟨t, g1, g2⟩ := midLoad_upload_fails (s := s) (ws := [] ++ [(s.cfg.devAddr, s.cfg.regEngMode, s.cfg.valEngLoad)] ++ [(s.cfg.devAddr, s.cfg.regPageSel, s.cfg.valPageMux)]) (i := s.work.bulkI) (e := .load) (p := .mux)
      (c := (((s.pc.atStep 1).atStep 2).atStep 3)) (j := j) (mux.take (j - 2)) (mux.drop (j - 2 + 1)) mux[j - 2] (by rw [hlen]; simp; omega) h ha
      (by omega) (by omega) hv
    rw [← hsplit] at g1
    rw [hlen] at g2
    have e1 : loadLog mux.length program.length j = [.log (.failedAtByte (BitVec.ofNat 8 (j - 2)))] := by
      unfold loadLog
      rw [if_pos (by omega)]
    have e2 : loadEngine mux.length program.length j s.ghost.engineCmd = .load := by
      unfold loadEngine
      rw [if_neg (by omega), if_pos (by omega)]
    refine ⟨t, apply_bind_error g1, ?_⟩
    rw [e1, e2, ← hws, loadWrites_take]
    have z1 : j - 2 - mux.length = 0 := by omega
    have z2 : j - 3 - mux.length = 0 := by omega
    rw [z1, z2, List.take_of_length_le (by simp; omega)]
    simpa [bulkWrites] using g2
  rw [apply_bind_ok (midLoad_upload _ h ha (by simp; omega) (by simp; omega)), apply_line_bind, midLoad_step]
  by_cases c3 : j = 2 + mux.length
  · obtain ⟨t, g1, g2⟩ := midLoad_write_fails (s := s) (ws := [] ++ [(s.cfg.devAddr, s.cfg.regEngMode, s.cfg.valEngLoad)] ++ [(s.cfg.devAddr, s.cfg.regPageSel, s.cfg.valPageMux)] ++ bulkWrites s.cfg.devAddr s.cfg.progMemBase mux) (i := BitVec.ofNat 8 mux.length) (e := .load) (p := .mux)
      (c := ((((s.pc.atStep 1).atStep 2).atStep 3).atStep 4)) (j := j) (·.regPageSel) (·.valPageProg) (by simp; omega) h (by omega) hv
    have e1 : loadLog mux.length program.length j = [] := by
      unfold loadLog
      rw [if_neg (by omega), if_neg (by omega)]
    have e2 : loadEngine mux.length program.length j s.ghost.engineCmd = .load := by
      unfold loadEngine
      rw [if_neg (by omega), if_pos (by omega)]
    refine ⟨t, apply_bind_error g1, ?_⟩
    rw [e1, e2, ← hws, loadWrites_take]
    have z1 : j - 2 - mux.length = 0 := by omega
    have z2 : j - 3 - mux.length = 0 := by omega
    rw [z1, z2, List.take_of_length_le (l := mux) (by omega), List.take_of_length_le (by simp; omega)]
    simpa [bulkWrites] using g2
  rw [apply_bind_ok (midLoad_write _ _ h ha (by simp; omega) (by simp; omega)), apply_bind_ok (midLoad_page _), apply_line_bind, midLoad_step]
  by_cases c4 : j < 3 + mux.length + program.length
  · have hlt : j - 3 - mux.length < program.length := by omega
    have hsplit : program = program.take (j - 3 - mux.length) ++ program[j - 3 - mux.length] :: program.drop (j - 3 - mux.length + 1) := by simp
    have hlen : (program.take (j - 3 - mux.length)).length = j - 3 - mux.length := by rw [List.length_take]; omega
    obtain ⟨t, g1, g2⟩ := midLoad_upload_fails (s := s) (ws := [] ++ [(s.cfg.devAddr, s.cfg.regEngMode, s.cfg.valEngLoad)] ++ [(s.cfg.devAddr, s.cfg.regPageSel, s.cfg.valPageMux)] ++ bulkWrites s.cfg.devAddr s.cfg.progMemBase mux ++ [(s.cfg.devAddr, s.cfg.regPageSel, s.cfg.valPageProg)]) (i := BitVec.ofNat 8 mux.length) (e := .load) (p := .program)
      (c := (((((s.pc.atStep 1).atStep 2).atStep 3).atStep 4).atStep 5)) (j := j) (program.take (j - 3 - mux.length)) (program.drop (j - 3 - mux.length + 1)) program[j - 3 - mux.length] (by rw [hlen]; simp; omega) h ha
      (by omega) (by omega) hv
    rw [← hsplit] at g1
    rw [hlen] at g2
    have e1 : loadLog mux.length program.length j = [.log (.failedAtByte (BitVec.ofNat 8 (j - 3 - mux.length)))] := by
      unfold loadLog
      rw [if_neg (by omega), if_pos (by omega)]
    have e2 : loadEngine mux.length program.length j s.ghost.engineCmd = .load := by
      unfold loadEngine
      rw [if_neg (by omega), if_pos (by omega)]
    refine ⟨t, apply_bind_error g1, ?_⟩
    rw [e1, e2, ← hws, loadWrites_take]
    have z3 : j - 3 - mux.length - program.length = 0 := by omega
    rw [z3, List.take_of_length_le (l := mux) (by omega), List.take_of_length_le (l := [_, _]) (by simp; omega),
      List.take_of_length_le (l := [_]) (by simp; omega)]
    simpa [bulkWrites] using g2
  rw [apply_bind_ok (midLoad_upload _ h ha (by simp; omega) (by simp; omega)), apply_line_bind, midLoad_step]
  by_cases c5 : j = 3 + mux.length + program.length
  · obtain ⟨t, g1, g2⟩ := midLoad_write_fails (s := s) (ws := [] ++ [(s.cfg.devAddr, s.cfg.regEngMode, s.cfg.valEngLoad)] ++ [(s.cfg.devAddr, s.cfg.regPageSel, s.cfg.valPageMux)] ++ bulkWrites s.cfg.devAddr s.cfg.progMemBase mux ++ [(s.cfg.devAddr, s.cfg.regPageSel, s.cfg.valPageProg)] ++ bulkWrites s.cfg.devAddr s.cfg.progMemBase program) (i := BitVec.ofNat 8 program.length) (e := .load) (p := .program)
      (c := ((((((s.pc.atStep 1).atStep 2).atStep 3).atStep 4).atStep 5).atStep 6)) (j := j) (·.regEngMode) (·.valEngHalt) (by simp; omega) h (by omega) hv
    have e1 : loadLog mux.length program.length j = [] := by
      unfold loadLog
      rw [if_neg (by omega), if_neg (by omega)]
    have e2 : loadEngine mux.length program.length j s.ghost.engineCmd = .load := by
      unfold loadEngine
      rw [if_neg (by omega), if_pos (by omega)]
    refine ⟨t, apply_bind_error g1, ?_⟩
    rw [e1, e2, ← hws, loadWrites_take]
    have z3 : j - 3 - mux.length - program.length = 0 := by omega
    rw [z3, List.take_of_length_le (l := mux) (by omega), List.take_of_length_le (l := program) (by omega),
      List.take_of_length_le (l := [_, _]) (by simp; omega), List.take_of_length_le (l := [_]) (by simp; omega)]
    simpa [bulkWrites] using g2
  rw [apply_bind_ok (midLoad_write _ _ h ha (by simp; omega) (by simp; omega)), apply_bind_ok (midLoad_engine _), apply_line_bind, midLoad_step]
  by_cases c6 : j = 4 + mux.length + program.length
  · obtain ⟨t, g1, g2⟩ := midLoad_write_fails (s := s) (ws := [] ++ [(s.cfg.devAddr, s.cfg.regEngMode, s.cfg.valEngLoad)] ++ [(s.cfg.devAddr, s.cfg.regPageSel, s.cfg.valPageMux)] ++ bulkWrites s.cfg.devAddr s.cfg.progMemBase mux ++ [(s.cfg.devAddr, s.cfg.regPageSel, s.cfg.valPageProg)] ++ bulkWrites s.cfg.devAddr s.cfg.progMemBase program ++ [(s.cfg.devAddr, s.cfg.regEngMode, s.cfg.valEngHalt)]) (i := BitVec.ofNat 8 program.length) (e := .halt) (p := .program)
      (c := (((((((s.pc.atStep 1).atStep 2).atStep 3).atStep 4).atStep 5).atStep 6).atStep 7)) (j := j) (·.regEngRun) (·.valEngRun) (by simp; omega) h (by omega) hv
    have e1 : loadLog mux.length program.length j = [] := by
      unfold loadLog
      rw [if_neg (by omega), if_neg (by omega)]
    have e2 : loadEngine mux.length program.length j s.ghost.engineCmd = .halt := by
      unfold loadEngine
      rw [if_neg (by omega), if_neg (by omega)]
    refine ⟨t, apply_bind_error g1, ?_⟩
    rw [e1, e2, ← hws, loadWrites_take]
    have z3 : j - 3 - mux.length - program.length = 1 := by omega
    rw [z3, List.take_of_length_le (l := mux) (by omega), List.take_of_length_le (l := program) (by omega),
      List.take_of_length_le (l := [_, _]) (by simp; omega), List.take_of_length_le (l := [_]) (by simp; omega)]
    simpa [bulkWrites] using g2
  rw [apply_bind_ok (midLoad_write _ _ h ha (by simp; omega) (by simp; omega)), apply_line_bind, midLoad_step]
  obtain ⟨t, g1, g2⟩ := midLoad_write_fails (s := s) (ws := [] ++ [(s.cfg.devAddr, s.cfg.regEngMode, s.cfg.valEngLoad)] ++ [(s.cfg.devAddr, s.cfg.regPageSel, s.cfg.valPageMux)] ++ bulkWrites s.cfg.devAddr s.cfg.progMemBase mux ++ [(s.cfg.devAddr, s.cfg.regPageSel, s.cfg.valPageProg)] ++ bulkWrites s.cfg.devAddr s.cfg.progMemBase program ++ [(s.cfg.devAddr, s.cfg.regEngMode, s.cfg.valEngHalt)] ++ [(s.cfg.devAddr, s.cfg.regEngRun, s.cfg.valEngRun)]) (i := BitVec.ofNat 8 program.length) (e := .halt) (p := .program)
    (c := ((((((((s.pc.atStep 1).atStep 2).atStep 3).atStep 4).atStep 5).atStep 6).atStep 7).atStep 8)) (j := j) (·.regFreeRun) (·.valFreeRun) (by simp; omega) h (by omega) hv
  have e1 : loadLog mux.length program.length j = [] := by
    unfold loadLog
    rw [if_neg (by omega), if_neg (by omega)]
  have e2 : loadEngine mux.length program.length j s.ghost.engineCmd = .halt := by
    unfold loadEngine
    rw [if_neg (by omega), if_neg (by omega)]
  refine ⟨t, apply_bind_error g1, ?_⟩
  rw [e1, e2, ← hws, loadWrites_take]
  have z3 : j - 3 - mux.length - program.length = 2 := by omega
  rw [z3, List.take_of_length_le (l := mux) (by omega), List.take_of_length_le (l := program) (by omega),
    List.take_of_length_le (l := [_, _]) (by simp; omega), List.take_of_length_le (l := [_]) (by simp; omega)]
  simpa [bulkWrites] using g2

/-- `LOADPROGRAM` with write number j not acknowledged at the address stage (R111): nothing further is sent. -/
theorem loadProgram_fails (mux program : List Byte) (s : State) (hm : mux.length ≤ 32) (hp : program.length ≤ 32)
    (j : Nat) (hj : j < mux.length + program.length + 6) (h : s.OkFor (91 * j + 35)) (ha : s.AckFor (3 * j))
    (hv : s.sample (3 * j) ≠ .zero) :
    ∃ t, Op.apply (loadProgram mux program) s = (.error (nackError .address (s.sample (3 * j))), t) ∧
      LoadStopped s t ((loadWrites s.cfg mux program).take j) (s.sample (3 * j))
        (loadLog mux.length program.length j) (loadEngine mux.length program.length j s.ghost.engineCmd) := by
  have he : ((s.pushFrame .loadProgram).goToStep 0).env.samples = s.env.samples.advanceBy 0 := by simp
  have hs : ((s.pushFrame .loadProgram).goToStep 0).sample (3 * j) = s.sample (3 * j) := by simp
  obtain ⟨t, h1, h2, h3⟩ := uploadSequence_fails mux program ((s.pushFrame .loadProgram).goToStep 0) j hj
    (okFor_same rfl h (Nat.le_refl _)) (ackFor_after he ha (by omega)) (by rw [hs]; exact hv)
  rw [hs] at h1 h2
  rw [loadProgram_body, loadProgram_accepts mux program hm hp]
  simp only [Bool.false_eq_true, if_false]
  rw [h1]
  exact ⟨t.popFrame, rfl, h2, h3⟩

end Sys2Proof.Machine
end

