-- ==== Sys2Proof/Laws/Runs.lean ====
section
/-! SUPPORT. What `Acquire`, `Release`, `BringUp` and `RUN` do (R122 to R127). -/

namespace Sys2Proof.Machine

variable {α β : Type}

@[simp] theorem Script.advanceBy_drawn (n : Nat) (sc : Script α) : (sc.advanceBy n).drawn = sc.drawn + n := rfl

/-! ## Acquire (R122) -/

theorem acquire_ok (s : State) (h : s.OkFor 2) (hp : s.PinsFree) : Op.apply acquire s = (.ok (), s.acquired) := by
  have h0 := h 0 (by omega)
  have h1 := h 1 (by omega)
  obtain ⟨p1, p2⟩ := hp
  clear h
  obtain ⟨cfg, session, work, flags, status, scl, sda, ghost, remote, env, pc, trace, buf0, buf1, result, inputs⟩ := s
  simp only [State.answer] at h0 h1 p1 p2
  simp [acquire, pinRequest, apply_bind, State.requestAnswer, State.pinRequest, State.answer, State.pin, State.emit,
    State.setPin, State.setTrace, State.setScl, State.setSda, State.drawAnswer, State.setEnv, h0, h1, p1, p2,
    setHandleScl, setHandleSda, State.setSession, State.acquired, State.waved, Script.advance_eq,
    Session.open]

/-- The clock pin is refused: nothing is held, and nothing else is done. -/
theorem acquire_sclRefused (s : State) (h : s.requestAnswer .scl = false) :
    Op.apply acquire s = (.error (.resource .request .scl), s.pinRequest .scl) := by
  unfold acquire pinRequest
  simp only [apply_readState_bind]
  rw [apply_bind]
  simp [h]

/-- The data pin is refused: the clock pin is given back. -/
theorem acquire_sdaRefused (s : State) (h0 : s.requestAnswer .scl = true)
    (h1 : (s.answer 1 && !s.sda.claimed) = false) :
    (Op.apply acquire s).1 = .error (.resource .request .sda) ∧
    (Op.apply acquire s).2.trace = s.trace ++ [.req .scl true, .req .sda false, .rel .scl (s.answer 2)]
      ++ (if s.answer 2 then [] else [.log .rollbackReleaseFailed]) ∧
    (Op.apply acquire s).2.session = { s.session with hScl := none } ∧
    (Op.apply acquire s).2.scl = (s.scl.afterRequest true).afterRelease (s.answer 2) ∧
    (Op.apply acquire s).2.sda = s.sda.afterRequest false := by
  simp only [State.requestAnswer, State.pin, Bool.and_eq_true, Bool.not_eq_true'] at h0
  obtain ⟨a0, p1⟩ := h0
  obtain ⟨cfg, session, work, flags, status, scl, sda, ghost, remote, env, pc, trace, buf0, buf1, result, inputs⟩ := s
  simp only [State.answer] at a0 h1 p1
  have h1' : ¬(env.answers.nth Config.freeAnswer 1 = true ∧ sda.claimed = false) := by
    intro h
    rw [h.1, h.2] at h1
    exact absurd h1 (by decide)
  rcases h2 : env.answers.nth Config.freeAnswer 2 with _ | _ <;>
  simp [acquire, rollback, pinRequest, pinRelease, apply_bind, State.requestAnswer, State.pinRequest, State.pinRelease,
    State.answer, State.pin, State.emit,
    State.setPin, State.setTrace, State.setScl, State.setSda, State.drawAnswer, State.setEnv, a0, h1, h1', p1, h2,
    setHandleScl, setHandleSda, State.setSession]

/-! ## Release (R123) -/

/-- The state `Release` leaves. -/
def State.afterReleaseBoth (s : State) : State :=
  { s.waved 2 0 [.rel .sda (s.answer 0), .rel .scl (s.answer 1)] with
    session := s.session.closed
    scl := s.scl.afterRelease (s.answer 1)
    sda := s.sda.afterRelease (s.answer 0)
    status := { s.status with cleanupErr := cleanupError (s.answer 0) (s.answer 1) } }

theorem release_apply (s : State) : Op.apply release s = (.ok (), s.afterReleaseBoth) := by
  obtain ⟨cfg, session, work, flags, status, scl, sda, ghost, remote, env, pc, trace, buf0, buf1, result, inputs⟩ := s
  simp [release, pinRelease, apply_bind, State.pinRelease, State.answer, State.pin, State.emit,
    State.setPin, State.setTrace, State.setScl, State.setSda, State.drawAnswer, State.setEnv, setHandleScl, setHandleSda,
    State.setSession, State.setStatus, State.afterReleaseBoth, State.waved, Script.advance_eq, Session.closed]

/-! ## RUN by its parts (R125) -/

/-- The state in which `RUN` acquires the pins. -/
def State.runStarted (s : State) (index : Byte) : State :=
  ((s.setTape index).setStatus { s.status with primaryErr := none, cleanupErr := none }).setTop .acquire

theorem run_acquireFails (index : Byte) (s t : State) (e : Error)
    (h : Op.apply acquire (s.runStarted index) = (.error e, t)) :
    Op.apply (run index) s = (.ok (.error e), (t.setStatus { t.status with exitStatus := .error e }).setTop (.done (.error e))) := by
  unfold run
  simp only [apply_update_bind, apply_goTop_bind]
  rw [apply_attempt_bind]
  have hs : ((s.setTape index).setStatus { (s.setTape index).status with primaryErr := none, cleanupErr := none }).setTop
      .acquire = s.runStarted index := rfl
  rw [hs, h]
  rfl

theorem run_acquired (index : Byte) (s t : State) (h : Op.apply acquire (s.runStarted index) = (.ok (), t)) :
    Op.apply (run index) s = Op.apply (bringUpAndPlay >>= fun _ => cleanUpAndExit) t := by
  unfold run
  simp only [apply_update_bind, apply_goTop_bind]
  rw [apply_attempt_bind]
  have hs : ((s.setTape index).setStatus { (s.setTape index).status with primaryErr := none, cleanupErr := none }).setTop
      .acquire = s.runStarted index := rfl
  rw [hs, h]

/-! ## BringUp (R124) -/

theorem bringUpAttempt_apply (s : State) :
    Op.apply bringUpAttempt s =
      (.ok (Op.apply initialise ((s.setWork { s.work with attempt := s.work.attempt + 1#4 }).setTop
        (.bringUp (s.work.attempt + 1#4).toNat))).1,
      (Op.apply initialise ((s.setWork { s.work with attempt := s.work.attempt + 1#4 }).setTop
        (.bringUp (s.work.attempt + 1#4).toNat))).2) := rfl

/-- The state in which an attempt issues `INITIALIZE`. -/
def State.tried (s : State) : State :=
  (s.setWork { s.work with attempt := s.work.attempt + 1#4 }).setTop (.bringUp (s.work.attempt + 1#4).toNat)

/-- The state after the backoff of a failed attempt. -/
def State.backedOff (s : State) : State := (s.setTop (.backoff s.work.attempt.toNat)).emit (.dly s.cfg.backoff)

theorem bringUpLoop_success (n : Nat) (s t : State) (h : Op.apply initialise s.tried = (.ok (), t)) :
    Op.apply (bringUpLoop n) s = (.ok (), t) := by
  have ha : Op.apply bringUpAttempt s = (.ok (.ok ()), t) := by
    rw [bringUpAttempt_apply]
    change (Except.ok (Op.apply initialise s.tried).1, (Op.apply initialise s.tried).2) = _
    rw [h]
  cases n <;> · unfold bringUpLoop; rw [apply_bind_ok ha]; rfl

theorem bringUpLoop_retry (n : Nat) (s t : State) (e : Error) (h : Op.apply initialise s.tried = (.error e, t)) :
    Op.apply (bringUpLoop (n + 1)) s = Op.apply (bringUpLoop n) t.backedOff := by
  have ha : Op.apply bringUpAttempt s = (.ok (.error e), t) := by
    rw [bringUpAttempt_apply]
    change (Except.ok (Op.apply initialise s.tried).1, (Op.apply initialise s.tried).2) = _
    rw [h]
  rw [bringUpLoop, apply_bind_ok ha]
  rfl

theorem bringUpLoop_exhausted (s t : State) (e : Error) (h : Op.apply initialise s.tried = (.error e, t)) :
    Op.apply (bringUpLoop 0) s = (.error (.deviceInit e), t) := by
  have ha : Op.apply bringUpAttempt s = (.ok (.error e), t) := by
    rw [bringUpAttempt_apply]
    change (Except.ok (Op.apply initialise s.tried).1, (Op.apply initialise s.tried).2) = _
    rw [h]
  rw [bringUpLoop, apply_bind_ok ha]
  rfl

theorem failedAttempts_succ (c : Config) (T j : Nat) : failedAttempts c T (j + 1) =
    failedWave T [] c.devAddr .one ++ [.dly c.backoff] ++ failedAttempts c T j := by
  simp [failedAttempts, List.replicate_succ]

/-- What is kept by a piece of bring-up. -/
theorem initialise_host (s : State) : hostPart (Op.apply initialise s).2 = hostPart s :=
  respects_initialise { reg := hostPart_prog.reg, initI := fun _ _ => rfl } s

theorem initialise_initPart (s : State) : initPart (Op.apply initialise s).2 = initPart s :=
  respects_initialise { reg := initPart_reg, initI := fun _ _ => rfl } s

/-- One attempt that fails at its first byte. -/
theorem attempt_fails (s : State) (h : s.OkFor 35) (hc : s.cfg.initSeq.length = 13) (hv : s.sample 0 = .one) :
    ∃ t, Op.apply initialise s.tried = (.error (.protocol .address), t) ∧
      t.trace = s.trace ++ failedWave s.session.halfPeriod [] s.cfg.devAddr .one ∧
      t.env.answers = s.env.answers.advanceBy 35 ∧ t.env.samples = s.env.samples.advanceBy 1 ∧
      t.work.attempt = s.work.attempt + 1#4 ∧ t.pc = s.tried.pc ∧ hostPart t = hostPart s ∧
      t.work.tape = s.work.tape ∧ t.ghost.engineCmd = s.ghost.engineCmd ∧ t.ghost.pageCmd = s.ghost.pageCmd := by
  obtain ⟨e, rest, hr⟩ := List.exists_cons_of_length_eq_add_one (n := 12) hc
  have hs : s.tried.sample (3 * ([] : List (Byte × Byte)).length) = .one := hv
  obtain ⟨t, h1, h2, h3, h4, _⟩ := initialise_fails e [] rest s.tried (by exact hr) (okFor_same rfl h (by simp))
    (by intro k hk; simp at hk) (by rw [hs]; decide)
  rw [hs] at h1 h2
  have k1 := initialise_host s.tried
  have k2 := initialise_initPart s.tried
  have k3 := initialise_pc s.tried
  rw [h1] at k1 k2 k3
  simp only [initPart, Prod.mk.injEq] at k2
  exact ⟨t, h1, by simpa [wavesOf, State.tried, State.setTop] using h2, h3, h4, k2.1, k3, k1, k2.2.1, k2.2.2.1, k2.2.2.2⟩

/-- What bring-up keeps while it makes its attempts. -/
structure Kept (s t : State) : Prop where
  host : hostPart t = hostPart s
  frames : t.pc.frames = s.pc.frames
  tape : t.work.tape = s.work.tape
  engine : t.ghost.engineCmd = s.ghost.engineCmd
  page : t.ghost.pageCmd = s.ghost.pageCmd

theorem Kept.trans {a b c : State} (h1 : Kept a b) (h2 : Kept b c) : Kept a c :=
  ⟨h2.host.trans h1.host, h2.frames.trans h1.frames, h2.tape.trans h1.tape, h2.engine.trans h1.engine,
    h2.page.trans h1.page⟩

theorem Kept.session {s t : State} (h : Kept s t) : t.session = s.session := (hostPart_eq h.host).2.1
theorem Kept.cfg {s t : State} (h : Kept s t) : t.cfg = s.cfg := (hostPart_eq h.host).1

/-- One attempt that fails, with the backoff after it. -/
theorem attempt_backedOff (n : Nat) (s : State) (h : s.OkFor 35) (hc : s.cfg.initSeq.length = 13)
    (hv : s.sample 0 = .one) :
    ∃ t, Op.apply (bringUpLoop (n + 1)) s = Op.apply (bringUpLoop n) t ∧
      t.trace = s.trace ++ (failedWave s.session.halfPeriod [] s.cfg.devAddr .one ++ [.dly s.cfg.backoff]) ∧
      t.env.answers = s.env.answers.advanceBy 35 ∧ t.env.samples = s.env.samples.advanceBy 1 ∧
      t.work.attempt = s.work.attempt + 1#4 ∧ Kept s t := by
  obtain ⟨t, h1, h2, h3, h4, h5, h6, h7, h8, h9, h10⟩ := attempt_fails s h hc hv
  have hcfg := (hostPart_eq h7).1
  refine ⟨t.backedOff, bringUpLoop_retry n s t _ h1, ?_, h3, h4, h5, ⟨h7, ?_, h8, h9, h10⟩⟩
  · show t.trace ++ [.dly t.cfg.backoff] = _
    rw [h2, hcfg, List.append_assoc]
  · show t.pc.frames = s.pc.frames
    rw [h6]
    rfl

/-- Bring-up that succeeds after j failed attempts (R124): it stops at the first success. -/
theorem bringUpLoop_tries (j n : Nat) (hj : j ≤ n) (s : State) (hc : s.cfg.initSeq.length = 13)
    (h : s.OkFor (35 * j + 1183)) (hn : ∀ k, k < j → s.sample k = .one)
    (ha : ∀ k, k < 39 → s.sample (j + k) = .zero) :
    ∃ t, Op.apply (bringUpLoop n) s = (.ok (), t) ∧
      t.trace = s.trace ++ failedAttempts s.cfg s.session.halfPeriod j
        ++ wavesOf s.session.halfPeriod (initWrites s.cfg) ∧
      t.env.answers = s.env.answers.advanceBy (35 * j + 1183) ∧
      t.env.samples = s.env.samples.advanceBy (j + 39) ∧
      t.work.attempt = s.work.attempt + BitVec.ofNat 4 (j + 1) ∧ Kept s t ∧
      (∃ r, t.remote = recordWrites s.cfg r (initWrites s.cfg)) := by
  induction j generalizing n s with
  | zero =>
    have hi := initialise_ok s.tried (okFor_same rfl h (by show 91 * s.cfg.initSeq.length ≤ _; omega))
      (fun k hk => by
        have hk' : k < 3 * s.cfg.initSeq.length := hk
        have := ha k (by omega)
        rw [Nat.zero_add] at this
        exact this)
    refine ⟨_, bringUpLoop_success n s _ hi, ?_, ?_, ?_, ?_, ⟨?_, ?_, ?_, ?_, ?_⟩, ⟨s.remote, ?_⟩⟩
    · show (s.tried.wroteAll (initWrites s.cfg)).trace = _
      rw [wroteAll_trace]
      simp [failedAttempts]
      rfl
    · show (s.tried.wroteAll (initWrites s.cfg)).env.answers = _
      rw [wroteAll_answers, initWrites_length, hc]
      rfl
    · show (s.tried.wroteAll (initWrites s.cfg)).env.samples = _
      rw [wroteAll_samples, initWrites_length, hc]
      rfl
    · show (s.tried.wroteAll (initWrites s.cfg)).work.attempt = _
      rw [wroteAll_attempt]
      rfl
    · have := initialise_host s.tried
      rw [hi] at this
      exact this
    · show (s.tried.wroteAll (initWrites s.cfg)).pc.frames = _
      rw [wroteAll_pc]
      rfl
    · show (s.tried.wroteAll (initWrites s.cfg)).work.tape = _
      rw [wroteAll_tape]
      rfl
    · show (s.tried.wroteAll (initWrites s.cfg)).ghost.engineCmd = _
      rw [wroteAll_engineCmd]
      rfl
    · show (s.tried.wroteAll (initWrites s.cfg)).ghost.pageCmd = _
      rw [wroteAll_pageCmd]
      rfl
    · show (s.tried.wroteAll (initWrites s.cfg)).remote = _
      rw [wroteAll_remote]
      rfl
  | succ j ih =>
    obtain ⟨m, rfl⟩ := Nat.exists_eq_add_of_le' (show 1 ≤ n by omega)
    obtain ⟨u, h1, h2, h3, h4, h5, h6⟩ := attempt_backedOff m s (okFor_same rfl h (by omega)) hc (hn 0 (by omega))
    have us : ∀ k, u.sample k = s.sample (1 + k) := sample_after h4
    obtain ⟨t, g1, g2, g3, g4, g5, g6, g7⟩ := ih m (by omega) u (by rw [h6.cfg]; exact hc)
      (okFor_after h3 h (by omega)) (fun k hk => by rw [us]; exact hn _ (by omega))
      (fun k hk => by
        rw [us, ← Nat.add_assoc, Nat.add_comm 1 j]
        exact ha k hk)
    rw [h6.session, h6.cfg] at g2
    rw [h6.cfg] at g7
    refine ⟨t, h1.trans g1, ?_, ?_, ?_, ?_, h6.trans g6, g7⟩
    · rw [g2, h2, failedAttempts_succ]
      simp [List.append_assoc]
    · rw [g3, h3, Script.advanceBy_advanceBy]
      exact congrArg (fun k => s.env.answers.advanceBy k) (by omega)
    · rw [g4, h4, Script.advanceBy_advanceBy]
      exact congrArg (fun k => s.env.samples.advanceBy k) (by omega)
    · rw [g5, h5, BitVec.add_assoc, ← BitVec.ofNat_add, Nat.add_comm 1]

/-- Bring-up in which every attempt fails (R124): the last attempt's error is the cause. -/
theorem bringUpLoop_fails (n : Nat) (s : State) (hc : s.cfg.initSeq.length = 13) (h : s.OkFor (35 * (n + 1)))
    (hn : ∀ k, k < n + 1 → s.sample k = .one) :
    ∃ t, Op.apply (bringUpLoop n) s = (.error (.deviceInit (.protocol .address)), t) ∧
      t.trace = s.trace ++ failedAttempts s.cfg s.session.halfPeriod n
        ++ failedWave s.session.halfPeriod [] s.cfg.devAddr .one ∧
      t.env.answers = s.env.answers.advanceBy (35 * (n + 1)) ∧
      t.work.attempt = s.work.attempt + BitVec.ofNat 4 (n + 1) ∧ Kept s t := by
  induction n generalizing s with
  | zero =>
    obtain ⟨t, h1, h2, h3, h4, h5, h6, h7, h8, h9, h10⟩ := attempt_fails s (okFor_same rfl h (by omega)) hc (hn 0 (by omega))
    refine ⟨t, bringUpLoop_exhausted s t _ h1, ?_, h3, h5, ⟨h7, ?_, h8, h9, h10⟩⟩
    · rw [h2]
      simp [failedAttempts]
    · rw [h6]
      rfl
  | succ n ih =>
    obtain ⟨u, h1, h2, h3, h4, h5, h6⟩ := attempt_backedOff n s (okFor_same rfl h (by omega)) hc (hn 0 (by omega))
    have us : ∀ k, u.sample k = s.sample (1 + k) := sample_after h4
    obtain ⟨t, g1, g2, g3, g4, g5⟩ := ih u (by rw [h6.cfg]; exact hc) (okFor_after h3 h (by omega))
      (fun k hk => by rw [us]; exact hn _ (by omega))
    rw [h6.session, h6.cfg] at g2
    refine ⟨t, h1.trans g1, ?_, ?_, ?_, h6.trans g5⟩
    · rw [g2, h2, failedAttempts_succ]
      simp [List.append_assoc]
    · rw [g3, h3, Script.advanceBy_advanceBy]
      exact congrArg (fun k => s.env.answers.advanceBy k) (by omega)
    · rw [g4, h5, BitVec.add_assoc, ← BitVec.ofNat_add, Nat.add_comm 1]

/-! ## The end of RUN (R123, R126) -/

theorem cleanupError_eq (a b : Bool) : cleanupError a b = releaseFailure a b := by cases a <;> cases b <;> rfl

theorem combineStatus_eq (p c : Option Error) : combineStatus p c = combinedStatus p c := by cases p <;> cases c <;> rfl

theorem combine_apply (s : State) : Op.apply combine s =
    (.ok (combinedStatus s.status.primaryErr s.status.cleanupErr),
      s.setTrace (s.trace ++ combinedLog s.status.primaryErr s.status.cleanupErr)) := by
  unfold combine
  simp only [apply_readState_bind]
  rcases hp : s.status.primaryErr with _ | p <;> rcases hc : s.status.cleanupErr with _ | c <;>
    simp [combineLog, combinedLog, combineStatus, combinedStatus, State.emit, -bind_pure_comp]

/-- The state a `RUN` ends in, the cleanup having begun in `s`. -/
def State.ended (s : State) : State :=
  let c := releaseFailure (s.answer 0) (s.answer 1)
  let st := combinedStatus s.status.primaryErr c
  { s.waved 2 0 (cleanupEvents s.status.primaryErr (s.answer 0) (s.answer 1)) with
    session := s.session.closed
    scl := s.scl.afterRelease (s.answer 1)
    sda := s.sda.afterRelease (s.answer 0)
    status := { primaryErr := s.status.primaryErr, cleanupErr := c, exitStatus := st }
    pc := { s.pc with top := .done st } }

theorem cleanUpAndExit_apply (s : State) : Op.apply cleanUpAndExit s =
    (.ok (combinedStatus s.status.primaryErr (releaseFailure (s.answer 0) (s.answer 1))), s.ended) := by
  unfold cleanUpAndExit
  rw [apply_goTop_bind, apply_bind_ok (release_apply _), apply_bind_ok (combine_apply _)]
  obtain ⟨cfg, session, work, flags, status, scl, sda, ghost, remote, env, pc, trace, buf0, buf1, result, inputs⟩ := s
  simp [exitWith, State.ended, State.afterReleaseBoth, State.waved, State.setTop, State.setPc, State.setStatus,
    State.setTrace, State.setEnv, State.answer, cleanupError_eq, cleanupEvents, -bind_pure_comp]

theorem bringUpAndPlay_fails (s t : State) (e : Error) (h : Op.apply bringUp s = (.error e, t)) :
    Op.apply bringUpAndPlay s = (.ok (), t.setStatus { t.status with primaryErr := some e }) := by
  unfold bringUpAndPlay
  rw [apply_attempt_bind, h]
  rfl

theorem bringUpAndPlay_plays (s t : State) (h : Op.apply bringUp s = (.ok (), t)) :
    (∀ u, Op.apply (playTape t.work.tape) (t.setTop .play) = (.ok (), u) → Op.apply bringUpAndPlay s = (.ok (), u)) ∧
    (∀ e u, Op.apply (playTape t.work.tape) (t.setTop .play) = (.error e, u) →
      Op.apply bringUpAndPlay s = (.ok (), u.setStatus { u.status with primaryErr := some e })) := by
  have ht : (t.setTop .play).work.tape = t.work.tape := rfl
  constructor
  · intro u hu
    unfold bringUpAndPlay
    rw [apply_attempt_bind, h]
    simp only [apply_goTop_bind, apply_readState_bind]
    rw [apply_attempt_bind, ht, hu]
    rfl
  · intro e u hu
    unfold bringUpAndPlay
    rw [apply_attempt_bind, h]
    simp only [apply_goTop_bind, apply_readState_bind]
    rw [apply_attempt_bind, ht, hu]
    rfl

/-- The state before the first attempt. -/
theorem bringUp_apply (s : State) :
    Op.apply bringUp s = Op.apply (bringUpLoop 14) (s.setWork { s.work with attempt := 0#4 }) := rfl

/-! ## RUN (R125) -/

theorem admissible_initSeq {c : Config} (h : c.admissible = true) : c.initSeq.length = 13 := by
  simp [Config.admissible] at h
  tauto

theorem admissible_tables {c : Config} (h : c.admissible = true) :
    c.muxTable0.length = 32 ∧ c.muxTable1.length = 32 ∧ c.program.length = 32 := by
  simp [Config.admissible, Config.maxSize] at h
  tauto

theorem admissible_muxTable {c : Config} (h : c.admissible = true) (index : Byte) : (c.muxTable index).length = 32 := by
  unfold Config.muxTable
  split
  · exact (admissible_tables h).1
  · exact (admissible_tables h).2.1

/-- The state in which `RUN` begins bring-up: pins acquired, no attempt made. -/
def State.runAcquired (s : State) (index : Byte) : State :=
  (s.runStarted index).acquired.setWork { (s.runStarted index).acquired.work with attempt := 0#4 }

/-- What `RUN` leaves when it acquired both pins and `u` is the state at the beginning of the cleanup. -/
theorem run_ranTo {index : Byte} {s u : State} {primary : Option Error} {evs : List Event}
    (h : s.OkFor 2) (hp : s.PinsFree)
    (hb : Op.apply bringUpAndPlay (s.runStarted index).acquired = (.ok (), u))
    (ht : u.trace = (s.runStarted index).acquired.trace ++ evs) (hprim : u.status.primaryErr = primary)
    (hframes : u.pc.frames = s.pc.frames) (hcfg : u.cfg = s.cfg) (hbuf : u.buf0 = s.buf0 ∧ u.buf1 = s.buf1)
    (hin : u.inputs = s.inputs) (hclaimed : u.scl.claimed = true ∧ u.sda.claimed = true) :
    ∃ t, finish .status (run index) s = t ∧ s.RanTo t primary (u.answer 0) (u.answer 1) evs ∧
      t.work = u.work ∧ t.ghost = u.ghost ∧ t.remote = u.remote := by
  subst hprim
  have hr : Op.apply (run index) s = _ := (run_acquired index s _ (acquire_ok (s.runStarted index)
    (okFor_same rfl h (Nat.le_refl _)) hp)).trans ((apply_bind_ok hb).trans (cleanUpAndExit_apply u))
  refine ⟨_, rfl, ?_, ?_, ?_, ?_⟩
  · unfold finish
    rw [hr]
    refine ⟨?_, rfl, rfl, ?_, ⟨rfl, rfl, rfl⟩, ⟨?_, ?_⟩, hcfg, hbuf, hin⟩
    · show u.trace ++ cleanupEvents _ _ _ = _
      rw [ht]
      show s.trace ++ _ ++ evs ++ _ = _
      rfl
    · show ControlPoint.mk _ u.pc.frames = ControlPoint.mk _ s.pc.frames
      rw [hframes]
    · show (u.scl.afterRelease (u.answer 1)).claimed = _
      cases u.answer 1
      · exact hclaimed.1
      · rfl
    · show (u.sda.afterRelease (u.answer 0)).claimed = _
      cases u.answer 0
      · exact hclaimed.2
      · rfl
  · unfold finish
    rw [hr]
    rfl
  · unfold finish
    rw [hr]
    rfl
  · unfold finish
    rw [hr]
    rfl

/-- `RUN` in which j attempts fail at their first byte, the next is acknowledged, and playback is acknowledged too. -/
theorem run_tries (index : Byte) (s : State) (j : Nat) (hj : j ≤ 14) (hp : s.PinsFree) (hc : s.cfg.admissible = true)
    (h : s.OkFor (2 + 35 * j + 1183 + 91 * (playWrites s.cfg index).length)) (hn : ∀ k, k < j → s.sample k = .one)
    (ha : ∀ k, k < 39 + 3 * (playWrites s.cfg index).length → s.sample (j + k) = .zero) :
    ∃ t, finish .status (run index) s = t ∧
      s.RanTo t (playError index) (s.answer (2 + 35 * j + 1183 + 91 * (playWrites s.cfg index).length))
        (s.answer (2 + 35 * j + 1183 + 91 * (playWrites s.cfg index).length + 1))
        (failedAttempts s.cfg Config.halfPeriod j
          ++ wavesOf Config.halfPeriod (initWrites s.cfg ++ playWrites s.cfg index)) ∧
      t.work.attempt = BitVec.ofNat 4 (j + 1) ∧ t.work.tape = index ∧
      (t.ghost.engineCmd = if index.toNat < 2 then .run else s.ghost.engineCmd) ∧
      (t.ghost.pageCmd = if index.toNat < 2 then .program else s.ghost.pageCmd) ∧
      (∃ r, t.remote = recordWrites s.cfg r (initWrites s.cfg ++ playWrites s.cfg index)) := by
  have e2 : (s.runAcquired index).env.answers = s.env.answers.advanceBy 2 := rfl
  have e0 : (s.runAcquired index).env.samples = s.env.samples := by
    show s.env.samples.advanceBy 0 = _
    simp
  have es : ∀ k, (s.runAcquired index).sample k = s.sample k := fun k => by unfold State.sample; rw [e0]
  have eT : (s.runAcquired index).session.halfPeriod = Config.halfPeriod := rfl
  have ec : (s.runAcquired index).cfg = s.cfg := rfl
  obtain ⟨u, h1, h2, h3, h4, h5, h6, r, h7⟩ := bringUpLoop_tries j 14 hj (s.runAcquired index) (admissible_initSeq hc)
    (okFor_after e2 h (by omega)) (fun k hk => (es k).trans (hn k hk))
    (fun k hk => (es _).trans (ha k (by omega)))
  rw [eT, ec] at h2
  rw [ec] at h7
  have hbring : Op.apply bringUp (s.runStarted index).acquired = (.ok (), u) := (bringUp_apply _).trans h1
  have htape : u.work.tape = index := h6.tape
  have hplay := bringUpAndPlay_plays _ u hbring
  rw [htape] at hplay
  have e3 : u.env.answers = s.env.answers.advanceBy (2 + (35 * j + 1183)) := by
    rw [h3, e2, Script.advanceBy_advanceBy]
  have host := hostPart_eq h6.host
  have hatt : u.work.attempt = BitVec.ofNat 4 (j + 1) := by
    rw [h5]
    show 0#4 + _ = _
    rw [BitVec.zero_add]
  by_cases hi : index.toNat < 2
  · have hlen : (playWrites s.cfg index).length = 70 := by
      rw [playWrites, if_pos hi, loadWrites_length, admissible_muxTable hc, (admissible_tables hc).2.2]
    have hpw : playWrites s.cfg index = loadWrites s.cfg (s.cfg.muxTable index) s.cfg.program := if_pos hi
    have hpe : playError index = none := if_pos hi
    rw [hlen] at h ha ⊢
    rw [hpe, if_pos hi, if_pos hi]
    have hx := playTape_ok index (u.setTop .play) hi
      (by show (u.cfg.muxTable index).length = 32; rw [host.1]; exact admissible_muxTable hc index)
      (by show u.cfg.program.length = 32; rw [host.1]; exact (admissible_tables hc).2.2)
      (okFor_after (s := s) (a := 2 + (35 * j + 1183)) e3 h (by omega))
      (fun k hk => by
        have hs : (u.setTop .play).sample k = s.sample (j + (39 + k)) := by
          have := sample_after (s := s.runAcquired index) (t := u) h4 k
          rw [es] at this
          rw [← Nat.add_assoc]
          exact this
        rw [hs]
        exact ha _ (by omega))
    have hcu : (u.setTop .play).cfg = s.cfg := host.1
    rw [hcu, ← hpw] at hx
    have hb := hplay.1 _ hx
    have hl := run_ranTo (evs := failedAttempts s.cfg Config.halfPeriod j
          ++ wavesOf Config.halfPeriod (initWrites s.cfg ++ playWrites s.cfg index)) (primary := none)
        (okFor_same rfl h (by omega)) hp hb ?_ ?_ ?_ ?_ ?_ ?_ ?_
    · obtain ⟨t, g1, g2, g3, g4, g5⟩ := hl
      have hans : ∀ k, State.answer (((((u.setTop .play).wroteAll (playWrites s.cfg index)).setBulkI 32#8).commanded
          .run .program).setTape index) k = s.answer (2 + 35 * j + 1183 + 91 * 70 + k) := fun k => by
        have e5 : ((((((u.setTop .play).wroteAll (playWrites s.cfg index)).setBulkI 32#8).commanded
          .run .program).setTape index)).env.answers = s.env.answers.advanceBy (2 + 35 * j + 1183 + 91 * 70) := by
          show ((u.setTop .play).wroteAll (playWrites s.cfg index)).env.answers = _
          rw [wroteAll_answers, hlen]
          show (u.env.answers).advanceBy _ = _
          rw [e3, Script.advanceBy_advanceBy]
          exact congrArg (fun k => s.env.answers.advanceBy k) (by omega)
        exact answer_after e5 k
      rw [hans, hans] at g2
      refine ⟨t, g1, g2, ?_, ?_, ?_, ?_, ⟨r, ?_⟩⟩
      · rw [g3]
        show ((u.setTop .play).wroteAll (playWrites s.cfg index)).work.attempt = _
        rw [wroteAll_attempt]
        exact hatt
      · rw [g3]
        rfl
      · rw [g4]
        rfl
      · rw [g4]
        rfl
      · rw [g5]
        show ((u.setTop .play).wroteAll (playWrites s.cfg index)).remote = _
        rw [wroteAll_remote]
        show recordWrites u.cfg u.remote _ = _
        rw [host.1, h7, ec]
        simp [recordWrites]
    · show ((u.setTop .play).wroteAll (playWrites s.cfg index)).trace = _
      rw [wroteAll_trace]
      show u.trace ++ wavesOf u.session.halfPeriod _ = _
      rw [h2, host.2.1, eT]
      simp [wavesOf, List.append_assoc]
      rfl
    · show ((u.setTop .play).wroteAll (playWrites s.cfg index)).status.primaryErr = _
      rw [wroteAll_status]
      show u.status.primaryErr = none
      rw [host.2.2.1]
      rfl
    · show ((u.setTop .play).wroteAll (playWrites s.cfg index)).pc.frames = _
      rw [wroteAll_pc]
      exact h6.frames
    · show ((u.setTop .play).wroteAll (playWrites s.cfg index)).cfg = _
      rw [wroteAll_cfg]
      exact host.1
    · show ((u.setTop .play).wroteAll (playWrites s.cfg index)).buf0 = _ ∧
        ((u.setTop .play).wroteAll (playWrites s.cfg index)).buf1 = _
      rw [wroteAll_buf0, wroteAll_buf1]
      exact ⟨host.2.2.2.1, host.2.2.2.2.1⟩
    · show ((u.setTop .play).wroteAll (playWrites s.cfg index)).inputs = _
      rw [wroteAll_inputs]
      exact host.2.2.2.2.2.2.1
    · show ((u.setTop .play).wroteAll (playWrites s.cfg index)).scl.claimed = _ ∧
        ((u.setTop .play).wroteAll (playWrites s.cfg index)).sda.claimed = _
      rw [wroteAll_sclClaimed, wroteAll_sdaClaimed]
      exact ⟨host.2.2.2.2.2.2.2.1, host.2.2.2.2.2.2.2.2⟩
  · have hpw : playWrites s.cfg index = [] := if_neg hi
    have hpe : playError index = some (.validation .index) := if_neg hi
    rw [hpw] at h ha ⊢
    rw [hpe, if_neg hi, if_neg hi]
    have hb := hplay.2 _ _ (playTape_outOfRange index (u.setTop .play) (by omega))
    have hl := run_ranTo (evs := failedAttempts s.cfg Config.halfPeriod j
          ++ wavesOf Config.halfPeriod (initWrites s.cfg ++ [])) (primary := some (.validation .index))
        (okFor_same rfl h (by omega)) hp hb ?_ rfl h6.frames host.1 ⟨host.2.2.2.1, host.2.2.2.2.1⟩
        host.2.2.2.2.2.2.1 ⟨host.2.2.2.2.2.2.2.1, host.2.2.2.2.2.2.2.2⟩
    · obtain ⟨t, g1, g2, g3, g4, g5⟩ := hl
      have hans : ∀ k, u.answer k = s.answer (2 + 35 * j + 1183 + k) := fun k => by
        rw [answer_after e3 k]
        exact congrArg (fun k => s.answer k) (by omega)
      change s.RanTo t (some (.validation .index)) (u.answer 0) (u.answer 1) _ at g2
      rw [hans, hans] at g2
      refine ⟨t, g1, g2, ?_, ?_, ?_, ?_, ⟨r, ?_⟩⟩
      · rw [g3]
        exact hatt
      · rw [g3]
        rfl
      · rw [g4]
        exact h6.engine
      · rw [g4]
        exact h6.page
      · rw [g5, List.append_nil]
        exact h7
    · show u.trace = _
      rw [h2]
      simp [List.append_assoc]
      rfl

/-- `RUN` in which all 15 attempts fail at their first byte: playback is skipped (R124, R125). -/
theorem run_exhausted (index : Byte) (s : State) (hp : s.PinsFree) (hc : s.cfg.admissible = true)
    (h : s.OkFor 527) (hn : ∀ k, k < 15 → s.sample k = .one) :
    ∃ t, finish .status (run index) s = t ∧
      s.RanTo t (some (.deviceInit (.protocol .address))) (s.answer 527) (s.answer 528)
        (failedAttempts s.cfg Config.halfPeriod 14 ++ failedWave Config.halfPeriod [] s.cfg.devAddr .one) ∧
      t.work.attempt = 15#4 ∧ t.ghost.engineCmd = s.ghost.engineCmd ∧ t.ghost.pageCmd = s.ghost.pageCmd := by
  have e2 : (s.runAcquired index).env.answers = s.env.answers.advanceBy 2 := rfl
  have e0 : (s.runAcquired index).env.samples = s.env.samples := by
    show s.env.samples.advanceBy 0 = _
    simp
  have es : ∀ k, (s.runAcquired index).sample k = s.sample k := fun k => by unfold State.sample; rw [e0]
  have eT : (s.runAcquired index).session.halfPeriod = Config.halfPeriod := rfl
  have ec : (s.runAcquired index).cfg = s.cfg := rfl
  obtain ⟨u, h1, h2, h3, h4, h5⟩ := bringUpLoop_fails 14 (s.runAcquired index) (admissible_initSeq hc)
    (okFor_after e2 h (by omega)) (fun k hk => (es k).trans (hn k hk))
  rw [eT, ec] at h2
  have hbring : Op.apply bringUp (s.runStarted index).acquired = _ := (bringUp_apply _).trans h1
  have hb := bringUpAndPlay_fails _ _ _ hbring
  have host := hostPart_eq h5.host
  have e3 : u.env.answers = s.env.answers.advanceBy 527 := by
    rw [h3, e2, Script.advanceBy_advanceBy]
  have hl := run_ranTo (evs := failedAttempts s.cfg Config.halfPeriod 14
        ++ failedWave Config.halfPeriod [] s.cfg.devAddr .one) (primary := some (.deviceInit (.protocol .address)))
      (okFor_same rfl h (by omega)) hp hb ?_ rfl h5.frames host.1 ⟨host.2.2.2.1, host.2.2.2.2.1⟩
      host.2.2.2.2.2.2.1 ⟨host.2.2.2.2.2.2.2.1, host.2.2.2.2.2.2.2.2⟩
  · obtain ⟨t, g1, g2, g3, g4, _⟩ := hl
    change s.RanTo t (some (.deviceInit (.protocol .address))) (u.answer 0) (u.answer 1) _ at g2
    rw [answer_after e3, answer_after e3] at g2
    refine ⟨t, g1, g2, ?_, ?_, ?_⟩
    · rw [g3]
      show u.work.attempt = _
      rw [h4]
      rfl
    · rw [g4]
      exact h5.engine
    · rw [g4]
      exact h5.page
  · show u.trace = _
    rw [h2]
    simp [List.append_assoc]
    rfl

/-! ## RUN, whatever the environment answers -/

/-- Bring-up and playback hand every error over to `PRIMARY_ERR` (R125). -/
theorem bringUpAndPlay_total (s : State) : ∃ t, Op.apply bringUpAndPlay s = (.ok (), t) := by
  rcases hb : Op.apply bringUp s with ⟨r, t⟩
  cases r with
  | error e => exact ⟨_, bringUpAndPlay_fails s t e hb⟩
  | ok a =>
    rcases hp : Op.apply (playTape t.work.tape) (t.setTop .play) with ⟨q, u⟩
    cases q with
    | ok b => exact ⟨u, (bringUpAndPlay_plays s t hb).1 u hp⟩
    | error e => exact ⟨_, (bringUpAndPlay_plays s t hb).2 e u hp⟩

/-- `RUN` ends in one of two ways: `Acquire` failed, or the cleanup ran. -/
theorem run_cases (index : Byte) (s : State) :
    (∃ e t, Op.apply acquire (s.runStarted index) = (.error e, t) ∧
      Op.apply (run index) s =
        (.ok (.error e), (t.setStatus { t.status with exitStatus := .error e }).setTop (.done (.error e)))) ∨
    (∃ a u, Op.apply acquire (s.runStarted index) = (.ok (), a) ∧ Op.apply bringUpAndPlay a = (.ok (), u) ∧
      Op.apply (run index) s =
        (.ok (combinedStatus u.status.primaryErr (releaseFailure (u.answer 0) (u.answer 1))), u.ended)) := by
  rcases ha : Op.apply acquire (s.runStarted index) with ⟨r, a⟩
  cases r with
  | error e => exact .inl ⟨e, a, rfl, run_acquireFails index s a e ha⟩
  | ok b =>
    obtain ⟨u, hu⟩ := bringUpAndPlay_total a
    exact .inr ⟨a, u, rfl, hu, (run_acquired index s a ha).trans ((apply_bind_ok hu).trans (cleanUpAndExit_apply u))⟩

/-- `RUNERR` is `RUN` and then the terminal wait (R127). -/
theorem runErr_apply (index : Byte) (s t : State) (st : Status) (h : Op.apply (run index) s = (.ok st, t)) :
    Op.apply (runErr index) s = (.ok (.terminalIdle st), t.setTop (.terminalWait st)) := by
  unfold runErr
  rw [apply_bind_ok h]
  rfl

theorem run_total (index : Byte) (s : State) : ∃ st t, Op.apply (run index) s = (.ok st, t) := by
  rcases run_cases index s with ⟨e, t, _, h⟩ | ⟨a, u, _, _, h⟩
  · exact ⟨_, _, h⟩
  · exact ⟨_, _, h⟩

/-- `Acquire` grants both pins or leaves neither held (R14, R122). -/
theorem acquire_cases (s : State) :
    (s.requestAnswer .scl = false) ∨ (s.requestAnswer .scl = true ∧ (s.answer 1 && !s.sda.claimed) = false) ∨
    (s.OkFor 2 ∧ s.PinsFree) := by
  rcases h0 : s.requestAnswer .scl with _ | _
  · exact .inl rfl
  · rcases h1 : (s.answer 1 && !s.sda.claimed) with _ | _
    · exact .inr (.inl ⟨rfl, rfl⟩)
    · refine .inr (.inr ?_)
      simp only [State.requestAnswer, State.pin, Bool.and_eq_true, Bool.not_eq_true'] at h0 h1
      refine ⟨fun k hk => ?_, h0.2, h1.2⟩
      have : k = 0 ∨ k = 1 := by omega
      rcases this with rfl | rfl
      · exact h0.1
      · exact h1.1

end Sys2Proof.Machine
end

