-- ==== Sys2Proof/Laws/Issue.lean ====
section
/-! SUPPORT. What issuing an operation can do (R67): it runs from a state that is ready for it, and only from such a
state; one equation per operation. -/

namespace Sys2Proof.Machine

theorem withSession_ready {s : State} (h : s.SessionReady) (k : State → State) : withSession s k = .next (k s) := by
  obtain ⟨h1, h2, h3⟩ := h
  simp [withSession, h1, h2, h3]

theorem withSession_next {s t : State} {k : State → State} (h : withSession s k = .next t) :
    s.SessionReady ∧ t = k s := by
  unfold withSession at h
  split at h
  next ht =>
    split at h
    next hv =>
      split at h
      next hh => exact ⟨⟨ht, hv, hh⟩, by cases h; rfl⟩
      next => cases h
    next => cases h
  all_goals cases h

theorem withoutSession_ready {s : State} (h : s.RunReady) (k : State → State) :
    withoutSession s k = .next (k s) := by
  obtain ⟨h1, h2⟩ := h
  simp [withoutSession, h1, h2]

theorem withoutSession_next {s t : State} {k : State → State} (h : withoutSession s k = .next t) :
    s.RunReady ∧ t = k s := by
  unfold withoutSession at h
  split at h
  next ht =>
    split at h
    next => cases h
    next hv => exact ⟨⟨ht, by simpa using hv⟩, by cases h; rfl⟩
  all_goals cases h

/-- The state an operation of the session leaves, issued from a ready state. -/
def sessionResult (i : Instr) (s : State) : State :=
  match i with
  | .start => finish (fun _ => .returned) start s
  | .stop => finish (fun _ => .returned) stop s
  | .writebit v => finish (fun _ => .returned) (writeBit v) s
  | .readbit => finish .bit readBit s
  | .writebyte b => finish .byteAck (writeByte b) s
  | .setreg dev sub val => finish returnsSuccess (setReg dev sub val) s
  | .writebulk dev st n => finish returnsSuccess (writeBulk dev st (s.operand0 n)) s
  | .initialise => finish returnsSuccess initialise s
  | .loadprogram m p => finish returnsSuccess (loadProgram (s.operand0 m) (s.operand1 p)) s
  | .playtape index => finish returnsSuccess (playTape index) s
  | .run index => finish .status (run index) s
  | .runerr index => finish .status (runErr index) s

theorem withSession_const (s : State) (k : State → State) : withSession s k = withSession s fun _ => k s := by
  simp only [withSession]

theorem withoutSession_const (s : State) (k : State → State) : withoutSession s k = withoutSession s fun _ => k s := by
  simp only [withoutSession]

/-- Operations 0x0 to 0x9 take the session; `RUN` and `RUNERR` do not (R67). -/
theorem exec_cases (i : Instr) (s : State) :
    (i.opcode.toNat < 0xA ∧ exec i s = withSession s fun _ => sessionResult i s) ∨
    (0xA ≤ i.opcode.toNat ∧ exec i s = withoutSession s fun _ => sessionResult i s) := by
  cases i
  case run index => exact .inr ⟨Nat.le_refl _, withoutSession_const _ _⟩
  case runerr index => exact .inr ⟨Nat.le_succ _, withoutSession_const _ _⟩
  all_goals exact .inl ⟨by simp [Instr.opcode], withSession_const _ _⟩

theorem exec_session {i : Instr} {s : State} (hi : i.opcode.toNat < 0xA) (h : s.SessionReady) :
    exec i s = .next (sessionResult i s) := by
  obtain ⟨_, e⟩ | ⟨h', _⟩ := exec_cases i s
  · rw [e, withSession_ready h]
  · omega

theorem exec_run {i : Instr} {s : State} (hi : 0xA ≤ i.opcode.toNat) (h : s.RunReady) :
    exec i s = .next (sessionResult i s) := by
  obtain ⟨h', _⟩ | ⟨_, e⟩ := exec_cases i s
  · omega
  · rw [e, withoutSession_ready h]

/-- A next state is the operation's, from a ready state. -/
theorem exec_next {i : Instr} {s t : State} (h : exec i s = .next t) :
    t = sessionResult i s ∧ (i.opcode.toNat < 0xA → s.SessionReady) ∧ (0xA ≤ i.opcode.toNat → s.RunReady) := by
  obtain ⟨h', e⟩ | ⟨h', e⟩ := exec_cases i s
  · rw [e] at h
    obtain ⟨hr, rfl⟩ := withSession_next h
    exact ⟨rfl, fun _ => hr, fun h => by omega⟩
  · rw [e] at h
    obtain ⟨hr, rfl⟩ := withoutSession_next h
    exact ⟨rfl, fun h => by omega, fun _ => hr⟩

theorem finish_ok {α : Type} {ret : α → Result} {x : Op α} {s t : State} {a : α} (h : Op.apply x s = (.ok a, t)) :
    finish ret x s = t.setResult (ret a) := by
  simp [finish, h, resultOf]

theorem finish_error {α : Type} {ret : α → Result} {x : Op α} {s t : State} {e : Error}
    (h : Op.apply x s = (.error e, t)) : finish ret x s = t.setResult (.status (.error e)) := by
  simp [finish, h, resultOf]

end Sys2Proof.Machine
end

