-- ==== Sys2Proof/Laws/Errors.lean ====
section
/-! SUPPORT. Which errors each operation can raise (R137 to R140). -/

namespace Sys2Proof.Machine

variable {α β : Type}

/-- Every error x raises, in any environment, is one of P. -/
def Op.Raises (P : Error → Bool) (x : Op α) : Prop := ∀ s e, (Op.apply x s).1 = .error e → P e = true

variable {P Q : Error → Bool}

theorem raises_pure (a : α) : Op.Raises P (pure a : Op α) := fun _ _ h => by cases h
theorem raises_update (f : State → State) : Op.Raises P (update f) := fun _ _ h => by cases h
theorem raises_readState (f : State → α) : Op.Raises P (readState f) := fun _ _ h => by cases h
theorem raises_attempt (x : Op α) : Op.Raises P (attempt x) := fun _ _ h => by cases h
theorem raises_raise {e : Error} (h : P e = true) : Op.Raises P (raise e : Op α) := fun _ e' h' => by
  cases h'; exact h

theorem raises_mono {x : Op α} (h : Op.Raises P x) (hpq : ∀ e, P e = true → Q e = true) : Op.Raises Q x :=
  fun s e he => hpq e (h s e he)

theorem raises_bind {x : Op α} {f : α → Op β} (hx : Op.Raises P x) (hf : ∀ a, Op.Raises P (f a)) :
    Op.Raises P (x >>= f) := by
  intro s e h
  rcases apply_bind_cases x f s with ⟨e', he, h'⟩ | ⟨a, _, h'⟩
  · rw [h'] at h
    cases h
    exact hx s e he
  · rw [h'] at h
    exact hf a _ e h

/-- An error handed to an error arm is one of those the piece raises (R145). -/
theorem raises_arm {x : Op α} {f : Except Error α → Op β} (hx : Op.Raises P x) (hok : ∀ a, Op.Raises Q (f (.ok a)))
    (herr : ∀ e, P e = true → Op.Raises Q (f (.error e))) : Op.Raises Q (attempt x >>= f) := by
  intro s e h
  rw [apply_attempt_bind] at h
  rcases hr : (Op.apply x s).1 with e' | a
  · rw [hr] at h
    exact herr e' (hx s e' hr) _ e h
  · rw [hr] at h
    exact hok a _ e h

theorem raises_call {x : Op α} (op : OpName) (h : Op.Raises P x) : Op.Raises P (call op x) := by
  intro s e he
  rw [apply_call] at he
  exact h _ e he

theorem raises_line (n : Nat) : Op.Raises P (line n) := raises_update _
theorem raises_delayHalves (k : Nat) : Op.Raises P (delayHalves k) := raises_update _
theorem raises_delay (n : Nat) : Op.Raises P (delay n) := raises_update _
theorem raises_goTop (t : Top) : Op.Raises P (goTop t) := raises_update _
theorem raises_log (m : LogMessage) : Op.Raises P (logMessage m) := raises_update _

theorem raises_drive (h : ∀ p, P (.resource .setOutput p) = true) (p : Pin) (b : Bool) : Op.Raises P (drive p b) := by
  intro s e he
  rw [apply_drive] at he
  split at he
  · cases he
  · cases he
    exact h p

theorem raises_sampleSda (h : P (.resource .setInput .sda) = true) : Op.Raises P sampleSda := by
  intro s e he
  rw [apply_sampleSda] at he
  split at he
  · cases he
  · cases he
    exact h

theorem drive_isDrive (p : Pin) : driveError (.resource .setOutput p) = true := rfl

theorem raises_start : Op.Raises driveError start := by
  have d := raises_drive drive_isDrive
  exact raises_call _ (raises_bind (raises_line _) fun _ => raises_bind (d _ _) fun _ => raises_bind (raises_line _) fun _ =>
    raises_bind (raises_delayHalves _) fun _ => raises_bind (raises_line _) fun _ => raises_bind (d _ _) fun _ =>
    raises_bind (raises_line _) fun _ => raises_bind (raises_delayHalves _) fun _ => raises_bind (raises_line _) fun _ =>
    raises_bind (d _ _) fun _ => raises_bind (raises_line _) fun _ => raises_bind (raises_delayHalves _) fun _ =>
    raises_update _)

theorem raises_stop : Op.Raises driveError stop := by
  have d := raises_drive drive_isDrive
  exact raises_call _ (raises_bind (raises_line _) fun _ => raises_bind (d _ _) fun _ => raises_bind (raises_line _) fun _ =>
    raises_bind (raises_delayHalves _) fun _ => raises_bind (raises_line _) fun _ => raises_bind (d _ _) fun _ =>
    raises_bind (raises_line _) fun _ => raises_bind (raises_delayHalves _) fun _ => raises_bind (raises_line _) fun _ =>
    raises_bind (d _ _) fun _ => raises_bind (raises_line _) fun _ => raises_bind (raises_delayHalves _) fun _ =>
    raises_bind (raises_line _) fun _ => raises_bind (d _ _) fun _ => raises_bind (raises_line _) fun _ =>
    raises_bind (raises_delayHalves _) fun _ => raises_update _)

theorem raises_writeBit (v : Bool) : Op.Raises driveError (writeBit v) := by
  have d := raises_drive drive_isDrive
  exact raises_call _ (raises_bind (raises_line _) fun _ => raises_bind (d _ _) fun _ => raises_bind (raises_line _) fun _ =>
    raises_bind (d _ _) fun _ => raises_bind (raises_line _) fun _ => raises_bind (d _ _) fun _ =>
    raises_bind (raises_line _) fun _ => raises_delayHalves _)

theorem drive_isBit (e : Error) (h : driveError e = true) : bitError e = true := by
  rcases e with ⟨c, p⟩ | s | k | c
  · cases c <;> first | rfl | cases h
  · cases h
  · cases h
  · cases h

theorem bit_isTransaction (e : Error) (h : bitError e = true) : transactionError e = true := by
  rcases e with ⟨c, p⟩ | s | k | c
  · cases c
    · cases h
    · rfl
    · cases p
      · cases h
      · rfl
    · cases h
  · rfl
  · cases h
  · cases h

theorem transaction_isRun (e : Error) (h : transactionError e = true) : runError e = true := by
  rcases e with ⟨c, p⟩ | s | k | c
  · cases c <;> first | rfl | exact h
  · rfl
  · cases h
  · cases h

theorem raises_readBit : Op.Raises bitError readBit := by
  have d := raises_drive (P := bitError) fun _ => rfl
  refine raises_call _ (raises_bind (raises_line _) fun _ => raises_bind (d _ _) fun _ => raises_bind (raises_line _) fun _ =>
    raises_bind (raises_delayHalves _) fun _ => raises_bind (raises_line _) fun _ =>
    raises_bind (raises_sampleSda rfl) fun v => raises_bind (raises_update _) fun _ =>
    raises_bind (raises_line _) fun _ => raises_bind (raises_delayHalves _) fun _ => raises_bind (raises_line _) fun _ =>
    raises_bind (d _ _) fun _ => raises_bind (raises_line _) fun _ => raises_bind (raises_delayHalves _) fun _ =>
    raises_bind (raises_line _) fun _ => raises_bind (raises_readState _) fun v => ?_)
  cases v
  · exact raises_pure _
  · exact raises_pure _
  · exact raises_raise rfl

theorem raises_sendBits (n : Nat) : Op.Raises bitError (sendBits n) := by
  induction n with
  | zero => exact raises_line _
  | succ n ih =>
    exact raises_bind (raises_line _) fun _ => raises_bind (raises_readState _) fun v => raises_bind (raises_line _) fun _ =>
      raises_bind (raises_mono (raises_writeBit v) drive_isBit) fun _ => raises_bind (raises_line _) fun _ =>
      raises_bind (raises_update _) fun _ => ih

theorem raises_writeByte (b : Byte) : Op.Raises bitError (writeByte b) := by
  exact raises_call _ (raises_bind (raises_line _) fun _ => raises_bind (raises_update _) fun _ =>
    raises_bind (raises_sendBits 8) fun _ => raises_bind (raises_line _) fun _ =>
    raises_bind (raises_drive (fun _ => rfl) _ _) fun _ => raises_bind (raises_line _) fun _ =>
    raises_bind raises_readBit fun bit => raises_bind (raises_line _) fun _ => raises_bind (raises_update _) fun _ =>
    raises_bind (raises_line _) fun _ => raises_pure _)

theorem raises_orStop {x : Op α} (h : Op.Raises P x) : Op.Raises P (orStop x) :=
  raises_arm h (fun a => raises_pure a) fun _ he => raises_bind (raises_attempt _) fun _ => raises_raise he

theorem raises_stopOnNack (stage : Stage) (a : Ack) : Op.Raises transactionError (stopOnNack stage a) := by
  cases a
  · exact raises_pure _
  · exact raises_bind (raises_attempt _) fun _ => raises_raise rfl

theorem raises_transaction (dev sub val : Byte) : Op.Raises transactionError (transaction dev sub val) := by
  have byte : ∀ b, Op.Raises transactionError (orStop (writeByte b)) := fun b =>
    raises_orStop (raises_mono (raises_writeByte b) bit_isTransaction)
  have drives : ∀ e, driveError e = true → transactionError e = true := fun e h =>
    bit_isTransaction e (drive_isBit e h)
  exact raises_bind (raises_line _) fun _ => raises_bind (raises_update _) fun _ => raises_bind (raises_line _) fun _ =>
    raises_bind (raises_orStop (raises_mono raises_start drives)) fun _ =>
    raises_bind (raises_line _) fun _ => raises_bind (raises_readState _) fun b => raises_bind (byte b) fun a =>
    raises_bind (raises_line _) fun _ => raises_bind (raises_stopOnNack _ a) fun _ =>
    raises_bind (raises_line _) fun _ => raises_bind (raises_readState _) fun b => raises_bind (byte b) fun a =>
    raises_bind (raises_line _) fun _ => raises_bind (raises_stopOnNack _ a) fun _ =>
    raises_bind (raises_line _) fun _ => raises_bind (raises_readState _) fun b => raises_bind (byte b) fun a =>
    raises_bind (raises_line _) fun _ => raises_bind (raises_stopOnNack _ a) fun _ =>
    raises_bind (raises_line _) fun _ => raises_bind (raises_mono raises_stop drives) fun _ => raises_line _

theorem raises_setReg (dev sub val : Byte) : Op.Raises transactionError (setReg dev sub val) :=
  raises_call _ (raises_arm (raises_transaction dev sub val) (fun _ => raises_update _) fun _ he =>
    raises_bind (raises_update _) fun _ => raises_raise he)

theorem raises_bulkLoop (dev start : Byte) (bytes : List Byte) : Op.Raises transactionError (bulkLoop dev start bytes) := by
  induction bytes with
  | nil => exact raises_line _
  | cons b rest ih =>
    exact raises_bind (raises_line _) fun _ => raises_bind (raises_readState _) fun i => raises_bind (raises_line _) fun _ =>
      raises_arm (raises_setReg dev _ b)
        (fun _ => raises_bind (raises_line _) fun _ => raises_bind (raises_update _) fun _ => ih)
        fun _ he => raises_bind (raises_line _) fun _ => raises_bind (raises_log _) fun _ =>
          raises_bind (raises_line _) fun _ => raises_raise he

theorem raises_forgetting {dev : State → Byte} {subs : State → List Byte} {x : Op Unit} (h : Op.Raises P x) :
    Op.Raises P (forgettingOnError dev subs x) :=
  raises_arm h (fun _ => raises_pure _) fun _ he => raises_bind (raises_update _) fun _ => raises_raise he

theorem raises_writeBulk (dev start : Byte) (bytes : List Byte) :
    Op.Raises transactionError (writeBulk dev start bytes) :=
  raises_call _ (raises_forgetting (raises_bind (raises_line _) fun _ => raises_bind (raises_update _) fun _ =>
    raises_bind (raises_bulkLoop dev start bytes) fun _ => raises_line _))

theorem raises_memWrite (sub val : Config → Byte) : Op.Raises transactionError (memWrite sub val) :=
  raises_bind (raises_readState _) fun _ => raises_setReg _ _ _

theorem raises_initLoop (entries : List (Byte × Byte)) : Op.Raises transactionError (initLoop entries) := by
  induction entries with
  | nil => exact raises_line _
  | cons e rest ih =>
    exact raises_bind (raises_line _) fun _ => raises_bind (raises_line _) fun _ => raises_bind (raises_line _) fun _ =>
      raises_bind (raises_memWrite _ _) fun _ => raises_bind (raises_line _) fun _ =>
      raises_bind (raises_update _) fun _ => ih

theorem raises_initialise : Op.Raises transactionError initialise :=
  raises_call _ (raises_forgetting (raises_bind (raises_line _) fun _ => raises_bind (raises_update _) fun _ =>
    raises_bind (raises_readState _) fun entries => raises_bind (raises_initLoop entries) fun _ => raises_line _))

theorem raises_uploadSequence (mux program : List Byte) :
    Op.Raises transactionError (uploadSequence mux program) := by
  have upl : ∀ bytes, Op.Raises transactionError (upload bytes) := fun bytes =>
    raises_bind (raises_readState _) fun _ => raises_writeBulk _ _ bytes
  exact raises_bind (raises_line _) fun _ =>
    raises_bind (raises_bind (raises_memWrite _ _) fun _ => raises_update _) fun _ => raises_bind (raises_line _) fun _ =>
    raises_bind (raises_bind (raises_memWrite _ _) fun _ => raises_update _) fun _ => raises_bind (raises_line _) fun _ =>
    raises_bind (upl mux) fun _ => raises_bind (raises_line _) fun _ =>
    raises_bind (raises_bind (raises_memWrite _ _) fun _ => raises_update _) fun _ => raises_bind (raises_line _) fun _ =>
    raises_bind (upl program) fun _ => raises_bind (raises_line _) fun _ =>
    raises_bind (raises_bind (raises_memWrite _ _) fun _ => raises_update _) fun _ => raises_bind (raises_line _) fun _ =>
    raises_bind (raises_memWrite _ _) fun _ => raises_bind (raises_line _) fun _ =>
    raises_bind (raises_memWrite _ _) fun _ => raises_update _

theorem raises_loadProgram (mux program : List Byte) :
    Op.Raises (fun e => transactionError e || e == .validation .size) (loadProgram mux program) := by
  refine raises_call _ (raises_bind (raises_line _) fun _ => ?_)
  split
  · exact raises_raise rfl
  · exact raises_mono (raises_uploadSequence mux program) fun e h => by simp [h]

/-- Buffers that fit raise no `ValidationError` (R139 (b)). -/
theorem raises_loadFitting {mux program : List Byte} (hm : mux.length ≤ 32) (hp : program.length ≤ 32) :
    Op.Raises transactionError (loadProgram mux program) := by
  refine raises_call _ (raises_bind (raises_line _) fun _ => ?_)
  rw [if_neg]
  · exact raises_uploadSequence mux program
  · show ¬(decide (32 < mux.length) || decide (32 < program.length)) = true
    rw [decide_eq_false (by omega), decide_eq_false (by omega)]
    decide

/-- The errors of `PLAYTAPE` in a state with admissible parameters (R112, R139 (a)). -/
theorem playTape_raises (index : Byte) (s : State) (hc : s.cfg.admissible = true) (e : Error)
    (he : (Op.apply (playTape index) s).1 = .error e) : (transactionError e || e == .validation .index) = true := by
  rw [playTape_body] at he
  generalize hu : (((s.pushFrame .playTape).goToStep 1).setTape index).goToStep 2 = u at he
  have hcu : u.cfg = s.cfg := by rw [← hu]; rfl
  by_cases h : tapeOutOfRange index
  · rw [if_pos h] at he
    cases he
    rfl
  · rw [if_neg h] at he
    have hl := admissible_tables hc
    have := raises_loadFitting (mux := u.cfg.muxTable index) (program := u.cfg.program)
      (by rw [hcu, admissible_muxTable hc]) (by rw [hcu, hl.2.2]) (u.goToStep 3) e he
    simp [this]

theorem raises_bringUpLoop (n : Nat) : Op.Raises runError (bringUpLoop n) := by
  have arm : ∀ (f : Except Error Unit → Op Unit), (∀ a, Op.Raises runError (f (.ok a))) →
      (∀ e, transactionError e = true → Op.Raises runError (f (.error e))) →
      Op.Raises runError (bringUpAttempt >>= f) := by
    intro f hok herr s e he
    rw [apply_bind, bringUpAttempt_apply] at he
    rcases hr : (Op.apply initialise s.tried).1 with e' | a
    · change (Op.apply (f (Op.apply initialise s.tried).1) _).1 = _ at he
      rw [hr] at he
      exact herr e' (raises_initialise _ _ hr) _ e he
    · change (Op.apply (f (Op.apply initialise s.tried).1) _).1 = _ at he
      rw [hr] at he
      exact hok a _ e he
  induction n with
  | zero => exact arm _ (fun _ => raises_pure _) fun e he => raises_raise he
  | succ n ih =>
    exact arm _ (fun _ => raises_pure _) fun e he => raises_bind (raises_readState _) fun _ =>
      raises_bind (raises_goTop _) fun _ => raises_bind (raises_readState _) fun _ =>
      raises_bind (raises_delay _) fun _ => ih

theorem raises_bringUp : Op.Raises runError bringUp :=
  raises_bind (raises_update _) fun _ => raises_bringUpLoop _

theorem raises_acquire : Op.Raises runError acquire := by
  have req : ∀ p id l, Op.Raises runError (pinRequest p id l) := fun _ _ _ _ _ h => by cases h
  refine raises_bind (raises_readState _) fun c => raises_bind (req _ _ _) fun r => ?_
  cases r with
  | none => exact raises_raise rfl
  | some h =>
    refine raises_bind (raises_update _) fun _ => raises_bind (req _ _ _) fun r => ?_
    cases r with
    | none =>
      refine raises_bind (fun _ _ h => by cases h) fun ok => raises_bind (raises_update _) fun _ => ?_
      cases ok
      · exact raises_bind (raises_log _) fun _ => raises_raise rfl
      · exact raises_raise rfl
    | some h => exact raises_bind (raises_update _) fun _ => raises_update _

end Sys2Proof.Machine
end

