-- ==== Sys2Proof/Laws/Stores.lean ====
section
/-! SUPPORT. Where an operation stores (R36, R40, R51): what is known of the responder changes at the operation's targets
only, in every environment; and that every operation only appends events and takes answers. -/

namespace Sys2Proof.Machine

variable {α β : Type}

/-! ## What is known of the responder, outside a list of registers -/

theorem sameOutside_refl (c : Config) (L : List (Byte × Byte)) (r : Remote) : r.SameOutside c L r :=
  ⟨fun _ _ => rfl, fun _ _ => rfl, fun _ _ => rfl⟩

theorem sameOutside_trans {c : Config} {L : List (Byte × Byte)} {r r' r'' : Remote} (h1 : r.SameOutside c L r')
    (h2 : r'.SameOutside c L r'') : r.SameOutside c L r'' :=
  ⟨fun a h => (h2.regs a h).trans (h1.regs a h), fun o h => (h2.muxPage o h).trans (h1.muxPage o h),
    fun o h => (h2.progPage o h).trans (h1.progPage o h)⟩

theorem record_sameOutside {c : Config} {L : List (Byte × Byte)} {dev sub : Byte} (h : (dev, sub) ∈ L) (r : Remote)
    (v : Byte) : r.SameOutside c L (r.record c dev sub v) := by
  constructor
  · intro a ha
    rw [Remote.record_regs, Memory.read_write_other _ _ _ _ (ha _ h)]
  all_goals
    intro off ho
    have hne := ho _ h
    unfold Remote.record
    split
    next o e =>
      have ho : off ≠ o := by
        rintro rfl
        exact hne e
      unfold writePage
      split <;> simp [Memory.read_write_other _ _ _ _ ho, Memory.read_forget_other _ _ _ ho]
    next => rfl

theorem forget_sameOutside {c : Config} {L : List (Byte × Byte)} {dev sub : Byte} (h : (dev, sub) ∈ L) (r : Remote) :
    r.SameOutside c L (r.forget c dev sub) := by
  constructor
  · intro a ha
    rw [Remote.forget_regs, Memory.read_forget_other _ _ _ (ha _ h)]
  all_goals
    intro off ho
    have hne := ho _ h
    unfold Remote.forget
    split
    next o e =>
      have ho : off ≠ o := by
        rintro rfl
        exact hne e
      unfold forgetPage
      split <;> simp [Memory.read_forget_other _ _ _ ho]
    next => rfl

theorem forgetAll_sameOutside {c : Config} {L : List (Byte × Byte)} {dev : Byte} (subs : List Byte)
    (h : ∀ sub ∈ subs, (dev, sub) ∈ L) (r : Remote) : r.SameOutside c L (r.forgetAll c dev subs) := by
  unfold Remote.forgetAll
  induction subs generalizing r with
  | nil => exact sameOutside_refl c L r
  | cons sub subs ih =>
    exact sameOutside_trans (forget_sameOutside (h sub (by simp)) r) (ih (fun u hu => h u (by simp [hu])) _)

/-- From s to t, the parameters are c throughout, and only what the targets hold changes. -/
def StoresIn (c : Config) (L : List (Byte × Byte)) (s t : State) : Prop :=
  s.cfg = c → t.cfg = c ∧ s.remote.SameOutside c L t.remote

theorem storesIn_path (c : Config) (L : List (Byte × Byte)) : IsPath (StoresIn c L) where
  refl := fun s h => ⟨h, sameOutside_refl c L _⟩
  trans := by
    intro a b d h1 h2 h
    obtain ⟨hb, r1⟩ := h1 h
    obtain ⟨hd, r2⟩ := h2 hb
    exact ⟨hd, sameOutside_trans r1 r2⟩

theorem storesIn_same {c : Config} {L : List (Byte × Byte)} {s t : State} (hc : t.cfg = s.cfg) (hr : t.remote = s.remote) :
    StoresIn c L s t := fun h => ⟨hc.trans h, hr ▸ sameOutside_refl c L _⟩

theorem storesIn_update {c : Config} {L : List (Byte × Byte)} {f : State → State} (hc : ∀ s, (f s).cfg = s.cfg)
    (hr : ∀ s, (f s).remote = s.remote) : Op.Respects (StoresIn c L) (update f) :=
  fun s => storesIn_same (hc s) (hr s)

theorem storesIn_call {c : Config} {L : List (Byte × Byte)} (op : OpName) {x : Op α}
    (h : Op.Respects (StoresIn c L) x) : Op.Respects (StoresIn c L) (call op x) := fun s => h (s.pushFrame op)

variable {c : Config} {L : List (Byte × Byte)}

theorem storesIn_set : SetClosed (StoresIn c L) where
  byte := {
    pin := {
      path := storesIn_path c L
      call := fun _ op _ h s => h (s.pushFrame op)
      line := fun _ _ => storesIn_same rfl rfl
      out := fun _ p _ => by cases p <;> exact storesIn_same rfl rfl
      inp := fun _ => storesIn_same rfl rfl
      rd := fun _ => storesIn_same rfl rfl
      dly := fun _ _ => storesIn_same rfl rfl
      busy := fun _ _ => storesIn_same rfl rfl
      sample := fun _ _ => storesIn_same rfl rfl }
    nack := fun _ _ => storesIn_same rfl rfl
    load := fun _ _ => storesIn_same rfl rfl
    count := fun _ _ => storesIn_same rfl rfl }
  operands := fun _ _ _ _ => storesIn_same rfl rfl

theorem setReg_storesIn {dev sub val : Byte} (h : (dev, sub) ∈ L) : Op.Respects (StoresIn c L) (setReg dev sub val) := by
  have P := storesIn_path c L
  refine storesIn_call _ (respects_bind P (respects_attempt (respects_transaction storesIn_set dev sub val)) fun r => ?_)
  cases r with
  | ok a =>
    intro s hs
    refine ⟨hs, ?_⟩
    show s.remote.SameOutside c L (s.remote.record s.cfg dev sub val)
    rw [hs]
    exact record_sameOutside h _ _
  | error e =>
    refine respects_bind P ?_ fun _ => respects_raise P e
    intro s hs
    refine ⟨hs, ?_⟩
    show s.remote.SameOutside c L (s.remote.forget s.cfg dev sub)
    rw [hs]
    exact forget_sameOutside h _

theorem setReg_bulkI (dev sub val : Byte) (s : State) : (Op.apply (setReg dev sub val) s).2.work.bulkI = s.work.bulkI := by
  have h : Op.Respects (Keeps (fun s : State => s.work.bulkI)) (setReg dev sub val) := by
    have P := keeps_path (fun s : State => s.work.bulkI)
    have C : SetClosed (Keeps (fun s : State => s.work.bulkI)) := {
      byte := {
        pin := keeps_pinClosed (fun _ _ => rfl) (fun _ p _ => by cases p <;> rfl) (fun _ => rfl) (fun _ => rfl)
          (fun _ _ => rfl) (fun _ _ => rfl) (fun _ _ => rfl)
        nack := fun _ _ => rfl
        load := fun _ _ => rfl
        count := fun _ _ => rfl }
      operands := fun _ _ _ _ => rfl }
    refine C.pin.call _ _ _ (respects_bind P (respects_attempt (respects_transaction C dev sub val)) fun r => ?_)
    cases r with
    | ok a => exact fun _ => rfl
    | error e => exact respects_bind P (fun _ => rfl) fun _ => respects_raise P e
  exact h s

theorem bulkLoop_storesIn (dev start : Byte) (bytes : List Byte) : ∀ s : State,
    (∀ j, j < bytes.length → (dev, start + (s.work.bulkI + BitVec.ofNat 8 j)) ∈ L) →
    StoresIn c L s (Op.apply (bulkLoop dev start bytes) s).2 := by
  have P := storesIn_path c L
  induction bytes with
  | nil => exact fun s _ => storesIn_same rfl rfl
  | cons b rest ih =>
    intro s h
    have h0 : (dev, start + s.work.bulkI) ∈ L := by
      have := h 0 (by simp)
      simpa using this
    simp only [bulkLoop, apply_line_bind, apply_readState_bind, apply_attempt_bind]
    have hw : ((s.goToStep 2).goToStep 3).work = s.work := rfl
    generalize hu : Op.apply (setReg dev (effectiveSub start (s.goToStep 2).work.bulkI) b) ((s.goToStep 2).goToStep 3) = u
    have hs : StoresIn c L s u.2 := by
      rw [← hu]
      exact setReg_storesIn h0 ((s.goToStep 2).goToStep 3)
    have hb : u.2.work.bulkI = s.work.bulkI := by
      rw [← hu, setReg_bulkI, hw]
    rcases u with ⟨r, u⟩
    cases r with
    | error e => exact hs
    | ok a =>
      simp only [apply_line_bind, apply_update_bind]
      refine P.trans hs (P.trans (storesIn_same rfl rfl) (ih ((u.goToStep 7).setBulkI ((u.goToStep 7).work.bulkI + 1#8)) ?_))
      intro j hj
      have := h (j + 1) (by simp; omega)
      have e : ((u.goToStep 7).setBulkI ((u.goToStep 7).work.bulkI + 1#8)).work.bulkI = s.work.bulkI + 1#8 := by
        show u.work.bulkI + 1#8 = _
        rw [hb]
      rw [e]
      have e2 : s.work.bulkI + 1#8 + BitVec.ofNat 8 j = s.work.bulkI + BitVec.ofNat 8 (j + 1) := by
        rw [BitVec.add_assoc, show j + 1 = 1 + j from Nat.add_comm _ _, BitVec.ofNat_add]
      rw [e2]
      exact this

theorem writeBulk_storesIn {dev start : Byte} {bytes : List Byte}
    (h : ∀ sub ∈ bulkSubs start bytes.length, (dev, sub) ∈ L) :
    Op.Respects (StoresIn c L) (writeBulk dev start bytes) := by
  have P := storesIn_path c L
  refine storesIn_call _ (respects_bind P (respects_attempt ?_) fun r => ?_)
  · refine respects_bind P (storesIn_update (fun _ => rfl) (fun _ => rfl)) fun _ => ?_
    intro s
    simp only [apply_update_bind]
    refine P.trans (b := s.setBulkI 0#8) (storesIn_same rfl rfl) ?_
    have hb := bulkLoop_storesIn (c := c) (L := L) dev start bytes (s.setBulkI 0#8) (by
      intro j hj
      refine h _ (List.mem_map.mpr ⟨j, List.mem_range.mpr hj, ?_⟩)
      show _ = start + (0#8 + BitVec.ofNat 8 j)
      rw [BitVec.zero_add])
    rcases apply_bind_cases (bulkLoop dev start bytes) (fun _ => line 8) (s.setBulkI 0#8) with ⟨e, _, he⟩ | ⟨a, _, he⟩
    · rw [he]; exact hb
    · rw [he]; exact P.trans hb (storesIn_same rfl rfl)
  · cases r with
    | ok a => exact respects_pure P _
    | error e =>
      refine respects_bind P ?_ fun _ => respects_raise P e
      intro s hs
      refine ⟨hs, ?_⟩
      show s.remote.SameOutside c L (s.remote.forgetAll s.cfg dev _)
      rw [hs]
      exact forgetAll_sameOutside _ h _

theorem memWrite_storesIn {sub val : Config → Byte} (h : (c.devAddr, sub c) ∈ L) :
    Op.Respects (StoresIn c L) (memWrite sub val) := by
  intro s hs
  unfold memWrite
  rw [apply_readState_bind]
  subst hs
  exact setReg_storesIn h s rfl

theorem initLoop_storesIn (entries : List (Byte × Byte)) (h : ∀ e ∈ entries, (c.devAddr, e.1) ∈ L) :
    Op.Respects (StoresIn c L) (initLoop entries) := by
  have P := storesIn_path c L
  have skip : ∀ n, Op.Respects (StoresIn c L) (line n) := fun _ => storesIn_update (fun _ => rfl) (fun _ => rfl)
  induction entries with
  | nil => exact skip _
  | cons e rest ih =>
    exact respects_bind P (skip _) fun _ => respects_bind P (skip _) fun _ => respects_bind P (skip _) fun _ =>
      respects_bind P (memWrite_storesIn (h e (by simp))) fun _ => respects_bind P (skip _) fun _ =>
      respects_bind P (storesIn_update (fun _ => rfl) (fun _ => rfl)) fun _ => ih fun e he => h e (by simp [he])

theorem initialise_storesIn (h : ∀ p ∈ initTargets c, p ∈ L) : Op.Respects (StoresIn c L) initialise := by
  have P := storesIn_path c L
  have skip : ∀ n, Op.Respects (StoresIn c L) (line n) := fun _ => storesIn_update (fun _ => rfl) (fun _ => rfl)
  have hmem : ∀ e ∈ c.initSeq, (c.devAddr, e.1) ∈ L := fun e he => h _ (List.mem_map.mpr ⟨e, he, rfl⟩)
  refine storesIn_call _ (respects_bind P (respects_attempt (respects_bind P (skip _) fun _ =>
    respects_bind P (storesIn_update (fun _ => rfl) (fun _ => rfl)) fun _ => ?_)) fun r => ?_)
  · intro s hs
    rw [apply_readState_bind]
    have := initLoop_storesIn (c := c) (L := L) s.cfg.initSeq (by rw [hs]; exact hmem)
    exact respects_bind P this (fun _ => skip 7) s hs
  · cases r with
    | ok a => exact respects_pure P _
    | error e =>
      refine respects_bind P ?_ fun _ => respects_raise P e
      intro s hs
      refine ⟨hs, ?_⟩
      show s.remote.SameOutside c L (s.remote.forgetAll s.cfg s.cfg.devAddr (s.cfg.initSeq.map (·.1)))
      rw [hs]
      refine forgetAll_sameOutside _ ?_ _
      intro sub hsub
      obtain ⟨e, he, rfl⟩ := List.mem_map.mp hsub
      exact hmem e he

theorem uploadSequence_storesIn {mux program : List Byte} (h : ∀ p ∈ loadTargets c mux.length program.length, p ∈ L) :
    Op.Respects (StoresIn c L) (uploadSequence mux program) := by
  have P := storesIn_path c L
  have skip : ∀ n, Op.Respects (StoresIn c L) (line n) := fun _ => storesIn_update (fun _ => rfl) (fun _ => rfl)
  have eng : ∀ v, Op.Respects (StoresIn c L) (setEngineCmd v) := fun _ => storesIn_update (fun _ => rfl) (fun _ => rfl)
  have page : ∀ v, Op.Respects (StoresIn c L) (setPageCmd v) := fun _ => storesIn_update (fun _ => rfl) (fun _ => rfl)
  have upl : ∀ bytes, (∀ sub ∈ bulkSubs c.progMemBase bytes.length, (c.devAddr, sub) ∈ L) →
      Op.Respects (StoresIn c L) (upload bytes) := by
    intro bytes hb s hs
    unfold upload
    rw [apply_readState_bind]
    subst hs
    exact writeBulk_storesIn hb s rfl
  have m1 : (c.devAddr, c.regEngMode) ∈ L := h _ (by simp [loadTargets])
  have m2 : (c.devAddr, c.regPageSel) ∈ L := h _ (by simp [loadTargets])
  have m3 : (c.devAddr, c.regEngRun) ∈ L := h _ (by simp [loadTargets])
  have m4 : (c.devAddr, c.regFreeRun) ∈ L := h _ (by simp [loadTargets])
  have u1 := upl mux fun sub hs => h _ (List.mem_append_left _ (List.mem_append_right _ (List.mem_map.mpr ⟨sub, hs, rfl⟩)))
  have u2 := upl program fun sub hs => h _ (List.mem_append_right _ (List.mem_map.mpr ⟨sub, hs, rfl⟩))
  exact respects_bind P (skip _) fun _ => respects_bind P (respects_bind P (memWrite_storesIn m1) fun _ => eng _) fun _ =>
    respects_bind P (skip _) fun _ => respects_bind P (respects_bind P (memWrite_storesIn m2) fun _ => page _) fun _ =>
    respects_bind P (skip _) fun _ => respects_bind P u1 fun _ => respects_bind P (skip _) fun _ =>
    respects_bind P (respects_bind P (memWrite_storesIn m2) fun _ => page _) fun _ => respects_bind P (skip _) fun _ =>
    respects_bind P u2 fun _ => respects_bind P (skip _) fun _ =>
    respects_bind P (respects_bind P (memWrite_storesIn m1) fun _ => eng _) fun _ => respects_bind P (skip _) fun _ =>
    respects_bind P (memWrite_storesIn m3) fun _ => respects_bind P (skip _) fun _ =>
    respects_bind P (memWrite_storesIn m4) fun _ => eng _

theorem loadProgram_storesIn {mux program : List Byte} (h : ∀ p ∈ loadTargets c mux.length program.length, p ∈ L) :
    Op.Respects (StoresIn c L) (loadProgram mux program) := by
  have P := storesIn_path c L
  refine storesIn_call _ (respects_bind P (storesIn_update (fun _ => rfl) (fun _ => rfl)) fun _ => ?_)
  split
  · exact respects_raise P _
  · exact uploadSequence_storesIn h

theorem playTape_storesIn {index : Byte} (h : ∀ p ∈ playTargets c index, p ∈ L) :
    Op.Respects (StoresIn c L) (playTape index) := by
  intro s hs
  rw [playTape_body]
  generalize hu : (((s.pushFrame .playTape).goToStep 1).setTape index).goToStep 2 = u
  have hcu : u.cfg = c := by rw [← hu]; exact hs
  have hru : u.remote = s.remote := by rw [← hu]; rfl
  by_cases hi : index.toNat < 2
  · rw [tape_inRange hi]
    have hl : ∀ p ∈ loadTargets c (c.muxTable index).length c.program.length, p ∈ L := by
      unfold playTargets at h
      rw [if_pos hi] at h
      exact h
    have := loadProgram_storesIn (c := c) (L := L) (mux := c.muxTable index) (program := c.program) hl (u.goToStep 3) hcu
    show (Op.apply (loadProgram (u.cfg.muxTable index) u.cfg.program) (u.goToStep 3)).2.cfg = c ∧
      s.remote.SameOutside c L (Op.apply (loadProgram (u.cfg.muxTable index) u.cfg.program) (u.goToStep 3)).2.remote
    rw [hcu, ← hru]
    exact this
  · rw [tape_outOfRange (by omega)]
    refine ⟨hcu, ?_⟩
    show s.remote.SameOutside c L u.remote
    rw [hru]
    exact sameOutside_refl c L _

/-! ## RUN: the targets of bring-up and of the tape it plays -/

/-- From s to t, with the parameters c and the tape `index` throughout, only what the targets hold changes. -/
def RunStoresIn (c : Config) (index : Byte) (L : List (Byte × Byte)) (s t : State) : Prop :=
  s.cfg = c → s.work.tape = index → t.cfg = c ∧ t.work.tape = index ∧ s.remote.SameOutside c L t.remote

theorem runStoresIn_path (c : Config) (index : Byte) (L : List (Byte × Byte)) : IsPath (RunStoresIn c index L) where
  refl := fun s h ht => ⟨h, ht, sameOutside_refl c L _⟩
  trans := by
    intro a b d h1 h2 h ht
    obtain ⟨hb, tb, r1⟩ := h1 h ht
    obtain ⟨hd, td, r2⟩ := h2 hb tb
    exact ⟨hd, td, sameOutside_trans r1 r2⟩

theorem runStoresIn_same {index : Byte} {s t : State} (hc : t.cfg = s.cfg) (ht : t.work.tape = s.work.tape)
    (hr : t.remote = s.remote) : RunStoresIn c index L s t :=
  fun h h' => ⟨hc.trans h, ht.trans h', hr ▸ sameOutside_refl c L _⟩

theorem playTape_tape (index : Byte) (s : State) : (Op.apply (playTape index) s).2.work.tape = index := by
  have C : LoadClosed (Keeps fun s : State => s.work.tape) := {
    reg := {
      set := {
        byte := {
          pin := keeps_pinClosed (fun _ _ => rfl) (fun _ p _ => by cases p <;> rfl) (fun _ => rfl) (fun _ => rfl)
            (fun _ _ => rfl) (fun _ _ => rfl) (fun _ _ => rfl)
          nack := fun _ _ => rfl
          load := fun _ _ => rfl
          count := fun _ _ => rfl }
        operands := fun _ _ _ _ => rfl }
      bulkI := fun _ _ => rfl
      record := fun _ _ _ _ => rfl
      forget := fun _ _ _ => rfl
      forgetAll := fun _ _ _ => rfl
      log := fun _ _ => rfl }
    engine := fun _ _ => rfl
    page := fun _ _ => rfl }
  rw [playTape_body]
  generalize hu : (((s.pushFrame .playTape).goToStep 1).setTape index).goToStep 2 = u
  have htu : u.work.tape = index := by rw [← hu]; rfl
  split
  · exact htu
  · exact Eq.trans (respects_loadProgram C (u.cfg.muxTable index) u.cfg.program (u.goToStep 3)) htu

theorem runStoresIn_seq {index : Byte} (hi : ∀ p ∈ initTargets c, p ∈ L) (hp : ∀ p ∈ playTargets c index, p ∈ L) :
    SeqClosed (RunStoresIn c index L) where
  run := {
    bringUp := {
      path := runStoresIn_path c index L
      init := by
        intro s h ht
        obtain ⟨h1, h2⟩ := initialise_storesIn hi s h
        have h3 := initialise_initPart s
        refine ⟨h1, ?_, h2⟩
        have : (Op.apply initialise s).2.work.tape = s.work.tape := congrArg (fun p => p.2.1) h3
        exact this.trans ht
      top := fun _ _ => runStoresIn_same rfl rfl rfl
      attempt := fun _ _ => runStoresIn_same rfl rfl rfl
      dly := fun _ _ => runStoresIn_same rfl rfl rfl }
    play := by
      intro s h ht
      rw [ht]
      obtain ⟨h1, h2⟩ := playTape_storesIn hp s h
      exact ⟨h1, playTape_tape index s, h2⟩
    primary := fun _ _ => runStoresIn_same rfl rfl rfl }
  request := fun _ p => by cases p <;> exact runStoresIn_same rfl rfl rfl
  release := fun _ p => by cases p <;> exact runStoresIn_same rfl rfl rfl
  session := fun _ _ => runStoresIn_same rfl rfl rfl
  status := fun _ _ => runStoresIn_same rfl rfl rfl
  log := fun _ _ => runStoresIn_same rfl rfl rfl

end Sys2Proof.Machine
end

