-- ==== Sys2Proof/Laws/Invariants.lean ====
section
/-! SUPPORT. What holds along every operation: the ranges of the working registers (R16), the canonical ghost memories,
what `RUN` leaves alone, and that an operation only appends events and takes answers. -/

namespace Sys2Proof.Machine

variable {α β : Type}

/-! ## Ranges and canonical memories -/

/-- `BITCNT` in its range (R16) and the ghost memories canonical. -/
def Sound (s : State) : Prop := s.work.bitcnt.toNat ≤ 8 ∧ s.remote.wf

/-- From a sound state to a sound state. -/
def StaysSound (s t : State) : Prop := Sound s → Sound t

theorem staysSound_same {s t : State} (hw : t.work.bitcnt = s.work.bitcnt) (hr : t.remote = s.remote) :
    StaysSound s t := fun h => ⟨hw ▸ h.1, hr ▸ h.2⟩

theorem staysSound_path : IsPath StaysSound := ⟨fun _ h => h, fun h1 h2 h => h2 (h1 h)⟩

theorem staysSound_reg : RegClosed StaysSound where
  set := {
    byte := {
      pin := {
        path := staysSound_path
        call := fun _ op _ h s => h (s.pushFrame op)
        line := fun _ _ => staysSound_same rfl rfl
        out := fun _ p _ => by cases p <;> exact staysSound_same rfl rfl
        inp := fun _ => staysSound_same rfl rfl
        rd := fun _ => staysSound_same rfl rfl
        dly := fun _ _ => staysSound_same rfl rfl
        busy := fun _ _ => staysSound_same rfl rfl
        sample := fun _ _ => staysSound_same rfl rfl }
      nack := fun _ _ => staysSound_same rfl rfl
      load := fun _ _ h => ⟨Nat.zero_le 8, h.2⟩
      count := fun s hs h => ⟨by
        show (s.work.bitcnt + 1#4).toNat ≤ 8
        rw [BitVec.toNat_add]
        have : (1#4 : BitVec 4).toNat = 1 := rfl
        omega, h.2⟩ }
    operands := fun _ _ _ _ => staysSound_same rfl rfl }
  bulkI := fun _ _ => staysSound_same rfl rfl
  record := fun s dev sub val h => ⟨h.1, Remote.record_wf s.cfg s.remote dev sub val h.2⟩
  forget := fun s dev sub h => ⟨h.1, Remote.forget_wf s.cfg s.remote dev sub h.2⟩
  forgetAll := fun s dev subs h => ⟨h.1, Remote.forgetAll_wf s.cfg s.remote dev subs h.2⟩
  log := fun _ _ => staysSound_same rfl rfl

theorem staysSound_prog : ProgClosed StaysSound where
  reg := staysSound_reg
  tape := fun _ _ => staysSound_same rfl rfl
  engine := fun _ _ => staysSound_same rfl rfl
  page := fun _ _ => staysSound_same rfl rfl

theorem staysSound_init : InitClosed StaysSound := ⟨staysSound_reg, fun _ _ => staysSound_same rfl rfl⟩

theorem staysSound_seq : SeqClosed StaysSound where
  run := {
    bringUp := {
      path := staysSound_path
      init := respects_initialise staysSound_init
      top := fun _ _ => staysSound_same rfl rfl
      attempt := fun _ _ => staysSound_same rfl rfl
      dly := fun _ _ => staysSound_same rfl rfl }
    play := fun s => respects_playTape staysSound_prog s.work.tape s
    primary := fun _ _ => staysSound_same rfl rfl }
  request := fun _ p => by cases p <;> exact staysSound_same rfl rfl
  release := fun _ p => by cases p <;> exact staysSound_same rfl rfl
  session := fun _ _ => staysSound_same rfl rfl
  status := fun _ _ => staysSound_same rfl rfl
  log := fun _ _ => staysSound_same rfl rfl

/-! ## INIT_I (R16, R109) -/

theorem setReg_initI (dev sub val : Byte) (s : State) : (Op.apply (setReg dev sub val) s).2.work.initI = s.work.initI :=
  congrArg (fun p => p.1) (respects_setReg bulkPart_reg dev sub val s)

theorem initLoop_initI (entries : List (Byte × Byte)) : ∀ s : State, s.work.initI.toNat + entries.length ≤ 13 →
    (Op.apply (initLoop entries) s).2.work.initI.toNat ≤ 13 := by
  induction entries with
  | nil => exact fun s h => h
  | cons e rest ih =>
    intro s h
    simp only [List.length_cons] at h
    simp only [initLoop, apply_line_bind]
    generalize hu : ((s.goToStep 2).goToStep 3).goToStep 4 = u
    have huw : u.work = s.work := by rw [← hu]; rfl
    have hm : (Op.apply (memWrite (fun _ => e.1) (fun _ => e.2)) u).2.work.initI = s.work.initI := by
      unfold memWrite
      rw [apply_readState_bind, setReg_initI, huw]
    rcases apply_bind_cases (memWrite (fun _ => e.1) (fun _ => e.2)) (fun _ => (line 6 >>= fun _ =>
        update (fun s => s.setInitI (s.work.initI + 1#4)) >>= fun _ => initLoop rest)) u with ⟨r, _, he⟩ | ⟨a, _, he⟩
    · rw [he, hm]
      omega
    · rw [he]
      simp only [apply_line_bind, apply_update_bind]
      apply ih
      show (((Op.apply (memWrite (fun _ => e.1) (fun _ => e.2)) u).2.work.initI + 1#4 : BitVec 4)).toNat + rest.length ≤ 13
      rw [hm, BitVec.toNat_add]
      have : (1#4 : BitVec 4).toNat = 1 := rfl
      omega

theorem initialise_initI (s : State) (hc : s.cfg.initSeq.length = 13) :
    (Op.apply initialise s).2.work.initI.toNat ≤ 13 := by
  unfold initialise
  rw [apply_call]
  show (Op.apply (forgettingOnError _ _ _) (s.pushFrame .initialise)).2.work.initI.toNat ≤ 13
  unfold forgettingOnError
  rw [apply_attempt_bind]
  have key : (Op.apply (line 1 >>= fun _ => update (fun s => s.setInitI 0#4) >>= fun _ =>
      readState (·.cfg.initSeq) >>= fun entries => initLoop entries >>= fun _ => line 7)
      (s.pushFrame .initialise)).2.work.initI.toNat ≤ 13 := by
    simp only [apply_line_bind, apply_update_bind, apply_readState_bind]
    generalize hu : ((s.pushFrame .initialise).goToStep 1).setInitI 0#4 = u
    have hcu : u.cfg = s.cfg := by rw [← hu]; rfl
    have h0 : u.work.initI = 0#4 := by rw [← hu]; rfl
    have hl := initLoop_initI u.cfg.initSeq u (by rw [h0, hcu, hc]; exact Nat.le_refl _)
    rcases apply_bind_cases (initLoop u.cfg.initSeq) (fun _ => line 7) u with ⟨e, _, he⟩ | ⟨a, _, he⟩
    · rw [he]; exact hl
    · rw [he]; exact hl
  generalize Op.apply _ (s.pushFrame .initialise) = r at key ⊢
  rcases r with ⟨r, u⟩
  cases r with
  | ok a => exact key
  | error e => exact key

/-! ## What the Sequencer leaves alone -/

/-- What bring-up and playback, and so `RUN`, leave as it is; and `INIT_I` stays in its range. -/
structure SeqKeeps (s t : State) : Prop where
  cfg : t.cfg = s.cfg
  buffers : t.buf0 = s.buf0 ∧ t.buf1 = s.buf1
  inputs : t.inputs = s.inputs
  frames : t.pc.frames = s.pc.frames
  initI : s.cfg.initSeq.length = 13 → s.work.initI.toNat ≤ 13 → t.work.initI.toNat ≤ 13

theorem seqKeeps_path : IsPath SeqKeeps where
  refl := fun _ => ⟨rfl, ⟨rfl, rfl⟩, rfl, rfl, fun _ h => h⟩
  trans := fun h1 h2 => ⟨h2.cfg.trans h1.cfg, ⟨h2.buffers.1.trans h1.buffers.1, h2.buffers.2.trans h1.buffers.2⟩,
    h2.inputs.trans h1.inputs, h2.frames.trans h1.frames, fun hc h => h2.initI (h1.cfg ▸ hc) (h1.initI hc h)⟩

theorem seqKeeps_of {s t : State} (h1 : t.cfg = s.cfg) (h2 : t.buf0 = s.buf0) (h3 : t.buf1 = s.buf1)
    (h4 : t.inputs = s.inputs) (h5 : t.pc.frames = s.pc.frames) (h6 : t.work.initI = s.work.initI) : SeqKeeps s t :=
  ⟨h1, ⟨h2, h3⟩, h4, h5, fun _ h => h6 ▸ h⟩

theorem seqKeeps_seq : SeqClosed SeqKeeps where
  run := {
    bringUp := {
      path := seqKeeps_path
      init := by
        intro s
        have h := hostPart_eq (initialise_host s)
        exact ⟨h.1, ⟨h.2.2.2.1, h.2.2.2.2.1⟩, h.2.2.2.2.2.2.1, congrArg (·.frames) (initialise_pc s),
          fun hc _ => initialise_initI s hc⟩
      top := fun _ _ => seqKeeps_of rfl rfl rfl rfl rfl rfl
      attempt := fun _ _ => seqKeeps_of rfl rfl rfl rfl rfl rfl
      dly := fun _ _ => seqKeeps_of rfl rfl rfl rfl rfl rfl }
    play := by
      intro s
      have h := hostPart_eq (respects_playTape hostPart_prog s.work.tape s)
      exact seqKeeps_of h.1 h.2.2.2.1 h.2.2.2.2.1 h.2.2.2.2.2.2.1 (congrArg (·.frames) (playTape_pc _ s))
        (congrArg (·.1) (respects_playTape loadPart_prog s.work.tape s))
    primary := fun _ _ => seqKeeps_of rfl rfl rfl rfl rfl rfl }
  request := fun _ p => by cases p <;> exact seqKeeps_of rfl rfl rfl rfl rfl rfl
  release := fun _ p => by cases p <;> exact seqKeeps_of rfl rfl rfl rfl rfl rfl
  session := fun _ _ => seqKeeps_of rfl rfl rfl rfl rfl rfl
  status := fun _ _ => seqKeeps_of rfl rfl rfl rfl rfl rfl
  log := fun _ _ => seqKeeps_of rfl rfl rfl rfl rfl rfl

/-! ## Events are appended and answers are taken -/

/-- Answers and samples were taken from the scripts, and events were appended, none of which reads the clock pin. -/
def Appends (s t : State) : Prop :=
  ∃ a n evs, t.env = { answers := s.env.answers.advanceBy a, samples := s.env.samples.advanceBy n } ∧
    t.trace = s.trace ++ evs ∧ ∀ e ∈ evs, Event.readsClock e = false

theorem appends_same {s t : State} (he : t.env = s.env) (ht : t.trace = s.trace) : Appends s t :=
  ⟨0, 0, [], by rw [he]; simp, by rw [ht]; simp, by simp⟩

theorem appends_event {s t : State} (e : Event) (he : t.env = s.env) (ht : t.trace = s.trace ++ [e])
    (h : e.readsClock = false) : Appends s t :=
  ⟨0, 0, [e], by rw [he]; simp, ht, by simpa using h⟩

theorem appends_answer {s t : State} (e : Event) (he : t.env = { s.env with answers := s.env.answers.advance })
    (ht : t.trace = s.trace ++ [e]) (h : e.readsClock = false) : Appends s t :=
  ⟨1, 0, [e], by rw [he, Script.advance_eq]; simp, ht, by simpa using h⟩

theorem appends_path : IsPath Appends where
  refl := fun s => appends_same rfl rfl
  trans := by
    rintro a b c ⟨i, j, es, h1, h2, h3⟩ ⟨k, l, fs, g1, g2, g3⟩
    refine ⟨i + k, j + l, es ++ fs, ?_, by rw [g2, h2, List.append_assoc], ?_⟩
    · rw [g1, h1]
      simp
    · intro e he
      rcases List.mem_append.mp he with he | he
      · exact h3 e he
      · exact g3 e he

theorem appends_reg : RegClosed Appends where
  set := {
    byte := {
      pin := {
        path := appends_path
        call := fun _ op _ h s => h (s.pushFrame op)
        line := fun _ _ => appends_same rfl rfl
        out := fun s p b => appends_answer (.out p b (s.answer 0)) (by cases p <;> rfl) (by cases p <;> rfl) rfl
        inp := fun s => appends_answer (.inp .sda (s.answer 0)) rfl rfl rfl
        rd := fun s => ⟨0, 1, [.rd .sda (s.sample 0)], by
          show ({ s.env with samples := s.env.samples.advance } : Env) = _
          rw [Script.advance_eq]; simp, rfl, by simp [Event.readsClock]⟩
        dly := fun _ n => appends_event (.dly n) rfl rfl rfl
        busy := fun _ _ => appends_same rfl rfl
        sample := fun _ _ => appends_same rfl rfl }
      nack := fun _ _ => appends_same rfl rfl
      load := fun _ _ => appends_same rfl rfl
      count := fun _ _ => appends_same rfl rfl }
    operands := fun _ _ _ _ => appends_same rfl rfl }
  bulkI := fun _ _ => appends_same rfl rfl
  record := fun _ _ _ _ => appends_same rfl rfl
  forget := fun _ _ _ => appends_same rfl rfl
  forgetAll := fun _ _ _ => appends_same rfl rfl
  log := fun _ i => appends_event (.log (.failedAtByte i)) rfl rfl rfl

theorem appends_prog : ProgClosed Appends where
  reg := appends_reg
  tape := fun _ _ => appends_same rfl rfl
  engine := fun _ _ => appends_same rfl rfl
  page := fun _ _ => appends_same rfl rfl

theorem appends_seq : SeqClosed Appends where
  run := {
    bringUp := {
      path := appends_path
      init := respects_initialise ⟨appends_reg, fun _ _ => appends_same rfl rfl⟩
      top := fun _ _ => appends_same rfl rfl
      attempt := fun _ _ => appends_same rfl rfl
      dly := fun _ n => appends_event (.dly n) rfl rfl rfl }
    play := fun s => respects_playTape appends_prog s.work.tape s
    primary := fun _ _ => appends_same rfl rfl }
  request := fun s p => appends_answer (.req p (s.requestAnswer p)) (by cases p <;> rfl) (by cases p <;> rfl) rfl
  release := fun s p => appends_answer (.rel p (s.answer 0)) (by cases p <;> rfl) (by cases p <;> rfl) rfl
  session := fun _ _ => appends_same rfl rfl
  status := fun _ _ => appends_same rfl rfl
  log := fun _ m => appends_event (.log m) rfl rfl rfl

/-! ## Every operation -/

/-- A relation that holds along every operation's own moves and is blind to the result holds from s to what the
operation leaves. -/
theorem sessionResult_respects {R : State → State → Prop} (P : ProgClosed R) (I : InitClosed R) (S : SeqClosed R)
    (hr : ∀ (s : State) (v : Result), R s (s.setResult v)) (i : Instr) (s : State) : R s (sessionResult i s) := by
  have path := P.reg.pin.path
  have fin : ∀ {γ : Type} (ret : γ → Result) (x : Op γ), R s (Op.apply x s).2 → R s (finish ret x s) :=
    fun ret x h => path.trans h (hr _ _)
  cases i with
  | start => exact fin _ _ (respects_start P.reg.pin s)
  | stop => exact fin _ _ (respects_stop P.reg.pin s)
  | writebit v => exact fin _ _ (respects_writeBit P.reg.pin v s)
  | readbit => exact fin _ _ (respects_readBit P.reg.pin s)
  | writebyte b => exact fin _ _ (respects_writeByte P.reg.set.byte b s)
  | setreg dev sub val => exact fin _ _ (respects_setReg P.reg dev sub val s)
  | writebulk dev start n => exact fin _ _ (respects_writeBulk P.reg dev start _ s)
  | initialise => exact fin _ _ (respects_initialise I s)
  | loadprogram m p => exact fin _ _ (respects_loadProgram P.load _ _ s)
  | playtape index => exact fin _ _ (respects_playTape P index s)
  | run index => exact fin _ _ (path.trans (P.tape s index) (respects_run S index s))
  | runerr index => exact fin _ _ (path.trans (P.tape s index) (respects_runErr S index s))

theorem exec_sound {i : Instr} {s t : State} (h : exec i s = .next t) : Sound s → Sound t := by
  rw [(exec_next h).1]
  exact sessionResult_respects staysSound_prog staysSound_init staysSound_seq (fun _ _ => staysSound_same rfl rfl) i s

theorem exec_appends {i : Instr} {s t : State} (h : exec i s = .next t) : Appends s t := by
  rw [(exec_next h).1]
  exact sessionResult_respects appends_prog ⟨appends_reg, fun _ _ => appends_same rfl rfl⟩ appends_seq
    (fun _ _ => appends_same rfl rfl) i s

end Sys2Proof.Machine
end

