-- ==== Sys2Proof/Laws/Uniform.lean ====
section
/-! SUPPORT. What an operation does not look at: issued from states that differ only in what the operation does not read,
it answers the same and leaves states that differ only there. So an operation inside another does what it does when it
is issued on its own. -/

namespace Sys2Proof.Machine

variable {α β : Type}

/-! ## States that differ in some fields only -/

/-- x answers the same at s and at s with other values of some fields (written by `dr`), and leaves the same state but
for those fields. -/
def Op.Uniform {D : Type} (dr : State → D → State) (x : Op α) : Prop :=
  ∀ s d, ∃ d', Op.apply x (dr s d) = ((Op.apply x s).1, dr (Op.apply x s).2 d')

variable {D : Type} {dr : State → D → State}

theorem uniform_pure (a : α) : Op.Uniform dr (pure a : Op α) := fun _ d => ⟨d, rfl⟩
theorem uniform_raise (e : Error) : Op.Uniform dr (raise e : Op α) := fun _ d => ⟨d, rfl⟩

theorem uniform_update {f : State → State} (h : ∀ s d, ∃ d', f (dr s d) = dr (f s) d') : Op.Uniform dr (update f) := by
  intro s d
  obtain ⟨d', e⟩ := h s d
  exact ⟨d', by simp only [apply_update, e]⟩

theorem uniform_same {f : State → State} (h : ∀ s d, f (dr s d) = dr (f s) d) : Op.Uniform dr (update f) :=
  uniform_update fun s d => ⟨d, h s d⟩

theorem uniform_attempt {x : Op α} (h : Op.Uniform dr x) : Op.Uniform dr (attempt x) := by
  intro s d
  obtain ⟨d', e⟩ := h s d
  exact ⟨d', by simp only [apply_attempt, e]⟩

theorem uniform_bind {x : Op α} {f : α → Op β} (hx : Op.Uniform dr x) (hf : ∀ a, Op.Uniform dr (f a)) :
    Op.Uniform dr (x >>= f) := by
  intro s d
  obtain ⟨d', e⟩ := hx s d
  rcases hr : Op.apply x s with ⟨r, t⟩
  rw [hr] at e
  cases r with
  | error err => exact ⟨d', by rw [apply_bind_error hr, apply_bind_error e]⟩
  | ok a =>
    obtain ⟨d'', e'⟩ := hf a t d'
    exact ⟨d'', by rw [apply_bind_ok hr, apply_bind_ok e, e']⟩

theorem uniform_readBind {g : State → α} {f : α → Op β} (hg : ∀ s d, g (dr s d) = g s)
    (hf : ∀ a, Op.Uniform dr (f a)) : Op.Uniform dr (readState g >>= f) := by
  intro s d
  obtain ⟨d', e⟩ := hf (g s) s d
  refine ⟨d', ?_⟩
  rw [apply_readState_bind, apply_readState_bind, hg, e]

/-! ## What a transaction does not look at -/

/-- The fields `dr` writes are none that a transaction reads (R97), and the control point is among them. -/
structure Unread (dr : State → D → State) : Prop where
  pc : ∀ s d (f : ControlPoint → ControlPoint), ∃ d', (dr s d).setPc (f (dr s d).pc) = dr (s.setPc (f s.pc)) d'
  out : ∀ s d p b, (dr s d).pinSetOutput p b = dr (s.pinSetOutput p b) d
  inp : ∀ s d, (dr s d).pinSetInput .sda = dr (s.pinSetInput .sda) d
  rd : ∀ s d, (dr s d).pinRead .sda = dr (s.pinRead .sda) d
  emit : ∀ s d e, (dr s d).emit e = dr (s.emit e) d
  busy : ∀ s d v, (dr s d).setGhost { (dr s d).ghost with busBusy := v } = dr (s.setGhost { s.ghost with busBusy := v }) d
  flags : ∀ s d v, (dr s d).setFlags v = dr (s.setFlags v) d
  readFlags : ∀ s d, (dr s d).flags = s.flags
  env : ∀ s d, (dr s d).env = s.env
  session : ∀ s d, (dr s d).session = s.session
  cfg : ∀ s d, (dr s d).cfg = s.cfg
  remote : ∀ s d, (dr s d).remote = s.remote
  setRemote : ∀ s d v, (dr s d).setRemote v = dr (s.setRemote v) d
  byteRegs : ∀ s d, (dr s d).work.shift = s.work.shift ∧ (dr s d).work.bitcnt = s.work.bitcnt
  operandRegs : ∀ s d, (dr s d).work.rDev = s.work.rDev ∧ (dr s d).work.rSub = s.work.rSub ∧ (dr s d).work.rVal = s.work.rVal
  load : ∀ s d b n, (dr s d).setWork { (dr s d).work with shift := b, bitcnt := n } =
    dr (s.setWork { s.work with shift := b, bitcnt := n }) d
  count : ∀ s d n, (dr s d).setWork { (dr s d).work with bitcnt := n } = dr (s.setWork { s.work with bitcnt := n }) d
  operands : ∀ s d x y z, (dr s d).setWork { (dr s d).work with rDev := x, rSub := y, rVal := z } =
    dr (s.setWork { s.work with rDev := x, rSub := y, rVal := z }) d

theorem uniform_line (U : Unread dr) (n : Nat) : Op.Uniform dr (line n) :=
  uniform_update fun s d => U.pc s d (·.atStep n)

theorem uniform_call (U : Unread dr) (op : OpName) {x : Op α} (h : Op.Uniform dr x) : Op.Uniform dr (call op x) := by
  intro s d
  obtain ⟨d1, e1⟩ := U.pc s d (·.push op)
  obtain ⟨d2, e2⟩ := h (s.pushFrame op) d1
  obtain ⟨d3, e3⟩ := U.pc (Op.apply x (s.pushFrame op)).2 d2 (·.pop)
  refine ⟨d3, ?_⟩
  rw [apply_call, apply_call]
  have e1' : (dr s d).pushFrame op = dr (s.pushFrame op) d1 := e1
  rw [e1', e2]
  exact congrArg (Prod.mk _) e3

theorem uniform_delayHalves (U : Unread dr) (k : Nat) : Op.Uniform dr (delayHalves k) :=
  uniform_same fun s d => by rw [U.session, U.emit]

theorem answer_of_env {s t : State} (h : t.env = s.env) (k : Nat) : t.answer k = s.answer k := by
  unfold State.answer
  rw [h]

theorem uniform_drive (U : Unread dr) (p : Pin) (b : Bool) : Op.Uniform dr (drive p b) := by
  intro s d
  refine ⟨d, ?_⟩
  rw [apply_drive, apply_drive, U.out, answer_of_env (U.env s d)]

theorem uniform_sampleSda (U : Unread dr) : Op.Uniform dr sampleSda := by
  intro s d
  refine ⟨d, ?_⟩
  rw [apply_sampleSda, apply_sampleSda, answer_of_env (U.env s d), U.inp, U.rd]
  have : (dr (s.pinSetInput .sda) d).sample 0 = (s.pinSetInput .sda).sample 0 := by
    unfold State.sample
    rw [U.env]
  rw [this]
  split <;> rfl

theorem uniform_busy (U : Unread dr) (v : Bool) : Op.Uniform dr (setBusBusy v) := uniform_same fun s d => U.busy s d v

theorem uniform_start (U : Unread dr) : Op.Uniform dr start :=
  uniform_call U _ (uniform_bind (uniform_line U _) fun _ => uniform_bind (uniform_drive U _ _) fun _ =>
    uniform_bind (uniform_line U _) fun _ => uniform_bind (uniform_delayHalves U _) fun _ =>
    uniform_bind (uniform_line U _) fun _ => uniform_bind (uniform_drive U _ _) fun _ =>
    uniform_bind (uniform_line U _) fun _ => uniform_bind (uniform_delayHalves U _) fun _ =>
    uniform_bind (uniform_line U _) fun _ => uniform_bind (uniform_drive U _ _) fun _ =>
    uniform_bind (uniform_line U _) fun _ => uniform_bind (uniform_delayHalves U _) fun _ => uniform_busy U _)

theorem uniform_stop (U : Unread dr) : Op.Uniform dr stop :=
  uniform_call U _ (uniform_bind (uniform_line U _) fun _ => uniform_bind (uniform_drive U _ _) fun _ =>
    uniform_bind (uniform_line U _) fun _ => uniform_bind (uniform_delayHalves U _) fun _ =>
    uniform_bind (uniform_line U _) fun _ => uniform_bind (uniform_drive U _ _) fun _ =>
    uniform_bind (uniform_line U _) fun _ => uniform_bind (uniform_delayHalves U _) fun _ =>
    uniform_bind (uniform_line U _) fun _ => uniform_bind (uniform_drive U _ _) fun _ =>
    uniform_bind (uniform_line U _) fun _ => uniform_bind (uniform_delayHalves U _) fun _ =>
    uniform_bind (uniform_line U _) fun _ => uniform_bind (uniform_drive U _ _) fun _ =>
    uniform_bind (uniform_line U _) fun _ => uniform_bind (uniform_delayHalves U _) fun _ => uniform_busy U _)

theorem uniform_writeBit (U : Unread dr) (v : Bool) : Op.Uniform dr (writeBit v) :=
  uniform_call U _ (uniform_bind (uniform_line U _) fun _ => uniform_bind (uniform_drive U _ _) fun _ =>
    uniform_bind (uniform_line U _) fun _ => uniform_bind (uniform_drive U _ _) fun _ =>
    uniform_bind (uniform_line U _) fun _ => uniform_bind (uniform_drive U _ _) fun _ =>
    uniform_bind (uniform_line U _) fun _ => uniform_delayHalves U _)

theorem uniform_readBit (U : Unread dr) : Op.Uniform dr readBit :=
  uniform_call U _ (uniform_bind (uniform_line U _) fun _ => uniform_bind (uniform_drive U _ _) fun _ =>
    uniform_bind (uniform_line U _) fun _ => uniform_bind (uniform_delayHalves U _) fun _ =>
    uniform_bind (uniform_line U _) fun _ => uniform_bind (uniform_sampleSda U) fun v =>
    uniform_bind (uniform_same fun s d => by rw [U.readFlags, U.flags]) fun _ =>
    uniform_bind (uniform_line U _) fun _ => uniform_bind (uniform_delayHalves U _) fun _ =>
    uniform_bind (uniform_line U _) fun _ => uniform_bind (uniform_drive U _ _) fun _ =>
    uniform_bind (uniform_line U _) fun _ => uniform_bind (uniform_delayHalves U _) fun _ =>
    uniform_bind (uniform_line U _) fun _ => uniform_readBind (fun s d => by rw [U.readFlags]) fun v => by
      cases v
      · exact uniform_pure _
      · exact uniform_pure _
      · exact uniform_raise _)

theorem uniform_sendBits (U : Unread dr) (n : Nat) : Op.Uniform dr (sendBits n) := by
  induction n with
  | zero => exact uniform_line U _
  | succ n ih =>
    exact uniform_bind (uniform_line U _) fun _ =>
      uniform_readBind (fun s d => by rw [(U.byteRegs s d).1, (U.byteRegs s d).2]) fun v =>
      uniform_bind (uniform_line U _) fun _ => uniform_bind (uniform_writeBit U v) fun _ =>
      uniform_bind (uniform_line U _) fun _ =>
      uniform_bind (uniform_same fun s d => by
        have h := U.count s d ((dr s d).work.bitcnt + 1#4)
        rw [h, (U.byteRegs s d).2]) fun _ => ih

theorem uniform_writeByte (U : Unread dr) (b : Byte) : Op.Uniform dr (writeByte b) :=
  uniform_call U _ (uniform_bind (uniform_line U _) fun _ => uniform_bind (uniform_same fun s d => U.load s d b 0#4) fun _ =>
    uniform_bind (uniform_sendBits U 8) fun _ => uniform_bind (uniform_line U _) fun _ =>
    uniform_bind (uniform_drive U _ _) fun _ => uniform_bind (uniform_line U _) fun _ =>
    uniform_bind (uniform_readBit U) fun bit => uniform_bind (uniform_line U _) fun _ =>
    uniform_bind (uniform_same fun s d => by rw [U.readFlags, U.flags]) fun _ =>
    uniform_bind (uniform_line U _) fun _ => uniform_pure _)

theorem uniform_orStop (U : Unread dr) {x : Op α} (h : Op.Uniform dr x) : Op.Uniform dr (orStop x) := by
  refine uniform_bind (uniform_attempt h) fun r => ?_
  cases r with
  | ok a => exact uniform_pure _
  | error e => exact uniform_bind (uniform_attempt (uniform_stop U)) fun _ => uniform_raise _

theorem uniform_stopOnNack (U : Unread dr) (stage : Stage) (a : Ack) : Op.Uniform dr (stopOnNack stage a) := by
  cases a with
  | ack => exact uniform_pure _
  | nack => exact uniform_bind (uniform_attempt (uniform_stop U)) fun _ => uniform_raise _

theorem uniform_transaction (U : Unread dr) (dev sub val : Byte) : Op.Uniform dr (transaction dev sub val) :=
  uniform_bind (uniform_line U _) fun _ => uniform_bind (uniform_same fun s d => U.operands s d dev sub val) fun _ =>
    uniform_bind (uniform_line U _) fun _ => uniform_bind (uniform_orStop U (uniform_start U)) fun _ =>
    uniform_bind (uniform_line U _) fun _ => uniform_readBind (fun s d => (U.operandRegs s d).1) fun b =>
    uniform_bind (uniform_orStop U (uniform_writeByte U b)) fun a => uniform_bind (uniform_line U _) fun _ =>
    uniform_bind (uniform_stopOnNack U _ a) fun _ =>
    uniform_bind (uniform_line U _) fun _ => uniform_readBind (fun s d => (U.operandRegs s d).2.1) fun b =>
    uniform_bind (uniform_orStop U (uniform_writeByte U b)) fun a => uniform_bind (uniform_line U _) fun _ =>
    uniform_bind (uniform_stopOnNack U _ a) fun _ =>
    uniform_bind (uniform_line U _) fun _ => uniform_readBind (fun s d => (U.operandRegs s d).2.2) fun b =>
    uniform_bind (uniform_orStop U (uniform_writeByte U b)) fun a => uniform_bind (uniform_line U _) fun _ =>
    uniform_bind (uniform_stopOnNack U _ a) fun _ =>
    uniform_bind (uniform_line U _) fun _ => uniform_bind (uniform_stop U) fun _ => uniform_line U _

theorem uniform_setReg (U : Unread dr) (dev sub val : Byte) : Op.Uniform dr (setReg dev sub val) := by
  refine uniform_call U _ (uniform_bind (uniform_attempt (uniform_transaction U dev sub val)) fun r => ?_)
  cases r with
  | ok a => exact uniform_same fun s d => by rw [U.remote, U.cfg, U.setRemote]
  | error e =>
    exact uniform_bind (uniform_same fun s d => by rw [U.remote, U.cfg, U.setRemote]) fun _ => uniform_raise _

/-! ## The control point, the result and the buffers are read by no operation once it runs -/

/-- What no operation looks at once its operands are read. -/
structure Aside where
  pc : ControlPoint
  result : Result
  buf0 : List Byte
  buf1 : List Byte

/-- s with other values of these fields. -/
def State.aside (s : State) (d : Aside) : State :=
  { s with pc := d.pc, result := d.result, buf0 := d.buf0, buf1 := d.buf1 }

theorem aside_unread : Unread State.aside where
  pc := fun s d f => ⟨{ d with pc := f d.pc }, rfl⟩
  out := fun _ _ p _ => by cases p <;> rfl
  inp := fun _ _ => rfl
  rd := fun _ _ => rfl
  emit := fun _ _ _ => rfl
  busy := fun _ _ _ => rfl
  flags := fun _ _ _ => rfl
  readFlags := fun _ _ => rfl
  env := fun _ _ => rfl
  session := fun _ _ => rfl
  cfg := fun _ _ => rfl
  remote := fun _ _ => rfl
  setRemote := fun _ _ _ => rfl
  byteRegs := fun _ _ => ⟨rfl, rfl⟩
  operandRegs := fun _ _ => ⟨rfl, rfl, rfl⟩
  load := fun _ _ _ _ => rfl
  count := fun _ _ _ => rfl
  operands := fun _ _ _ _ _ => rfl

theorem uniform_bulkLoop (dev start : Byte) (bytes : List Byte) : Op.Uniform State.aside (bulkLoop dev start bytes) := by
  have U := aside_unread
  induction bytes with
  | nil => exact uniform_line U _
  | cons b rest ih =>
    refine uniform_bind (uniform_line U _) fun _ => uniform_readBind (fun _ _ => rfl) fun i =>
      uniform_bind (uniform_line U _) fun _ => uniform_bind (uniform_attempt (uniform_setReg U _ _ _)) fun r => ?_
    cases r with
    | ok a =>
      exact uniform_bind (uniform_line U _) fun _ => uniform_bind (uniform_same fun _ _ => rfl) fun _ => ih
    | error e =>
      exact uniform_bind (uniform_line U _) fun _ => uniform_bind (uniform_same fun _ _ => rfl) fun _ =>
        uniform_bind (uniform_line U _) fun _ => uniform_raise _

theorem uniform_forgetting {dev : State → Byte} {subs : State → List Byte} {x : Op Unit}
    (hx : Op.Uniform State.aside x) (hd : ∀ s d, dev (State.aside s d) = dev s)
    (hs : ∀ s d, subs (State.aside s d) = subs s) : Op.Uniform State.aside (forgettingOnError dev subs x) := by
  refine uniform_bind (uniform_attempt hx) fun r => ?_
  cases r with
  | ok a => exact uniform_pure _
  | error e =>
    refine uniform_bind (uniform_same fun s d => ?_) fun _ => uniform_raise _
    rw [hd, hs]
    rfl

theorem uniform_writeBulk (dev start : Byte) (bytes : List Byte) :
    Op.Uniform State.aside (writeBulk dev start bytes) :=
  uniform_call aside_unread _ (uniform_forgetting (uniform_bind (uniform_line aside_unread _) fun _ =>
    uniform_bind (uniform_same fun _ _ => rfl) fun _ => uniform_bind (uniform_bulkLoop dev start bytes) fun _ =>
    uniform_line aside_unread _) (fun _ _ => rfl) (fun _ _ => rfl))

theorem uniform_memWrite (sub val : Config → Byte) : Op.Uniform State.aside (memWrite sub val) :=
  uniform_readBind (fun _ _ => rfl) fun _ => uniform_setReg aside_unread _ _ _

theorem uniform_initLoop (entries : List (Byte × Byte)) : Op.Uniform State.aside (initLoop entries) := by
  have l : ∀ n, Op.Uniform State.aside (line n) := uniform_line aside_unread
  induction entries with
  | nil => exact l _
  | cons e rest ih =>
    exact uniform_bind (l _) fun _ => uniform_bind (l _) fun _ => uniform_bind (l _) fun _ =>
      uniform_bind (uniform_memWrite _ _) fun _ => uniform_bind (l _) fun _ =>
      uniform_bind (uniform_same fun _ _ => rfl) fun _ => ih

theorem uniform_initialise : Op.Uniform State.aside initialise :=
  uniform_call aside_unread _ (uniform_forgetting (uniform_bind (uniform_line aside_unread _) fun _ =>
    uniform_bind (uniform_same fun _ _ => rfl) fun _ => uniform_readBind (fun _ _ => rfl) fun entries =>
    uniform_bind (uniform_initLoop entries) fun _ => uniform_line aside_unread _) (fun _ _ => rfl) (fun _ _ => rfl))

theorem uniform_uploadSequence (mux program : List Byte) : Op.Uniform State.aside (uploadSequence mux program) := by
  have l : ∀ n, Op.Uniform State.aside (line n) := uniform_line aside_unread
  have m : ∀ sub val, Op.Uniform State.aside (memWrite sub val) := uniform_memWrite
  have e : ∀ v, Op.Uniform State.aside (setEngineCmd v) := fun _ => uniform_same fun _ _ => rfl
  have p : ∀ v, Op.Uniform State.aside (setPageCmd v) := fun _ => uniform_same fun _ _ => rfl
  have u : ∀ bytes, Op.Uniform State.aside (upload bytes) := fun bytes =>
    uniform_readBind (fun _ _ => rfl) fun _ => uniform_writeBulk _ _ bytes
  exact uniform_bind (l _) fun _ => uniform_bind (uniform_bind (m _ _) fun _ => e _) fun _ => uniform_bind (l _) fun _ =>
    uniform_bind (uniform_bind (m _ _) fun _ => p _) fun _ => uniform_bind (l _) fun _ => uniform_bind (u _) fun _ =>
    uniform_bind (l _) fun _ => uniform_bind (uniform_bind (m _ _) fun _ => p _) fun _ => uniform_bind (l _) fun _ =>
    uniform_bind (u _) fun _ => uniform_bind (l _) fun _ => uniform_bind (uniform_bind (m _ _) fun _ => e _) fun _ =>
    uniform_bind (l _) fun _ => uniform_bind (m _ _) fun _ => uniform_bind (l _) fun _ => uniform_bind (m _ _) fun _ => e _

theorem uniform_loadProgram (mux program : List Byte) : Op.Uniform State.aside (loadProgram mux program) := by
  refine uniform_call aside_unread _ (uniform_bind (uniform_line aside_unread _) fun _ => ?_)
  split
  · exact uniform_raise _
  · exact uniform_uploadSequence mux program

theorem uniform_playTape (index : Byte) : Op.Uniform State.aside (playTape index) := by
  refine uniform_call aside_unread _ (uniform_bind (uniform_line aside_unread _) fun _ =>
    uniform_bind (uniform_same fun _ _ => rfl) fun _ => uniform_bind (uniform_line aside_unread _) fun _ =>
    uniform_readBind (fun _ _ => rfl) fun tape => ?_)
  split
  · exact uniform_raise _
  · exact uniform_bind (uniform_line aside_unread _) fun _ => uniform_readBind (fun _ _ => rfl) fun c =>
      uniform_loadProgram _ _

/-- What an operation does not write it gives back: issued with other values aside, it does the same and leaves those. -/
theorem uniform_aside {x : Op α} (hu : Op.Uniform State.aside x) (hpc : ∀ s, (Op.apply x s).2.pc = s.pc)
    (hh : ∀ s, hostPart (Op.apply x s).2 = hostPart s) (s : State) (d : Aside) :
    Op.apply x (s.aside d) = ((Op.apply x s).1, (Op.apply x s).2.aside d) := by
  obtain ⟨⟨p, r, b0, b1⟩, e⟩ := hu s d
  rw [e]
  have h1 := hpc (s.aside d)
  obtain ⟨_, _, _, h2, h3, h4, _⟩ := hostPart_eq (hh (s.aside d))
  rw [e] at h1 h2 h3 h4
  have h1 : p = d.pc := h1
  have h2 : b0 = d.buf0 := h2
  have h3 : b1 = d.buf1 := h3
  have h4 : r = d.result := h4
  rw [h1, h2, h3, h4]

/-- s with another control point and another result. -/
def State.placed (s : State) (d : ControlPoint × Result) : State := { s with pc := d.1, result := d.2 }

/-- An operation that gives the control point back and writes no result, issued at another control point, does the same
and gives that control point back. -/
theorem uniform_place {x : Op α} (hu : Op.Uniform State.aside x) (hpc : ∀ s, (Op.apply x s).2.pc = s.pc)
    (hh : ∀ s, hostPart (Op.apply x s).2 = hostPart s) (s : State) (p : ControlPoint) (r : Result) :
    Op.apply x (s.placed (p, r)) = ((Op.apply x s).1, (Op.apply x s).2.placed (p, r)) := by
  have e : s.placed (p, r) = s.aside { pc := p, result := r, buf0 := s.buf0, buf1 := s.buf1 } := rfl
  obtain ⟨_, _, _, h2, h3, _⟩ := hostPart_eq (hh s)
  rw [e, uniform_aside hu hpc hh, ← h2, ← h3]
  rfl

end Sys2Proof.Machine
end

