-- ==== Sys2Proof/Laws/Composed.lean ====
section
/-! SUPPORT. An operation made of transactions does what the transactions do when each is issued on its own (R50, R97,
R99, R109, R111), and `RUN` does what its operations do (R125), in every environment. -/

namespace Sys2Proof.Machine

variable {α β : Type}

/-! ## Issuing -/

theorem issue_session {i : Instr} {s : State} (hi : i.opcode.toNat < 0xA) (h : s.SessionReady) :
    issue i s = sessionResult i s := by
  unfold issue
  rw [exec_session hi h]

theorem finish_failure (x : Op Unit) (s : State) : (finish returnsSuccess x s).failure =
    match (Op.apply x s).1 with
    | .ok _ => none
    | .error e => some e := by
  unfold finish State.failure
  rcases (Op.apply x s).1 with e | a <;> rfl

theorem issue_setReg {dev sub val : Byte} {s : State} (h : s.SessionReady) :
    issue (.setreg dev sub val) s = finish returnsSuccess (setReg dev sub val) s :=
  issue_session (by simp [Instr.opcode]) h

theorem issue_setReg_ready {dev sub val : Byte} {s : State} (h : s.SessionReady) :
    (issue (.setreg dev sub val) s).SessionReady := by
  rw [issue_setReg h]
  obtain ⟨h1, h2, h3⟩ := h
  have hp : (finish returnsSuccess (setReg dev sub val) s).pc = s.pc := setReg_pc dev sub val s
  have hs : (finish returnsSuccess (setReg dev sub val) s).session = s.session :=
    (hostPart_eq (respects_setReg hostPart_prog.reg dev sub val s)).2.1
  unfold State.SessionReady
  rw [hp, hs]
  exact ⟨h1, h2, h3⟩

/-! ## What is carried between transactions -/

/-- The fields that an operation made of transactions changes between them. -/
structure Carried where
  pc : ControlPoint
  result : Result
  bulkI : Byte
  initI : BitVec 4
  engineCmd : EngineCmd
  pageCmd : PageCmd

/-- s with other values of these fields. -/
def State.carried (s : State) (d : Carried) : State :=
  { s with
    pc := d.pc
    result := d.result
    work := { s.work with bulkI := d.bulkI, initI := d.initI }
    ghost := { s.ghost with engineCmd := d.engineCmd, pageCmd := d.pageCmd } }

/-- The values s has. -/
def State.carries (s : State) : Carried :=
  { pc := s.pc, result := s.result, bulkI := s.work.bulkI, initI := s.work.initI, engineCmd := s.ghost.engineCmd,
    pageCmd := s.ghost.pageCmd }

theorem carried_self (s : State) : s.carried s.carries = s := rfl

theorem carried_unread : Unread State.carried where
  pc := fun s d f => ⟨{ d with pc := f d.pc }, rfl⟩
  out := fun _ _ p _ => by cases p <;> rfl
  inp := fun _ _ => rfl
  rd := fun _ _ => rfl
  emit := fun _ _ _ => rfl
  busy := fun _ _ _ => rfl
  flags := fun _ _ _ => rfl
  readFlags := fun _ _ => rfl
  env := fun _ _ => rfl
  session := fun _ _ => rfl
  cfg := fun _ _ => rfl
  remote := fun _ _ => rfl
  setRemote := fun _ _ _ => rfl
  byteRegs := fun _ _ => ⟨rfl, rfl⟩
  operandRegs := fun _ _ => ⟨rfl, rfl, rfl⟩
  load := fun _ _ _ _ => rfl
  count := fun _ _ _ => rfl
  operands := fun _ _ _ _ _ => rfl

/-- A transaction inside another operation is the transaction issued on its own, apart from what is carried; and what is
carried is as it was. -/
theorem setReg_carried (dev sub val : Byte) (u : State) (d : Carried) :
    Op.apply (setReg dev sub val) (u.carried d) =
      ((Op.apply (setReg dev sub val) u).1, (Op.apply (setReg dev sub val) u).2.carried d) := by
  obtain ⟨d', e⟩ := uniform_setReg carried_unread dev sub val u d
  rw [e]
  have hpc := setReg_pc dev sub val (u.carried d)
  have hpart := respects_setReg bulkPart_reg dev sub val (u.carried d)
  have hbulk := setReg_bulkI dev sub val (u.carried d)
  have hres := (hostPart_eq (respects_setReg hostPart_prog.reg dev sub val (u.carried d))).2.2.2.2.2.1
  rw [e] at hpc hpart hbulk hres
  have h1 : d'.pc = d.pc := hpc
  have h2 : d'.result = d.result := hres
  have h3 : d'.bulkI = d.bulkI := hbulk
  have h4 : d'.initI = d.initI := congrArg (fun p => p.1) hpart
  have h5 : d'.engineCmd = d.engineCmd := congrArg (fun p => p.2.2.2.1) hpart
  have h6 : d'.pageCmd = d.pageCmd := congrArg (fun p => p.2.2.2.2) hpart
  have : d' = d := by
    cases d'; cases d
    simp_all
  rw [this]

/-- One transaction, inside and on its own. -/
theorem setReg_issued {dev sub val : Byte} {u : State} (h : u.SessionReady) (d : Carried) :
    ((issue (.setreg dev sub val) u).failure = none ∧ Op.apply (setReg dev sub val) (u.carried d) =
      (.ok (), (issue (.setreg dev sub val) u).carried d)) ∨
    (∃ e, (issue (.setreg dev sub val) u).failure = some e ∧ Op.apply (setReg dev sub val) (u.carried d) =
      (.error e, (issue (.setreg dev sub val) u).carried d)) := by
  rw [issue_setReg h, finish_failure, setReg_carried]
  rcases hr : (Op.apply (setReg dev sub val) u).1 with e | a
  · exact .inr ⟨e, rfl, rfl⟩
  · exact .inl ⟨rfl, rfl⟩

theorem setRegs_cons_ok {w : Byte × Byte × Byte} {ws : List (Byte × Byte × Byte)} {u : State}
    (h : (issue (.setreg w.1 w.2.1 w.2.2) u).failure = none) :
    setRegs (w :: ws) u = setRegs ws (issue (.setreg w.1 w.2.1 w.2.2) u) := by
  rw [setRegs, h]

theorem setRegs_cons_error {w : Byte × Byte × Byte} {ws : List (Byte × Byte × Byte)} {u : State} {e : Error}
    (h : (issue (.setreg w.1 w.2.1 w.2.2) u).failure = some e) :
    setRegs (w :: ws) u = issue (.setreg w.1 w.2.1 w.2.2) u := by
  rw [setRegs, h]

theorem setRegs_ready (ws : List (Byte × Byte × Byte)) : ∀ u : State, u.SessionReady → (setRegs ws u).SessionReady := by
  induction ws with
  | nil => exact fun u h => h
  | cons w ws ih =>
    intro u h
    rcases hf : (issue (.setreg w.1 w.2.1 w.2.2) u).failure with _ | e
    · rw [setRegs_cons_ok hf]
      exact ih _ (issue_setReg_ready h)
    · rw [setRegs_cons_error hf]
      exact issue_setReg_ready h

/-- Issuing two lists, one after the other. -/
theorem setRegs_append (ws vs : List (Byte × Byte × Byte)) : ∀ u : State, u.failure = none →
    setRegs (ws ++ vs) u =
      match (setRegs ws u).failure with
      | none => setRegs vs (setRegs ws u)
      | some _ => setRegs ws u := by
  induction ws with
  | nil =>
    intro u h
    show setRegs vs u = match u.failure with
      | none => setRegs vs u
      | some _ => u
    rw [h]
  | cons w ws ih =>
    intro u h
    rcases hf : (issue (.setreg w.1 w.2.1 w.2.2) u).failure with _ | e
    · rw [List.cons_append, setRegs_cons_ok hf, setRegs_cons_ok hf, ih _ hf]
    · rw [List.cons_append, setRegs_cons_error hf, setRegs_cons_error hf, hf]

/-! ## WRITEBULK (R99) -/

/-- How a loop over transactions ends, against the transactions issued on their own: `v` is what they leave, `r` what the
loop leaves; `log` is what the loop adds when it fails. -/
def LoopIs (r : Except Error Unit × State) (v : State) (log : List Event) : Prop :=
  (v.failure = none → r.1 = .ok () ∧ ∃ d, r.2 = v.carried d) ∧
  (∀ e, v.failure = some e → r.1 = .error e ∧ ∃ d m, r.2 = ((v.setTrace (v.trace ++ log)).setRemote m).carried d)

theorem bulkLoop_issued (dev start : Byte) (bytes : List Byte) : ∀ (u : State) (d : Carried), u.SessionReady →
    u.failure = none →
    ∃ j, j ≤ bytes.length ∧
      (Op.apply (bulkLoop dev start bytes) (u.carried d)).2.work.bulkI = d.bulkI + BitVec.ofNat 8 j ∧
      (Op.apply (bulkLoop dev start bytes) (u.carried d)).2.ghost.engineCmd = d.engineCmd ∧
      (Op.apply (bulkLoop dev start bytes) (u.carried d)).2.ghost.pageCmd = d.pageCmd ∧
      LoopIs (Op.apply (bulkLoop dev start bytes) (u.carried d)) (setRegs (bulkWrites dev (start + d.bulkI) bytes) u)
        [.log (.failedAtByte (d.bulkI + BitVec.ofNat 8 j))] ∧
      ((setRegs (bulkWrites dev (start + d.bulkI) bytes) u).failure = none → j = bytes.length) ∧
      ((setRegs (bulkWrites dev (start + d.bulkI) bytes) u).failure ≠ none → j < bytes.length ∧
        setRegs (bulkWrites dev (start + d.bulkI) bytes) u =
          setRegs ((bulkWrites dev (start + d.bulkI) bytes).take (j + 1)) u ∧
        (setRegs ((bulkWrites dev (start + d.bulkI) bytes).take j) u).failure = none) := by
  induction bytes with
  | nil =>
    intro u d hu hf
    refine ⟨0, Nat.le_refl _, ?_, rfl, rfl, ⟨fun _ => ⟨rfl, ⟨{ d with pc := d.pc.atStep 2 }, rfl⟩⟩, ?_⟩, fun _ => rfl, ?_⟩
    · show d.bulkI = d.bulkI + 0#8
      rw [BitVec.add_zero]
    · intro e he
      rw [show setRegs (bulkWrites dev (start + d.bulkI) []) u = u from rfl, hf] at he
      cases he
    · intro h
      exact absurd hf h
  | cons b rest ih =>
    intro u d hu hf
    have hstep : Op.apply (bulkLoop dev start (b :: rest)) (u.carried d) =
        Op.apply (do
          match ← attempt (setReg dev (start + d.bulkI) b) with
          | .ok _ =>
            line 7
            update fun s => s.setBulkI (s.work.bulkI + 1#8)
            bulkLoop dev start rest
          | .error e =>
            line 5
            logMessage (.failedAtByte d.bulkI)
            line 6
            raise e) (u.carried { d with pc := (d.pc.atStep 2).atStep 3 }) := rfl
    rw [hstep, apply_attempt_bind]
    rcases setReg_issued (dev := dev) (sub := start + d.bulkI) (val := b) hu { d with pc := (d.pc.atStep 2).atStep 3 } with
      ⟨hn, hr⟩ | ⟨e, hn, hr⟩
    · have hw : bulkWrites dev (start + d.bulkI) (b :: rest) =
          (dev, start + d.bulkI, b) :: bulkWrites dev (start + (d.bulkI + 1#8)) rest := by
        rw [bulkWrites, BitVec.add_assoc]
      have hset : ∀ ws, setRegs ((dev, start + d.bulkI, b) :: ws) u = setRegs ws (issue (.setreg dev (start + d.bulkI) b) u) :=
        fun _ => setRegs_cons_ok hn
      have hv := issue_setReg_ready (dev := dev) (sub := start + d.bulkI) (val := b) hu
      rw [hr, hw, hset]
      generalize issue (.setreg dev (start + d.bulkI) b) u = v at hn hv hset ⊢
      simp only [apply_line_bind, apply_update_bind]
      obtain ⟨j, h1, h2, h3, h4, h5, h6, h7⟩ := ih v
        { d with pc := ((d.pc.atStep 2).atStep 3).atStep 7, bulkI := d.bulkI + 1#8 } hv hn
      have hj : d.bulkI + 1#8 + BitVec.ofNat 8 j = d.bulkI + BitVec.ofNat 8 (j + 1) := by
        rw [BitVec.add_assoc, Nat.add_comm j 1, BitVec.ofNat_add]
      refine ⟨j + 1, Nat.succ_le_succ h1, h2.trans hj, h3, h4, ?_, fun h => congrArg (· + 1) (h6 h), fun h => ?_⟩
      · rw [← hj]
        exact h5
      · obtain ⟨g1, g2, g3⟩ := h7 h
        refine ⟨Nat.succ_lt_succ g1, ?_, ?_⟩
        · rw [List.take_succ_cons, hset]
          exact g2
        · rw [List.take_succ_cons, hset]
          exact g3
    · have hset : ∀ ws, setRegs ((dev, start + d.bulkI, b) :: ws) u = issue (.setreg dev (start + d.bulkI) b) u :=
        fun _ => setRegs_cons_error hn
      rw [hr, bulkWrites, hset]
      generalize issue (.setreg dev (start + d.bulkI) b) u = v at hn hset ⊢
      refine ⟨0, Nat.zero_le _, (BitVec.add_zero d.bulkI).symm, rfl, rfl, ⟨?_, ?_⟩, ?_, ?_⟩
      · rw [hn]
        intro h
        cases h
      · rw [hn]
        intro e' he'
        cases he'
        refine ⟨rfl, { d with pc := ((((d.pc.atStep 2).atStep 3).atStep 5).atStep 6) }, v.remote, ?_⟩
        rw [show d.bulkI + BitVec.ofNat 8 0 = d.bulkI from BitVec.add_zero _]
        rfl
      · rw [hn]
        intro h
        cases h
      · intro _
        exact ⟨Nat.zero_lt_succ _, (hset _).symm, hf⟩

/-! ## Operations that are sequences of transactions -/

theorem issue_setReg_cfg {dev sub val : Byte} {s : State} (h : s.SessionReady) :
    (issue (.setreg dev sub val) s).cfg = s.cfg := by
  rw [issue_setReg h]
  exact (hostPart_eq (respects_setReg hostPart_prog.reg dev sub val s)).1

theorem setRegs_cfg (ws : List (Byte × Byte × Byte)) : ∀ u : State, u.SessionReady → (setRegs ws u).cfg = u.cfg := by
  induction ws with
  | nil => exact fun _ _ => rfl
  | cons w ws ih =>
    intro u h
    rcases hf : (issue (.setreg w.1 w.2.1 w.2.2) u).failure with _ | e
    · rw [setRegs_cons_ok hf, ih _ (issue_setReg_ready h), issue_setReg_cfg h]
    · rw [setRegs_cons_error hf, issue_setReg_cfg h]

/-- What was returned is success or the error (R97). -/
theorem setRegs_result (ws : List (Byte × Byte × Byte)) : ∀ u : State, u.SessionReady → u.result = .status .success →
    (setRegs ws u).result = match (setRegs ws u).failure with
      | none => .status .success
      | some e => .status (.error e) := by
  induction ws with
  | nil =>
    intro u _ h
    show u.result = match u.failure with
      | none => .status .success
      | some e => .status (.error e)
    unfold State.failure
    rw [h]
  | cons w ws ih =>
    intro u h hres
    have hi := issue_setReg (dev := w.1) (sub := w.2.1) (val := w.2.2) h
    rcases hr : (Op.apply (setReg w.1 w.2.1 w.2.2) u).1 with e | a
    · have hf : (issue (.setreg w.1 w.2.1 w.2.2) u).failure = some e := by rw [hi, finish_failure, hr]
      rw [setRegs_cons_error hf, hf, hi]
      show resultOf returnsSuccess (Op.apply (setReg w.1 w.2.1 w.2.2) u).1 = _
      rw [hr]
      rfl
    · have hf : (issue (.setreg w.1 w.2.1 w.2.2) u).failure = none := by rw [hi, finish_failure, hr]
      rw [setRegs_cons_ok hf]
      refine ih _ (issue_setReg_ready h) ?_
      rw [hi]
      show resultOf returnsSuccess (Op.apply (setReg w.1 w.2.1 w.2.2) u).1 = _
      rw [hr]
      rfl

/-- The registers and ghosts that tell how far an operation came. -/
structure Marks where
  bulkI : Byte
  initI : BitVec 4
  engineCmd : EngineCmd
  pageCmd : PageCmd

/-- The marks among what is carried. -/
def Carried.marks (d : Carried) : Marks :=
  { bulkI := d.bulkI, initI := d.initI, engineCmd := d.engineCmd, pageCmd := d.pageCmd }

/-- The marks a state has. -/
def State.marks (s : State) : Marks := s.carries.marks

/-- What an operation made of transactions shows when its write number j is the first to fail: the events it adds, and
its marks, from those it began with; at the number of its writes, its marks when none fails. -/
structure Progress where
  log : Nat → List Event
  marks : Nat → Marks → Marks

/-- No events, and marks that do not depend on the writes. -/
def Progress.mark (f : Marks → Marks) : Progress := { log := fun _ => [], marks := fun _ => f }

/-- One operation of n writes and then another. -/
def Progress.seq (n : Nat) (p q : Progress) : Progress :=
  { log := fun j => if j < n then p.log j else q.log (j - n)
    marks := fun j m => if j < n then p.marks j m else q.marks (j - n) (p.marks n m) }

theorem Progress.seq_marks_lt {n j : Nat} {p q : Progress} (h : j < n) (m : Marks) :
    (Progress.seq n p q).marks j m = p.marks j m := if_pos h

theorem Progress.seq_marks_ge {n j : Nat} {p q : Progress} (h : n ≤ j) (m : Marks) :
    (Progress.seq n p q).marks j m = q.marks (j - n) (p.marks n m) := if_neg (Nat.not_lt.mpr h)

/-- `ws` issued from u fail first at write number j. -/
def FailsAt (ws : List (Byte × Byte × Byte)) (u : State) (j : Nat) : Prop :=
  j < ws.length ∧ setRegs ws u = setRegs (ws.take (j + 1)) u ∧ (setRegs (ws.take j) u).failure = none

/-- With the parameters c, x does what the transactions `ws` do when each is issued on its own; where one fails, x adds
the events of its progress, and what is known of the responder may be less. -/
def SegmentIs (c : Config) (x : Op Unit) (ws : List (Byte × Byte × Byte)) (p : Progress) : Prop :=
  ∀ (u : State) (d : Carried), u.SessionReady → u.failure = none → u.cfg = c →
    ((setRegs ws u).failure = none → ∃ d', Op.apply x (u.carried d) = (.ok (), (setRegs ws u).carried d') ∧
      d'.marks = p.marks ws.length d.marks) ∧
    (∀ e, (setRegs ws u).failure = some e → ∃ j d' m, FailsAt ws u j ∧
      Op.apply x (u.carried d) =
        (.error e, (((setRegs ws u).setTrace ((setRegs ws u).trace ++ p.log j)).setRemote m).carried d') ∧
      d'.marks = p.marks j d.marks)

variable {c : Config} {p q : Progress}

/-- Progress counts up to the number of writes only. -/
theorem segment_congr {x : Op Unit} {ws : List (Byte × Byte × Byte)} (h : SegmentIs c x ws p)
    (hl : ∀ j, j < ws.length → p.log j = q.log j) (hm : ∀ j m, j ≤ ws.length → p.marks j m = q.marks j m) :
    SegmentIs c x ws q := by
  intro u d hu hf hc
  obtain ⟨h1, h2⟩ := h u d hu hf hc
  refine ⟨fun hn => ?_, fun e he => ?_⟩
  · obtain ⟨d', e1, e2⟩ := h1 hn
    exact ⟨d', e1, e2.trans (hm _ _ (Nat.le_refl _))⟩
  · obtain ⟨j, d', m, hj, e1, e2⟩ := h2 e he
    exact ⟨j, d', m, hj, by rw [e1, hl j hj.1], e2.trans (hm _ _ (Nat.le_of_lt hj.1))⟩

theorem segment_skip {x : Op Unit} (f : Marks → Marks)
    (h : ∀ (u : State) (d : Carried), ∃ d', Op.apply x (u.carried d) = (.ok (), u.carried d') ∧ d'.marks = f d.marks) :
    SegmentIs c x [] (.mark f) := by
  intro u d _ hf _
  refine ⟨fun _ => h u d, fun e he => ?_⟩
  have he : u.failure = some e := he
  rw [hf] at he
  cases he

theorem segment_line (n : Nat) : SegmentIs c (line n) [] (.mark id) :=
  segment_skip id fun _ d => ⟨{ d with pc := d.pc.atStep n }, rfl, rfl⟩

theorem segment_bind {x : Op Unit} {y : Unit → Op Unit} {ws vs : List (Byte × Byte × Byte)} (hx : SegmentIs c x ws p)
    (hy : SegmentIs c (y ()) vs q) : SegmentIs c (x >>= y) (ws ++ vs) (.seq ws.length p q) := by
  intro u d hu hf hc
  obtain ⟨h1, h2⟩ := hx u d hu hf hc
  have happ := fun vs => setRegs_append ws vs u hf
  rcases hw : (setRegs ws u).failure with _ | e
  · simp only [hw] at happ
    obtain ⟨d1, e1, m1⟩ := h1 hw
    rw [apply_bind_ok e1, happ]
    obtain ⟨g1, g2⟩ := hy _ d1 (setRegs_ready ws u hu) hw ((setRegs_cfg ws u hu).trans hc)
    refine ⟨fun hn => ?_, fun e he => ?_⟩
    · obtain ⟨d2, e2, m2⟩ := g1 hn
      refine ⟨d2, e2, m2.trans ?_⟩
      simp [Progress.seq, m1]
    · obtain ⟨j, d2, m, ⟨hj, hj1, hj2⟩, e2, m2⟩ := g2 e he
      refine ⟨ws.length + j, d2, m, ⟨?_, ?_, ?_⟩, ?_, ?_⟩
      · rw [List.length_append]
        omega
      · rw [Nat.add_assoc, List.take_length_add_append, happ, happ]
        exact hj1
      · rw [List.take_length_add_append, happ]
        exact hj2
      · rw [e2]
        simp [Progress.seq]
      · rw [m2, m1]
        simp [Progress.seq]
  · simp only [hw] at happ
    obtain ⟨j, d1, m, ⟨hj, hj1, hj2⟩, e1, m1⟩ := h2 e hw
    rw [apply_bind_error e1, happ]
    refine ⟨fun h => ?_, fun e' he' => ?_⟩
    · rw [hw] at h
      cases h
    · rw [hw] at he'
      cases he'
      refine ⟨j, d1, m, ⟨?_, ?_, ?_⟩, ?_, ?_⟩
      · rw [List.length_append]
        omega
      · rw [happ, List.take_append_of_le_length hj]
        exact hj1
      · rw [List.take_append_of_le_length (Nat.le_of_lt hj)]
        exact hj2
      · simp [Progress.seq, hj]
      · rw [m1]
        simp [Progress.seq, hj]

theorem segment_then {x y : Op Unit} {ws vs : List (Byte × Byte × Byte)} (hx : SegmentIs c x ws p)
    (hy : SegmentIs c y vs q) : SegmentIs c (x >>= fun _ => y) (ws ++ vs) (.seq ws.length p q) := segment_bind hx hy

/-- A piece without writes before an operation. -/
theorem segment_before {x y : Op Unit} {ws : List (Byte × Byte × Byte)} {f : Marks → Marks}
    (hx : SegmentIs c x [] (.mark f)) (hy : SegmentIs c y ws q) :
    SegmentIs c (x >>= fun _ => y) ws { q with marks := fun j m => q.marks j (f m) } :=
  segment_congr (segment_then hx hy) (fun _ _ => by simp [Progress.seq]) fun _ _ _ => by simp [Progress.seq, Progress.mark]

/-- A step number before an operation. -/
theorem segment_at (n : Nat) {y : Op Unit} {ws : List (Byte × Byte × Byte)} (hy : SegmentIs c y ws q) :
    SegmentIs c (line n >>= fun _ => y) ws q := segment_before (segment_line n) hy

/-- A step number after an operation. -/
theorem segment_to (n : Nat) {x : Op Unit} {ws : List (Byte × Byte × Byte)} (hx : SegmentIs c x ws p) :
    SegmentIs c (x >>= fun _ => line n) ws p := by
  have h := segment_then hx (segment_line n)
  rw [List.append_nil] at h
  refine segment_congr h (fun j hj => if_pos hj) fun j m hj => ?_
  rcases Nat.lt_or_eq_of_le hj with h | rfl
  · exact if_pos h
  · simp [Progress.seq, Progress.mark]

theorem segment_call (op : OpName) {x : Op Unit} {ws : List (Byte × Byte × Byte)} (hx : SegmentIs c x ws p) :
    SegmentIs c (call op x) ws p := by
  intro u d hu hf hc
  obtain ⟨h1, h2⟩ := hx u { d with pc := d.pc.push op } hu hf hc
  have hp : (u.carried d).pushFrame op = u.carried { d with pc := d.pc.push op } := rfl
  rw [apply_call, hp]
  refine ⟨fun h => ?_, fun e h => ?_⟩
  · obtain ⟨d1, e1, m1⟩ := h1 h
    rw [e1]
    exact ⟨{ d1 with pc := d1.pc.pop }, rfl, m1⟩
  · obtain ⟨j, d1, m, hj, e1, m1⟩ := h2 e h
    rw [e1]
    exact ⟨j, { d1 with pc := d1.pc.pop }, m, hj, rfl, m1⟩

theorem segment_forgetting {dev : State → Byte} {subs : State → List Byte} {x : Op Unit}
    {ws : List (Byte × Byte × Byte)} (hx : SegmentIs c x ws p) :
    SegmentIs c (forgettingOnError dev subs x) ws p := by
  intro u d hu hf hc
  obtain ⟨h1, h2⟩ := hx u d hu hf hc
  unfold forgettingOnError
  rw [apply_attempt_bind]
  refine ⟨fun h => ?_, fun e h => ?_⟩
  · obtain ⟨d1, e1, m1⟩ := h1 h
    rw [e1]
    exact ⟨d1, rfl, m1⟩
  · obtain ⟨j, d1, m, hj, e1, m1⟩ := h2 e h
    rw [e1]
    generalize hz : (((setRegs ws u).setTrace ((setRegs ws u).trace ++ p.log j)).setRemote m).carried d1 = z
    refine ⟨j, d1, z.remote.forgetAll z.cfg (dev z) (subs z), hj, ?_, m1⟩
    rw [← hz]
    rfl

theorem segment_setReg (dev sub val : Byte) : SegmentIs c (setReg dev sub val) [(dev, sub, val)] (.mark id) := by
  intro u d hu hfail _
  rcases setReg_issued (dev := dev) (sub := sub) (val := val) hu d with ⟨hn, hr⟩ | ⟨e, hn, hr⟩
  · have hset : setRegs [(dev, sub, val)] u = issue (.setreg dev sub val) u :=
      setRegs_cons_ok (w := (dev, sub, val)) (ws := []) hn
    rw [hset, hr]
    refine ⟨fun _ => ⟨d, rfl, rfl⟩, fun e' he' => ?_⟩
    rw [hn] at he'
    cases he'
  · have hset : setRegs [(dev, sub, val)] u = issue (.setreg dev sub val) u :=
      setRegs_cons_error (w := (dev, sub, val)) (ws := []) hn
    rw [hset, hr]
    have hfirst : FailsAt [(dev, sub, val)] u 0 := ⟨Nat.zero_lt_one, rfl, hfail⟩
    generalize issue (.setreg dev sub val) u = v at hn
    refine ⟨fun h => ?_, fun e' he' => ?_⟩
    · rw [hn] at h
      cases h
    · rw [hn] at he'
      cases he'
      refine ⟨0, d, v.remote, hfirst, ?_, rfl⟩
      rw [Progress.mark, List.append_nil]
      rfl

theorem segment_memWrite (sub val : Config → Byte) :
    SegmentIs c (memWrite sub val) [(c.devAddr, sub c, val c)] (.mark id) := by
  intro u d hu hf hc
  subst hc
  unfold memWrite
  rw [apply_readState_bind]
  exact segment_setReg u.cfg.devAddr (sub u.cfg) (val u.cfg) u d hu hf rfl

/-! ### INITIALIZE (R109) -/

/-- `INIT_I` counts the entries written. -/
def initProgress : Progress :=
  { log := fun _ => [], marks := fun j m => { m with initI := m.initI + BitVec.ofNat 4 j } }

theorem segment_initLoop (entries : List (Byte × Byte)) :
    SegmentIs c (initLoop entries) (entries.map fun e => (c.devAddr, e.1, e.2)) initProgress := by
  induction entries with
  | nil =>
    refine segment_congr (segment_line 2) (fun _ _ => rfl) fun j m hj => ?_
    obtain rfl : j = 0 := Nat.le_zero.mp hj
    simp [Progress.mark, initProgress]
  | cons e rest ih =>
    have count : SegmentIs c (update fun s => s.setInitI (s.work.initI + 1#4)) []
        (.mark fun m => { m with initI := m.initI + 1#4 }) :=
      segment_skip _ fun _ d => ⟨{ d with initI := d.initI + 1#4 }, rfl, rfl⟩
    refine segment_congr (segment_at 2 (segment_at 3 (segment_at 4
      (segment_bind (segment_memWrite (fun _ => e.1) (fun _ => e.2)) (segment_at 6 (segment_before count ih))))))
      (fun j _ => by simp [Progress.seq, Progress.mark, initProgress]) fun j m _ => ?_
    rcases j with _ | j
    · simp [Progress.seq, Progress.mark, initProgress]
    · simp [Progress.seq, Progress.mark, initProgress, BitVec.add_assoc, Nat.add_comm j 1, BitVec.ofNat_add]

theorem segment_initialise : SegmentIs c initialise (initWrites c)
    { log := fun _ => [], marks := fun j m => { m with initI := BitVec.ofNat 4 j } } := by
  have body : SegmentIs c (readState (·.cfg.initSeq) >>= fun entries => initLoop entries >>= fun _ => line 7)
      (initWrites c) initProgress := by
    intro u d hu hf hc
    subst hc
    exact segment_to 7 (segment_initLoop u.cfg.initSeq) u d hu hf rfl
  have clear : SegmentIs c (update fun s => s.setInitI 0#4) [] (.mark fun m => { m with initI := 0#4 }) :=
    segment_skip _ fun _ d => ⟨{ d with initI := 0#4 }, rfl, rfl⟩
  exact segment_call _ (segment_forgetting (segment_congr (segment_at 1 (segment_before clear body))
    (fun _ _ => rfl) fun _ _ _ => by simp [initProgress]))

/-! ### WRITEBULK (R99) and LOADPROGRAM (R111) -/

/-- A failed bulk write logs the index of its byte, left in `BULK_I`. -/
def bulkProgress : Progress :=
  { log := fun j => [.log (.failedAtByte (BitVec.ofNat 8 j))], marks := fun j m => { m with bulkI := BitVec.ofNat 8 j } }

theorem segment_bulk (dev start : Byte) (bytes : List Byte) :
    SegmentIs c (update (fun s => s.setBulkI 0#8) >>= fun _ => bulkLoop dev start bytes) (bulkWrites dev start bytes)
      bulkProgress := by
  intro u d hu hf _
  rw [apply_update_bind]
  change ((setRegs (bulkWrites dev start bytes) u).failure = none → ∃ d',
      Op.apply (bulkLoop dev start bytes) (u.carried { d with bulkI := 0#8 }) = _ ∧ _) ∧ ∀ e, _ → ∃ j d' m, _ ∧
      Op.apply (bulkLoop dev start bytes) (u.carried { d with bulkI := 0#8 }) = _ ∧ _
  obtain ⟨j, _, h1, h2, h3, ⟨h4, h5⟩, h6, h7⟩ := bulkLoop_issued dev start bytes u { d with bulkI := 0#8 } hu hf
  have hi : (Op.apply (bulkLoop dev start bytes) (u.carried { d with bulkI := 0#8 })).2.work.initI = d.initI :=
    congrArg (fun k => k.1) (respects_bulkLoop bulkPart_reg dev start bytes _)
  simp only [BitVec.add_zero, BitVec.zero_add] at h1 h4 h5 h6 h7
  generalize Op.apply (bulkLoop dev start bytes) (u.carried { d with bulkI := 0#8 }) = r at *
  obtain ⟨r1, r2⟩ := r
  have key : ∀ (d' : Carried) (v : State), r2 = v.carried d' → d'.marks = bulkProgress.marks j d.marks := by
    rintro d' v rfl
    simp only [State.carried] at h1 h2 h3 hi
    simp [Carried.marks, bulkProgress, h1, h2, h3, hi]
  refine ⟨fun hn => ?_, fun e he => ?_⟩
  · obtain ⟨g1, d', g2⟩ := h4 hn
    refine ⟨d', Prod.ext g1 g2, ?_⟩
    rw [bulkWrites_length, ← h6 hn]
    exact key d' _ g2
  · obtain ⟨g1, d', m, g2⟩ := h5 e he
    obtain ⟨g3, g4, g5⟩ := h7 (by rw [he]; simp)
    exact ⟨j, d', m, ⟨by rw [bulkWrites_length]; exact g3, g4, g5⟩, Prod.ext g1 g2, key d' _ g2⟩

theorem segment_writeBulk (dev start : Byte) (bytes : List Byte) :
    SegmentIs c (writeBulk dev start bytes) (bulkWrites dev start bytes) bulkProgress := by
  have e : (do
      line 1
      update fun s => s.setBulkI 0#8
      bulkLoop dev start bytes
      line 8) = (line 1 >>= fun _ => (update (fun s => s.setBulkI 0#8) >>= fun _ => bulkLoop dev start bytes) >>= fun _ =>
      line 8) := by simp only [bind_assoc]
  refine segment_call _ (segment_forgetting ?_)
  rw [e]
  exact segment_at 1 (segment_to 8 (segment_bulk dev start bytes))

theorem segment_upload (bytes : List Byte) :
    SegmentIs c (upload bytes) (bulkWrites c.devAddr c.progMemBase bytes) bulkProgress := by
  intro u d hu hf hc
  subst hc
  unfold upload
  rw [apply_readState_bind]
  exact segment_writeBulk u.cfg.devAddr u.cfg.progMemBase bytes u d hu hf rfl

/-- The progress of `LOADPROGRAM` with buffers of m and p bytes. -/
def loadProgress (m p : Nat) : Progress :=
  { log := loadLog m p
    marks := fun j k =>
      { k with
        bulkI := if j < 2 then k.bulkI else if j < 3 + m then BitVec.ofNat 8 (j - 2)
          else if j ≤ 3 + m + p then BitVec.ofNat 8 (j - 3 - m) else BitVec.ofNat 8 p
        engineCmd := if j = m + p + 6 then .run else loadEngine m p j k.engineCmd
        pageCmd := loadPage m j k.pageCmd } }

/-- A write and the ghost it sets when it succeeds. -/
def commandProgress (f : Marks → Marks) : Progress :=
  { log := fun _ => [], marks := fun j m => if j = 0 then m else f m }

theorem segment_command {x y : Op Unit} {w : Byte × Byte × Byte} {f : Marks → Marks} (hx : SegmentIs c x [w] (.mark id))
    (hy : SegmentIs c y [] (.mark f)) : SegmentIs c (x >>= fun _ => y) [w] (commandProgress f) := by
  have h := segment_then hx hy
  rw [List.append_nil] at h
  refine segment_congr h (fun j _ => by simp [Progress.seq, Progress.mark, commandProgress]) fun j m _ => ?_
  rcases j with _ | j <;> simp [Progress.seq, Progress.mark, commandProgress]

theorem segment_uploadSequence (mux program : List Byte) :
    SegmentIs c (uploadSequence mux program) (loadWrites c mux program) (loadProgress mux.length program.length) := by
  have w : ∀ sub val, SegmentIs c (memWrite sub val) [(c.devAddr, sub c, val c)] (.mark id) := segment_memWrite
  have e : ∀ v, SegmentIs c (setEngineCmd v) [] (.mark fun m => { m with engineCmd := v }) := fun v =>
    segment_skip _ fun _ d => ⟨{ d with engineCmd := v }, rfl, rfl⟩
  have p : ∀ v, SegmentIs c (setPageCmd v) [] (.mark fun m => { m with pageCmd := v }) := fun v =>
    segment_skip _ fun _ d => ⟨{ d with pageCmd := v }, rfl, rfl⟩
  have all := segment_at 1 (segment_then (segment_command (w (·.regEngMode) (·.valEngLoad)) (e .load))
    (segment_at 2 (segment_then (segment_command (w (·.regPageSel) (·.valPageMux)) (p .mux))
    (segment_at 3 (segment_then (segment_upload mux)
    (segment_at 4 (segment_then (segment_command (w (·.regPageSel) (·.valPageProg)) (p .program))
    (segment_at 5 (segment_then (segment_upload program)
    (segment_at 6 (segment_then (segment_command (w (·.regEngMode) (·.valEngHalt)) (e .halt))
    (segment_at 7 (segment_then (w (·.regEngRun) (·.valEngRun))
    (segment_at 8 (segment_command (w (·.regFreeRun) (·.valFreeRun)) (e .run))))))))))))))))
  have hw : loadWrites c mux program = [(c.devAddr, c.regEngMode, c.valEngLoad)] ++
      ([(c.devAddr, c.regPageSel, c.valPageMux)] ++ (bulkWrites c.devAddr c.progMemBase mux ++
      ([(c.devAddr, c.regPageSel, c.valPageProg)] ++ (bulkWrites c.devAddr c.progMemBase program ++
      ([(c.devAddr, c.regEngMode, c.valEngHalt)] ++ ([(c.devAddr, c.regEngRun, c.valEngRun)] ++
      [(c.devAddr, c.regFreeRun, c.valFreeRun)])))))) := by
    simp [loadWrites]
  have hn : (loadWrites c mux program).length = mux.length + program.length + 6 := by simp [loadWrites]; omega
  rw [← hw] at all
  refine segment_congr all (fun j hj => ?_) fun j k hj => ?_
  · rw [hn] at hj
    simp only [Progress.seq, Progress.mark, commandProgress, bulkProgress, loadProgress, loadLog, List.length_cons,
      List.length_nil, bulkWrites_length]
    split_ifs <;> first | rfl | omega | (congr 4; omega)
  · rw [hn] at hj
    simp only [List.length_cons, List.length_nil, bulkWrites_length]
    have regions : j = 0 ∨ j = 1 ∨ (2 ≤ j ∧ j < 2 + mux.length) ∨ j = 2 + mux.length ∨
        (3 + mux.length ≤ j ∧ j < 3 + mux.length + program.length) ∨ j = 3 + mux.length + program.length ∨
        j = 4 + mux.length + program.length ∨ j = 5 + mux.length + program.length ∨
        j = 6 + mux.length + program.length := by omega
    rcases regions with h | h | h | h | h | h | h | h | h <;>
      simp (disch := omega) only [Progress.seq_marks_lt, Progress.seq_marks_ge, commandProgress, bulkProgress,
        Progress.mark, loadProgress, loadEngine, loadPage, if_pos, if_neg, id] <;>
      (congr 2 <;> omega)

theorem segment_loadProgram {mux program : List Byte} (hm : mux.length ≤ 32) (hp : program.length ≤ 32) :
    SegmentIs c (loadProgram mux program) (loadWrites c mux program) (loadProgress mux.length program.length) := by
  have e : loadProgram mux program = call .loadProgram (line 0 >>= fun _ => uploadSequence mux program) := by
    unfold loadProgram
    rw [if_neg]
    show ¬(decide (32 < mux.length) || decide (32 < program.length)) = true
    rw [decide_eq_false (by omega), decide_eq_false (by omega)]
    decide
  rw [e]
  exact segment_call _ (segment_at 0 (segment_uploadSequence mux program))

/-- An operation that is a sequence of transactions, issued, against the transactions issued on their own. -/
theorem segment_issued {x : Op Unit} {ws : List (Byte × Byte × Byte)} {s : State} (hx : SegmentIs s.cfg x ws p)
    (h : s.SessionReady) :
    (finish returnsSuccess x s).SameBus (s.afterSetRegs ws) ∧
    ((s.afterSetRegs ws).failure = none → (finish returnsSuccess x s).trace = (s.afterSetRegs ws).trace ∧
      (finish returnsSuccess x s).remote = (s.afterSetRegs ws).remote ∧
      (finish returnsSuccess x s).marks = p.marks ws.length s.marks) ∧
    (∀ e, (s.afterSetRegs ws).failure = some e → ∃ j, FailsAt ws (s.setResult (.status .success)) j ∧
      (finish returnsSuccess x s).result = .status (.error e) ∧
      (finish returnsSuccess x s).trace = (s.afterSetRegs ws).trace ++ p.log j ∧
      (finish returnsSuccess x s).marks = p.marks j s.marks) := by
  have h' : (s.setResult (.status .success)).SessionReady := h
  have hres := setRegs_result ws (s.setResult (.status .success)) h' rfl
  obtain ⟨h1, h2⟩ := hx (s.setResult (.status .success)) s.carries h' rfl rfl
  have hs : (s.setResult (.status .success)).carried s.carries = s := rfl
  rw [hs] at h1 h2
  unfold State.afterSetRegs
  generalize setRegs ws (s.setResult (.status .success)) = v at hres h1 h2 ⊢
  rcases hf : v.failure with _ | e
  · obtain ⟨d, e1, m1⟩ := h1 hf
    rw [hf] at hres
    rw [finish_ok e1]
    exact ⟨⟨hres.symm, rfl, ⟨rfl, rfl⟩, rfl, rfl, rfl, ⟨rfl, rfl⟩, ⟨rfl, rfl, rfl⟩⟩, fun _ => ⟨rfl, rfl, m1⟩,
      fun e h => by cases h⟩
  · obtain ⟨j, d, m, hj, e1, m1⟩ := h2 e hf
    rw [hf] at hres
    rw [finish_error e1]
    refine ⟨⟨hres.symm, rfl, ⟨rfl, rfl⟩, rfl, rfl, rfl, ⟨rfl, rfl⟩, ⟨rfl, rfl, rfl⟩⟩, fun h => ?_, fun e' he' => ?_⟩
    · cases h
    · cases he'
      exact ⟨j, hj, rfl, rfl, m1⟩

end Sys2Proof.Machine
end

