-- ==== Sys2Proof/Laws/ComposedRun.lean ====
section
/-! SUPPORT. `RUN` does what its operations do when each is issued on its own (R124, R125), in every environment. -/

namespace Sys2Proof.Machine

/-! ## INITIALIZE and PLAYTAPE inside RUN -/

theorem initialise_placed (u : State) (p : ControlPoint) (r : Result) :
    Op.apply initialise (u.placed (p, r)) = ((Op.apply initialise u).1, (Op.apply initialise u).2.placed (p, r)) :=
  uniform_place uniform_initialise initialise_pc initialise_host u p r

theorem playTape_placed (index : Byte) (u : State) (p : ControlPoint) (r : Result) :
    Op.apply (playTape index) (u.placed (p, r)) =
      ((Op.apply (playTape index) u).1, (Op.apply (playTape index) u).2.placed (p, r)) :=
  uniform_place (uniform_playTape index) (playTape_pc index) (respects_playTape hostPart_prog index) u p r

/-- How an operation ends inside another, against how it ends when issued. -/
def outcomeOf (f : Option Error) : Except Error Unit :=
  match f with
  | none => .ok ()
  | some e => .error e

theorem issue_initialise {u : State} (h : u.SessionReady) : issue .initialise u = finish returnsSuccess initialise u :=
  issue_session (by simp [Instr.opcode]) h

theorem issue_playTape {index : Byte} {u : State} (h : u.SessionReady) :
    issue (.playtape index) u = finish returnsSuccess (playTape index) u :=
  issue_session (by simp [Instr.opcode]) h

theorem outcome_finish (x : Op Unit) (u : State) :
    (Op.apply x u).1 = outcomeOf (finish returnsSuccess x u).failure := by
  rw [finish_failure]
  rcases (Op.apply x u).1 with e | a <;> rfl

theorem initialise_issued {u : State} (h : u.SessionReady) (p : ControlPoint) (r : Result) :
    Op.apply initialise (u.placed (p, r)) =
      (outcomeOf (issue .initialise u).failure, (issue .initialise u).placed (p, r)) := by
  rw [initialise_placed, outcome_finish, issue_initialise h]
  rfl

theorem playTape_issued {index : Byte} {u : State} (h : u.SessionReady) (p : ControlPoint) (r : Result) :
    Op.apply (playTape index) (u.placed (p, r)) =
      (outcomeOf (issue (.playtape index) u).failure, (issue (.playtape index) u).placed (p, r)) := by
  rw [playTape_placed, outcome_finish, issue_playTape h]
  rfl

/-- What the steps of bring-up keep. -/
def SameRun (s t : State) : Prop :=
  t.session = s.session ∧ t.pc = s.pc ∧ t.status = s.status ∧ t.work.tape = s.work.tape

theorem issue_initialise_same {u : State} (h : u.SessionReady) : SameRun u (issue .initialise u) := by
  rw [issue_initialise h]
  have hh := hostPart_eq (initialise_host u)
  exact ⟨hh.2.1, initialise_pc u, hh.2.2.1, congrArg (fun p => p.2.1) (initialise_initPart u)⟩

theorem ready_of_same {s t : State} (h : s.SessionReady) (hs : SameRun s t) : t.SessionReady := by
  unfold State.SessionReady
  rw [hs.1, hs.2.1]
  exact h

theorem sameRun_trans {a b c : State} (h1 : SameRun a b) (h2 : SameRun b c) : SameRun a c :=
  ⟨h2.1.trans h1.1, h2.2.1.trans h1.2.1, h2.2.2.1.trans h1.2.2.1, h2.2.2.2.trans h1.2.2.2⟩

/-! ## BringUp (R124) -/

theorem bringUpLoop_steps (n : Nat) : ∀ (u : State) (p : ControlPoint) (r : Result), u.SessionReady →
    (∃ p', p'.frames = p.frames ∧ Op.apply (bringUpLoop n) (u.placed (p, r)) =
      (outcomeOf (bringUpSteps n u).1, (bringUpSteps n u).2.placed (p', r))) ∧
    SameRun u (bringUpSteps n u).2 := by
  induction n with
  | zero =>
    intro u p r hu
    have ha : u.attempting.SessionReady := hu
    have hi := issue_initialise_same ha
    refine ⟨⟨{ p with top := .bringUp (u.work.attempt + 1#4).toNat }, rfl, ?_⟩, hi⟩
    have ht : (u.placed (p, r)).tried = u.attempting.placed ({ p with top := .bringUp (u.work.attempt + 1#4).toNat }, r) := rfl
    have hx := initialise_issued ha { p with top := .bringUp (u.work.attempt + 1#4).toNat } r
    rw [← ht] at hx
    rcases hf : (issue .initialise u.attempting).failure with _ | e
    · rw [hf] at hx
      rw [bringUpLoop_success 0 _ _ hx]
      simp [bringUpSteps, hf, outcomeOf]
    · rw [hf] at hx
      rw [bringUpLoop_exhausted _ _ _ hx]
      simp [bringUpSteps, hf, outcomeOf]
  | succ n ih =>
    intro u p r hu
    have ha : u.attempting.SessionReady := hu
    have hi := issue_initialise_same ha
    have ht : (u.placed (p, r)).tried = u.attempting.placed ({ p with top := .bringUp (u.work.attempt + 1#4).toNat }, r) := rfl
    have hx := initialise_issued ha { p with top := .bringUp (u.work.attempt + 1#4).toNat } r
    rw [← ht] at hx
    have hcfg : (issue .initialise u.attempting).cfg = u.cfg := by
      rw [issue_initialise ha]
      exact (hostPart_eq (initialise_host _)).1
    rcases hf : (issue .initialise u.attempting).failure with _ | e
    · rw [hf] at hx
      rw [bringUpLoop_success (n + 1) _ _ hx]
      have hs : bringUpSteps (n + 1) u = (none, issue .initialise u.attempting) := by
        rw [bringUpSteps, hf]
      rw [hs]
      exact ⟨⟨{ p with top := .bringUp (u.work.attempt + 1#4).toNat }, rfl, rfl⟩, hi⟩
    · rw [hf] at hx
      rw [bringUpLoop_retry n _ _ _ hx]
      have hs : bringUpSteps (n + 1) u = bringUpSteps n ((issue .initialise u.attempting).emit (.dly u.cfg.backoff)) := by
        rw [bringUpSteps, hf]
      rw [hs]
      have hb : SameRun u ((issue .initialise u.attempting).emit (.dly u.cfg.backoff)) := hi
      have hback : ((issue .initialise u.attempting).placed
          ({ p with top := .bringUp (u.work.attempt + 1#4).toNat }, r)).backedOff =
          ((issue .initialise u.attempting).emit (.dly u.cfg.backoff)).placed
            ({ p with top := .backoff (issue .initialise u.attempting).work.attempt.toNat }, r) := by
        rw [← hcfg]
        rfl
      rw [hback]
      obtain ⟨⟨p', h1, h2⟩, h3⟩ := ih _ { p with top := .backoff (issue .initialise u.attempting).work.attempt.toNat } r
        (ready_of_same hu hb)
      exact ⟨⟨p', h1, h2⟩, sameRun_trans hb h3⟩

/-! ## RUN (R125) -/

theorem beforeBringUp_ready {s : State} (h : s.pc.top = .idle) (index : Byte) : (s.beforeBringUp index).SessionReady :=
  ⟨h, rfl, rfl⟩

theorem run_steps (index : Byte) (s : State) (hpc : s.pc.top = .idle) (h : s.OkFor 2) (hp : s.PinsFree) :
    ∃ st, (runSteps index s).status.exitStatus = st ∧
      finish .status (run index) s =
        (runSteps index s).placed ({ s.pc with top := .done st }, .status st) := by
  have hacq := acquire_ok (s.runStarted index) (okFor_same rfl h (Nat.le_refl _)) hp
  have hready := beforeBringUp_ready hpc index
  have hstart : (s.runStarted index).acquired.setWork { (s.runStarted index).acquired.work with attempt := 0#4 } =
      (s.beforeBringUp index).placed ({ s.pc with top := .acquire }, s.result) := rfl
  obtain ⟨⟨p, hp1, hp2⟩, hsame⟩ := bringUpLoop_steps 14 (s.beforeBringUp index) { s.pc with top := .acquire } s.result hready
  rw [← hstart] at hp2
  have hbring := (bringUp_apply (s.runStarted index).acquired).trans hp2
  have hframes : p.frames = s.pc.frames := hp1
  unfold runSteps
  show ∃ st, ((playSteps index (bringUpSteps 14 (s.beforeBringUp index))).2.ending
      (playSteps index (bringUpSteps 14 (s.beforeBringUp index))).1).status.exitStatus = st ∧ finish .status (run index) s =
      ((playSteps index (bringUpSteps 14 (s.beforeBringUp index))).2.ending
      (playSteps index (bringUpSteps 14 (s.beforeBringUp index))).1).placed ({ s.pc with top := .done st }, .status st)
  generalize bringUpSteps 14 (s.beforeBringUp index) = q at hp2 hbring hsame ⊢
  obtain ⟨f, u⟩ := q
  have hstat : u.status.primaryErr = none := by
    rw [hsame.2.2.1]
    rfl
  have htape : u.work.tape = index := hsame.2.2.2
  have key : ∃ v, Op.apply bringUpAndPlay (s.runStarted index).acquired = (.ok (), v) ∧
      ∃ p', p'.frames = s.pc.frames ∧ v.status.primaryErr = (playSteps index (f, u)).1 ∧
      ∃ y, v = ((playSteps index (f, u)).2.setStatus y).placed (p', s.result) := by
    cases f with
    | some e =>
      exact ⟨_, bringUpAndPlay_fails _ _ _ hbring, p, hframes, rfl, { u.status with primaryErr := some e }, rfl⟩
    | none =>
      have hur := ready_of_same hready hsame
      have hplay := playTape_issued (index := index) hur { p with top := .play } s.result
      have hplays := bringUpAndPlay_plays _ _ hbring
      have htp : (u.placed (p, s.result)).work.tape = index := htape
      have hpl : (u.placed (p, s.result)).setTop .play = u.placed ({ p with top := .play }, s.result) := rfl
      dsimp only [outcomeOf] at hplays
      rw [htp, hpl] at hplays
      have hvs : (issue (.playtape index) u).status = u.status := by
        rw [issue_playTape hur]
        exact (hostPart_eq (respects_playTape hostPart_prog index u)).2.2.1
      rcases hf : (issue (.playtape index) u).failure with _ | e
      · rw [hf] at hplay
        refine ⟨_, hplays.1 _ hplay, { p with top := .play }, hframes, ?_, (issue (.playtape index) u).status, rfl⟩
        show (issue (.playtape index) u).status.primaryErr = (issue (.playtape index) u).failure
        rw [hvs, hf, hstat]
      · rw [hf] at hplay
        refine ⟨_, hplays.2 _ _ hplay, { p with top := .play }, hframes, ?_,
          { (issue (.playtape index) u).status with primaryErr := some e }, rfl⟩
        show some e = (issue (.playtape index) u).failure
        rw [hf]
  obtain ⟨v, hv, p', hfr, hprim, y, hvy⟩ := key
  generalize playSteps index (f, u) = w at hprim hvy ⊢
  have hrun : Op.apply (run index) s = _ :=
    (run_acquired index s _ hacq).trans ((apply_bind_ok hv).trans (cleanUpAndExit_apply v))
  have ha0 : v.answer 0 = w.2.answer 0 := by rw [hvy]; rfl
  have ha1 : v.answer 1 = w.2.answer 1 := by rw [hvy]; rfl
  refine ⟨combinedStatus w.1 (releaseFailure (w.2.answer 0) (w.2.answer 1)), rfl, ?_⟩
  rw [finish_ok hrun, hprim, ha0, ha1]
  unfold State.ended
  rw [hprim, ha0, ha1]
  subst hvy
  have hpc' : ({ s.pc with top := Top.done (combinedStatus w.1 (releaseFailure (w.2.answer 0) (w.2.answer 1))) } :
      ControlPoint) = { p' with top := .done (combinedStatus w.1 (releaseFailure (w.2.answer 0) (w.2.answer 1))) } := by
    show ControlPoint.mk _ s.pc.frames = ControlPoint.mk _ p'.frames
    rw [hfr]
  rw [hpc']
  rfl

end Sys2Proof.Machine
end

