-- ==== Sys2Proof/Laws/Pages.lean ====
section
/-! SUPPORT. What an acknowledged bulk write through the window leaves in the selected page (R36 (b), R48). -/

namespace Sys2Proof.Machine

/-- A page by its name. -/
def Remote.page (r : Remote) : PageCmd → Memory
  | .mux => r.muxPage
  | .program => r.progPage
  | .none => []

theorem record_page {c : Config} {r : Remote} {dev sub val : Byte} {off : Nat} {p : PageCmd}
    (hw : windowOffset c dev sub = some off) (hp : selectedPage c r = p) (hn : p ≠ .none) :
    (r.record c dev sub val).page p = (r.page p).write off val ∧
      ∀ q, q ≠ p → (r.record c dev sub val).page q = r.page q := by
  cases p with
  | none => exact absurd rfl hn
  | mux =>
    refine ⟨by simp [Remote.record, hw, writePage, hp, Remote.page], fun q hq => ?_⟩
    cases q <;> simp_all [Remote.record, writePage, Remote.page]
  | program =>
    refine ⟨by simp [Remote.record, hw, writePage, hp, Remote.page], fun q hq => ?_⟩
    cases q <;> simp_all [Remote.record, writePage, Remote.page]

theorem record_page_outside {c : Config} {r : Remote} {dev sub val : Byte} (hw : windowOffset c dev sub = none)
    (q : PageCmd) : (r.record c dev sub val).page q = r.page q := by
  cases q <;> simp [Remote.record, hw, Remote.page]

theorem record_selectedPage {c : Config} {r : Remote} {dev sub val : Byte}
    (h : ¬ (dev = c.devAddr ∧ sub = c.regPageSel)) :
    selectedPage c (r.record c dev sub val) = selectedPage c r := by
  unfold selectedPage
  rw [Remote.record_regs, Memory.read_write_other]
  intro e
  obtain ⟨h1, h2⟩ := remoteAddr_inj.1 e
  exact h ⟨h1.symm, h2.symm⟩

/-- R48: the page after a write of the page-select register. -/
theorem select_page {c : Config} (r : Remote) (v : Byte) :
    selectedPage c (r.record c c.devAddr c.regPageSel v) =
      if v = c.valPageMux then .mux else if v = c.valPageProg then .program else .none := by
  unfold selectedPage
  rw [Remote.record_regs, Memory.read_write_same]

/-- Offset k of the window, 32 bytes that do not wrap (R8 (c)). -/
theorem windowOffset_at {c : Config} (hb : c.progMemBase.toNat + 31 ≤ 255) {k : Nat} (hk : k < 32) :
    windowOffset c c.devAddr (c.progMemBase + BitVec.ofNat 8 k) = some k := by
  have h : (c.progMemBase + BitVec.ofNat 8 k).toNat = c.progMemBase.toNat + k := by
    rw [BitVec.toNat_add, BitVec.toNat_ofNat, Nat.mod_eq_of_lt (by omega : k < 2 ^ 8), Nat.mod_eq_of_lt (by omega)]
  unfold windowOffset
  rw [h, if_pos ⟨rfl, by omega, by omega⟩, Nat.add_sub_cancel_left]

/-- A bulk write from offset k of the window, with page p selected. -/
theorem recordWrites_page {c : Config} {p : PageCmd} (hn : p ≠ .none) (hb : c.progMemBase.toNat + 31 ≤ 255)
    (hs : windowOffset c c.devAddr c.regPageSel = none) (bytes : List Byte) : ∀ (k : Nat) (r : Remote),
    k + bytes.length ≤ 32 → selectedPage c r = p →
    selectedPage c (recordWrites c r (bulkWrites c.devAddr (c.progMemBase + BitVec.ofNat 8 k) bytes)) = p ∧
    (∀ q, q ≠ p → (recordWrites c r (bulkWrites c.devAddr (c.progMemBase + BitVec.ofNat 8 k) bytes)).page q = r.page q) ∧
    (∀ i, ((recordWrites c r (bulkWrites c.devAddr (c.progMemBase + BitVec.ofNat 8 k) bytes)).page p).read i =
      if k ≤ i ∧ i < k + bytes.length then bytes[i - k]? else (r.page p).read i) := by
  induction bytes with
  | nil =>
    intro k r _ hp
    refine ⟨hp, fun _ _ => rfl, fun i => ?_⟩
    rw [if_neg (by simp only [List.length_nil]; omega)]
    rfl
  | cons b bytes ih =>
    intro k r hk hp
    simp only [List.length_cons] at hk
    have hw := windowOffset_at hb (k := k) (by omega)
    have hsel : selectedPage c (r.record c c.devAddr (c.progMemBase + BitVec.ofNat 8 k) b) = p := by
      rw [record_selectedPage, hp]
      rintro ⟨_, h⟩
      rw [h, hs] at hw
      cases hw
    have hstep : c.progMemBase + BitVec.ofNat 8 k + 1#8 = c.progMemBase + BitVec.ofNat 8 (k + 1) := by
      rw [BitVec.add_assoc]
      exact congrArg _ (by rw [BitVec.ofNat_add])
    obtain ⟨h1, h2⟩ := record_page (val := b) hw hp hn
    obtain ⟨i1, i2, i3⟩ := ih (k + 1) _ (by omega) hsel
    have e : recordWrites c r (bulkWrites c.devAddr (c.progMemBase + BitVec.ofNat 8 k) (b :: bytes)) =
        recordWrites c (r.record c c.devAddr (c.progMemBase + BitVec.ofNat 8 k) b)
          (bulkWrites c.devAddr (c.progMemBase + BitVec.ofNat 8 (k + 1)) bytes) := by
      rw [← hstep]
      rfl
    rw [e]
    refine ⟨i1, fun q hq => (i2 q hq).trans (h2 q hq), fun i => ?_⟩
    rw [i3 i, h1, List.length_cons]
    by_cases hik : i = k
    · subst hik
      rw [if_neg (by omega), if_pos (by omega), Memory.read_write_same]
      simp
    · rw [Memory.read_write_other _ _ _ _ hik]
      by_cases hin : k + 1 ≤ i ∧ i < k + 1 + bytes.length
      · rw [if_pos hin, if_pos (by omega)]
        obtain ⟨j, rfl⟩ : ∃ j, i = k + 1 + j := ⟨i - (k + 1), by omega⟩
        rw [show k + 1 + j - (k + 1) = j by omega, show k + 1 + j - k = j + 1 by omega, List.getElem?_cons_succ]
      · rw [if_neg hin, if_neg (by omega)]

theorem recordWrites_append (c : Config) (r : Remote) (ws vs : List (Byte × Byte × Byte)) :
    recordWrites c r (ws ++ vs) = recordWrites c (recordWrites c r ws) vs := List.foldl_append

theorem admissible_window {c : Config} (h : c.admissible = true) :
    c.progMemBase.toNat + 31 ≤ 255 ∧ c.valPageMux ≠ c.valPageProg := by
  simp [Config.admissible] at h
  exact ⟨by omega, by tauto⟩

end Sys2Proof.Machine
end

