-- ==== Sys2Proof/Laws/PerInstr.lean ====
section
/-! SUPPORT. The family `EncodedFields`: the command word of every operation carries its opcode in bits 31:28 (R66) and
0 in the reserved bits 27:24 (R64, R68). -/

namespace Sys2Proof.Laws

/-- The fields of a packed word are what was packed (R64). -/
theorem packWord_fields (op : BitVec 4) (a b c : Byte) :
    opField (packWord op a b c) = op ∧ zField (packWord op a b c) = 0#4 ∧ aField (packWord op a b c) = a ∧
      bField (packWord op a b c) = b ∧ cField (packWord op a b c) = c := by
  unfold opField zField aField bField cField packWord
  refine ⟨?_, ?_, ?_, ?_, ?_⟩ <;>
    · ext i hi
      simp [BitVec.getElem_append, BitVec.getElem_extractLsb', BitVec.getLsbD_append]
      try grind

namespace EncodedFields

/-- R64, R66: the opcode and the reserved field of an operation's command word. -/
def Statement (i : Instr) : Prop := opField (encode i) = i.opcode ∧ zField (encode i) = 0#4

theorem start : Statement .start := ⟨(packWord_fields _ _ _ _).1, (packWord_fields _ _ _ _).2.1⟩
theorem stop : Statement .stop := ⟨(packWord_fields _ _ _ _).1, (packWord_fields _ _ _ _).2.1⟩
theorem writebit (v : Bool) : Statement (.writebit v) := ⟨(packWord_fields _ _ _ _).1, (packWord_fields _ _ _ _).2.1⟩
theorem readbit : Statement .readbit := ⟨(packWord_fields _ _ _ _).1, (packWord_fields _ _ _ _).2.1⟩
theorem writebyte (b : Byte) : Statement (.writebyte b) := ⟨(packWord_fields _ _ _ _).1, (packWord_fields _ _ _ _).2.1⟩
theorem setreg (dev sub val : Byte) : Statement (.setreg dev sub val) :=
  ⟨(packWord_fields _ _ _ _).1, (packWord_fields _ _ _ _).2.1⟩
theorem writebulk (dev start n : Byte) : Statement (.writebulk dev start n) :=
  ⟨(packWord_fields _ _ _ _).1, (packWord_fields _ _ _ _).2.1⟩
theorem initialise : Statement .initialise := ⟨(packWord_fields _ _ _ _).1, (packWord_fields _ _ _ _).2.1⟩
theorem loadprogram (m p : Byte) : Statement (.loadprogram m p) :=
  ⟨(packWord_fields _ _ _ _).1, (packWord_fields _ _ _ _).2.1⟩
theorem playtape (index : Byte) : Statement (.playtape index) :=
  ⟨(packWord_fields _ _ _ _).1, (packWord_fields _ _ _ _).2.1⟩
theorem run (index : Byte) : Statement (.run index) := ⟨(packWord_fields _ _ _ _).1, (packWord_fields _ _ _ _).2.1⟩
theorem runerr (index : Byte) : Statement (.runerr index) := ⟨(packWord_fields _ _ _ _).1, (packWord_fields _ _ _ _).2.1⟩

end EncodedFields

end Sys2Proof.Laws
end

