-- ==== Sys2Proof/Laws/Steps.lean ====
section
/-! SUPPORT. What one step can do: wait, reset, or run an operation; and what a reset leaves. -/

namespace Sys2Proof.Machine

/-! ## The reset (R31, R161) -/

@[simp] theorem hostReset_cfg (s : State) : s.hostReset.cfg = s.cfg := rfl
@[simp] theorem hostReset_pc (s : State) : s.hostReset.pc = { top := .idle, frames := [] } := rfl
@[simp] theorem hostReset_session (s : State) : s.hostReset.session = Session.reset := rfl
@[simp] theorem hostReset_work (s : State) : s.hostReset.work = Work.reset := rfl
@[simp] theorem hostReset_flags (s : State) : s.hostReset.flags = Flags.reset := rfl
@[simp] theorem hostReset_status (s : State) : s.hostReset.status = StatusRegs.reset := rfl
@[simp] theorem hostReset_scl (s : State) : s.hostReset.scl = s.scl := rfl
@[simp] theorem hostReset_sda (s : State) : s.hostReset.sda = s.sda := rfl
@[simp] theorem hostReset_ghost (s : State) : s.hostReset.ghost = Ghost.reset := rfl
@[simp] theorem hostReset_remote (s : State) : s.hostReset.remote = s.remote := rfl
@[simp] theorem hostReset_trace (s : State) : s.hostReset.trace = [] := rfl
@[simp] theorem hostReset_env (s : State) : s.hostReset.env = s.env := rfl
@[simp] theorem hostReset_inputs (s : State) : s.hostReset.inputs = s.inputs := rfl

/-- A reset is from any state with admissible parameters and canonical memories to a state that meets the invariant. -/
theorem hostReset_inv {s : State} (hc : s.cfg.admissible = true) (hr : s.remote.wf) : s.hostReset.Inv where
  admissible := hc
  noFrames := rfl
  atRest := .inl rfl
  sessionAtIdle := fun _ => rfl
  handles := ⟨rfl, rfl⟩
  sessionCopies := fun h => nomatch h
  pinsHeld := fun h => nomatch h
  bitcntRange := Nat.zero_le 8
  initIRange := Nat.zero_le 13
  cleanupKind := fun _ h => nomatch h
  regsWf := hr.1
  muxWf := hr.2.1
  progWf := hr.2.2

/-- The invariant does not look at the buffers and the inputs. -/
theorem accept_inv {s : State} (h : s.Inv) (b0 b1 : List Byte) (rest : List HostInput) : (s.accept b0 b1 rest).Inv := by
  obtain ⟨h1, h2, h3, h4, h5, h6, h7, h8, h9, h10, h11, h12, h13⟩ := h
  exact ⟨h1, h2, h3, h4, h5, h6, h7, h8, h9, h10, h11, h12, h13⟩

theorem beforeCommand_inv {s : State} (h : s.Inv) (i : Instr) : (s.beforeCommand i).Inv := by
  unfold State.beforeCommand
  split
  · exact h
  · split
    · exact h
    · exact hostReset_inv h.admissible ⟨h.regsWf, h.muxWf, h.progWf⟩

/-! ## The step -/

/-- At `Idle` a legal word runs its operation. -/
theorem step_command {s : State} {w : Word} {b0 b1 : List Byte} {rest : List HostInput} {i : Instr}
    (hp : s.pc.top = .idle) (hin : s.inputs = .command w b0 b1 :: rest) (hw : decode w = .ok i) :
    step s = exec i ((s.beforeCommand i).accept b0 b1 rest) := by
  simp [step, stepWith, hin, acceptCommand, hp, runWord, hw]

/-- Everything one step can do: wait, take a kill, reset after `Done`, or run an operation. -/
theorem step_cases {s t : State} (h : step s = .next t) :
    (s.inputs = [] ∧ t = s) ∨
    (∃ rest, s.inputs = .kill :: rest ∧ t = { s.hostReset with inputs := rest }) ∨
    (∃ st w b0 b1 rest, s.inputs = .command w b0 b1 :: rest ∧ s.pc.top = .done st ∧ t = s.hostReset) ∨
    (∃ w b0 b1 rest i, s.inputs = .command w b0 b1 :: rest ∧ s.pc.top = .idle ∧ decode w = .ok i ∧
      exec i ((s.beforeCommand i).accept b0 b1 rest) = .next t) := by
  unfold step stepWith at h
  split at h
  next hin =>
    refine .inl ⟨hin, ?_⟩
    unfold waitForCommand at h
    split at h <;> cases h <;> rfl
  next rest hin => exact .inr (.inl ⟨rest, hin, by cases h; rfl⟩)
  next w b0 b1 rest hin =>
    refine .inr (.inr ?_)
    unfold acceptCommand at h
    split at h
    next hp =>
      unfold runWord at h
      split at h
      next i hw => exact .inr ⟨w, b0, b1, rest, i, hin, hp, hw, h⟩
      next => cases h
    next st hp => exact .inl ⟨st, w, b0, b1, rest, hin, hp, by cases h; rfl⟩
    all_goals cases h

end Sys2Proof.Machine
end

