-- ==== Sys2Proof/Laws/Unchanged.lean ====
section
/-! SUPPORT. What the bit operations and WRITEBYTE leave alone that START and STOP do not: the ghosts; and what START and
STOP leave alone when they raise an error (R86): the flags and the ghosts. -/

namespace Sys2Proof.Machine

variable {α β γ : Type} {R : State → State → Prop}

/-- What a piece leaves when it raises an error stands in R to where it began. -/
def Op.RespectsOnError (R : State → State → Prop) (x : Op α) : Prop :=
  ∀ s e, (Op.apply x s).1 = .error e → R s (Op.apply x s).2

theorem respects_onError {x : Op α} (h : Op.Respects R x) : Op.RespectsOnError R x := fun s _ _ => h s

theorem onError_update (f : State → State) : Op.RespectsOnError R (update f) := fun _ _ h => by cases h

theorem onError_bind (P : IsPath R) {x : Op α} {f : α → Op β} (hx : Op.Respects R x)
    (hf : ∀ a, Op.RespectsOnError R (f a)) : Op.RespectsOnError R (x >>= f) := by
  intro s e he
  rcases apply_bind_cases x f s with ⟨e', _, h⟩ | ⟨a, _, h⟩
  · rw [h]
    exact hx s
  · rw [h] at he ⊢
    exact P.trans (hx s) (hf a _ e he)

/-- Closed under the control point, a driven pin and a delay. -/
structure DriveClosed (R : State → State → Prop) : Prop where
  path : IsPath R
  pc : ∀ (s : State) (c : ControlPoint), R s (s.setPc c)
  out : ∀ (s : State) (p : Pin) (b : Bool), R s (s.pinSetOutput p b)
  dly : ∀ (s : State) (n : Nat), R s (s.emit (.dly n))

/-- Closed under a sampled pin besides. -/
structure CellClosed (R : State → State → Prop) : Prop where
  drive : DriveClosed R
  inp : ∀ s : State, R s (s.pinSetInput .sda)
  rd : ∀ s : State, R s (s.pinRead .sda)
  sample : ∀ (s : State) (v : Sample), R s (s.setFlags { s.flags with sample := v })

theorem DriveClosed.line (C : DriveClosed R) (n : Nat) : Op.Respects R (line n) := fun s => C.pc s _

theorem DriveClosed.delay (C : DriveClosed R) (k : Nat) : Op.Respects R (delayHalves k) := fun s => C.dly s _

theorem DriveClosed.driven (C : DriveClosed R) (p : Pin) (b : Bool) : Op.Respects R (Sys2Proof.Machine.drive p b) := by
  intro s
  rw [apply_drive]
  exact C.out s p b

theorem DriveClosed.call (C : DriveClosed R) (op : OpName) {x : Op α} (h : Op.Respects R x) :
    Op.Respects R (Sys2Proof.Machine.call op x) := by
  intro s
  rw [apply_call]
  exact C.path.trans (C.path.trans (C.pc s _) (h (s.pushFrame op))) (C.pc _ _)

theorem DriveClosed.callOnError (C : DriveClosed R) (op : OpName) {x : Op α} (h : Op.RespectsOnError R x) :
    Op.RespectsOnError R (Sys2Proof.Machine.call op x) := by
  intro s e he
  rw [apply_call] at he ⊢
  exact C.path.trans (C.path.trans (C.pc s _) (h (s.pushFrame op) e he)) (C.pc _ _)

/-- `START` that raises an error (R78, R86). -/
theorem start_onError (C : DriveClosed R) : Op.RespectsOnError R start := by
  unfold start setBusBusy
  refine C.callOnError _ ?_
  repeat' first
    | exact onError_update _
    | exact C.line _
    | exact C.driven _ _
    | exact C.delay _
    | refine onError_bind C.path ?_ fun _ => ?_

/-- `STOP` that raises an error (R79, R86). -/
theorem stop_onError (C : DriveClosed R) : Op.RespectsOnError R stop := by
  unfold stop setBusBusy
  refine C.callOnError _ ?_
  repeat' first
    | exact onError_update _
    | exact C.line _
    | exact C.driven _ _
    | exact C.delay _
    | refine onError_bind C.path ?_ fun _ => ?_

/-- `WRITEBIT` (R80). -/
theorem writeBit_cell (C : DriveClosed R) (v : Bool) : Op.Respects R (writeBit v) := by
  unfold writeBit
  refine C.call _ ?_
  repeat' first
    | exact C.line _
    | exact C.driven _ _
    | exact C.delay _
    | refine respects_bind C.path ?_ fun _ => ?_

theorem CellClosed.sampled (C : CellClosed R) : Op.Respects R sampleSda := by
  intro s
  rw [apply_sampleSda]
  split
  · exact C.drive.path.trans (C.inp s) (C.rd _)
  · exact C.inp s

/-- `READBIT` (R81). -/
theorem readBit_cell (C : CellClosed R) : Op.Respects R readBit := by
  unfold readBit setSample
  refine C.drive.call _ ?_
  repeat' first
    | exact respects_update fun s => C.sample s _
    | exact C.drive.line _
    | exact C.drive.driven _ _
    | exact C.drive.delay _
    | exact C.sampled
    | exact respects_readState C.drive.path _
    | exact respects_bitOfSample C.drive.path _
    | refine respects_bind C.drive.path ?_ fun _ => ?_

theorem sendBits_cell (C : CellClosed R) (hw : ∀ (s : State) (v : Work), R s (s.setWork v)) (n : Nat) :
    Op.Respects R (sendBits n) := by
  induction n with
  | zero => exact C.drive.line _
  | succ n ih =>
    unfold sendBits
    repeat' first
      | exact respects_update fun s => hw s _
      | exact C.drive.line _
      | exact respects_readState C.drive.path _
      | exact writeBit_cell C.drive _
      | exact ih
      | refine respects_bind C.drive.path ?_ fun _ => ?_

/-- `WRITEBYTE` (R82), for an R that the byte registers and `NACK` do not matter to. -/
theorem writeByte_cell (C : CellClosed R) (hw : ∀ (s : State) (v : Work), R s (s.setWork v))
    (hn : ∀ (s : State) (v : Bool), R s (s.setFlags { s.flags with nack := v })) (b : Byte) :
    Op.Respects R (writeByte b) := by
  unfold writeByte setNack
  refine C.drive.call _ ?_
  repeat' first
    | exact respects_update fun s => hw s _
    | exact respects_update fun s => hn s _
    | exact C.drive.line _
    | exact C.drive.driven _ _
    | exact sendBits_cell C hw 8
    | exact readBit_cell C
    | exact respects_pure C.drive.path _
    | refine respects_bind C.drive.path ?_ fun _ => ?_

/-- `WRITEBYTE` that raises an error, for an R that the byte registers do not matter to: `NACK` is written by a completed
byte only. -/
theorem writeByte_onError (C : CellClosed R) (hw : ∀ (s : State) (v : Work), R s (s.setWork v)) (b : Byte) :
    Op.RespectsOnError R (writeByte b) := by
  have hl : ∀ (bit : Bool), Op.RespectsOnError R (do
      line 7
      setNack bit
      line 8
      (pure (ackOf bit) : Op Ack)) := fun bit s e h => by cases h
  unfold writeByte
  refine C.drive.callOnError _ ?_
  repeat' first
    | exact hl _
    | exact respects_update fun s => hw s _
    | exact C.drive.line _
    | exact C.drive.driven _ _
    | exact sendBits_cell C hw 8
    | exact readBit_cell C
    | refine onError_bind C.drive.path ?_ fun _ => ?_

/-- The flags and the ghosts. -/
def flagsAndGhosts (s : State) : Flags × Ghost := (s.flags, s.ghost)

theorem flagsAndGhosts_drive : DriveClosed (Keeps flagsAndGhosts) where
  path := keeps_path _
  pc := fun _ _ => rfl
  out := fun s p b => by cases p <;> rfl
  dly := fun _ _ => rfl

/-- `NACK` and the ghosts. -/
def nackAndGhosts (s : State) : Bool × Ghost := (s.flags.nack, s.ghost)

theorem nackAndGhosts_cell : CellClosed (Keeps nackAndGhosts) where
  drive := ⟨keeps_path _, fun _ _ => rfl, fun s p b => by cases p <;> rfl, fun _ _ => rfl⟩
  inp := fun _ => rfl
  rd := fun _ => rfl
  sample := fun _ _ => rfl

theorem ghost_cell : CellClosed (Keeps State.ghost) where
  drive := ⟨keeps_path _, fun _ _ => rfl, fun s p b => by cases p <;> rfl, fun _ _ => rfl⟩
  inp := fun _ => rfl
  rd := fun _ => rfl
  sample := fun _ _ => rfl

/-- `WRITEBYTE` leaves the ghosts alone. -/
theorem writeByte_ghost (b : Byte) (s : State) : (Op.apply (writeByte b) s).2.ghost = s.ghost :=
  writeByte_cell ghost_cell (fun _ _ => rfl) (fun _ _ => rfl) b s

/-- `READBIT` leaves `NACK` and the ghosts alone. -/
theorem readBit_nackAndGhosts (s : State) : nackAndGhosts (Op.apply readBit s).2 = nackAndGhosts s :=
  readBit_cell nackAndGhosts_cell s

/-- `SAMPLE` after a `READBIT` whose call number k is the first to answer fail: written only if the sample was taken. -/
theorem readBit_sample (s : State) (k : Nat) (hk : k < 3) (hok : s.OkFor k) (hf : s.answer k = false) :
    (Op.apply readBit s).2.flags.sample = if k = 2 then s.sample 0 else s.flags.sample := by
  obtain ⟨cfg, session, work, flags, status, scl, sda, ghost, remote, env, pc, trace, buf0, buf1, result, inputs⟩ := s
  simp only [State.OkFor, State.answer] at hok hf
  obtain rfl | rfl | rfl : k = 0 ∨ k = 1 ∨ k = 2 := by omega
  · simp [readBit, apply_call, apply_drive, apply_bind, State.pushFrame, State.popFrame, State.goToStep, State.setPc,
      State.pinSetOutput, State.emit, State.setTrace, State.setPin, State.setScl, State.drawAnswer, State.setEnv,
      State.answer, hf]
  · have h0 := hok 0 (by omega)
    simp [readBit, apply_call, apply_drive, apply_sampleSda, apply_bind, State.pushFrame, State.popFrame, State.goToStep,
      State.setPc, State.pinSetOutput, State.pinSetInput, State.emit, State.setTrace, State.setPin, State.setScl,
      State.setSda, State.drawAnswer, State.setEnv, State.answer, h0, hf]
  · have h0 := hok 0 (by omega)
    have h1 := hok 1 (by omega)
    simp [readBit, apply_call, apply_drive, apply_sampleSda, apply_bind, State.pushFrame, State.popFrame, State.goToStep,
      State.setPc, State.pinSetOutput, State.pinSetInput, State.pinRead, State.drawSample, State.sample, setSample,
      State.setFlags, State.emit, State.setTrace, State.setPin, State.setScl, State.setSda, State.drawAnswer,
      State.setEnv, State.answer, h0, h1, hf]

end Sys2Proof.Machine
end

