-- ==== Sys2Proof/Tests/Slice0.lean ====
section
/-! SUPPORT. Tests, their expected results taken from the spec's vectors (95_test_vectors.md) and tables, and the
witnesses: for each statement with hypotheses, a concrete state and operands that meet them, one per clause. -/

namespace Sys2Proof.Tests

open Sys2Proof Sys2Proof.Machine

/-! ## Small machines -/

/-- An idle block under TESTCFG: the pin calls answer as listed and then ok, the samples are as listed and then `rest`. -/
def idle (answers : List Bool) (samples : List Sample) (rest : Sample) : State :=
  { State.reset with
    cfg := Config.testCfg
    env :=
      { answers := { head := answers, tail := some true, drawn := 0 }
        samples := { head := samples, tail := some rest, drawn := 0 } } }

/-- The same with the session a successful `Acquire` leaves (95_test_vectors.md, decision D29). -/
def ready (answers : List Bool) (samples : List Sample) (rest : Sample) : State :=
  (idle answers samples rest).openSession

/-- Benign, all-ack (95_test_vectors.md). -/
def benign : State := ready [] [] .zero

/-- Pin call number k answers fail; all-ack. -/
def failing (k : Nat) : State := ready (List.replicate k true ++ [false]) [] .zero

/-- The first n samples are 0 and the rest is 1. -/
def nackAt (n : Nat) : State := ready [] (List.replicate n .zero) .one

/-- The same with both tables of 95_test_vectors.md's tape 0 in the buffers. -/
def loading (n : Nat) : State := { nackAt n with buf0 := Config.testCfg.muxTable 0#8, buf1 := Config.testCfg.program }

/-- Presented by the host. -/
def presented (s : State) (w : Word) (b0 b1 : List Byte) : State := { s with inputs := [.command w b0 b1] }

/-- What an issued operation leaves. -/
def after (i : Instr) (s : State) : Option State :=
  match exec i s with
  | .next t => some t
  | .fault _ => none
  | .refused _ => none

/-- What an issued operation returns. -/
def returns (i : Instr) (s : State) : Option Result := (after i s).map (·.result)

theorem next_of_returns {i : Instr} {s : State} {r : Result} (h : returns i s = some r) :
    ∃ t, exec i s = .next t ∧ t.result = r := by
  unfold returns after at h
  cases he : exec i s with
  | next t =>
    rw [he] at h
    exact ⟨t, rfl, by simpa using h⟩
  | fault f =>
    rw [he] at h
    cases h
  | refused f =>
    rw [he] at h
    cases h

/-- Whether a word is illegal, and why. -/
def decodeErrorOf (w : Word) : Option DecodeError :=
  match decode w with
  | .ok _ => none
  | .error why => some why

/-! ## Decoding: words of R65 and R66 written out bit by bit (vectors V-EN1 to V-EN17) -/

theorem test_decode_start : decodeTableWord 32 0b0000_0000_00000000_00000000_00000000 = some .start := by decide
theorem test_decode_stop : decodeTableWord 32 0b0001_0000_00000000_00000000_00000000 = some .stop := by decide
theorem test_decode_writebit : decodeTableWord 32 0b0010_0000_00000000_00000000_00000001 = some (.writebit true) := by
  decide
theorem test_decode_readbit : decodeTableWord 32 0b0011_0000_00000000_00000000_00000000 = some .readbit := by decide
theorem test_decode_writebyte :
    decodeTableWord 32 0b0100_0000_00000000_00000000_10100101 = some (.writebyte 0xA5#8) := by decide
theorem test_decode_setreg :
    decodeTableWord 32 0b0101_0000_01100100_00111111_11111111 = some (.setreg 0x64#8 0x3F#8 0xFF#8) := by decide
theorem test_decode_writebulk :
    decodeTableWord 32 0b0110_0000_01100100_11111110_00000011 = some (.writebulk 0x64#8 0xFE#8 3#8) := by decide
theorem test_decode_initialise : decodeTableWord 32 0b0111_0000_00000000_00000000_00000000 = some .initialise := by decide
theorem test_decode_loadprogram :
    decodeTableWord 32 0b1000_0000_00000000_00100001_00100000 = some (.loadprogram 33#8 32#8) := by decide
theorem test_decode_playtape : decodeTableWord 32 0b1001_0000_00000000_00000000_00000010 = some (.playtape 2#8) := by decide
theorem test_decode_run : decodeTableWord 32 0b1010_0000_00000000_00000000_00000000 = some (.run 0#8) := by decide
theorem test_decode_runerr : decodeTableWord 32 0b1011_0000_00000000_00000000_00000001 = some (.runerr 1#8) := by decide

/-- V-EN14 to V-EN17. -/
theorem test_illegal_words :
    decodeErrorOf 0xC0000000#32 = some .reservedOp ∧ decodeErrorOf 0xF0000000#32 = some .reservedOp ∧
    decodeErrorOf 0x01000000#32 = some .reservedBits ∧ decodeErrorOf 0x20000002#32 = some .unusedOperand ∧
    decodeErrorOf 0x00000001#32 = some .unusedOperand ∧ decodeErrorOf 0x70000100#32 = some .unusedOperand ∧
    decodeErrorOf 0x40010000#32 = some .unusedOperand ∧ decodeErrorOf 0x80010000#32 = some .unusedOperand := by decide

/-- R70: the two host commands. -/
theorem test_host_words : hostRunWord = 0xA0000000#32 ∧ hostErrorWord = 0xB0000001#32 := by decide

/-! ## Well-formedness: one ill-formed command for each check (R29, R65) -/

theorem test_wellFormed_accepts : (Instr.loadprogram 1#8 1#8).wellFormed [0xAA#8] [0xBB#8] = true := by decide
theorem test_wellFormed_buffer0_too_long : Instr.start.wellFormed (List.replicate 256 0#8) [] = false := by decide +kernel
theorem test_wellFormed_buffer1_too_long : Instr.start.wellFormed [] (List.replicate 256 0#8) = false := by decide +kernel
theorem test_wellFormed_bulk_bytes_missing : (Instr.writebulk 0x64#8 0xD0#8 2#8).wellFormed [1#8] [] = false := by decide
theorem test_wellFormed_mux_bytes_missing : (Instr.loadprogram 2#8 0#8).wellFormed [1#8] [] = false := by decide
theorem test_wellFormed_program_bytes_missing : (Instr.loadprogram 0#8 1#8).wellFormed [] [] = false := by decide

/-! ## The Bus Engine (V-BE1 to V-BE14) -/

/-- V-BE1. -/
theorem test_start_trace : (after .start benign).map (·.trace) =
    some [.out .sda true true, .dly 5, .out .scl true true, .dly 5, .out .sda false true, .dly 5] := by decide

/-- V-BE16: the third pin call fails. -/
theorem test_stop_cut : (after .stop (failing 2)).map (fun t => (t.trace, t.result)) =
    some ([.out .scl false true, .dly 5, .out .sda false true, .dly 5, .out .scl true false],
      .status (.error (.resource .setOutput .scl))) := by decide

/-- V-BE2. -/
theorem test_stop_trace : (after .stop benign).map (·.trace) =
    some [.out .scl false true, .dly 5, .out .sda false true, .dly 5, .out .scl true true, .dly 5, .out .sda true true,
      .dly 5] := by decide

/-- V-BE4. -/
theorem test_writebit_trace : (after (.writebit true) benign).map (·.trace) =
    some [.out .scl false true, .out .sda true true, .out .scl true true, .dly 10] := by decide

/-- V-BE6: the pin is 1; the clock is left at 0 and the data pin an input. -/
theorem test_readbit_one : (after .readbit (ready [] [] .one)).map (fun t => (t.result, t.flags.sample, t.scl, t.sda.dir)) =
    some (.bit true, .one, { claimed := true, dir := .out, level := .low }, .inp) := by decide

/-- V-BE8: the data pin cannot be made an input. -/
theorem test_readbit_cut : (after .readbit (failing 1)).map (fun t => (t.trace, t.result)) =
    some ([.out .scl true true, .dly 5, .inp .sda false], .status (.error (.resource .setInput .sda))) := by decide

/-- V-BE9: the data bits of 0xA5 in the order sent, the ninth the released data line. -/
theorem test_writebyte_bits : (after (.writebyte 0xA5#8) benign).map (fun t => t.trace.filterMap fun e =>
      match e with
      | .out .sda b _ => some b
      | .out .scl _ _ => none
      | .inp _ _ => none
      | .rd _ _ => none
      | .req _ _ => none
      | .rel _ _ => none
      | .dly _ => none
      | .log _ => none) =
    some [true, false, true, false, false, true, false, true, true] := by decide +kernel

/-- V-BE10: a sample of 1 is not acknowledged. -/
theorem test_writebyte_nack : (after (.writebyte 0xA5#8) (ready [] [] .one)).map (fun t => (t.result, t.flags.nack)) =
    some (.byteAck .nack, true) := by decide +kernel

/-! ## The Register Protocol (V-RP1 to V-RP13) -/

/-- V-RP1: 94 pin events, and the write is performed. -/
theorem test_setreg_success : (after (.setreg 0x64#8 0x3F#8 0xFF#8) benign).map (fun t =>
      (t.result, t.trace.countP Event.isPinEvent, t.remote.regs)) =
    some (.status .success, 94, [(0x643F, 0xFF#8)]) := by decide +kernel

/-- V-RP2: the device address is not acknowledged. -/
theorem test_setreg_address : (after (.setreg 0x64#8 0x3F#8 0xFF#8) (ready [] [] .one)).map (fun t =>
      (t.result, t.trace.countP Event.isPinEvent, t.scl.level, t.sda.level)) =
    some (.status (.error (.protocol .address)), 36, .high, .high) := by decide +kernel

/-- V-RP11: the sub-address wraps. -/
theorem test_writebulk_wraps : (after (.writebulk 0x64#8 0xFE#8 3#8) { benign with buf0 := [1#8, 2#8, 3#8] }).map (fun t =>
      (t.remote.regs, t.work.bulkI)) =
    some ([(0x6400, 3#8), (0x64FE, 1#8), (0x64FF, 2#8)], 3#8) := by decide +kernel

/-- V-RP13: byte 1 fails; the range is then unknown (U1). -/
theorem test_writebulk_failure : (after (.writebulk 0x64#8 0x10#8 3#8)
      { ready [] (List.replicate 4 .zero) .one with buf0 := [0xAA#8, 0xBB#8, 0xCC#8] }).map (fun t =>
      (t.result, t.trace.filter Event.isLog, t.remote.regs)) =
    some (.status (.error (.protocol .subaddress)), [.log (.failedAtByte 1#8)], []) := by decide +kernel

/-! ## The Device Programmer (V-DP1 to V-DP10) -/

/-- V-DP1: the last entry, and the entry count. -/
theorem test_initialise_table : (after .initialise benign).map (fun t =>
      (t.remote.regs.read 0x64A0, t.remote.regs.read 0x64B8, t.work.initI)) =
    some (some 0xF0#8, some 0x33#8, 13#4) := by decide +kernel

/-- V-DP3: entry 4 fails at its sub-address. -/
theorem test_initialise_failure : (after .initialise (ready [] (List.replicate 13 .zero) .one)).map (fun t =>
      (t.result, t.work.initI, t.remote.regs)) =
    some (.status (.error (.protocol .subaddress)), 4#4, []) := by decide +kernel

/-- V-DP7: the two uploads go to one sub-address, told apart by the page. -/
theorem test_loadprogram_pages : (after (.loadprogram 1#8 1#8) { benign with buf0 := [0xAA#8], buf1 := [0xBB#8] }).map
      (fun t => (t.remote.muxPage, t.remote.progPage, t.ghost.engineCmd, t.remote.regs.read 0x64C0)) =
    some ([(0, 0xAA#8)], [(0, 0xBB#8)], .run, some 0x02#8) := by decide +kernel

/-- V-DP5: 33 bytes are refused before any event. -/
theorem test_loadprogram_oversized : (after (.loadprogram 33#8 32#8) benign).map (fun t => (t.result, t.trace)) =
    some (.status (.error (.validation .size)), []) := by decide +kernel

/-- V-DP10: there are two tapes. -/
theorem test_playtape_index : (after (.playtape 2#8) benign).map (fun t => (t.result, t.trace, t.work.tape)) =
    some (.status (.error (.validation .index)), [], 2#8) := by decide

/-- V-DP9b: the third transaction of tape 1 is [0x64, 0xD0, 0x80]; here its value is not acknowledged. -/
theorem test_playtape_one : (after (.playtape 1#8) (nackAt 8)).map (fun t =>
      (t.result, t.work.rDev, t.work.rSub, t.work.rVal)) =
    some (.status (.error (.protocol .value)), 0x64#8, 0xD0#8, 0x80#8) := by decide +kernel

/-! ## The Sequencer (P3, V-SQ5, V-SQ9b) -/

/-- P3: nothing acknowledges. -/
theorem test_run_never_acknowledged : (after (.run 0#8) (idle [] [] .one)).map (fun t => (t.result, t.work.attempt)) =
    some (.status (.error (.deviceInit (.protocol .address))), 15#4) := by decide +kernel

/-- V-SQ5: there is no tape 2; the chip has been configured. -/
theorem test_run_no_tape : (after (.run 2#8) (idle [] [] .zero)).map (fun t =>
      (t.result, t.session.valid, t.remote.regs.read 0x64B8)) =
    some (.status (.error (.validation .index)), false, some 0x33#8) := by decide +kernel

/-- V-SQ9b: the terminal wait is entered whatever the outcome. -/
theorem test_runerr_refused : (after (.runerr 1#8) (idle [false] [] .zero)).map (fun t => (t.trace, t.pc.top)) =
    some ([.req .scl false], .terminalWait (.error (.resource .request .scl))) := by decide

/-! ## The table's interface -/

theorem test_withFetchWord : ((benign.withFetchWord 32 0x20000001).inputs, (benign.withFetchWord 32 0x20000001).pc.top) =
    ([.command 0x20000001#32 [] []], .idle) := by decide

/-- From reset, `step` runs a presented operation that needs a session. -/
theorem test_reset_runs_first_word : ∃ t, step (State.reset.withFetchWord 32 0x50643FFF) = .next t := ⟨_, rfl⟩

/-! ## Witnesses -/

theorem ready_ready (a : List Bool) (v : List Sample) (r : Sample) : (ready a v r).SessionReady := ⟨rfl, rfl, rfl⟩
theorem idle_ready (a : List Bool) (v : List Sample) (r : Sample) : (idle a v r).RunReady := ⟨rfl, rfl⟩
theorem idle_free (a : List Bool) (v : List Sample) (r : Sample) : (idle a v r).PinsFree := ⟨rfl, rfl⟩
theorem testCfg_admissible : Config.testCfg.admissible = true := by decide

theorem ready_ok (v : List Sample) (r : Sample) (n : Nat) : (ready [] v r).OkFor n := fun _ _ => rfl
theorem idle_ok (v : List Sample) (r : Sample) (n : Nat) : (idle [] v r).OkFor n := fun _ _ => rfl
theorem benign_ack (n : Nat) : benign.AckFor n := fun _ _ => rfl

theorem failing_first (k : Nat) : (failing k).OkFor k ∧ (failing k).answer k = false := by
  constructor
  · intro j hj
    simp [State.answer, failing, ready, idle, State.openSession, Script.nth, State.setSda, State.setScl, State.setSession,
      List.getElem?_append_left, hj]
  · simp [State.answer, failing, ready, idle, State.openSession, Script.nth, State.setSda, State.setScl,
      State.setSession]

theorem nackAt_samples (n : Nat) : (nackAt n).AckFor n ∧ (nackAt n).sample n = .one := by
  constructor
  · intro j hj
    simp [State.sample, nackAt, ready, idle, State.openSession, Script.nth, State.setSda, State.setScl, State.setSession,
      hj]
  · simp [State.sample, nackAt, ready, idle, State.openSession, Script.nth, State.setSda, State.setScl, State.setSession]

/-- The first n samples are 1 and the rest is 0. -/
def lateAck (n : Nat) : State := idle [] (List.replicate n .one) .zero

theorem lateAck_samples (n : Nat) : (∀ k, k < n → (lateAck n).sample k = .one) ∧ ∀ k, (lateAck n).sample (n + k) = .zero := by
  constructor
  · intro j hj
    simp [State.sample, lateAck, idle, Script.nth, hj]
  · intro k
    simp [State.sample, lateAck, idle, Script.nth]

theorem witness_EncodeInvertsDecode : ∃ w i, decode w = .ok i := ⟨0x00000000#32, .start, rfl⟩

theorem witness_IllegalWordsAreRefused : ∃ (s : State) (w : Word), s.pc.top = .idle ∧
    s.inputs = .command w [] [] :: [] ∧ illegal w = true :=
  ⟨presented (idle [] [] .zero) 0xC0000000#32 [] [], 0xC0000000#32, rfl, rfl, by decide⟩

theorem witness_SuppliedBytesAreTheOperands : ∃ (s : State) (n : Byte), n.toNat ≤ s.buf0.length ∧ n.toNat ≤ s.buf1.length :=
  ⟨{ benign with buf0 := [1#8], buf1 := [2#8] }, 1#8, by decide, by decide⟩

theorem witness_StepRunsTheDecodedOperation :
    (∃ (s : State) (w : Word) (i : Instr), s.pc.top = .idle ∧ s.inputs = .command w [] [] :: [] ∧ decode w = .ok i ∧
      i.opcode.toNat < 0xA) ∧
    (∃ (s : State) (w : Word) (i : Instr), s.pc.top = .idle ∧ s.inputs = .command w [] [] :: [] ∧ decode w = .ok i ∧
      0xA ≤ i.opcode.toNat ∧ s.session.valid = false) ∧
    (∃ (s : State) (w : Word) (i : Instr), s.pc.top = .idle ∧ s.inputs = .command w [] [] :: [] ∧ decode w = .ok i ∧
      0xA ≤ i.opcode.toNat ∧ s.session.valid = true) :=
  ⟨⟨presented benign 0x90000001#32 [] [], 0x90000001#32, .playtape 1#8, rfl, rfl, rfl, by decide⟩,
    ⟨presented (idle [] [] .zero) 0xA0000000#32 [] [], 0xA0000000#32, .run 0#8, rfl, rfl, rfl, by decide, rfl⟩,
    ⟨presented benign 0xA0000000#32 [] [], 0xA0000000#32, .run 0#8, rfl, rfl, rfl, by decide, rfl⟩⟩

/-- R161: a host command starts from the reset state, whatever the block holds. -/
theorem test_host_command_resets :
    step (presented { idle [] [] .zero with trace := [.dly 1] } 0xA0000000#32 [] []) =
      step (presented (idle [] [] .zero) 0xA0000000#32 [] []) := rfl

theorem witness_HostCommandsRunTheTapes :
    (∃ s : State, s.pc.top = .idle ∧ s.session.valid = false ∧ s.inputs = .command 0xA0000000#32 [] [] :: []) ∧
    (∃ s : State, s.pc.top = .idle ∧ s.session.valid = false ∧ s.inputs = .command 0xB0000001#32 [] [] :: []) :=
  ⟨⟨presented (idle [] [] .zero) 0xA0000000#32 [] [], rfl, rfl, rfl⟩,
    ⟨presented (idle [] [] .zero) 0xB0000001#32 [] [], rfl, rfl, rfl⟩⟩

theorem witness_IdleWaitsForACommand : ∃ s : State, s.pc.top = .idle ∧ s.inputs = [] := ⟨State.reset, rfl, rfl⟩

/-- A block in the terminal wait. -/
def waiting : State := { State.reset with pc := { top := .terminalWait .success, frames := [] } }

theorem witness_TerminalWaitHasNoSuccessor : waiting.pc.top = .terminalWait .success ∧ waiting.inputs = [] ∧
    (presented waiting 0xA0000000#32 [] []).inputs = .command 0xA0000000#32 [] [] :: [] ∧
    ({ waiting with inputs := [.kill] } : State).inputs = .kill :: [] := ⟨rfl, rfl, rfl, rfl⟩

theorem witness_KillResetsTheBlock : ({ benign with inputs := [.kill] } : State).inputs = .kill :: [] := rfl

/-- A block after `RUN`. -/
def finished : State := { State.reset with pc := { top := .done .success, frames := [] } }

theorem witness_CommandAfterDoneResets : (presented finished 0xA0000000#32 [] []).pc.top = .done .success ∧
    (presented finished 0xA0000000#32 [] []).inputs = .command 0xA0000000#32 [] [] :: [] := ⟨rfl, rfl⟩

theorem witness_HostReceivesTheExitStatus : (idle [] [] .zero).RunReady := idle_ready _ _ _

theorem benign_inv (inputs : List HostInput) : ({ benign with inputs := inputs } : State).Inv where
  admissible := testCfg_admissible
  noFrames := rfl
  atRest := .inl rfl
  sessionAtIdle := fun _ => rfl
  handles := ⟨rfl, rfl⟩
  sessionCopies := fun _ => ⟨rfl, rfl, rfl⟩
  pinsHeld := fun _ => ⟨rfl, rfl⟩
  bitcntRange := Nat.zero_le 8
  initIRange := Nat.zero_le 13
  cleanupKind := fun _ h => nomatch h
  regsWf := .nil
  muxWf := .nil
  progWf := .nil

theorem witness_StepKeepsTheInvariant : (presented benign 0x50643FFF#32 [] []).Inv ∧
    ∃ t, step (presented benign 0x50643FFF#32 [] []) = .next t := ⟨benign_inv _, _, rfl⟩

theorem witness_ParametersAreConstant : (∃ t, step State.reset = .next t) ∧ ∃ t, exec .start benign = .next t :=
  ⟨⟨_, rfl⟩, _, rfl⟩

theorem witness_WrongSessionStateIsRefused :
    ((idle [] [] .zero).pc.top = .idle ∧ (Instr.playtape 0#8).opcode.toNat < 0xA ∧
      (idle [] [] .zero).session.valid = false) ∧
    (benign.pc.top = .idle ∧ 0xA ≤ (Instr.run 0#8).opcode.toNat ∧ benign.session.valid = true) ∧
    (finished.pc.top ≠ .idle ∧ ∀ st, finished.pc.top ≠ .terminalWait st) :=
  ⟨⟨rfl, by decide, rfl⟩, ⟨rfl, by decide, rfl⟩, fun h => (nomatch h), fun _ h => (nomatch h)⟩

theorem witness_EveryOperationEnds : ((Instr.playtape 0#8).opcode.toNat < 0xA ∧ benign.SessionReady) ∧
    (0xA ≤ (Instr.run 0#8).opcode.toNat ∧ (idle [] [] .zero).RunReady) :=
  ⟨⟨by decide, ready_ready _ _ _⟩, by decide, idle_ready _ _ _⟩

theorem witness_OnlyTheSequencerOwnsTheSession :
    ((Instr.playtape 0#8).opcode.toNat < 0xA ∧ ∃ t, exec (.playtape 0#8) benign = .next t) ∧
    (0xA ≤ (Instr.run 0#8).opcode.toNat ∧ (idle [] [] .zero).session.hScl = none ∧ (idle [] [] .zero).session.hSda = none ∧
      ((idle [] [] .zero).pin .scl).claimed = false ∧ ∃ t, exec (.run 0#8) (idle [] [] .zero) = .next t) ∧
    (((idle [true, false, false] [] .zero).pin .scl).claimed = false ∧
      ∃ t, exec (.run 0#8) (idle [true, false, false] [] .zero) = .next t ∧ (t.pin .scl).claimed = true) :=
  ⟨⟨by decide, _, rfl⟩, ⟨by decide, rfl, rfl, rfl, _, rfl⟩, rfl, _, rfl, by decide⟩

theorem witness_ErrorsByOperation :
    ((failing 0).cfg.admissible = true ∧ ∃ t, exec .start (failing 0) = .next t ∧
      t.result = .status (.error (.resource .setOutput .sda))) ∧
    ((idle [false] [] .zero).cfg.admissible = true ∧ ∃ t, exec (.runerr 0#8) (idle [false] [] .zero) = .next t ∧
      t.result = .status (.terminalIdle (.error (.resource .request .scl)))) :=
  ⟨⟨testCfg_admissible, next_of_returns (by decide)⟩, testCfg_admissible, next_of_returns (by decide)⟩

theorem witness_OperationsOnlyAppendEvents : (∃ t, exec .readbit benign = .next t) ∧ Instr.readbit.opcode.toNat < 0xA :=
  ⟨⟨_, rfl⟩, by decide⟩

theorem witness_StoresReachOnlyTheTargets : ∃ t, exec (.setreg 0x64#8 0x3F#8 0xFF#8) benign = .next t := ⟨_, rfl⟩

theorem witness_PinCallsFollowTheCapability :
    ((benign.pin .scl).claimed = true ∨ benign.answer 0 = false) ∧
    ((idle [false] [] .zero).pin .scl).claimed = false ∧ ((idle [] [] .zero).pin .scl).claimed = false ∧ (idle [] [] .zero).answer 0 = true ∧
    (idle [false] [] .zero).answer 0 = false := ⟨.inl rfl, rfl, rfl, rfl, rfl⟩

theorem witness_StartDrivesTheStartCondition : benign.SessionReady ∧ benign.OkFor 3 ∧
    ((failing 0).SessionReady ∧ (failing 0).OkFor 0 ∧ (failing 0).answer 0 = false) ∧
    ((failing 2).SessionReady ∧ (failing 2).OkFor 2 ∧ (failing 2).answer 2 = false) :=
  ⟨ready_ready _ _ _, ready_ok _ _ _, ⟨ready_ready _ _ _, failing_first 0⟩, ready_ready _ _ _, failing_first 2⟩

theorem witness_StopDrivesTheStopCondition : benign.SessionReady ∧ benign.OkFor 4 ∧
    ((failing 0).SessionReady ∧ (failing 0).OkFor 0 ∧ (failing 0).answer 0 = false) ∧
    ((failing 3).SessionReady ∧ (failing 3).OkFor 3 ∧ (failing 3).answer 3 = false) :=
  ⟨ready_ready _ _ _, ready_ok _ _ _, ⟨ready_ready _ _ _, failing_first 0⟩, ready_ready _ _ _, failing_first 3⟩

theorem witness_WriteBitDrivesOneCell : benign.SessionReady ∧ benign.OkFor 3 ∧
    ((failing 0).SessionReady ∧ (failing 0).OkFor 0 ∧ (failing 0).answer 0 = false) ∧
    ((failing 2).SessionReady ∧ (failing 2).OkFor 2 ∧ (failing 2).answer 2 = false) :=
  ⟨ready_ready _ _ _, ready_ok _ _ _, ⟨ready_ready _ _ _, failing_first 0⟩, ready_ready _ _ _, failing_first 2⟩

theorem witness_ReadBitSamplesTheDataPin :
    (benign.SessionReady ∧ benign.OkFor 3 ∧ benign.sample 0 = .zero) ∧
    ((ready [] [] .one).SessionReady ∧ (ready [] [] .one).OkFor 3 ∧ (ready [] [] .one).sample 0 = .one) ∧
    ((ready [] [] .invalid).SessionReady ∧ (ready [] [] .invalid).OkFor 3 ∧ (ready [] [] .invalid).sample 0 = .invalid) ∧
    ((failing 0).SessionReady ∧ (failing 0).OkFor 0 ∧ (failing 0).answer 0 = false) ∧
    ((failing 2).SessionReady ∧ (failing 2).OkFor 2 ∧ (failing 2).answer 2 = false) :=
  ⟨⟨ready_ready _ _ _, ready_ok _ _ _, rfl⟩, ⟨ready_ready _ _ _, ready_ok _ _ _, rfl⟩,
    ⟨ready_ready _ _ _, ready_ok _ _ _, rfl⟩, ⟨ready_ready _ _ _, failing_first 0⟩, ready_ready _ _ _, failing_first 2⟩

theorem witness_WriteByteSendsMsbFirst :
    (benign.SessionReady ∧ benign.OkFor 28 ∧ benign.sample 0 = .zero) ∧
    ((ready [] [] .one).SessionReady ∧ (ready [] [] .one).OkFor 28 ∧ (ready [] [] .one).sample 0 = .one) ∧
    ((ready [] [] .invalid).SessionReady ∧ (ready [] [] .invalid).OkFor 28 ∧ (ready [] [] .invalid).sample 0 = .invalid) ∧
    ((failing 0).SessionReady ∧ (failing 0).OkFor 0 ∧ (failing 0).answer 0 = false) ∧
    ((failing 27).SessionReady ∧ (failing 27).OkFor 27 ∧ (failing 27).answer 27 = false) :=
  ⟨⟨ready_ready _ _ _, ready_ok _ _ _, rfl⟩, ⟨ready_ready _ _ _, ready_ok _ _ _, rfl⟩,
    ⟨ready_ready _ _ _, ready_ok _ _ _, rfl⟩, ⟨ready_ready _ _ _, failing_first 0⟩, ready_ready _ _ _, failing_first 27⟩

theorem witness_PinStateAfterBusOperations :
    (∃ t, exec .start benign = .next t ∧ t.result = .returned) ∧
    (∃ t, exec .stop benign = .next t ∧ t.result = .returned) ∧
    (∃ t, exec (.writebit false) benign = .next t ∧ t.result = .returned) ∧
    (∃ t, exec .readbit benign = .next t ∧ t.result = .bit false) ∧
    (∃ t, exec (.writebyte 0#8) benign = .next t ∧ t.result = .byteAck .ack) :=
  ⟨next_of_returns (by decide), next_of_returns (by decide), next_of_returns (by decide), next_of_returns (by decide),
    next_of_returns (by decide +kernel)⟩

theorem witness_BitOperationsFrame : (∃ t, exec .start benign = .next t) ∧ (∃ t, exec .stop benign = .next t) ∧
    (∃ t, exec (.writebit true) benign = .next t) ∧ ∃ t, exec .readbit benign = .next t :=
  ⟨⟨_, rfl⟩, ⟨_, rfl⟩, ⟨_, rfl⟩, _, rfl⟩

theorem witness_WriteByteFrame : ∃ t, exec (.writebyte 0xA5#8) benign = .next t := ⟨_, rfl⟩

theorem witness_SetRegIsOneTransaction :
    (benign.SessionReady ∧ benign.OkFor 91 ∧ benign.AckFor 3) ∧
    ((nackAt 0).SessionReady ∧ (nackAt 0).OkFor 35 ∧ (nackAt 0).sample 0 = .one) ∧
    ((nackAt 1).SessionReady ∧ (nackAt 1).OkFor 63 ∧ (nackAt 1).sample 0 = .zero ∧ (nackAt 1).sample 1 = .one) ∧
    ((nackAt 2).SessionReady ∧ (nackAt 2).OkFor 91 ∧ (nackAt 2).sample 0 = .zero ∧ (nackAt 2).sample 1 = .zero ∧
      (nackAt 2).sample 2 = .one) :=
  ⟨⟨ready_ready _ _ _, ready_ok _ _ _, benign_ack _⟩, ⟨ready_ready _ _ _, ready_ok _ _ _, rfl⟩,
    ⟨ready_ready _ _ _, ready_ok _ _ _, rfl, rfl⟩, ready_ready _ _ _, ready_ok _ _ _, rfl, rfl, rfl⟩

theorem witness_SetRegLeavesTheBusIdle : benign.SessionReady ∧ benign.OkFor 91 ∧ benign.AckFor 3 :=
  ⟨ready_ready _ _ _, ready_ok _ _ _, benign_ack _⟩

theorem witness_SetRegStopsExactlyOnce_samples :
    ((nackAt 0).SessionReady ∧ (nackAt 0).OkFor 31 ∧ (nackAt 0).sample 0 ≠ .zero) ∧
    ((nackAt 1).SessionReady ∧ (nackAt 1).OkFor 59 ∧ (nackAt 1).sample 0 = .zero ∧ (nackAt 1).sample 1 ≠ .zero) ∧
    ((nackAt 2).SessionReady ∧ (nackAt 2).OkFor 87 ∧ (nackAt 2).sample 0 = .zero ∧ (nackAt 2).sample 1 = .zero ∧
      (nackAt 2).sample 2 ≠ .zero) :=
  ⟨⟨ready_ready _ _ _, ready_ok _ _ _, by decide⟩, ⟨ready_ready _ _ _, ready_ok _ _ _, rfl, by decide⟩,
    ready_ready _ _ _, ready_ok _ _ _, rfl, rfl, by decide⟩

theorem witness_SetRegStopsExactlyOnce_calls :
    ((failing 0).SessionReady ∧ ((failing 0).OkFor 0 ∧ (failing 0).answer 0 = false) ∧
      ∀ j, 31 + 28 * j ≤ 0 → (failing 0).sample j = .zero) ∧
    ((failing 86).SessionReady ∧ ((failing 86).OkFor 86 ∧ (failing 86).answer 86 = false) ∧
      ∀ j, 31 + 28 * j ≤ 86 → (failing 86).sample j = .zero) ∧
    ((failing 87).SessionReady ∧ ((failing 87).OkFor 87 ∧ (failing 87).answer 87 = false) ∧ (failing 87).AckFor 3) ∧
    ((failing 90).SessionReady ∧ ((failing 90).OkFor 90 ∧ (failing 90).answer 90 = false) ∧ (failing 90).AckFor 3) :=
  ⟨⟨ready_ready _ _ _, failing_first 0, fun _ _ => rfl⟩, ⟨ready_ready _ _ _, failing_first 86, fun _ _ => rfl⟩,
    ⟨ready_ready _ _ _, failing_first 87, fun _ _ => rfl⟩, ready_ready _ _ _, failing_first 90, fun _ _ => rfl⟩

theorem witness_WriteBulkWritesInOrder : benign.SessionReady ∧ benign.OkFor (91 * (255#8).toNat) ∧
    benign.AckFor (3 * (255#8).toNat) := ⟨ready_ready _ _ _, ready_ok _ _ _, benign_ack _⟩

theorem witness_WriteBulkIsItsSetRegs :
    (benign.SessionReady ∧ (benign.afterSetRegs (bulkWrites 0x64#8 0xD0#8 [0xAA#8])).failure = none) ∧
    ((failing 0).SessionReady ∧ ((failing 0).afterSetRegs (bulkWrites 0x64#8 0xD0#8 [0xAA#8])).failure =
      some (.resource .setOutput .sda)) :=
  ⟨⟨ready_ready _ _ _, by decide +kernel⟩, ready_ready _ _ _, by decide +kernel⟩

theorem witness_FailedWritesAreForgotten :
    (∃ t, exec (.setreg 0x64#8 0x3F#8 0xFF#8) (failing 0) = .next t ∧
      t.result = .status (.error (.resource .setOutput .sda))) ∧
    (∃ t, exec (.writebulk 0x64#8 0xD0#8 1#8) { failing 0 with buf0 := [0xAA#8] } = .next t ∧
      t.result = .status (.error (.resource .setOutput .sda))) ∧
    (∃ t, exec .initialise (failing 0) = .next t ∧ t.result = .status (.error (.resource .setOutput .sda))) :=
  ⟨next_of_returns (by decide +kernel), next_of_returns (by decide +kernel), next_of_returns (by decide +kernel)⟩

theorem witness_RegisterProtocolFrame : (∃ t, exec (.setreg 0x64#8 0x3F#8 0xFF#8) benign = .next t) ∧
    ∃ t, exec (.writebulk 0x64#8 0xD0#8 0#8) benign = .next t := ⟨⟨_, rfl⟩, _, rfl⟩

theorem witness_InitializeWritesTheTable : benign.SessionReady ∧ benign.cfg.admissible = true ∧ benign.OkFor 1183 ∧
    benign.AckFor 39 := ⟨ready_ready _ _ _, testCfg_admissible, ready_ok _ _ _, benign_ack _⟩

theorem witness_InitializeIsItsSetRegs :
    (benign.SessionReady ∧ benign.cfg.admissible = true ∧ (benign.afterSetRegs (initWrites benign.cfg)).failure = none) ∧
    ((nackAt 13).SessionReady ∧ ((nackAt 13).afterSetRegs (initWrites (nackAt 13).cfg)).failure =
      some (.protocol .subaddress)) :=
  ⟨⟨ready_ready _ _ _, testCfg_admissible, by decide +kernel⟩, ready_ready _ _ _, by decide +kernel⟩

theorem witness_LoadProgramFollowsItsSequence : benign.SessionReady ∧ (32#8).toNat ≤ 32 ∧ benign.OkFor (91 * (32 + 32 + 6)) ∧
    benign.AckFor (3 * (32 + 32 + 6)) := ⟨ready_ready _ _ _, by decide, ready_ok _ _ _, benign_ack _⟩

theorem witness_LoadProgramStopsAtAFailure :
    ((nackAt 0).SessionReady ∧ (0#8).toNat ≤ 32 ∧ 0 < (0#8).toNat + (0#8).toNat + 6 ∧ (nackAt 0).OkFor (91 * 0 + 35) ∧
      (nackAt 0).AckFor (3 * 0) ∧ (nackAt 0).sample (3 * 0) ≠ .zero) ∧
    ((nackAt 207).SessionReady ∧ (32#8).toNat ≤ 32 ∧ 69 < (32#8).toNat + (32#8).toNat + 6 ∧
      (nackAt 207).OkFor (91 * 69 + 35) ∧ (nackAt 207).AckFor (3 * 69) ∧ (nackAt 207).sample (3 * 69) ≠ .zero) ∧
    ((loading 23).SessionReady ∧ (32#8).toNat ≤ 32 ∧ ((loading 23).afterSetRegs (loadWrites (loading 23).cfg
      ((loading 23).operand0 32#8) ((loading 23).operand1 32#8))).failure = some (.protocol .value)) ∧
    ((failing 92).SessionReady ∧ (0#8).toNat ≤ 32 ∧ ((failing 92).afterSetRegs (loadWrites (failing 92).cfg
      ((failing 92).operand0 0#8) ((failing 92).operand1 0#8))).failure = some (.resource .setOutput .scl)) :=
  ⟨⟨ready_ready _ _ _, by decide, by decide, ready_ok _ _ _, fun _ h => absurd h (Nat.not_lt_zero _), by decide⟩,
    ⟨ready_ready _ _ _, by decide, by decide, ready_ok _ _ _, (nackAt_samples 207).1, by
      rw [show 3 * 69 = 207 from rfl, (nackAt_samples 207).2]
      decide⟩,
    ⟨ready_ready _ _ _, by decide, by decide +kernel⟩, ready_ready _ _ _, by decide, by decide +kernel⟩

theorem witness_LoadProgramIsItsSetRegs : benign.SessionReady ∧ (0#8).toNat ≤ 32 ∧
    (benign.afterSetRegs (loadWrites benign.cfg [] [])).failure = none :=
  ⟨ready_ready _ _ _, by decide, by decide +kernel⟩

theorem witness_ValidationPrecedesTheBus : benign.SessionReady ∧ benign.cfg.admissible = true ∧
    (32 < (33#8).toNat ∨ 32 < (0#8).toNat) ∧ (32 < (0#8).toNat ∨ 32 < (33#8).toNat) ∧ 2 ≤ (2#8).toNat ∧
    ∃ t, exec (.playtape 2#8) benign = .next t ∧ t.result = .status (.error (.validation .index)) :=
  ⟨ready_ready _ _ _, testCfg_admissible, by decide, by decide, by decide, next_of_returns (by decide)⟩

theorem witness_PlayTapeIsItsLoadProgram : benign.SessionReady ∧ benign.cfg.admissible = true ∧ 2 ≤ (2#8).toNat ∧
    (1#8).toNat < 2 ∧ benign.OkFor 6370 ∧ benign.AckFor 210 :=
  ⟨ready_ready _ _ _, testCfg_admissible, by decide, by decide, ready_ok _ _ _, benign_ack _⟩

theorem witness_PlayTapeLoadsTheTape : benign.SessionReady ∧ benign.cfg.admissible = true ∧ (1#8).toNat < 2 ∧
    benign.OkFor 6370 ∧ benign.AckFor 210 :=
  ⟨ready_ready _ _ _, testCfg_admissible, by decide, ready_ok _ _ _, benign_ack _⟩

theorem witness_UploadsReachTheSelectedPage : benign.SessionReady ∧ benign.cfg.admissible = true ∧ (32#8).toNat ≤ 32 ∧
    (∀ r ∈ [benign.cfg.regEngMode, benign.cfg.regPageSel, benign.cfg.regEngRun, benign.cfg.regFreeRun],
      windowOffset benign.cfg benign.cfg.devAddr r = none) ∧
    benign.OkFor (91 * (32 + 32 + 6)) ∧ benign.AckFor (3 * (32 + 32 + 6)) :=
  ⟨ready_ready _ _ _, testCfg_admissible, by decide, by decide, ready_ok _ _ _, benign_ack _⟩

theorem witness_DeviceProgrammerFrame : (∃ t, exec .initialise benign = .next t) ∧
    (∃ t, exec (.loadprogram 0#8 0#8) benign = .next t) ∧ ∃ t, exec (.playtape 0#8) benign = .next t :=
  ⟨⟨_, rfl⟩, ⟨_, rfl⟩, _, rfl⟩

theorem witness_RunBringsUpAndPlays (j : Nat) : (lateAck j).RunReady ∧ (lateAck j).PinsFree ∧
    (lateAck j).cfg.admissible = true ∧
    (lateAck j).OkFor (2 + 35 * j + 1183 + 91 * (playWrites (lateAck j).cfg 0#8).length) ∧
    (∀ k, k < j → (lateAck j).sample k = .one) ∧
    (∀ k, k < 39 + 3 * (playWrites (lateAck j).cfg 0#8).length → (lateAck j).sample (j + k) = .zero) :=
  ⟨idle_ready _ _ _, idle_free _ _ _, testCfg_admissible, idle_ok _ _ _, (lateAck_samples j).1,
    fun k _ => (lateAck_samples j).2 k⟩

theorem witness_RunGivesUpAfterFifteenAttempts : (lateAck 15).RunReady ∧ (lateAck 15).PinsFree ∧
    (lateAck 15).cfg.admissible = true ∧ (lateAck 15).OkFor 527 ∧ ∀ k, k < 15 → (lateAck 15).sample k = .one :=
  ⟨idle_ready _ _ _, idle_free _ _ _, testCfg_admissible, idle_ok _ _ _, (lateAck_samples 15).1⟩

theorem witness_RunWithoutItsPins :
    ((idle [false] [] .zero).RunReady ∧ (idle [false] [] .zero).answer 0 = false) ∧
    (({ idle [] [] .zero with scl := { claimed := true, dir := .unknown, level := .unknown } } : State).RunReady ∧
      ({ idle [] [] .zero with scl := { claimed := true, dir := .unknown, level := .unknown } } : State).scl.claimed =
        true) ∧
    ((idle [true, false] [] .zero).RunReady ∧ (idle [true, false] [] .zero).answer 0 = true ∧
      (idle [true, false] [] .zero).scl.claimed = false ∧ (idle [true, false] [] .zero).answer 1 = false) :=
  ⟨⟨idle_ready _ _ _, rfl⟩, ⟨⟨rfl, rfl⟩, rfl⟩, idle_ready _ _ _, rfl, rfl, rfl⟩

theorem witness_RunCombinesTheOutcomes : (idle [] [] .zero).RunReady ∧ (idle [] [] .zero).PinsFree ∧
    (idle [] [] .zero).OkFor 2 := ⟨idle_ready _ _ _, idle_free _ _ _, idle_ok _ _ _⟩

theorem witness_RunIsItsOperations : (idle [] [] .zero).RunReady ∧ (idle [] [] .zero).PinsFree ∧
    (idle [] [] .zero).OkFor 2 := ⟨idle_ready _ _ _, idle_free _ _ _, idle_ok _ _ _⟩

theorem witness_RunErrIsRunThenTerminalWait : (idle [] [] .zero).RunReady := idle_ready _ _ _

theorem witness_SequencerFrame : (∃ t, exec (.run 0#8) (idle [] [] .zero) = .next t) ∧
    ∃ t, exec (.runerr 1#8) (idle [] [] .zero) = .next t := ⟨⟨_, rfl⟩, _, rfl⟩

theorem witness_WriteByteMeetsItsTestProperty :
    (benign.SessionReady ∧ benign.OkFor 28 ∧ benign.sample 0 = .zero) ∧
    ((nackAt 0).SessionReady ∧ (nackAt 0).OkFor 28 ∧ (nackAt 0).sample 0 = .one) :=
  ⟨⟨ready_ready _ _ _, ready_ok _ _ _, rfl⟩, ready_ready _ _ _, ready_ok _ _ _, rfl⟩

end Sys2Proof.Tests
end

section
/-! PROOFS of the family `00_scope.md`: what every operation keeps, whatever the environment answers; the invariant at
reset and along every step; and `LOADPROGRAM` against its `SETREG`s. -/

namespace Sys2Proof.Machine

/-! ## Operations 0x0 to 0x9 are made of moves -/

/-- An operation of the session is a piece made of moves, which gives the control point back, and then its result; only
`INITIALIZE` writes `INIT_I`. -/
theorem sessionResult_moves {i : Instr} (hi : i.opcode.toNat < 0xA) (s : State) :
    ∃ u r, sessionResult i s = u.setResult r ∧ u.pc = s.pc ∧
      ∀ R, ProgClosed R → (i = .initialise → InitClosed R) → R s u := by
  cases i with
  | start => exact ⟨_, _, rfl, start_pc s, fun _ P _ => respects_start P.reg.pin s⟩
  | stop => exact ⟨_, _, rfl, stop_pc s, fun _ P _ => respects_stop P.reg.pin s⟩
  | writebit v => exact ⟨_, _, rfl, writeBit_pc v s, fun _ P _ => respects_writeBit P.reg.pin v s⟩
  | readbit => exact ⟨_, _, rfl, readBit_pc s, fun _ P _ => respects_readBit P.reg.pin s⟩
  | writebyte b => exact ⟨_, _, rfl, writeByte_pc b s, fun _ P _ => respects_writeByte P.reg.set.byte b s⟩
  | setreg dev sub val => exact ⟨_, _, rfl, setReg_pc dev sub val s, fun _ P _ => respects_setReg P.reg dev sub val s⟩
  | writebulk dev start n =>
    exact ⟨_, _, rfl, writeBulk_pc dev start _ s, fun _ P _ => respects_writeBulk P.reg dev start _ s⟩
  | initialise => exact ⟨_, _, rfl, initialise_pc s, fun _ _ I => respects_initialise (I rfl) s⟩
  | loadprogram m p => exact ⟨_, _, rfl, loadProgram_pc _ _ s, fun _ P _ => respects_loadProgram P.load _ _ s⟩
  | playtape index => exact ⟨_, _, rfl, playTape_pc index s, fun _ P _ => respects_playTape P index s⟩
  | run index => simp [Instr.opcode] at hi
  | runerr index => simp [Instr.opcode] at hi

/-- The operations that take no session are `RUN` and `RUNERR` (R67). -/
theorem run_or_runErr_of_opcode {i : Instr} (hi : 0xA ≤ i.opcode.toNat) : ∃ index, i = .run index ∨ i = .runerr index := by
  cases i with
  | run index => exact ⟨index, .inl rfl⟩
  | runerr index => exact ⟨index, .inr rfl⟩
  | _ => simp [Instr.opcode] at hi

/-! ## What an operation leaves alone -/

/-- Operations 0x0 to 0x9 leave the control point, the session, the status registers and the claims of both pins alone. -/
theorem exec_session_frame {i : Instr} {s t : State} (hi : i.opcode.toNat < 0xA) (h : exec i s = .next t) :
    t.pc = s.pc ∧ t.session = s.session ∧ t.status = s.status ∧ t.scl.claimed = s.scl.claimed ∧
      t.sda.claimed = s.sda.claimed := by
  obtain ⟨u, r, e, hpc, hu⟩ := sessionResult_moves hi s
  obtain ⟨-, hses, hst, -, -, -, -, hscl, hsda⟩ :=
    hostPart_eq (hu (Keeps hostPart) hostPart_prog fun _ => ⟨hostPart_prog.reg, fun _ _ => rfl⟩)
  rw [(exec_next h).1, e]
  exact ⟨hpc, hses, hst, hscl, hsda⟩

/-- `INIT_I` stays in its range: `INITIALIZE` counts the 13 entries of its table, and no other operation of the session
writes it (R16, R109). -/
theorem sessionResult_initI {i : Instr} (hi : i.opcode.toNat < 0xA) {s : State} (hc : s.cfg.initSeq.length = 13)
    (h : s.work.initI.toNat ≤ 13) : (sessionResult i s).work.initI.toNat ≤ 13 := by
  by_cases hinit : i = .initialise
  · subst hinit
    exact initialise_initI s hc
  · obtain ⟨u, r, e, -, hu⟩ := sessionResult_moves hi s
    have hk : Keeps loadPart s u := hu _ loadPart_prog fun h => absurd h hinit
    have hw : u.work.initI = s.work.initI := congrArg (·.1) hk
    rw [e]
    show u.work.initI.toNat ≤ 13
    rwa [hw]

/-- Every operation keeps the parameters, the buffers, the host's inputs and the frames, and `INIT_I` in its range. -/
theorem sessionResult_seqKeeps (i : Instr) (s : State) : SeqKeeps s (sessionResult i s) := by
  have returned : ∀ u r, SeqKeeps s u → SeqKeeps s (u.setResult r) := fun u _ h =>
    seqKeeps_path.trans h (seqKeeps_of rfl rfl rfl rfl rfl rfl)
  have taped : ∀ index, SeqKeeps s (s.setTape index) := fun _ => seqKeeps_of rfl rfl rfl rfl rfl rfl
  rcases Nat.lt_or_ge i.opcode.toNat 0xA with hi | hi
  · have hinit := fun hc h => sessionResult_initI (s := s) hi hc h
    obtain ⟨u, r, e, hpc, hu⟩ := sessionResult_moves hi s
    obtain ⟨hcfg, -, -, hb0, hb1, -, hin, -, -⟩ :=
      hostPart_eq (hu (Keeps hostPart) hostPart_prog fun _ => ⟨hostPart_prog.reg, fun _ _ => rfl⟩)
    rw [e] at hinit ⊢
    exact ⟨hcfg, ⟨hb0, hb1⟩, hin, congrArg (·.frames) hpc, hinit⟩
  · obtain ⟨index, rfl | rfl⟩ := run_or_runErr_of_opcode hi
    · exact returned _ _ (seqKeeps_path.trans (taped index) (respects_run seqKeeps_seq index s))
    · exact returned _ _ (seqKeeps_path.trans (taped index) (respects_runErr seqKeeps_seq index s))

theorem exec_seqKeeps {i : Instr} {s t : State} (h : exec i s = .next t) : SeqKeeps s t := by
  rw [(exec_next h).1]
  exact sessionResult_seqKeeps i s

/-- The state a presented operation starts from has the parameters of the state before. -/
@[simp] theorem beforeCommand_cfg (s : State) (i : Instr) : (s.beforeCommand i).cfg = s.cfg := by
  unfold State.beforeCommand
  split_ifs <;> rfl

theorem step_cfg {s t : State} (h : step s = .next t) : t.cfg = s.cfg := by
  obtain ⟨-, rfl⟩ | ⟨rest, -, rfl⟩ | ⟨st, w, b0, b1, rest, -, -, rfl⟩ | ⟨w, b0, b1, rest, i, -, -, -, h⟩ := step_cases h
  · rfl
  · rfl
  · rfl
  · exact (exec_seqKeeps h).cfg.trans (beforeCommand_cfg s i)

/-- Settles O16: of what one step can do, only an operation could reach the parameters, and every operation keeps them. -/
theorem parametersAreConstant : Obligations.ParametersAreConstant :=
  ⟨fun _ _ h => step_cfg h, fun _ _ _ h => (exec_seqKeeps h).cfg⟩

/-! ## The events -/

/-- Operations 0x0 to 0x9 append no request and no release (R76, R77). -/
theorem exec_session_growsQuietly {i : Instr} {s t : State} (hi : i.opcode.toNat < 0xA) (h : exec i s = .next t) :
    GrowsQuietly s t := by
  obtain ⟨u, r, e, -, hu⟩ := sessionResult_moves hi s
  rw [(exec_next h).1, e]
  exact hu _ growsQuietly_prog fun _ => ⟨growsQuietly_prog.reg, fun _ _ => growsQuietly_same rfl⟩

/-- Settles O21: every move takes answers in order and appends events; the events a session operation appends are
those of its quiet moves, since the trace before is the same. -/
theorem operationsOnlyAppendEvents : Obligations.OperationsOnlyAppendEvents := by
  intro i s t h
  obtain ⟨a, n, evs, henv, htrace, hclock⟩ := exec_appends h
  refine ⟨a, n, evs, henv, htrace, hclock, fun hi => ?_⟩
  obtain ⟨evs', htrace', hquiet⟩ := exec_session_growsQuietly hi h
  have same : evs = evs' := List.append_cancel_left (htrace.symm.trans htrace')
  rwa [same]

/-! ## How RUN and RUNERR end -/

/-- No session, and neither handle held (R14, R15). -/
def State.HoldsNoSession (s : State) : Prop :=
  s.session.valid = false ∧ s.session.hScl = none ∧ s.session.hSda = none

/-- An `Acquire` that fails holds nothing: the rollback forgets the clock pin's handle (R122). -/
theorem acquire_error_holdsNoSession {s t : State} {e : Error} (h : Op.apply acquire s = (.error e, t))
    (hs : s.HoldsNoSession) : t.HoldsNoSession := by
  obtain ⟨hv, hc, hd⟩ := hs
  obtain h0 | ⟨h0, h1⟩ | ⟨hok, hfree⟩ := acquire_cases s
  · rw [acquire_sclRefused s h0] at h
    cases h
    exact ⟨hv, hc, hd⟩
  · obtain ⟨-, -, hses, -, -⟩ := acquire_sdaRefused s h0 h1
    rw [h] at hses
    change t.session = _ at hses
    unfold State.HoldsNoSession
    rw [hses]
    exact ⟨hv, rfl, hd⟩
  · rw [acquire_ok s hok hfree] at h
    cases h

/-- `Acquire` writes no status register. -/
theorem acquire_keepsStatus : Op.Respects (Keeps State.status) acquire := by
  have P := keeps_path State.status
  unfold acquire
  refine respects_bind P (respects_readState P _) fun c => respects_bind P (fun _ => rfl) fun r => ?_
  cases r with
  | none => exact respects_raise P _
  | some h =>
    refine respects_bind P (fun _ => rfl) fun _ => respects_bind P (fun _ => rfl) fun r => ?_
    cases r with
    | none =>
      refine respects_bind P (fun _ => rfl) fun ok => respects_bind P (fun _ => rfl) fun _ => ?_
      cases ok
      · exact respects_bind P (fun _ => rfl) fun _ => respects_raise P _
      · exact respects_raise P _
    | some h => exact respects_bind P (fun _ => rfl) fun _ _ => rfl

/-- A failed release gives a release error (R123). -/
theorem releaseFailure_kind {a b : Bool} {e : Error} (h : releaseFailure a b = some e) :
    ∃ p, e = .resource .release p := by
  cases a <;> cases b <;> cases h <;> exact ⟨_, rfl⟩

/-- R21: `CLEANUP_ERR` is none or the failure of releasing a pin. -/
def StatusRegs.CleanupIsRelease (r : StatusRegs) : Prop := ∀ e, r.cleanupErr = some e → ∃ p, e = .resource .release p

/-- `RUN` returns the exit status and goes to `Done` with it; it leaves no session and no handle, and as cleanup error
none or that of a release (R123, R125). -/
theorem run_exits (index : Byte) {s : State} (hs : s.HoldsNoSession) :
    ∃ st t, Op.apply (run index) s = (.ok st, t) ∧ t.status.exitStatus = st ∧ t.pc.top = .done st ∧
      t.HoldsNoSession ∧ t.status.CleanupIsRelease := by
  obtain ⟨e, a, ha, h⟩ | ⟨a, u, -, -, h⟩ := run_cases index s
  · have hnone : a.HoldsNoSession := acquire_error_holdsNoSession (s := s.runStarted index) ha hs
    refine ⟨_, _, h, rfl, rfl, hnone, fun c hc => ?_⟩
    have hst : a.status = (s.runStarted index).status := by
      have hkeeps := acquire_keepsStatus (s.runStarted index)
      rwa [ha] at hkeeps
    change a.status.cleanupErr = some c at hc
    rw [hst] at hc
    cases hc
  · exact ⟨_, _, h, rfl, rfl, ⟨rfl, rfl, rfl⟩, fun _ hc => releaseFailure_kind hc⟩

/-- The two operations of the Sequencer end at `Done` or in the terminal wait, with the exit status, no session and no
handle. -/
theorem exec_sequencer_ends {i : Instr} {s t : State} (hi : 0xA ≤ i.opcode.toNat) (hs : s.HoldsNoSession)
    (h : exec i s = .next t) :
    (t.pc.top = .done t.status.exitStatus ∨ t.pc.top = .terminalWait t.status.exitStatus) ∧ t.HoldsNoSession ∧
      t.status.CleanupIsRelease := by
  rw [(exec_next h).1]
  obtain ⟨index, rfl | rfl⟩ := run_or_runErr_of_opcode hi
  all_goals obtain ⟨st, u, hu, rfl, htop, hses, hcl⟩ := run_exits index hs
  · rw [show sessionResult (.run index) s = _ from finish_ok hu]
    exact ⟨.inl htop, hses, hcl⟩
  · rw [show sessionResult (.runerr index) s = _ from finish_ok (runErr_apply index s u _ hu)]
    exact ⟨.inr rfl, hses, hcl⟩

/-! ## The invariant -/

theorem State.Inv.remoteWf {s : State} (h : s.Inv) : s.remote.wf := ⟨h.regsWf, h.muxWf, h.progWf⟩

/-- R15: without a session neither handle is held. -/
theorem State.Inv.holdsNoSession {s : State} (h : s.Inv) (hv : s.session.valid = false) : s.HoldsNoSession := by
  obtain ⟨hscl, hsda⟩ := h.handles
  rw [hv] at hscl hsda
  exact ⟨hv, by simpa using hscl, by simpa using hsda⟩

/-- Every operation keeps the invariant: those of the session leave what it says of session and control point alone,
the Sequencer's end at rest without a session. -/
theorem exec_inv {i : Instr} {s t : State} (hinv : s.Inv) (h : exec i s = .next t) : t.Inv := by
  have keeps := exec_seqKeeps h
  obtain ⟨hbit, hregs, hmux, hprog⟩ := exec_sound h ⟨hinv.bitcntRange, hinv.remoteWf⟩
  have hadm : t.cfg.admissible = true := keeps.cfg ▸ hinv.admissible
  have hframes : t.pc.frames = [] := keeps.frames.trans hinv.noFrames
  have hinit := keeps.initI (admissible_initSeq hinv.admissible) hinv.initIRange
  rcases Nat.lt_or_ge i.opcode.toNat 0xA with hi | hi
  · obtain ⟨hpc, hses, hst, hscl, hsda⟩ := exec_session_frame hi h
    exact {
      admissible := hadm
      noFrames := hframes
      atRest := by rw [hpc, hst]; exact hinv.atRest
      sessionAtIdle := by rw [hses, hpc]; exact hinv.sessionAtIdle
      handles := by rw [hses]; exact hinv.handles
      sessionCopies := by rw [hses, keeps.cfg]; exact hinv.sessionCopies
      pinsHeld := by rw [hses, hscl, hsda]; exact hinv.pinsHeld
      bitcntRange := hbit
      initIRange := hinit
      cleanupKind := by rw [hst]; exact hinv.cleanupKind
      regsWf := hregs
      muxWf := hmux
      progWf := hprog }
  · have hready : s.RunReady := (exec_next h).2.2 hi
    obtain ⟨htop, ⟨hv, hs, hd⟩, hcl⟩ := exec_sequencer_ends hi (hinv.holdsNoSession hready.2) h
    have hne : t.session.valid ≠ true := by simp [hv]
    exact {
      admissible := hadm
      noFrames := hframes
      atRest := .inr htop
      sessionAtIdle := fun hv => absurd hv hne
      handles := by rw [hv, hs, hd]; exact ⟨rfl, rfl⟩
      sessionCopies := fun hv => absurd hv hne
      pinsHeld := fun hv => absurd hv hne
      bitcntRange := hbit
      initIRange := hinit
      cleanupKind := hcl
      regsWf := hregs
      muxWf := hmux
      progWf := hprog }

/-- Settles O15, by what one step can do: wait, reset (on a kill or after `Done`), or run an operation from a state that
meets the invariant too. -/
theorem stepKeepsTheInvariant : Obligations.StepKeepsTheInvariant := by
  intro s t hinv h
  have reset : s.hostReset.Inv := hostReset_inv hinv.admissible hinv.remoteWf
  obtain ⟨-, rfl⟩ | ⟨rest, -, rfl⟩ | ⟨st, w, b0, b1, rest, -, -, rfl⟩ | ⟨w, b0, b1, rest, i, -, -, -, h⟩ := step_cases h
  · exact hinv
  · exact accept_inv reset [] [] rest
  · exact reset
  · exact exec_inv (accept_inv (beforeCommand_inv hinv i) b0 b1 rest) h

/-- R8: the platform's parameters are admissible, or `TESTCFG` stands in their place. -/
theorem platform_admissible : Config.platform.admissible = true := by
  unfold Config.platform
  split
  · assumption
  · decide

/-- Settles O14: the reset state is what a reset leaves of itself, and its memories are empty. -/
theorem resetMeetsTheInvariant : Obligations.ResetMeetsTheInvariant :=
  show State.reset.hostReset.Inv from
    hostReset_inv platform_admissible ⟨List.Pairwise.nil, List.Pairwise.nil, List.Pairwise.nil⟩

/-! ## LOADPROGRAM and its transactions (R111) -/

@[simp] theorem operand0_length (s : State) (n : Byte) : (s.operand0 n).length = n.toNat := by
  simp [State.operand0, bufferBytes]

@[simp] theorem operand1_length (s : State) (n : Byte) : (s.operand1 n).length = n.toNat := by
  simp [State.operand1, bufferBytes]

/-- What `LOADPROGRAM` adds to the trace when a write fails is a `Log` event or nothing (R12). -/
theorem loadLog_onlyLogs (m p j : Nat) : (loadLog m p j).filter (fun e => !e.isLog) = [] := by
  unfold loadLog
  split_ifs <;> rfl

/-- Settles O43: `LOADPROGRAM` is the sequence of its transactions, which adds to their trace only the log of a failure. -/
theorem loadProgramIsItsSetRegs : Obligations.LoadProgramIsItsSetRegs := by
  intro s m p hready hm hp
  have sequence := segment_loadProgram (c := s.cfg) (mux := s.operand0 m) (program := s.operand1 p) (by simpa) (by simpa)
  obtain ⟨hbus, hok, herr⟩ := segment_issued sequence hready
  refine ⟨_, exec_session (by simp [Instr.opcode]) hready, hbus, ?_, fun hn => (hok hn).2.1⟩
  rcases hf : (s.afterSetRegs (loadWrites s.cfg (s.operand0 m) (s.operand1 p))).failure with _ | e
  · obtain ⟨htrace, -, -⟩ := hok hf
    exact congrArg _ htrace
  · obtain ⟨j, -, -, htrace, -⟩ := herr e hf
    exact (congrArg _ htrace).trans (by simp [loadProgress, loadLog_onlyLogs])

end Sys2Proof.Machine
end

section
/-! PROOFS of the family `10_state.md`: the operand buffers, reset and the pin calls; what each kind of operation leaves
alone, whatever the environment answers; and `INITIALIZE` and `PLAYTAPE` against their writes. -/

namespace Sys2Proof.Machine

variable {α : Type} {R : State → State → Prop}

/-! ## Operand buffers (R29, R65) -/

/-- Where the host supplied every byte named, no free value is among them. -/
theorem bufferBytes_eq_take {buf : List Byte} {n : Byte} (which drawn : Nat) (h : n.toNat ≤ buf.length) :
    bufferBytes buf which drawn n = buf.take n.toNat := by
  refine List.ext_getElem (by simp [bufferBytes, h]) fun i hi _ => ?_
  have hn : i < n.toNat := by simpa [bufferBytes] using hi
  have hsupplied : i < buf.length := Nat.lt_of_lt_of_le hn h
  simp [bufferBytes, bufferByte, hsupplied]

/-- Settles O5: no byte of a buffer that is long enough is a free value. -/
theorem suppliedBytesAreTheOperands : Obligations.SuppliedBytesAreTheOperands :=
  fun _ _ => ⟨bufferBytes_eq_take 0 _, bufferBytes_eq_take 1 _⟩

/-! ## Reset (R31) -/

/-- Settles O10: each value is the one the reset state is written with, and an empty memory reads as nothing. -/
theorem resetValues : Obligations.ResetValues :=
  ⟨rfl, rfl, rfl, rfl, rfl, rfl, rfl, rfl, rfl, rfl, rfl, fun _ => ⟨rfl, rfl, rfl⟩⟩

/-! ## The pin calls (R26, R154) -/

@[simp] theorem setPin_pin (s : State) (p : Pin) (v : PinState) : (s.setPin p v).pin p = v := by cases p <;> rfl

@[simp] theorem emit_pin (s : State) (p : Pin) (e : Event) : (s.emit e).pin p = s.pin p := by cases p <;> rfl

@[simp] theorem pinRequest_pin (s : State) (p : Pin) :
    (s.pinRequest p).pin p = (s.pin p).afterRequest (s.requestAnswer p) := by simp [State.pinRequest]

@[simp] theorem pinSetOutput_pin (s : State) (p : Pin) (b : Bool) :
    (s.pinSetOutput p b).pin p = (s.pin p).afterSetOutput b (s.answer 0) := by simp [State.pinSetOutput]

@[simp] theorem pinSetInput_pin (s : State) (p : Pin) :
    (s.pinSetInput p).pin p = (s.pin p).afterSetInput (s.answer 0) := by simp [State.pinSetInput]

@[simp] theorem pinRelease_pin (s : State) (p : Pin) :
    (s.pinRelease p).pin p = (s.pin p).afterRelease (s.answer 0) := by simp [State.pinRelease]

/-- A read leaves every pin alone. -/
@[simp] theorem pinRead_pin (s : State) (p q : Pin) : (s.pinRead p).pin q = s.pin q := by cases q <;> rfl

theorem requestAnswer_granted {s : State} {p : Pin} (hfree : (s.pin p).claimed = false) (hok : s.answer 0 = true) :
    s.requestAnswer p = true := by simp [State.requestAnswer, hfree, hok]

theorem requestAnswer_refused {s : State} {p : Pin} (h : (s.pin p).claimed = true ∨ s.answer 0 = false) :
    s.requestAnswer p = false := by
  rcases h with h | h <;> simp [State.requestAnswer, h]

/-- Settles O23, by what each call leaves of its pin, for either answer. -/
theorem pinCallsFollowTheCapability : Obligations.PinCallsFollowTheCapability := by
  intro s p b id label
  refine ⟨fun hfree hok => ?_, fun hok => ?_, fun hrefused => ?_, fun hfail => ?_, rfl, pinRead_pin s p p⟩
  · simp [pinRequest, requestAnswer_granted hfree hok, PinState.afterRequest]
  · simp [pinSetOutput, pinSetInput, pinRelease, hok, PinState.afterSetOutput, PinState.afterSetInput,
      PinState.afterRelease]
  · simp [pinRequest, requestAnswer_refused hrefused, PinState.afterRequest, PinState.failed]
  · simp [pinSetOutput, pinSetInput, pinRelease, hfail, PinState.afterSetOutput, PinState.afterSetInput,
      PinState.afterRelease, PinState.failed]

/-! ## What operations 0x0 to 0x9 leave alone -/

/-- No operation of the session reaches the parameters, the session and status registers, the control point, what the host
supplied, or a claim. -/
theorem exec_session_leaves {i : Instr} {s t : State} (hi : i.opcode.toNat < 0xA) (h : exec i s = .next t) :
    t.cfg = s.cfg ∧ t.session = s.session ∧ t.status = s.status ∧ t.pc = s.pc ∧ t.buf0 = s.buf0 ∧ t.buf1 = s.buf1 ∧
      t.inputs = s.inputs ∧ t.scl.claimed = s.scl.claimed ∧ t.sda.claimed = s.sda.claimed := by
  obtain ⟨hpc, hsession, hstatus, hscl, hsda⟩ := exec_session_frame hi h
  obtain ⟨hcfg, ⟨hbuf0, hbuf1⟩, hinputs, -, -⟩ := exec_seqKeeps h
  exact ⟨hcfg, hsession, hstatus, hpc, hbuf0, hbuf1, hinputs, hscl, hsda⟩

/-! ## START, STOP, WRITEBIT and READBIT (R78 to R81) -/

/-- One phase of `START` or `STOP`: a pin is driven and held. -/
theorem respects_phase (C : DriveClosed R) {m n k : Nat} {p : Pin} {b : Bool} {x : Op α} (hx : Op.Respects R x) :
    Op.Respects R (do
      line m
      drive p b
      line n
      delayHalves k
      x) :=
  respects_bind C.path (C.line m) fun _ => respects_bind C.path (C.driven p b) fun _ =>
    respects_bind C.path (C.line n) fun _ => respects_bind C.path (C.delay k) fun _ => hx

/-- `START` drives three phases and then sets `BUS_BUSY` (R78). -/
theorem start_drives (C : DriveClosed R) (busy : ∀ v, Op.Respects R (setBusBusy v)) : Op.Respects R start :=
  C.call _ (respects_phase C (respects_phase C (respects_phase C (busy _))))

/-- `STOP` drives four phases and then clears `BUS_BUSY` (R79). -/
theorem stop_drives (C : DriveClosed R) (busy : ∀ v, Op.Respects R (setBusBusy v)) : Op.Respects R stop :=
  C.call _ (respects_phase C (respects_phase C (respects_phase C (respects_phase C (busy _)))))

theorem flags_drive : DriveClosed (Keeps State.flags) where
  path := keeps_path _
  pc := fun _ _ => rfl
  out := fun _ p _ => by cases p <;> rfl
  dly := fun _ _ => rfl

theorem start_flags (s : State) : (Op.apply start s).2.flags = s.flags := start_drives flags_drive (fun _ _ => rfl) s

theorem stop_flags (s : State) : (Op.apply stop s).2.flags = s.flags := stop_drives flags_drive (fun _ _ => rfl) s

/-- `WRITEBIT` writes no flag and no ghost. -/
theorem writeBit_flagsAndGhosts (v : Bool) (s : State) :
    flagsAndGhosts (Op.apply (writeBit v) s).2 = flagsAndGhosts s := writeBit_cell flagsAndGhosts_drive v s

theorem bitPart_eq {s t : State} (h : bitPart t = bitPart s) :
    t.work = s.work ∧ t.remote = s.remote ∧ t.flags.nack = s.flags.nack ∧ t.ghost.engineCmd = s.ghost.engineCmd ∧
      t.ghost.pageCmd = s.ghost.pageCmd := by
  simpa [bitPart] using h

/-- Of the four bit operations, only `READBIT` writes a flag, and only `START` and `STOP` write a ghost. -/
theorem bitOperation_keeps {i : Instr} (hi : i = .start ∨ i = .stop ∨ (∃ v, i = .writebit v) ∨ i = .readbit) (s : State) :
    bitPart (sessionResult i s) = bitPart s ∧ (i ≠ .readbit → (sessionResult i s).flags = s.flags) ∧
      ((∃ v, i = .writebit v) ∨ i = .readbit → (sessionResult i s).ghost = s.ghost) := by
  obtain rfl | rfl | ⟨v, rfl⟩ | rfl := hi
  · exact ⟨respects_start bitPart_pin s, fun _ => start_flags s, by simp⟩
  · exact ⟨respects_stop bitPart_pin s, fun _ => stop_flags s, by simp⟩
  · have hboth := writeBit_flagsAndGhosts v s
    exact ⟨respects_writeBit bitPart_pin v s, fun _ => congrArg (·.1) hboth, fun _ => congrArg (·.2) hboth⟩
  · exact ⟨respects_readBit bitPart_pin s, fun h => absurd rfl h, fun _ => congrArg (·.2) (readBit_nackAndGhosts s)⟩

/-- Settles O30: the bit operations drive pins and hold them; `READBIT` writes `SAMPLE` besides, and `START` and `STOP`
write `BUS_BUSY`. -/
theorem bitOperationsFrame : Obligations.BitOperationsFrame := by
  intro i s t hi h
  have hop : i.opcode.toNat < 0xA := by
    obtain rfl | rfl | ⟨v, rfl⟩ | rfl := hi <;> simp [Instr.opcode]
  obtain ⟨hcfg, hsession, hstatus, hpc, hbuf0, hbuf1, hinputs, hscl, hsda⟩ := exec_session_leaves hop h
  obtain ⟨hpart, hflags, hghost⟩ := bitOperation_keeps hi s
  rw [← (exec_next h).1] at hpart hflags hghost
  obtain ⟨hwork, hremote, hnack, hengine, hpage⟩ := bitPart_eq hpart
  exact ⟨hcfg, hsession, hwork, hstatus, hremote, hpc, hbuf0, hbuf1, hinputs, hnack,
    fun hne => congrArg (·.sample) (hflags hne), hengine, hpage, fun hcell => congrArg (·.busBusy) (hghost hcell), hscl, hsda⟩

/-! ## WRITEBYTE (R82) -/

theorem bytePart_eq {s t : State} (h : bytePart t = bytePart s) :
    t.work = { s.work with shift := t.work.shift, bitcnt := t.work.bitcnt } ∧ t.remote = s.remote := by
  simp only [bytePart, Prod.mk.injEq] at h
  obtain ⟨⟨hdev, hsub, hval⟩, hbulk, hinit, hattempt, htape, hremote, -, -⟩ := h
  refine ⟨?_, hremote⟩
  simp only [← hdev, ← hsub, ← hval, ← hbulk, ← hinit, ← hattempt, ← htape]

/-- Settles O31: `WRITEBYTE` is eight bits written and one read, and of the registers it uses `SHIFT` and `BITCNT`
only. -/
theorem writeByteFrame : Obligations.WriteByteFrame := by
  intro b s t h
  obtain ⟨hcfg, hsession, hstatus, hpc, hbuf0, hbuf1, hinputs, hscl, hsda⟩ :=
    exec_session_leaves (by simp [Instr.opcode]) h
  obtain rfl := (exec_next h).1
  have hpart : bytePart (sessionResult (.writebyte b) s) = bytePart s := respects_writeByte bytePart_byte b s
  obtain ⟨hwork, hremote⟩ := bytePart_eq hpart
  exact ⟨hcfg, hsession, hstatus, hremote, hpc, writeByte_ghost b s, hbuf0, hbuf1, hinputs, hwork, hscl, hsda⟩

/-! ## SETREG and WRITEBULK (R97 to R99) -/

theorem bulkPart_eq {s t : State} (h : bulkPart t = bulkPart s) :
    t.work.initI = s.work.initI ∧ t.work.attempt = s.work.attempt ∧ t.work.tape = s.work.tape ∧
      t.ghost.engineCmd = s.ghost.engineCmd ∧ t.ghost.pageCmd = s.ghost.pageCmd := by
  simpa [bulkPart] using h

/-- The operations of the Register Protocol leave the registers and ghosts of the layers above alone; `BULK_I` is
`WRITEBULK`'s. -/
theorem registerProtocol_keeps {i : Instr}
    (hi : (∃ dev sub val, i = .setreg dev sub val) ∨ ∃ dev start n, i = .writebulk dev start n) (s : State) :
    bulkPart (sessionResult i s) = bulkPart s ∧
      ((∃ dev sub val, i = .setreg dev sub val) → (sessionResult i s).work.bulkI = s.work.bulkI) := by
  obtain ⟨dev, sub, val, rfl⟩ | ⟨dev, start, n, rfl⟩ := hi
  · exact ⟨respects_setReg bulkPart_reg dev sub val s, fun _ => setReg_bulkI dev sub val s⟩
  · exact ⟨respects_writeBulk bulkPart_reg dev start _ s, by simp⟩

/-- Settles O38: transactions reach neither the registers of the layers above nor their ghosts. -/
theorem registerProtocolFrame : Obligations.RegisterProtocolFrame := by
  intro i s t hi h
  have hop : i.opcode.toNat < 0xA := by
    obtain ⟨dev, sub, val, rfl⟩ | ⟨dev, start, n, rfl⟩ := hi <;> simp [Instr.opcode]
  obtain ⟨hcfg, hsession, hstatus, hpc, hbuf0, hbuf1, hinputs, hscl, hsda⟩ := exec_session_leaves hop h
  obtain ⟨hpart, hbulk⟩ := registerProtocol_keeps hi s
  rw [← (exec_next h).1] at hpart hbulk
  obtain ⟨hinit, hattempt, htape, hengine, hpage⟩ := bulkPart_eq hpart
  exact ⟨hcfg, hsession, hstatus, hpc, hbuf0, hbuf1, hinputs, hinit, hattempt, htape, hbulk, hengine, hpage, hscl, hsda⟩

/-! ## INITIALIZE, LOADPROGRAM and PLAYTAPE (R109 to R112) -/

theorem initPart_eq {s t : State} (h : initPart t = initPart s) :
    t.work.attempt = s.work.attempt ∧ t.work.tape = s.work.tape ∧ t.ghost.engineCmd = s.ghost.engineCmd ∧
      t.ghost.pageCmd = s.ghost.pageCmd := by
  simpa [initPart] using h

theorem loadPart_eq {s t : State} (h : loadPart t = loadPart s) :
    t.work.initI = s.work.initI ∧ t.work.attempt = s.work.attempt := by
  simpa [loadPart] using h

theorem tape_load : LoadClosed (Keeps fun s => s.work.tape) where
  reg := {
    set := {
      byte := {
        pin := keeps_pinClosed (fun _ _ => rfl) (fun _ p _ => by cases p <;> rfl) (fun _ => rfl) (fun _ => rfl)
          (fun _ _ => rfl) (fun _ _ => rfl) (fun _ _ => rfl)
        nack := fun _ _ => rfl
        load := fun _ _ => rfl
        count := fun _ _ => rfl }
      operands := fun _ _ _ _ => rfl }
    bulkI := fun _ _ => rfl
    record := fun _ _ _ _ => rfl
    forget := fun _ _ _ => rfl
    forgetAll := fun _ _ _ => rfl
    log := fun _ _ => rfl }
  engine := fun _ _ => rfl
  page := fun _ _ => rfl

theorem loadProgram_tape (mux program : List Byte) (s : State) :
    (Op.apply (loadProgram mux program) s).2.work.tape = s.work.tape := respects_loadProgram tape_load mux program s

/-- Settles O48: `INITIALIZE` writes `INIT_I` of the registers of this layer and above, `PLAYTAPE` writes `TAPE`, and
`LOADPROGRAM` none. -/
theorem deviceProgrammerFrame : Obligations.DeviceProgrammerFrame := by
  intro i s t hi h
  have hop : i.opcode.toNat < 0xA := by
    obtain rfl | ⟨m, p, rfl⟩ | ⟨index, rfl⟩ := hi <;> simp [Instr.opcode]
  obtain ⟨hcfg, hsession, hstatus, hpc, hbuf0, hbuf1, hinputs, hscl, hsda⟩ := exec_session_leaves hop h
  refine ⟨hcfg, hsession, hstatus, hpc, hbuf0, hbuf1, hinputs, ?_⟩
  obtain rfl := (exec_next h).1
  obtain rfl | ⟨m, p, rfl⟩ | ⟨index, rfl⟩ := hi
  · obtain ⟨hattempt, htape, hengine, hpage⟩ := initPart_eq (initialise_initPart s)
    exact ⟨hattempt, by simp, fun _ => htape, fun _ => ⟨hengine, hpage⟩, by simp, hscl, hsda⟩
  · obtain ⟨hinit, hattempt⟩ := loadPart_eq (respects_loadProgram loadPart_prog.load (s.operand0 m) (s.operand1 p) s)
    exact ⟨hattempt, by simp, fun _ => loadProgram_tape _ _ s, by simp, fun _ => hinit, hscl, hsda⟩
  · obtain ⟨hinit, hattempt⟩ := loadPart_eq (respects_playTape loadPart_prog index s)
    have htape : (sessionResult (.playtape index) s).work.tape = index := playTape_tape index s
    exact ⟨hattempt, fun j hj => by cases hj; exact htape, fun hne => absurd rfl (hne index), by simp, fun _ => hinit,
      hscl, hsda⟩

/-- Settles O40: `INITIALIZE` is the sequence of its transactions, which adds no event to theirs and counts them in
`INIT_I`. -/
theorem initializeIsItsSetRegs : Obligations.InitializeIsItsSetRegs := by
  intro s hready
  obtain ⟨hbus, hok, herr⟩ := segment_issued (segment_initialise (c := s.cfg)) hready
  refine ⟨_, exec_session (by simp [Instr.opcode]) hready, hbus, ?_, fun hn => ?_, fun e he => ?_⟩
  · rcases hf : (s.afterSetRegs (initWrites s.cfg)).failure with _ | e
    · obtain ⟨htrace, -, -⟩ := hok hf
      exact htrace
    · obtain ⟨j, -, -, htrace, -⟩ := herr e hf
      exact htrace.trans (List.append_nil _)
  · obtain ⟨-, hremote, hmarks⟩ := hok hn
    have hcount := congrArg Marks.initI hmarks
    refine ⟨hremote, hcount, fun hadm => hcount.trans ?_⟩
    rw [initWrites_length, admissible_initSeq hadm]
  · obtain ⟨j, ⟨hj, hfirst, hbefore⟩, -, -, hmarks⟩ := herr e he
    exact ⟨j, hj, congrArg Marks.initI hmarks, hfirst, hbefore⟩

/-- Settles O46: admissible tables have 32 bytes each, so `PLAYTAPE` performs the 70 writes of its `LOADPROGRAM`. -/
theorem playTapeLoadsTheTape : Obligations.PlayTapeLoadsTheTape := by
  intro s index hready hadm hi hok hack
  have hmux : (s.cfg.muxTable index).length = 32 := admissible_muxTable hadm index
  obtain ⟨-, -, hprogram⟩ := admissible_tables hadm
  refine ⟨?_, wroteAll_trace s _, by rw [loadWrites_length, hmux, hprogram]⟩
  rw [exec_session (by simp [Instr.opcode]) hready]
  exact congrArg _ (finish_ok (playTape_ok index s hi hmux hprogram hok hack))

/-! ## RUN and RUNERR (R125, R127) -/

/-- Once `TAPE` holds the index, nothing in `RUN` changes it: `PLAYTAPE` writes the tape it is given, which is `TAPE`. -/
theorem tape_seq : SeqClosed (Keeps fun s => s.work.tape) where
  run := {
    bringUp := {
      path := keeps_path _
      init := fun s => by
        obtain ⟨-, htape, -, -⟩ := initPart_eq (initialise_initPart s)
        exact htape
      top := fun _ _ => rfl
      attempt := fun _ _ => rfl
      dly := fun _ _ => rfl }
    play := fun s => playTape_tape s.work.tape s
    primary := fun _ _ => rfl }
  request := fun _ p => by cases p <;> rfl
  release := fun _ p => by cases p <;> rfl
  session := fun _ _ => rfl
  status := fun _ _ => rfl
  log := fun _ _ => rfl

/-- `RUN` and `RUNERR` write their index to `TAPE` first, and it stays there. -/
theorem sequencer_tape {i : Instr} {index : Byte} (hi : i = .run index ∨ i = .runerr index) (s : State) :
    (sessionResult i s).work.tape = index := by
  obtain rfl | rfl := hi
  · exact respects_run tape_seq index s
  · exact respects_runErr tape_seq index s

/-- Settles O55: what every operation keeps, and the tape that `RUN` keeps from its first step on. -/
theorem sequencerFrame : Obligations.SequencerFrame := by
  intro i index s t hi h
  obtain ⟨hcfg, ⟨hbuf0, hbuf1⟩, hinputs, hframes, -⟩ := exec_seqKeeps h
  have htape := sequencer_tape hi s
  rw [← (exec_next h).1] at htape
  exact ⟨hcfg, hbuf0, hbuf1, hinputs, hframes, htape⟩

end Sys2Proof.Machine
end

section
/-! PROOFS of the family `20_memory.md`: what the operations that store leave known of the responder's registers and
pages, where they store it, and what they forget when they fail. -/

namespace Sys2Proof.Machine

variable {α : Type}

/-! ## Only the targets (R36, R40) -/

/-- What an operation returns is not stored in the responder. -/
theorem finish_storesIn {c : Config} {L : List (Byte × Byte)} {ret : α → Result} {x : Op α} {s : State}
    (h : StoresIn c L s (Op.apply x s).2) : StoresIn c L s (finish ret x s) :=
  (storesIn_path c L).trans h (storesIn_same rfl rfl)

/-- `RUN` and `RUNERR` write their index to `TAPE` first, which is no register of the responder. -/
theorem storesIn_of_setTape {c : Config} {index : Byte} {L : List (Byte × Byte)} {s t : State}
    (h : RunStoresIn c index L (s.setTape index) t) : StoresIn c L s t := by
  intro hc
  obtain ⟨hcfg, -, hstores⟩ := h hc rfl
  exact ⟨hcfg, hstores⟩

/-- In every environment an operation stores at its targets only. -/
theorem sessionResult_storesIn (c : Config) (i : Instr) (s : State) :
    StoresIn c (targetsOf c i) s (sessionResult i s) := by
  have pin : PinClosed (StoresIn c []) := storesIn_set.pin
  have seq : ∀ index, SeqClosed (RunStoresIn c index (initTargets c ++ playTargets c index)) := fun _ =>
    runStoresIn_seq (fun _ h => List.mem_append_left _ h) fun _ h => List.mem_append_right _ h
  cases i with
  | start => exact finish_storesIn (respects_start pin s)
  | stop => exact finish_storesIn (respects_stop pin s)
  | writebit v => exact finish_storesIn (respects_writeBit pin v s)
  | readbit => exact finish_storesIn (respects_readBit pin s)
  | writebyte b => exact finish_storesIn (respects_writeByte storesIn_set.byte b s)
  | setreg dev sub val => exact finish_storesIn (setReg_storesIn (List.mem_singleton_self _) s)
  | writebulk dev start n =>
    refine finish_storesIn (writeBulk_storesIn (fun sub hsub => ?_) s)
    rw [operand0_length] at hsub
    exact List.mem_map_of_mem hsub
  | initialise => exact finish_storesIn (initialise_storesIn (fun _ h => h) s)
  | loadprogram m p =>
    refine finish_storesIn (loadProgram_storesIn (fun w hw => ?_) s)
    rwa [operand0_length, operand1_length] at hw
  | playtape index => exact finish_storesIn (playTape_storesIn (fun _ h => h) s)
  | run index => exact finish_storesIn (storesIn_of_setTape (respects_run (seq index) index s))
  | runerr index => exact finish_storesIn (storesIn_of_setTape (respects_runErr (seq index) index s))

/-- Settles O22: a next state is the one the operation leaves, and that differs at the targets only. -/
theorem storesReachOnlyTheTargets : Obligations.StoresReachOnlyTheTargets := by
  intro i s t h
  obtain rfl := (exec_next h).1
  exact (sessionResult_storesIn s.cfg i s rfl).2

/-! ## SETREG acknowledged (R51, R63) -/

/-- A performed write leaves the clock and the data pin driven 1 (R57). -/
theorem wrote_busIdle (s : State) (w : Byte × Byte × Byte) : (s.wrote w).BusIdle := ⟨rfl, rfl, rfl, rfl⟩

/-- A performed write leaves its value known (R51). -/
theorem wrote_read (s : State) (dev sub val : Byte) :
    (s.wrote (dev, sub, val)).remote.regs.read (remoteAddr dev sub) = some val := by
  show (s.remote.record s.cfg dev sub val).regs.read _ = _
  rw [Remote.record_regs, Memory.read_write_same]

/-- `SETREG` with every byte acknowledged, issued. -/
theorem exec_setReg_ok {s : State} {dev sub val : Byte} (hready : s.SessionReady) (hok : s.OkFor 91)
    (hack : s.AckFor 3) :
    exec (.setreg dev sub val) s = .next ((s.wrote (dev, sub, val)).setResult (.status .success)) := by
  rw [exec_session (by simp [Instr.opcode]) hready]
  exact congrArg _ (finish_ok (setReg_ok dev sub val s hok hack))

/-- Settles O33: an acknowledged `SETREG` leaves the state of one performed write. -/
theorem setRegLeavesTheBusIdle : Obligations.SetRegLeavesTheBusIdle := by
  intro s dev sub val hready hok hack
  refine ⟨_, exec_setReg_ok hready hok hack, rfl, wrote_busIdle s (dev, sub, val), rfl, ?_, wrote_read s dev sub val⟩
  show s.trace ++ transactionWave s.session.halfPeriod dev sub val = _
  simp only [transactionWave, List.append_assoc]

/-! ## WRITEBULK (R40, R43, R99) -/

/-- R40, R43: the write of byte i goes to `start + i`, modulo 256. -/
theorem bulkWrites_map_range (dev start : Byte) (n : Nat) (f : Nat → Byte) :
    bulkWrites dev start ((List.range n).map f) =
      (List.range n).map fun i => (dev, start + BitVec.ofNat 8 i, f i) := by
  induction n generalizing start f with
  | zero => rfl
  | succ n ih =>
    have next : ∀ i, start + 1#8 + BitVec.ofNat 8 i = start + BitVec.ofNat 8 (i + 1) := fun i => by
      rw [BitVec.add_assoc, ← BitVec.ofNat_add, Nat.add_comm 1]
    rw [List.range_succ_eq_map]
    simp only [List.map_cons, List.map_map, bulkWrites, ih, next, BitVec.add_zero]
    rfl

/-- The number of the bytes of `BUF0` that a command names is its count operand. -/
theorem ofNat_operand0_length (s : State) (n : Byte) : BitVec.ofNat 8 (s.operand0 n).length = n := by
  simp

/-- Settles O35: an acknowledged `WRITEBULK` leaves the state of its writes, `BULK_I` counting them. -/
theorem writeBulkWritesInOrder : Obligations.WriteBulkWritesInOrder := by
  intro s dev start n hready hok hack
  rw [← operand0_length s n] at hok hack
  refine ⟨?_, wroteAll_trace s _, bulkWrites_map_range dev start n.toNat _⟩
  have h := finish_ok (ret := returnsSuccess) (writeBulk_ok dev start (s.operand0 n) s hok hack)
  rw [ofNat_operand0_length] at h
  rw [exec_session (by simp [Instr.opcode]) hready]
  exact congrArg _ h

/-- Settles O36: `WRITEBULK` is the sequence of its transactions, which adds to their trace the log of a failure only, and
counts them in `BULK_I`. -/
theorem writeBulkIsItsSetRegs : Obligations.WriteBulkIsItsSetRegs := by
  intro s dev start n hready
  obtain ⟨hbus, hok, herr⟩ := segment_issued (segment_writeBulk (c := s.cfg) dev start (s.operand0 n)) hready
  refine ⟨_, exec_session (by simp [Instr.opcode]) hready, hbus, fun hn => ?_, fun e he => ?_⟩
  · obtain ⟨htrace, hremote, hmarks⟩ := hok hn
    refine ⟨htrace, hremote, (congrArg Marks.bulkI hmarks).trans ?_⟩
    rw [bulkWrites_length]
    exact ofNat_operand0_length s n
  · obtain ⟨j, ⟨hj, hfirst, hbefore⟩, -, htrace, hmarks⟩ := herr e he
    have hcount : (sessionResult (.writebulk dev start n) s).work.bulkI = BitVec.ofNat 8 j := congrArg Marks.bulkI hmarks
    rw [bulkWrites_length, operand0_length] at hj
    have hindex : (BitVec.ofNat 8 j).toNat = j := by
      have := n.isLt
      rw [BitVec.toNat_ofNat, Nat.mod_eq_of_lt (by omega)]
    rw [hcount, hindex]
    exact ⟨htrace, hj, hfirst, hbefore⟩

/-! ## Failed writes (R46, U1, U2) -/

/-- An operation whose result is an error raised it. -/
theorem error_of_result {x : Op Unit} {s : State} {e : Error}
    (h : (finish returnsSuccess x s).result = .status (.error e)) : (Op.apply x s).1 = .error e := by
  change resultOf returnsSuccess (Op.apply x s).1 = _ at h
  rcases hr : (Op.apply x s).1 with e' | a <;> rw [hr] at h <;> cases h
  rfl

/-- A register that an operation leaves unknown when it raises an error is unknown where its result is an error. -/
theorem finish_forgets {x : Op Unit} {s : State} {e : Error} {a : Nat}
    (h : (finish returnsSuccess x s).result = .status (.error e))
    (hx : (Op.apply x s).1 = .error e → (Op.apply x s).2.remote.regs.read a = none) :
    (finish returnsSuccess x s).remote.regs.read a = none := hx (error_of_result h)

/-- R46: after a `SETREG` that raised an error nothing is known of its register. -/
theorem setReg_forgets {dev sub val : Byte} {s : State} {e : Error}
    (h : (Op.apply (setReg dev sub val) s).1 = .error e) :
    (Op.apply (setReg dev sub val) s).2.remote.regs.read (remoteAddr dev sub) = none := by
  rcases ht : Op.apply (transaction dev sub val) (s.pushFrame .setReg) with ⟨e' | a, u⟩
  · rw [setReg_of_error ht]
    exact forget_read_same u.cfg u.remote dev sub
  · rw [setReg_of_ok ht] at h
    cases h

/-- Settles O37: each of the three operations forgets its registers when it raises an error. -/
theorem failedWritesAreForgotten : Obligations.FailedWritesAreForgotten := by
  intro s t e he
  refine ⟨fun dev sub val h => ?_, fun dev start n h sub hsub => ?_, fun h entry hentry => ?_⟩
  all_goals obtain rfl := (exec_next h).1
  · exact finish_forgets he setReg_forgets
  · rw [← operand0_length s n] at hsub
    exact finish_forgets he fun herr => writeBulk_forgets dev start _ s e herr sub hsub
  · exact finish_forgets he fun herr => initialise_forgets s e herr entry.1 (List.mem_map_of_mem hentry)

/-! ## LOADPROGRAM and the pages (R36 (b), R48) -/

/-- Writes outside the window reach no page. -/
theorem recordWrites_page_outside {c : Config} {ws : List (Byte × Byte × Byte)}
    (h : ∀ w ∈ ws, windowOffset c w.1 w.2.1 = none) (q : PageCmd) (r : Remote) :
    (recordWrites c r ws).page q = r.page q := by
  induction ws generalizing r with
  | nil => rfl
  | cons w ws ih =>
    rw [List.forall_mem_cons] at h
    obtain ⟨hw, hws⟩ := h
    exact (ih hws _).trans (record_page_outside hw q)

/-- The writes that select a page and upload to it. -/
def selectAndUpload (c : Config) (v : Byte) (bytes : List Byte) : List (Byte × Byte × Byte) :=
  (c.devAddr, c.regPageSel, v) :: bulkWrites c.devAddr c.progMemBase bytes

/-- R111: `LOADPROGRAM` uploads to one page and then to the other, between writes of the engine's registers. -/
theorem loadWrites_uploads (c : Config) (mux program : List Byte) :
    loadWrites c mux program = [(c.devAddr, c.regEngMode, c.valEngLoad)] ++ selectAndUpload c c.valPageMux mux ++
      selectAndUpload c c.valPageProg program ++ [(c.devAddr, c.regEngMode, c.valEngHalt),
        (c.devAddr, c.regEngRun, c.valEngRun), (c.devAddr, c.regFreeRun, c.valFreeRun)] := by
  simp [loadWrites, selectAndUpload]

/-- The bytes uploaded are in the page selected, and the other page is as it was. -/
theorem recordWrites_selectAndUpload {c : Config} {p : PageCmd} {v : Byte} {bytes : List Byte} (hp : p ≠ .none)
    (hv : (if v = c.valPageMux then .mux else if v = c.valPageProg then .program else .none) = p)
    (hadm : c.admissible = true) (hsel : windowOffset c c.devAddr c.regPageSel = none) (hlen : bytes.length ≤ 32)
    (r : Remote) :
    (∀ q, q ≠ p → (recordWrites c r (selectAndUpload c v bytes)).page q = r.page q) ∧
    ∀ i, i < bytes.length → ((recordWrites c r (selectAndUpload c v bytes)).page p).read i = bytes[i]? := by
  obtain ⟨hbase, -⟩ := admissible_window hadm
  have upload := recordWrites_page hp hbase hsel bytes 0 (r.record c c.devAddr c.regPageSel v) (by omega)
    ((select_page r v).trans hv)
  rw [show c.progMemBase + BitVec.ofNat 8 0 = c.progMemBase from BitVec.add_zero _] at upload
  obtain ⟨-, hother, hread⟩ := upload
  refine ⟨fun q hq => (hother q hq).trans (record_page_outside hsel q), fun i hi => (hread i).trans ?_⟩
  rw [if_pos (by omega), Nat.sub_zero]

/-- What the acknowledged writes of `LOADPROGRAM` leave in the pages, its other registers being outside the window: each
upload fills its page, and no later write reaches the first page. -/
theorem recordWrites_loadWrites {c : Config} (hadm : c.admissible = true)
    (hclear : ∀ r ∈ [c.regEngMode, c.regPageSel, c.regEngRun, c.regFreeRun], windowOffset c c.devAddr r = none)
    {mux program : List Byte} (hm : mux.length ≤ 32) (hp : program.length ≤ 32) (r : Remote) :
    (∀ i, i < mux.length → (recordWrites c r (loadWrites c mux program)).muxPage.read i = mux[i]?) ∧
    ∀ i, i < program.length → (recordWrites c r (loadWrites c mux program)).progPage.read i = program[i]? := by
  obtain ⟨-, hne⟩ := admissible_window hadm
  simp only [List.forall_mem_cons] at hclear
  obtain ⟨hmode, hsel, hrun, hfree, -⟩ := hclear
  rw [loadWrites_uploads, recordWrites_append, recordWrites_append, recordWrites_append]
  generalize recordWrites c r [_] = r1
  obtain ⟨-, hmux⟩ := recordWrites_selectAndUpload (by simp) (if_pos rfl) hadm hsel hm r1
  generalize recordWrites c r1 _ = r2 at hmux ⊢
  obtain ⟨hother, hprog⟩ :=
    recordWrites_selectAndUpload (by simp) ((if_neg hne.symm).trans (if_pos rfl)) hadm hsel hp r2
  generalize recordWrites c r2 _ = r3 at hother hprog ⊢
  have hend := fun q => recordWrites_page_outside (c := c) (ws := [(c.devAddr, c.regEngMode, c.valEngHalt),
    (c.devAddr, c.regEngRun, c.valEngRun), (c.devAddr, c.regFreeRun, c.valFreeRun)]) (by simp [hmode, hrun, hfree]) q r3
  have hmuxKept := (hend .mux).trans (hother .mux (by simp))
  exact ⟨fun i hi => (congrArg (·.read i) hmuxKept).trans (hmux i hi),
    fun i hi => (congrArg (·.read i) (hend .program)).trans (hprog i hi)⟩

/-- Settles O47: an acknowledged `LOADPROGRAM` leaves known of the responder what its writes record. -/
theorem uploadsReachTheSelectedPage : Obligations.UploadsReachTheSelectedPage := by
  intro s m p hready hadm hm hp hclear hok hack
  rw [← operand0_length s m] at hm hok hack
  rw [← operand1_length s p] at hp hok hack
  obtain ⟨hmux, hprog⟩ := recordWrites_loadWrites hadm hclear hm hp s.remote
  rw [← wroteAll_remote] at hmux hprog
  rw [operand0_length] at hmux
  rw [operand1_length] at hprog
  refine ⟨_, exec_session (by simp [Instr.opcode]) hready, ?_⟩
  rw [show sessionResult (.loadprogram m p) s = _ from finish_ok (loadProgram_ok _ _ s hm hp hok hack)]
  exact ⟨hmux, hprog⟩

end Sys2Proof.Machine
end

section
/-! PROOFS of the family `30_encoding.md`: the command word read and written, which words are illegal, and what a step
at `Idle` makes of a word. -/

namespace Sys2Proof.Machine

/-! ## The formats (R65): when a word of the format is legal, and what it stands for -/

/-- A check that guards a value. -/
theorem guarded_ok_iff {p : Prop} [Decidable p] {i j : Instr} {why : DecodeError} :
    (if p then .ok j else .error why) = Except.ok (ε := DecodeError) i ↔ p ∧ j = i := by
  split_ifs with hp <;> simp [hp]

theorem formatN_ok_iff {w : Word} {i j : Instr} :
    formatN w j = .ok i ↔ (aField w = 0#8 ∧ bField w = 0#8 ∧ cField w = 0#8) ∧ j = i :=
  guarded_ok_iff

/-- The bit operand is bit 0 of a byte whose other bits are 0. -/
theorem formatB_ok_iff {w : Word} {i : Instr} {f : Bool → Instr} :
    formatB w f = .ok i ↔ (aField w = 0#8 ∧ bField w = 0#8) ∧ ∃ v, cField w = bitOperand v ∧ f v = i := by
  unfold formatB
  split_ifs with hab h0 h1
  · simp [hab, h0, bitOperand]
  · simp [hab, h1, bitOperand]
  · simp [h0, h1, bitOperand]
  · simp [hab]

theorem formatV_ok_iff {w : Word} {i : Instr} {f : Byte → Instr} :
    formatV w f = .ok i ↔ (aField w = 0#8 ∧ bField w = 0#8) ∧ f (cField w) = i :=
  guarded_ok_iff

theorem formatR_ok_iff {w : Word} {i : Instr} {f : Byte → Byte → Byte → Instr} :
    formatR w f = .ok i ↔ f (aField w) (bField w) (cField w) = i := by
  simp [formatR]

theorem formatL_ok_iff {w : Word} {i : Instr} {f : Byte → Byte → Instr} :
    formatL w f = .ok i ↔ aField w = 0#8 ∧ f (bField w) (cField w) = i :=
  guarded_ok_iff

/-- R64, R68: a word decodes by its opcode if its reserved field is 0, and not at all otherwise. -/
theorem decode_ok_iff {w : Word} {i : Instr} :
    decode w = .ok i ↔ zField w = 0#4 ∧ decodeOp w (opField w).toNat = .ok i := by
  unfold decode
  split_ifs with hz hop <;> simp [hz]

/-! ## The round trips -/

theorem decode_packWord_ok_iff {op : BitVec 4} {a b c : Byte} {i : Instr} :
    decode (packWord op a b c) = .ok i ↔ decodeOp (packWord op a b c) op.toNat = .ok i := by
  simp [decode_ok_iff, Laws.packWord_fields]

theorem decode_encode (i : Instr) : decode (encode i) = .ok i := by
  cases i
  case start | stop | readbit | initialise =>
    exact decode_packWord_ok_iff.mpr (formatN_ok_iff.mpr (by simp [Laws.packWord_fields]))
  case writebit v =>
    exact decode_packWord_ok_iff.mpr (formatB_ok_iff.mpr (by simp [Laws.packWord_fields]))
  case writebyte | playtape | run | runerr =>
    exact decode_packWord_ok_iff.mpr (formatV_ok_iff.mpr (by simp [Laws.packWord_fields]))
  case setreg | writebulk =>
    exact decode_packWord_ok_iff.mpr (formatR_ok_iff.mpr (by simp [Laws.packWord_fields]))
  case loadprogram =>
    exact decode_packWord_ok_iff.mpr (formatL_ok_iff.mpr (by simp [Laws.packWord_fields]))

/-- Settles O2: the fields of a packed word are what was packed, and each format reads its operands from them. -/
theorem decodeInvertsEncode : Obligations.DecodeInvertsEncode := decode_encode

/-- R64: a word is its five fields, so one whose reserved field is 0 is packed from the other four. -/
theorem packWord_of_fields {w : Word} (hz : zField w = 0#4) :
    packWord (opField w) (aField w) (bField w) (cField w) = w := by
  unfold packWord
  rw [← hz]
  unfold opField zField aField bField cField
  ext i hi
  simp only [BitVec.getElem_append, BitVec.getElem_extractLsb']
  grind

/-- What the opcode map gives for an opcode is encoded with that opcode and with the operands of the word. -/
theorem encode_of_decodeOp {w : Word} {n : Nat} {i : Instr} (h : decodeOp w n = .ok i) :
    encode i = packWord (BitVec.ofNat 4 n) (aField w) (bField w) (cField w) := by
  unfold decodeOp at h
  split at h
  case h_1 | h_2 | h_4 | h_8 => -- format N
    obtain ⟨⟨ha, hb, hc⟩, rfl⟩ := formatN_ok_iff.mp h
    rw [ha, hb, hc]
    rfl
  case h_3 => -- format B
    obtain ⟨⟨ha, hb⟩, v, hc, rfl⟩ := formatB_ok_iff.mp h
    rw [ha, hb, hc]
    rfl
  case h_5 | h_10 | h_11 | h_12 => -- format V
    obtain ⟨⟨ha, hb⟩, rfl⟩ := formatV_ok_iff.mp h
    rw [ha, hb]
    rfl
  case h_6 | h_7 => -- formats R and K
    rw [← formatR_ok_iff.mp h]
    rfl
  case h_9 => -- format L
    obtain ⟨ha, rfl⟩ := formatL_ok_iff.mp h
    rw [ha]
    rfl
  case h_13 => cases h -- reserved opcodes

/-- Settles O3: a word that decodes is packed from its fields, and so is the encoding of what it decodes to. -/
theorem encodeInvertsDecode : Obligations.EncodeInvertsDecode := by
  intro w i h
  obtain ⟨hz, hop⟩ := decode_ok_iff.mp h
  calc encode i = packWord (BitVec.ofNat 4 (opField w).toNat) (aField w) (bField w) (cField w) := encode_of_decodeOp hop
    _ = packWord (opField w) (aField w) (bField w) (cField w) := by rw [BitVec.ofNat_toNat, BitVec.setWidth_eq]
    _ = w := packWord_of_fields hz

/-- Settles O1: the words of the operations are their encodings; each of the three others breaks one check. -/
theorem specWordsDecode : Obligations.SpecWordsDecode :=
  ⟨decode_encode .start, decode_encode .stop, decode_encode (.writebit true), decode_encode .readbit,
    decode_encode (.writebyte 0xA5#8), decode_encode (.setreg 0x64#8 0x3F#8 0xFF#8),
    decode_encode (.writebulk 0x64#8 0xFE#8 0x03#8), decode_encode .initialise,
    decode_encode (.loadprogram 0x01#8 0x02#8), decode_encode (.playtape 0x01#8), decode_encode (.run 0x00#8),
    decode_encode (.runerr 0x01#8), rfl, rfl, rfl⟩

/-! ## The illegal words (R68) -/

/-- Bits 7:1 of a byte are 0 exactly in the two bit operands. -/
theorem upperBits_eq_zero_iff (c : Byte) : c.extractLsb' 1 7 = 0#7 ↔ ∃ v, c = bitOperand v := by
  have upper : c.extractLsb' 1 7 = 0#7 ↔ c = 0#8 ∨ c = 1#8 := by
    simp only [← BitVec.toNat_inj, BitVec.extractLsb'_toNat, BitVec.toNat_ofNat, Nat.shiftRight_eq_div_pow]
    omega
  simp [upper, bitOperand]

/-- What is no value is an error. -/
theorem exists_error_iff {ε α : Type} (x : Except ε α) : (∃ e, x = .error e) ↔ ¬ ∃ a, x = .ok a := by
  cases x <;> simp

/-- R65, R68: the opcode map rejects the reserved opcodes and the operands that a format requires to be 0. -/
theorem decodeOp_error_iff (w : Word) :
    (∃ why, decodeOp w (opField w).toNat = .error why) ↔
      0xC ≤ (opField w).toNat ∨ unusedOperandSet w = true := by
  rw [exists_error_iff]
  unfold unusedOperandSet decodeOp
  generalize (opField w).toNat = n
  split
  case h_1 | h_2 | h_4 | h_8 => simp [formatN_ok_iff, imp_iff_not_or, or_assoc]
  case h_3 =>
    simp only [formatB_ok_iff, exists_and_left, exists_comm (α := Instr), exists_eq', and_true]
    simp [upperBits_eq_zero_iff, imp_iff_not_or, or_assoc]
  case h_5 | h_10 | h_11 | h_12 => simp [formatV_ok_iff, imp_iff_not_or]
  case h_6 | h_7 => simp [formatR_ok_iff]
  case h_9 => simp [formatL_ok_iff]
  case h_13 =>
    simp only [imp_false] at *
    exact iff_of_true (by simp) (.inl (by omega))

/-- R68: the words that do not decode are the illegal ones. -/
theorem illegal_iff_decode_error (w : Word) : illegal w = true ↔ ∃ why, decode w = .error why := by
  unfold illegal decode
  split_ifs with hz hop
  · simp [hz, decodeOp_error_iff]
  · simp [hop]
  · simp [hz]

/-- At `Idle` a word that does not decode is refused. -/
theorem step_undecodable {s : State} {w : Word} {b0 b1 : List Byte} {rest : List HostInput} {why : DecodeError}
    (hp : s.pc.top = .idle) (hin : s.inputs = .command w b0 b1 :: rest) (hw : decode w = .error why) :
    step s = .refused (.illegalWord why) := by
  simp [step, stepWith, hin, acceptCommand, hp, runWord, hw]

/-- Settles O4: the decoder rejects the illegal words, and `Idle` refuses what the decoder rejects. -/
theorem illegalWordsAreRefused : Obligations.IllegalWordsAreRefused := by
  refine fun w => ⟨illegal_iff_decode_error w, fun s b0 b1 rest hp hin hill => ?_⟩
  obtain ⟨why, hw⟩ := (illegal_iff_decode_error w).mp hill
  exact ⟨why, step_undecodable hp hin hw⟩

/-! ## Issuing an operation (R67) -/

theorem exec_noSession {i : Instr} {s : State} (hi : i.opcode.toNat < 0xA) (hp : s.pc.top = .idle)
    (hv : s.session.valid = false) : exec i s = .refused .noSession := by
  obtain ⟨-, e⟩ | ⟨hge, -⟩ := exec_cases i s
  · simp [e, withSession, hp, hv]
  · omega

theorem exec_sessionActive {i : Instr} {s : State} (hi : 0xA ≤ i.opcode.toNat) (hp : s.pc.top = .idle)
    (hv : s.session.valid = true) : exec i s = .refused .sessionActive := by
  obtain ⟨hlt, -⟩ | ⟨-, e⟩ := exec_cases i s
  · omega
  · simp [e, withoutSession, hp, hv]

/-- Inside another operation, and at `Done`, nothing is taken, with a session or without (R125, R156). -/
theorem exec_notIdle (i : Instr) {s : State} (hp : s.pc.top ≠ .idle) (hw : ∀ st, s.pc.top ≠ .terminalWait st) :
    exec i s = .refused .notIdle := by
  obtain ⟨-, e⟩ | ⟨-, e⟩ := exec_cases i s
  · rw [e, withSession]
    split
    next h => exact absurd h hp
    next st h => exact absurd h (hw st)
    all_goals rfl
  · rw [e, withoutSession]
    split
    next h => exact absurd h hp
    next st h => exact absurd h (hw st)
    all_goals rfl

/-- Settles O17: the session is looked at where the block is idle, and nowhere else. -/
theorem wrongSessionStateIsRefused : Obligations.WrongSessionStateIsRefused :=
  fun _ i => ⟨fun hp hi => exec_noSession hi hp, fun hp hi => exec_sessionActive hi hp, exec_notIdle i⟩

/-- Settles O18: a ready operation answers the state its pieces leave, and every piece ends whatever is answered. -/
theorem everyOperationEnds : Obligations.EveryOperationEnds :=
  fun _ _ => ⟨fun hi hs => ⟨_, exec_session hi hs⟩, fun hi hs => ⟨_, exec_run hi hs⟩⟩

/-! ## A command presented at `Idle` (R56, R161, R162) -/

/-- The test interface does not reset (log entry 8). -/
theorem beforeCommand_of_session {i : Instr} (s : State) (hi : i.opcode.toNat < 0xA) : s.beforeCommand i = s :=
  if_pos hi

/-- A host command resets an idle block without a session (R161). -/
theorem beforeCommand_of_hostCommand {i : Instr} {s : State} (hi : 0xA ≤ i.opcode.toNat)
    (hv : s.session.valid = false) : s.beforeCommand i = s.hostReset := by
  simp [State.beforeCommand, hv, Nat.not_lt.mpr hi]

/-- A session is not ended by the reset of a host command, which it makes illegal (R67). -/
theorem beforeCommand_of_active {s : State} (i : Instr) (hv : s.session.valid = true) : s.beforeCommand i = s := by
  simp [State.beforeCommand, hv]

/-- Settles O6: what a step does with a legal word, by the state the word finds. -/
theorem stepRunsTheDecodedOperation : Obligations.StepRunsTheDecodedOperation := by
  intro s w b0 b1 rest i hp hin hw
  rw [step_command hp hin hw]
  refine ⟨fun hi => ?_, fun hi hv => ?_, fun hi hv => ?_⟩
  · rw [beforeCommand_of_session s hi]
    rfl
  · rw [beforeCommand_of_hostCommand hi hv]
    rfl
  · rw [beforeCommand_of_active i hv]
    exact exec_sessionActive hi hp hv

/-- Settles O7: the two words are the encodings of `RUN 0` and `RUNERR 1` (R70), which start from the reset state. -/
theorem hostCommandsRunTheTapes : Obligations.HostCommandsRunTheTapes := by
  intro s w b0 b1 rest i hp hv hin h
  have hostCommand : decode w = .ok i ∧ 0xA ≤ i.opcode.toNat := by
    obtain ⟨rfl, rfl⟩ | ⟨rfl, rfl⟩ := h
    · exact ⟨decode_encode (.run 0#8), Nat.le_refl _⟩
    · exact ⟨decode_encode (.runerr 1#8), Nat.le_succ _⟩
  obtain ⟨hw, hi⟩ := hostCommand
  obtain ⟨-, hstep, -⟩ := stepRunsTheDecodedOperation s w b0 b1 rest i hp hin hw
  exact ⟨_, hstep hi hv, rfl, rfl, rfl, rfl, rfl, rfl, rfl, rfl, rfl, rfl, rfl, rfl, rfl, rfl, rfl, rfl, rfl⟩

end Sys2Proof.Machine
end

section
/-! PROOFS of the family `40_bus_engine.md`: what `START`, `STOP`, `WRITEBIT`, `READBIT` and `WRITEBYTE` leave when
every call answers ok, where they end when one answers fail, and the pins and the pin events of those that complete. -/

namespace Sys2Proof.Machine

variable {α γ : Type} {i : Instr} {ret : α → Result} {x : Op α} {s t : State} {w : List Event}

/-! ## An instruction and its piece (R67, R136) -/

/-- The instruction runs the piece `x` in a session, and `ret` makes its result of the value of `x`. -/
def Issues (i : Instr) (ret : α → Result) (x : Op α) : Prop := ∀ s, exec i s = withSession s (finish ret x)

theorem start_issued : Issues .start (fun _ => .returned) start := fun _ => rfl
theorem stop_issued : Issues .stop (fun _ => .returned) stop := fun _ => rfl
theorem writeBit_issued (v : Bool) : Issues (.writebit v) (fun _ => .returned) (writeBit v) := fun _ => rfl
theorem readBit_issued : Issues .readbit .bit readBit := fun _ => rfl
theorem writeByte_issued (b : Byte) : Issues (.writebyte b) .byteAck (writeByte b) := fun _ => rfl

/-- A ready instruction leaves what its piece leaves, with the result of how that ended. -/
theorem Issues.exec_eq {r : Except Error α} (hi : Issues i ret x) (hready : s.SessionReady)
    (hx : Op.apply x s = (r, t)) : exec i s = .next (t.setResult (resultOf ret r)) := by
  rw [hi s, withSession_ready hready, finish, hx]

/-- A ready instruction whose call number k is the first to answer fail ends there (R86); `f` is what its piece leaves
alone when it raises an error. -/
theorem Issues.exec_cut {f : State → γ} {k : Nat} (hi : Issues i ret x) (hready : s.SessionReady) (hcuts : x.Cuts s w)
    (hkeeps : Op.RespectsOnError (Keeps f) x) (hk : k < callsOf w) (hok : s.OkFor k) (hfail : s.answer k = false) :
    ∃ e u, exec i s = .next (u.setResult (.status (.error e))) ∧ callError k w = some e ∧
      u.trace = s.trace ++ cutAt k w ∧ (Op.apply x s).2 = u ∧ f u = f s := by
  obtain ⟨e, u, hx, herror, htrace, -⟩ := hcuts k hk hok hfail
  have hf : f (Op.apply x s).2 = f s := hkeeps s e (congrArg (·.1) hx)
  rw [hx] at hf
  exact ⟨e, u, hi.exec_eq hready hx, herror, htrace, congrArg (·.2) hx, hf⟩

/-- A piece that ends normally found every call of its events answered ok: the first that fails would end it (R86). -/
theorem okFor_of_apply_ok {a : α} (hcuts : x.Cuts s w) (hx : (Op.apply x s).1 = .ok a) : s.OkFor (callsOf w) := by
  intro k hk
  rcases Nat.lt_or_ge (firstFail s.answer (callsOf w)) (callsOf w) with hlt | hge
  · obtain ⟨e, u, he, -⟩ := hcuts _ hlt (firstFail_ok s.answer _) (firstFail_fail s.answer _ hlt)
    rw [he] at hx
    cases hx
  · exact firstFail_ok s.answer _ k (Nat.lt_of_lt_of_le hk hge)

/-- An instruction that completes normally leaves the state of its piece with every call answered ok. -/
theorem Issues.completed {o : Except Error α} {u : State} {r : Result} (hi : Issues i ret x) (hcuts : x.Cuts s w)
    (hx : s.OkFor (callsOf w) → Op.apply x s = (o, u)) (h : exec i s = .next t) (hr : t.result = r)
    (hnormal : ∀ st, r ≠ .status st) : t = u.setResult r := by
  rw [hi s] at h
  obtain ⟨-, rfl⟩ := withSession_next h
  rcases ha : (Op.apply x s).1 with e | a
  · exact absurd (hr.symm.trans (congrArg (resultOf ret) ha)) (hnormal (.error e))
  · have hu : (Op.apply x s).2 = u := congrArg (·.2) (hx (okFor_of_apply_ok hcuts ha))
    rw [← hr, ← hu]
    rfl

/-! ## START, STOP and WRITEBIT (R78 to R80) -/

/-- A cut instruction whose piece writes no flag and no ghost before it raises an error. -/
theorem Issues.exec_cut_drives {k : Nat} (hi : Issues i ret x) (hready : s.SessionReady) (hcuts : x.Cuts s w)
    (hkeeps : Op.RespectsOnError (Keeps flagsAndGhosts) x) (hk : k < callsOf w) (hok : s.OkFor k)
    (hfail : s.answer k = false) :
    ∃ e t, exec i s = .next t ∧ callError k w = some e ∧ t.result = .status (.error e) ∧
      t.trace = s.trace ++ cutAt k w ∧ t.flags = s.flags ∧ t.ghost = s.ghost := by
  obtain ⟨e, u, hexec, herror, htrace, -, hkept⟩ := hi.exec_cut hready hcuts hkeeps hk hok hfail
  obtain ⟨hflags, hghost⟩ := Prod.mk.inj hkept
  exact ⟨e, _, hexec, herror, rfl, htrace, hflags, hghost⟩

/-- Settles O24: `START` completed, and `START` cut at the call that fails. -/
theorem startDrivesTheStartCondition : Obligations.StartDrivesTheStartCondition :=
  ⟨rfl, fun s hready => ⟨fun hok => start_issued.exec_eq hready (start_ok s hok), fun _ =>
    start_issued.exec_cut_drives hready (start_cuts s) (start_onError flagsAndGhosts_drive)⟩⟩

/-- Settles O25: `STOP` completed, and `STOP` cut at the call that fails. -/
theorem stopDrivesTheStopCondition : Obligations.StopDrivesTheStopCondition :=
  ⟨rfl, fun s hready => ⟨fun hok => stop_issued.exec_eq hready (stop_ok s hok), fun _ =>
    stop_issued.exec_cut_drives hready (stop_cuts s) (stop_onError flagsAndGhosts_drive)⟩⟩

/-- Settles O26: `WRITEBIT` completed, and `WRITEBIT` cut at the call that fails; its operand is bit 0 of the word. -/
theorem writeBitDrivesOneCell : Obligations.WriteBitDrivesOneCell := by
  intro v
  have word : encode (.writebit v) = 0x20000000#32 + (if v then 1#32 else 0#32) := by cases v <;> rfl
  have keeps := respects_onError (writeBit_cell flagsAndGhosts_drive v)
  exact ⟨word, fun s hready => ⟨fun hok => (writeBit_issued v).exec_eq hready (writeBit_ok v s hok), fun _ =>
    (writeBit_issued v).exec_cut_drives hready (writeBit_cuts v s) keeps⟩⟩

/-! ## READBIT (R81) -/

/-- `READBIT` with its calls ok: its result is that of the sample. -/
theorem exec_readBit_ok {v : Sample} (hready : s.SessionReady) (hok : s.OkFor 3) (hv : s.sample 0 = v) :
    exec .readbit s = .next (s.afterReadBit.setResult (resultOf .bit (readOutcome v))) :=
  hv ▸ readBit_issued.exec_eq hready (readBit_ok s hok)

/-- Settles O27: `READBIT` completed, by its sample, and `READBIT` cut at the call that fails. -/
theorem readBitSamplesTheDataPin : Obligations.ReadBitSamplesTheDataPin := by
  refine ⟨rfl, fun s hready => ⟨exec_readBit_ok hready, exec_readBit_ok hready, exec_readBit_ok hready,
    fun k hk hok hfail => ?_⟩⟩
  obtain ⟨e, u, hexec, herror, htrace, rfl, hkept⟩ :=
    readBit_issued.exec_cut hready (readBit_cuts s) (respects_onError (readBit_cell nackAndGhosts_cell)) hk hok hfail
  exact ⟨e, _, hexec, herror, rfl, htrace, congrArg (·.1) hkept, readBit_sample s k hk hok hfail⟩

/-! ## WRITEBYTE (R82) -/

/-- R64: the third operand byte stands in bits 7:0 of the word. -/
theorem packWord_eq_add (op : BitVec 4) (a b c : Byte) : packWord op a b c = packWord op a b 0#8 + c.setWidth 32 := by
  unfold packWord
  generalize op ++ 0#4 ++ a ++ b = x
  refine BitVec.eq_of_toNat_eq ?_
  simp only [BitVec.toNat_add, BitVec.toNat_append, BitVec.toNat_setWidth, BitVec.toNat_ofNat, Nat.zero_mod, Nat.or_zero]
  rw [← Nat.shiftLeft_add_eq_or_of_lt c.isLt, Nat.shiftLeft_eq]
  omega

/-- `WRITEBYTE` with its calls ok: its result is that of the sample of the acknowledgement slot. -/
theorem exec_writeByte_ok (b : Byte) {v : Sample} (hready : s.SessionReady) (hok : s.OkFor 28) (hv : s.sample 0 = v) :
    exec (.writebyte b) s = .next ((s.afterByte b).setResult (resultOf .byteAck (byteOutcome v))) :=
  hv ▸ (writeByte_issued b).exec_eq hready (writeByte_ok b s hok)

/-- Settles O28: `WRITEBYTE` completed, by its sample, and `WRITEBYTE` cut at the call that fails. -/
theorem writeByteSendsMsbFirst : Obligations.WriteByteSendsMsbFirst := by
  refine fun b => ⟨packWord_eq_add _ _ _ b, fun s hready => ⟨exec_writeByte_ok b hready, exec_writeByte_ok b hready,
    exec_writeByte_ok b hready, fun k hk hok hfail => ?_⟩⟩
  obtain ⟨e, u, hexec, herror, htrace, -, hkept⟩ :=
    (writeByte_issued b).exec_cut hready (writeByte_cuts b s) (writeByte_onError nackAndGhosts_cell (fun _ _ => rfl) b)
      hk hok hfail
  exact ⟨e, _, hexec, herror, rfl, htrace, congrArg (·.1) hkept⟩

/-! ## The pins after an operation that completes (R84) -/

/-- Settles O29: an operation that completes normally found its calls answered ok, and leaves the pins as it then does. -/
theorem pinStateAfterBusOperations : Obligations.PinStateAfterBusOperations := by
  intro s t
  refine ⟨fun h hr => ?_, fun h hr => ?_, fun v h hr => ?_, fun b h hr => ?_, fun b a h hr => ?_⟩
  · obtain rfl := start_issued.completed (start_cuts s) (start_ok s) h hr nofun
    exact ⟨⟨rfl, rfl⟩, rfl, rfl⟩
  · obtain rfl := stop_issued.completed (stop_cuts s) (stop_ok s) h hr nofun
    exact ⟨⟨rfl, rfl⟩, rfl, rfl⟩
  · obtain rfl := (writeBit_issued v).completed (writeBit_cuts v s) (writeBit_ok v s) h hr nofun
    exact ⟨⟨rfl, rfl⟩, rfl, rfl⟩
  · obtain rfl := readBit_issued.completed (readBit_cuts s) (readBit_ok s) h hr nofun
    exact ⟨⟨rfl, rfl⟩, rfl⟩
  · obtain rfl := (writeByte_issued b).completed (writeByte_cuts b s) (writeByte_ok b s) h hr nofun
    exact ⟨⟨rfl, rfl⟩, rfl⟩

/-! ## The pin events of WRITEBYTE (R83) -/

theorem bitWave_pinEvents (T : Nat) (v : Bool) :
    (bitWave T v).filter Event.isPinEvent = [.out .scl false true, .out .sda v true, .out .scl true true] := rfl

theorem readWave_pinEvents (T : Nat) (v : Sample) : (readWave T v).filter Event.isPinEvent =
    [.out .scl true true, .inp .sda true, .rd .sda v, .out .scl false true] := rfl

/-- R38: the bits sent are `b[7-k]` for k from 0 to 7. -/
theorem bitsMsbFirst_eq_map (b : Byte) : bitsMsbFirst b = (List.range 8).map (msbFirst b) := rfl

/-- The pin events of a byte are eight cells and those of the acknowledgement slot. -/
theorem byteWave_pinEvents (T : Nat) (b : Byte) (v : Sample) :
    (byteWave T b v).filter Event.isPinEvent =
      (List.range 8).flatMap (fun k => [.out .scl false true, .out .sda (msbFirst b k) true, .out .scl true true])
      ++ [.out .sda true true, .out .scl true true, .inp .sda true, .rd .sda v, .out .scl false true] := by
  unfold byteWave
  rw [List.filter_append, List.filter_flatMap, List.filter_cons_of_pos rfl, readWave_pinEvents, bitsMsbFirst_eq_map,
    List.flatMap_map]
  simp only [bitWave_pinEvents]

/-- Settles O56: the pin events of the byte, and the result by the sample. -/
theorem writeByteMeetsItsTestProperty : Obligations.WriteByteMeetsItsTestProperty := by
  intro s b v hready hok hv _
  refine ⟨_, exec_writeByte_ok b hready hok hv, ?_, ?_, ?_⟩
  · rw [State.setResult_trace, afterByte_trace, hv, List.filter_append, byteWave_pinEvents, List.append_assoc]
    rfl
  · rintro rfl
    rfl
  · rintro rfl
    rfl

end Sys2Proof.Machine
end

section
/-! PROOFS of the family `41_register_protocol.md`: `SETREG` with every call answering ok, and `SETREG` with a sample
or a call that stops it. -/

namespace Sys2Proof.Machine

variable {s t : State} {dev sub val : Byte}

/-! ## The command word (R64, R66) -/

/-- R64: the three operand bytes stand in bits 23:16, 15:8 and 7:0 of the word. -/
theorem packWord_eq_sum (op : BitVec 4) (a b c : Byte) :
    packWord op a b c =
      packWord op 0#8 0#8 0#8 + (a.setWidth 32 <<< 16) + (b.setWidth 32 <<< 8) + c.setWidth 32 := by
  rw [packWord_eq_add]
  refine congrArg (· + _) (BitVec.eq_of_toNat_eq ?_)
  have ha := a.isLt
  have hb := b.isLt
  unfold packWord
  simp only [BitVec.toNat_add, BitVec.toNat_append, BitVec.toNat_shiftLeft, BitVec.toNat_setWidth, BitVec.toNat_ofNat,
    Nat.zero_mod, Nat.or_zero, ← Nat.shiftLeft_add_eq_or_of_lt ha, ← Nat.shiftLeft_add_eq_or_of_lt hb]
  simp only [Nat.shiftLeft_eq]
  omega

/-! ## The pin events of a transaction (R12, R97) -/

@[simp] theorem startWave_countPinEvents (T : Nat) : (startWave T).countP Event.isPinEvent = 3 := rfl
@[simp] theorem stopWave_countPinEvents (T : Nat) : (stopWave T).countP Event.isPinEvent = 4 := rfl

@[simp] theorem byteWave_countPinEvents (T : Nat) (b : Byte) (v : Sample) :
    (byteWave T b v).countP Event.isPinEvent = 29 := by
  rw [List.countP_eq_length_filter, byteWave_pinEvents]
  rfl

theorem transactionWave_countPinEvents (T : Nat) (dev sub val : Byte) :
    (transactionWave T dev sub val).countP Event.isPinEvent = 94 := by
  simp [transactionWave]

/-- Every byte acknowledged before the one that stops the transaction adds its own pin events. -/
theorem failedWave_countPinEvents (T : Nat) (acked : List Byte) (b : Byte) (v : Sample) :
    (failedWave T acked b v).countP Event.isPinEvent = 36 + 29 * acked.length := by
  have hacked : (acked.flatMap fun a => byteWave T a .zero).countP Event.isPinEvent = 29 * acked.length := by
    simp [List.countP_flatMap, Function.comp_def, Nat.mul_comm]
  simp only [failedWave, openWave, List.countP_append, hacked, startWave_countPinEvents, byteWave_countPinEvents,
    stopWave_countPinEvents]
  omega

/-! ## SETREG that raises an error (R97, R98) -/

/-- `SETREG` that raises an error, issued: the error is its result. -/
theorem exec_setReg_error {e : Error} (hready : s.SessionReady) (hx : Op.apply (setReg dev sub val) s = (.error e, t)) :
    exec (.setreg dev sub val) s = .next (t.setResult (.status (.error e))) := by
  rw [exec_session (by simp [Instr.opcode]) hready]
  exact congrArg _ (finish_error hx)

/-- `SETREG` whose byte `b`, after the bytes `acked`, found the sample `v`, issued: `hx` says what its piece leaves. -/
theorem exec_setReg_unacked {stage : Stage} {acked : List Byte} {b : Byte} {k : Nat} {v : Sample}
    (hready : s.SessionReady) (hv : s.sample k = v)
    (hx : Op.apply (setReg dev sub val) s =
      (.error (nackError stage (s.sample k)), s.stoppedAt (dev, sub, val) acked b (s.sample k))) :
    exec (.setreg dev sub val) s =
      .next ((s.stoppedAt (dev, sub, val) acked b v).setResult (.status (.error (nackError stage v)))) := by
  subst hv
  exact exec_setReg_error hready hx

/-- Settles O32: the command word, the acknowledged write and the three nack stages, and the counts of pin events. -/
theorem setRegIsOneTransaction : Obligations.SetRegIsOneTransaction := by
  refine fun dev sub val => ⟨packWord_eq_sum 0x5#4 dev sub val, fun s hready =>
    ⟨exec_setReg_ok hready, fun hok h0 => ?_, fun hok h0 h1 => ?_, fun hok h0 h1 h2 => ?_⟩, fun T =>
    ⟨transactionWave_countPinEvents T dev sub val, failedWave_countPinEvents T [] dev .one,
      failedWave_countPinEvents T [dev] sub .one, failedWave_countPinEvents T [dev, sub] val .one⟩⟩
  · exact exec_setReg_unacked hready h0 (setReg_address dev sub val s hok (by simp [h0]))
  · exact exec_setReg_unacked hready h1 (setReg_subaddress dev sub val s hok h0 (by simp [h1]))
  · exact exec_setReg_unacked hready h2 (setReg_value dev sub val s hok h0 h1 (by simp [h2]))

/-- `SETREG` that raises an error and attempts `STOP`, issued: its trace, and the idle bus where that `STOP` completes
(`p`). -/
theorem exec_setReg_stopped {e : Error} {evs : List Event} {p : Prop} (hready : s.SessionReady)
    (h : ∃ t, Op.apply (setReg dev sub val) s = (.error e, t) ∧ t.trace = evs ∧ (p → t.BusIdle)) :
    ∃ t, exec (.setreg dev sub val) s = .next t ∧ t.result = .status (.error e) ∧ t.trace = evs ∧ (p → t.BusIdle) := by
  obtain ⟨t, hx, htrace, hidle⟩ := h
  exact ⟨_, exec_setReg_error hready hx, rfl, htrace, hidle⟩

/-- Settles O34: the byte stages, a failing call before the last `STOP`, and a failing call of that `STOP`. -/
theorem setRegStopsExactlyOnce : Obligations.SetRegStopsExactlyOnce := by
  intro s dev sub val hready
  refine ⟨fun hok h0 => exec_setReg_stopped hready (setReg_address_stop dev sub val s hok h0),
    fun hok h0 h1 => exec_setReg_stopped hready (setReg_subaddress_stop dev sub val s hok h0 h1),
    fun hok h0 h1 h2 => exec_setReg_stopped hready (setReg_value_stop dev sub val s hok h0 h1 h2),
    fun k hk hok hfail hacked => ?_, fun j hj hok hfail hack => ?_⟩
  · obtain ⟨e, u, hx, herror, htrace, hidle⟩ := setReg_cut dev sub val s k hk hok hfail hacked
    obtain ⟨t, hexec, hresult, hcut⟩ := exec_setReg_stopped hready ⟨u, hx, htrace, hidle⟩
    simp only [List.append_assoc] at herror hcut ⊢
    exact ⟨e, t, hexec, herror, hresult, hcut⟩
  · obtain ⟨e, u, hx, herror, htrace⟩ := setReg_lastStop dev sub val s j hj hok hfail hack
    exact ⟨e, _, exec_setReg_error hready hx, herror, rfl, htrace⟩

end Sys2Proof.Machine
end

section
/-! PROOFS of the family `42_device_programmer.md`: `INITIALIZE` and `LOADPROGRAM` with every byte acknowledged, where
`LOADPROGRAM` stops when a write fails, and `PLAYTAPE` against its `LOADPROGRAM`. -/

namespace Sys2Proof.Machine

variable {s t : State} {m p index : Byte} {mux program : List Byte}

/-! ## INITIALIZE (R109, R110) -/

/-- Settles O39: an admissible table has 13 entries, so the calls and samples named are those of its writes. -/
theorem initializeWritesTheTable : Obligations.InitializeWritesTheTable := by
  intro s hready hadm hok hack
  have hlen : s.cfg.initSeq.length = 13 := admissible_initSeq hadm
  have hwritten := initialise_ok s (by rwa [hlen]) (by rwa [hlen])
  rw [hlen] at hwritten
  refine ⟨?_, wroteAll_trace s _, (initWrites_length s.cfg).trans hlen⟩
  rw [exec_session (by simp [Instr.opcode]) hready]
  exact congrArg _ (finish_ok hwritten)

/-! ## LOADPROGRAM (R107, R108, R111) -/

/-- A ready `LOADPROGRAM` leaves what its piece leaves, with the result of how that ended. -/
theorem exec_loadProgram {r : Except Error Unit} (hready : s.SessionReady)
    (hx : Op.apply (loadProgram (s.operand0 m) (s.operand1 p)) s = (r, t)) :
    exec (.loadprogram m p) s = .next (t.setResult (resultOf returnsSuccess r)) := by
  rw [exec_session (by simp [Instr.opcode]) hready, sessionResult, finish, hx]

/-- Settles O41: the buffers have as many bytes as the operands say, so the calls and samples named are those of the
m + p + 6 writes. -/
theorem loadProgramFollowsItsSequence : Obligations.LoadProgramFollowsItsSequence := by
  intro s m p hready hm hp hok hack
  have hmux : (s.operand0 m).length = m.toNat := operand0_length s m
  have hprogram : (s.operand1 p).length = p.toNat := operand1_length s p
  have hloaded := loadProgram_ok (s.operand0 m) (s.operand1 p) s (by rwa [hmux]) (by rwa [hprogram])
    (by rwa [hmux, hprogram]) (by rwa [hmux, hprogram])
  rw [hprogram, BitVec.ofNat_toNat, BitVec.setWidth_eq] at hloaded
  exact ⟨exec_loadProgram hready hloaded, wroteAll_trace s _, by rw [loadWrites_length, hmux, hprogram]⟩

/-- `LOADPROGRAM` whose write number j is not acknowledged at its device address byte, issued. -/
theorem exec_loadProgram_unacked {j : Nat} (hready : s.SessionReady) (hm : m.toNat ≤ 32) (hp : p.toNat ≤ 32)
    (hj : j < m.toNat + p.toNat + 6) (hok : s.OkFor (91 * j + 35)) (hack : s.AckFor (3 * j))
    (hv : s.sample (3 * j) ≠ .zero) :
    ∃ t, exec (.loadprogram m p) s = .next t ∧ t.result = .status (.error (nackError .address (s.sample (3 * j)))) ∧
      LoadStopped s t ((loadWrites s.cfg (s.operand0 m) (s.operand1 p)).take j) (s.sample (3 * j))
        (loadLog m.toNat p.toNat j) (loadEngine m.toNat p.toNat j s.ghost.engineCmd) := by
  obtain ⟨t, hx, hstopped⟩ := loadProgram_fails (s.operand0 m) (s.operand1 p) s (by simpa) (by simpa) j (by simpa) hok
    hack hv
  rw [operand0_length, operand1_length] at hstopped
  exact ⟨_, exec_loadProgram hready hx, rfl, hstopped⟩

/-- Settles O42: with the environment given, by the write that is not acknowledged; in every environment, since
`LOADPROGRAM` is the sequence of its transactions, by the number of the first that fails. -/
theorem loadProgramStopsAtAFailure : Obligations.LoadProgramStopsAtAFailure := by
  intro s m p hready hm hp
  refine ⟨fun j hj hok hack hv => ?_, fun e he => ?_⟩
  · obtain ⟨t, hexec, hresult, htrace, hengine⟩ := exec_loadProgram_unacked hready hm hp hj hok hack hv
    exact ⟨t, hexec, hresult, htrace, hengine⟩
  · have sequence := segment_loadProgram (c := s.cfg) (mux := s.operand0 m) (program := s.operand1 p) (by simpa) (by simpa)
    obtain ⟨hbus, -, herr⟩ := segment_issued sequence hready
    obtain ⟨j, ⟨hj, hfirst, hbefore⟩, hresult, htrace, hmarks⟩ := herr e he
    change s.afterSetRegs _ = s.afterSetRegs _ at hfirst
    rw [hfirst] at hbus htrace
    rw [loadWrites_length] at hj
    simp only [operand0_length, operand1_length] at hj htrace hmarks
    have hengine := congrArg Marks.engineCmd hmarks
    have hpage := congrArg Marks.pageCmd hmarks
    exact ⟨j, _, exec_session (by simp [Instr.opcode]) hready, hj, hresult, hbefore, hbus, htrace,
      hengine.trans (if_neg (Nat.ne_of_lt hj)), hpage⟩

/-! ## PLAYTAPE (R112) -/

@[simp] theorem setBulkI_trace (s : State) (v : Byte) : (s.setBulkI v).trace = s.trace := rfl
@[simp] theorem commanded_trace (s : State) (e : EngineCmd) (q : PageCmd) : (s.commanded e q).trace = s.trace := rfl
@[simp] theorem setTape_trace (s : State) (v : Byte) : (s.setTape v).trace = s.trace := rfl

/-- Once its operands are read, `LOADPROGRAM` looks neither at where it was called from nor at the buffers, and gives them
back. -/
theorem loadProgram_aside (mux program : List Byte) (s : State) (d : Aside) :
    Op.apply (loadProgram mux program) (s.aside d) =
      ((Op.apply (loadProgram mux program) s).1, (Op.apply (loadProgram mux program) s).2.aside d) :=
  uniform_aside (uniform_loadProgram mux program) (loadProgram_pc mux program)
    (respects_loadProgram hostPart_prog.load mux program) s d

/-- What s holds aside. -/
def State.sideOf (s : State) : Aside := { pc := s.pc, result := s.result, buf0 := s.buf0, buf1 := s.buf1 }

theorem loadProgram_keepsSide (mux program : List Byte) (s : State) :
    (Op.apply (loadProgram mux program) s).2.aside s.sideOf = (Op.apply (loadProgram mux program) s).2 :=
  (congrArg (·.2) (loadProgram_aside mux program s s.sideOf)).symm

theorem playSelected_apply (index : Byte) (s : State) :
    Op.apply (playSelected index) s =
      Op.apply (loadProgram (s.cfg.muxTable index) s.cfg.program) (s.goToStep 3) := rfl

/-- `PLAYTAPE` of a tape that exists writes `TAPE` and is then `LOADPROGRAM` of the tape's mux table and the program. -/
theorem playTape_eq_loadProgram (hi : index.toNat < 2) (s : State) :
    Op.apply (playTape index) s = Op.apply (loadProgram (s.cfg.muxTable index) s.cfg.program) (s.setTape index) := by
  have hinside : ((((s.pushFrame .playTape).goToStep 1).setTape index).goToStep 2).goToStep 3 = (s.setTape index).aside
      { (s.setTape index).sideOf with pc := (((s.pc.push .playTape).atStep 1).atStep 2).atStep 3 } := rfl
  rw [playTape_body, tape_inRange hi, if_neg Bool.false_ne_true, playSelected_apply, hinside, loadProgram_aside]
  exact Prod.ext rfl (loadProgram_keepsSide _ _ (s.setTape index))

/-- The state in which a `LOADPROGRAM` issued by the host would do what `PLAYTAPE` does: `TAPE` is written, and the buffers
hold the tape's mux table and the program. -/
def State.suppliedTape (s : State) (index : Byte) : State :=
  { s.setTape index with buf0 := s.cfg.muxTable index, buf1 := s.cfg.program }

/-- A buffer of 32 bytes supplies the operand of 32 bytes. -/
theorem bufferBytes_of_length {buf : List Byte} (which drawn : Nat) (h : buf.length = 32) :
    bufferBytes buf which drawn 32#8 = buf := by
  rw [bufferBytes_eq_take which drawn (by simp [h])]
  exact List.take_of_length_le (by simp [h])

/-- `LOADPROGRAM` of a supplied tape, issued. -/
theorem sessionResult_loadProgram_suppliedTape (hadm : s.cfg.admissible = true) :
    sessionResult (.loadprogram 32#8 32#8) (s.suppliedTape index) =
      finish returnsSuccess (loadProgram (s.cfg.muxTable index) s.cfg.program) (s.suppliedTape index) := by
  obtain ⟨-, -, hprogram⟩ := admissible_tables hadm
  have hmux : (s.suppliedTape index).operand0 32#8 = s.cfg.muxTable index :=
    bufferBytes_of_length 0 _ (admissible_muxTable hadm index)
  have hprog : (s.suppliedTape index).operand1 32#8 = s.cfg.program := bufferBytes_of_length 1 _ hprogram
  rw [sessionResult, hmux, hprog]

/-- `PLAYTAPE` leaves what that `LOADPROGRAM` leaves, but for the buffers, which it does not use. -/
theorem sessionResult_playTape_eq (hi : index.toNat < 2) (s : State) :
    sessionResult (.playtape index) s =
      { finish returnsSuccess (loadProgram (s.cfg.muxTable index) s.cfg.program) (s.suppliedTape index) with
        buf0 := s.buf0, buf1 := s.buf1 } := by
  have hsupplied : s.suppliedTape index = (s.setTape index).aside
      { (s.setTape index).sideOf with buf0 := s.cfg.muxTable index, buf1 := s.cfg.program } := rfl
  rw [sessionResult, finish, finish, playTape_eq_loadProgram hi, hsupplied, loadProgram_aside]
  exact congrArg (State.setResult · (resultOf returnsSuccess _)) (loadProgram_keepsSide _ _ (s.setTape index)).symm

/-- Buffers that fit give no `ValidationError(size)` (R139 (b)). -/
theorem loadProgram_fitting_result (hm : mux.length ≤ 32) (hp : program.length ≤ 32) (s : State) :
    (finish returnsSuccess (loadProgram mux program) s).result ≠ .status (.error (.validation .size)) := by
  intro h
  exact absurd (raises_loadFitting hm hp s _ (error_of_result h)) (by decide)

/-- Settles O45: the word; the index validated first; `LOADPROGRAM` of the tables, which fit; and its 70 writes when every
byte is acknowledged. -/
theorem playTapeIsItsLoadProgram : Obligations.PlayTapeIsItsLoadProgram := by
  refine fun index => ⟨packWord_eq_add _ _ _ index, fun s hready hadm =>
    ⟨fun hi => ?_, fun hi => ?_, fun hi hok hack => ?_⟩⟩
  · rw [exec_session (by simp [Instr.opcode]) hready]
    exact congrArg _ (finish_error (playTape_outOfRange index s hi))
  · have hsupplied : (s.suppliedTape index).SessionReady := hready
    have hmux : (s.cfg.muxTable index).length ≤ 32 := (admissible_muxTable hadm index).le
    obtain ⟨-, -, hprogram⟩ := admissible_tables hadm
    refine ⟨finish returnsSuccess (loadProgram (s.cfg.muxTable index) s.cfg.program) (s.suppliedTape index), ?_, ?_,
      loadProgram_tape _ _ (s.suppliedTape index), loadProgram_fitting_result hmux hprogram.le _⟩
    · rw [← sessionResult_loadProgram_suppliedTape hadm]
      exact exec_session (by simp [Instr.opcode]) hsupplied
    · rw [← sessionResult_playTape_eq hi]
      exact exec_session (by simp [Instr.opcode]) hready
  · obtain ⟨hexec, htrace, hlength⟩ := playTapeLoadsTheTape s index hready hadm hi hok hack
    exact ⟨_, _, hexec, rfl, by simpa using htrace, hlength⟩

end Sys2Proof.Machine
end

section
/-! PROOFS of the family `43_sequencer.md`: the terminal wait; how `RUN` ends when a pin is refused and when both are granted;
what it returns, what it gives back, and `RUN` and `RUNERR` against the operations they are made of. -/

namespace Sys2Proof.Machine

variable {i : Instr} {index : Byte} {s t : State} {st : Status}

/-! ## The terminal wait (R128) -/

theorem exec_terminalWait (i : Instr) (h : s.pc.top = .terminalWait st) : exec i s = .fault .terminalWait := by
  obtain ⟨-, e⟩ | ⟨-, e⟩ := exec_cases i s
  · simp [e, withSession, h]
  · simp [e, withoutSession, h]

/-- Settles O9: what is issued, presented or awaited finds no successor; a kill is looked at before the control point. -/
theorem terminalWaitHasNoSuccessor : Obligations.TerminalWaitHasNoSuccessor := by
  intro s st h
  refine ⟨fun i => exec_terminalWait i h, fun hin => ?_, fun w b0 b1 rest hin => ?_, ?_, fun rest hin => ?_⟩
  · simp [step, stepWith, hin, waitForCommand, h]
  · simp [step, stepWith, hin, acceptCommand, h]
  · simp [State.deliveredStatus, h]
  · exact ⟨{ s.hostReset with inputs := rest }, by simp [step, stepWith, hin], rfl⟩

/-! ## RUN and RUNERR as instructions (R125, R127) -/

theorem exec_run_of_apply (hready : s.RunReady) (h : Op.apply (run index) s = (.ok st, t)) :
    exec (.run index) s = .next (t.setResult (.status st)) :=
  (exec_run (Nat.le_refl _) hready).trans (congrArg _ (finish_ok h))

theorem exec_runErr_of_apply (hready : s.RunReady) (h : Op.apply (run index) s = (.ok st, t)) :
    exec (.runerr index) s = .next ((t.setTop (.terminalWait st)).setResult (.status (.terminalIdle st))) :=
  (exec_run (Nat.le_succ _) hready).trans (congrArg _ (finish_ok (runErr_apply index s t st h)))

/-- Settles O54: the word, and the two instructions by what the piece `run` leaves. -/
theorem runErrIsRunThenTerminalWait : Obligations.RunErrIsRunThenTerminalWait := by
  refine fun s index => ⟨packWord_eq_add _ _ _ index, fun hready => ?_⟩
  obtain ⟨st, t, h⟩ := run_total index s
  exact ⟨st, _, exec_run_of_apply hready h, rfl, exec_runErr_of_apply hready h⟩

/-! ## What the host receives (R129, R141) -/

/-- `RUN` returns the exit status, and is done with it, on both its ways out (R125). -/
theorem run_done (h : Op.apply (run index) s = (.ok st, t)) : t.status.exitStatus = st ∧ t.pc.top = .done st := by
  obtain ⟨e, a, -, h'⟩ | ⟨a, u, -, -, h'⟩ := run_cases index s
  · cases h.symm.trans h'
    exact ⟨rfl, rfl⟩
  · cases h.symm.trans h'
    exact ⟨rfl, rfl⟩

/-- Settles O13: the status is delivered at `Done`, where `RUN` ends, and not in the terminal wait, where `RUNERR` does. -/
theorem hostReceivesTheExitStatus : Obligations.HostReceivesTheExitStatus := by
  intro s index hready
  obtain ⟨st, t, h⟩ := run_total index s
  obtain ⟨rfl, htop⟩ := run_done h
  have delivered : (t.setResult (.status t.status.exitStatus)).deliveredStatus = some t.status.exitStatus := by
    simp [State.deliveredStatus, htop]
  exact ⟨⟨_, exec_run_of_apply hready h, rfl, delivered, congrArg (Option.map Config.exitCode) delivered⟩,
    ⟨_, exec_runErr_of_apply hready h, rfl, rfl, rfl⟩⟩

/-! ## RUN without its pins (R122) -/

/-- The clock pin refused: `RUN` has made one request and touched nothing else. -/
theorem run_sclRefused (index : Byte) (h : s.requestAnswer .scl = false) :
    ∃ t, Op.apply (run index) s = (.ok (.error (.resource .request .scl)), t) ∧
      t.trace = s.trace ++ [.req .scl false] ∧ t.session = s.session ∧
      t.scl = s.scl.afterRequest false ∧ t.sda = s.sda := by
  refine ⟨_, run_acquireFails index s _ _ (acquire_sclRefused _ h), ?_, rfl, ?_, rfl⟩
  · exact congrArg (fun ok => s.trace ++ [.req .scl ok]) h
  · exact congrArg s.scl.afterRequest h

/-- The data pin refused: `RUN` has given the clock pin back. -/
theorem run_sdaRefused (index : Byte) (h0 : s.requestAnswer .scl = true)
    (h1 : (s.answer 1 && !s.sda.claimed) = false) :
    ∃ t, Op.apply (run index) s = (.ok (.error (.resource .request .sda)), t) ∧
      t.trace = s.trace ++ [.req .scl true, .req .sda false, .rel .scl (s.answer 2)]
        ++ (if s.answer 2 then [] else [.log .rollbackReleaseFailed]) ∧
      t.session = { s.session with hScl := none } ∧
      t.scl = (s.scl.afterRequest true).afterRelease (s.answer 2) ∧ t.sda = s.sda.afterRequest false := by
  obtain ⟨herror, htrace, hses, hscl, hsda⟩ := acquire_sdaRefused (s.runStarted index) h0 h1
  exact ⟨_, run_acquireFails index s _ _ (Prod.ext herror rfl), htrace, hses, hscl, hsda⟩

theorem afterRelease_claimed_of_claimed (p : PinState) (hp : p.claimed = true) (ok : Bool) :
    (p.afterRelease ok).claimed = !ok := by
  cases ok
  · exact hp
  · rfl

/-- Settles O51: the two ways `Acquire` can fail. -/
theorem runWithoutItsPins : Obligations.RunWithoutItsPins := by
  refine fun s index hready => ⟨fun h => ?_, fun h0 hfree h1 => ?_⟩
  · have refused : s.requestAnswer .scl = false := by
      obtain h | h := h <;> simp [State.requestAnswer, State.pin, h]
    obtain ⟨t, hrun, htrace, hses, -, -⟩ := run_sclRefused index refused
    obtain ⟨hexit, htop⟩ := run_done hrun
    exact ⟨_, exec_run_of_apply hready hrun, htrace, rfl, hexit, htop, hses⟩
  · have granted : s.requestAnswer .scl = true := by simp [State.requestAnswer, State.pin, h0, hfree]
    have refused : (s.answer 1 && !s.sda.claimed) = false := by obtain h | h := h1 <;> simp [h]
    obtain ⟨t, hrun, htrace, hses, hscl, -⟩ := run_sdaRefused index granted refused
    obtain ⟨hexit, htop⟩ := run_done hrun
    exact ⟨_, exec_run_of_apply hready hrun, htrace, rfl, hexit, htop, hses,
      (congrArg PinState.claimed hscl).trans (afterRelease_claimed_of_claimed _ rfl _)⟩

/-! ## RUN with both pins granted (R123, R126) -/

/-- Bring-up and playback request and release no pin. -/
theorem growsQuietly_run : RunClosed GrowsQuietly where
  bringUp := {
    path := growsQuietly_path
    init := respects_initialise ⟨growsQuietly_prog.reg, fun _ _ => growsQuietly_same rfl⟩
    top := fun _ _ => growsQuietly_same rfl
    attempt := fun _ _ => growsQuietly_same rfl
    dly := fun _ n => growsQuietly_one (.dly n) rfl rfl }
  play := fun s => respects_playTape growsQuietly_prog s.work.tape s
  primary := fun _ _ => growsQuietly_same rfl

/-- Both pins granted: bring-up and playback leave some state `u`, having appended quiet events, and the cleanup ends
`RUN` from there. -/
theorem run_granted (index : Byte) (hok : s.OkFor 2) (hfree : s.PinsFree) :
    ∃ (u : State) (evs : List Event), Op.apply (run index) s = (.ok u.ended.status.exitStatus, u.ended) ∧
      u.trace = s.trace ++ [.req .scl true, .req .sda true] ++ evs ∧ ∀ e ∈ evs, Event.isQuiet e = true := by
  have acquired := acquire_ok (s.runStarted index) (okFor_same rfl hok (Nat.le_refl _)) hfree
  obtain ⟨u, hu⟩ := bringUpAndPlay_total (s.runStarted index).acquired
  obtain ⟨evs, htrace, hquiet⟩ := respects_bringUpAndPlay growsQuietly_run (s.runStarted index).acquired
  rw [hu] at htrace
  exact ⟨u, evs, (run_acquired index s _ acquired).trans ((apply_bind_ok hu).trans (cleanUpAndExit_apply u)), htrace,
    hquiet⟩

/-- Settles O52: the cleanup, from whatever state bring-up and playback leave. -/
theorem runCombinesTheOutcomes : Obligations.RunCombinesTheOutcomes := by
  intro s index hready hfree hok
  obtain ⟨u, evs, hrun, htrace, hquiet⟩ := run_granted index hok hfree
  refine ⟨_, evs, u.answer 0, u.answer 1, exec_run_of_apply hready hrun, ?_, hquiet, rfl, rfl, rfl, rfl, rfl, rfl, rfl⟩
  show u.trace ++ cleanupEvents u.status.primaryErr (u.answer 0) (u.answer 1) = _
  rw [htrace, cleanupEvents, ← List.append_assoc]
  rfl

/-- Settles O53: `RUN` ends in the state of its steps, each issued on its own, but for the control point and the result. -/
theorem runIsItsOperations : Obligations.RunIsItsOperations := by
  intro s index hready hfree hok
  obtain ⟨st, rfl, hrun⟩ := run_steps index s hready.1 hok hfree
  exact (exec_run (Nat.le_refl _) hready).trans (congrArg _ hrun)

/-- Settles O49: the run with j failed attempts; a tape that exists leaves the engine running. -/
theorem runBringsUpAndPlays : Obligations.RunBringsUpAndPlays := by
  intro s index j hready hj hfree hadm hok hnack hack
  obtain ⟨t, rfl, hran, hattempt, htape, hengine, hpage, -⟩ := run_tries index s j hj hfree hadm hok hnack hack
  exact ⟨_, exec_run (Nat.le_refl _) hready, hran, hattempt, htape, fun hi =>
    ⟨hengine.trans (if_pos hi), hpage.trans (if_pos hi)⟩⟩

/-- Settles O50: the run whose 15 attempts fail at their first byte. -/
theorem runGivesUpAfterFifteenAttempts : Obligations.RunGivesUpAfterFifteenAttempts := by
  intro s index hready hfree hadm hok hnack
  obtain ⟨t, rfl, hran⟩ := run_exhausted index s hfree hadm hok hnack
  exact ⟨_, exec_run (Nat.le_refl _) hready, hran⟩

/-! ## Grants and releases (R121, R123) -/

/-- An event that is no request and no release neither grants nor releases a pin. -/
theorem not_grants_of_quiet {e : Event} (h : e.isQuiet = true) (p : Pin) :
    ¬ e.grants p = true ∧ ¬ e.releases p = true := by
  cases e with
  | req q ok => cases h
  | rel q ok => cases h
  | _ => exact ⟨Bool.false_ne_true, Bool.false_ne_true⟩

theorem countP_of_quiet {evs : List Event} (h : ∀ e ∈ evs, Event.isQuiet e = true) (p : Pin) :
    evs.countP (Event.grants p) = 0 ∧ evs.countP (Event.releases p) = 0 :=
  ⟨List.countP_eq_zero.mpr fun e he => (not_grants_of_quiet (h e he) p).1,
    List.countP_eq_zero.mpr fun e he => (not_grants_of_quiet (h e he) p).2⟩

theorem combinedLog_quiet (primary cleanup : Option Error) :
    ∀ e ∈ combinedLog primary cleanup, Event.isQuiet e = true := by
  cases primary <;> cases cleanup <;> simp [combinedLog]
  rfl

/-- A pin still claimed after a release call is one whose release failed (R26). -/
theorem release_failed_of_claimed {p : PinState} {ok : Bool} (h : (p.afterRelease ok).claimed = true) : ok = false := by
  cases ok
  · rfl
  · cases h

/-- From `s` to `t`, with the events `evs`, a pin is released as often as it is granted, and a free pin is left claimed
only by a release that failed. -/
def GivesBack (s t : State) (evs : List Event) (p : Pin) : Prop :=
  evs.countP (Event.grants p) = evs.countP (Event.releases p) ∧
    ((s.pin p).claimed = false → (t.pin p).claimed = true → .rel p false ∈ evs)

/-- A claim that did not change asks for no failed release. -/
theorem givesBack_of_claim_kept {evs : List Event} {p : Pin}
    (hcount : evs.countP (Event.grants p) = evs.countP (Event.releases p))
    (hkept : (t.pin p).claimed = (s.pin p).claimed) : GivesBack s t evs p :=
  ⟨hcount, fun hfree hclaimed => by simp [hkept, hfree] at hclaimed⟩

theorem givesBack_sclRefused (hscl : t.scl = s.scl.afterRequest false) (hsda : t.sda = s.sda) (p : Pin) :
    GivesBack s t [.req .scl false] p := by
  cases p with
  | scl => exact givesBack_of_claim_kept rfl (congrArg PinState.claimed hscl :)
  | sda => exact givesBack_of_claim_kept rfl (congrArg PinState.claimed hsda :)

theorem givesBack_sdaRefused {ok : Bool} (hscl : t.scl = (s.scl.afterRequest true).afterRelease ok)
    (hsda : t.sda = s.sda.afterRequest false) (p : Pin) :
    GivesBack s t ([.req .scl true, .req .sda false, .rel .scl ok]
      ++ if ok then [] else [.log .rollbackReleaseFailed]) p := by
  cases p with
  | scl =>
    refine ⟨by cases ok <;> rfl, fun _ hclaimed => ?_⟩
    have hfailed : ok = false := release_failed_of_claimed ((congrArg PinState.claimed hscl).symm.trans hclaimed)
    simp [hfailed]
  | sda => exact givesBack_of_claim_kept (by cases ok <;> rfl) (congrArg PinState.claimed hsda :)

/-- Both pins granted, and both released at the end, whatever quiet events come in between. -/
theorem givesBack_granted (s u : State) {evs : List Event} (hquiet : ∀ e ∈ evs, Event.isQuiet e = true) (p : Pin) :
    GivesBack s u.ended ([.req .scl true, .req .sda true] ++ evs
      ++ cleanupEvents u.status.primaryErr (u.answer 0) (u.answer 1)) p := by
  obtain ⟨hgrants, hreleases⟩ := countP_of_quiet hquiet p
  obtain ⟨hlogGrants, hlogReleases⟩ := countP_of_quiet
    (combinedLog_quiet u.status.primaryErr (releaseFailure (u.answer 0) (u.answer 1))) p
  constructor
  · simp only [cleanupEvents, List.countP_append, hgrants, hreleases, hlogGrants, hlogReleases]
    cases p <;> rfl
  · intro _ hclaimed
    cases p with
    | scl =>
      have hfailed : u.answer 1 = false := release_failed_of_claimed hclaimed
      simp [cleanupEvents, hfailed]
    | sda =>
      have hfailed : u.answer 0 = false := release_failed_of_claimed hclaimed
      simp [cleanupEvents, hfailed]

/-- `RUN` begun without a session leaves none, and gives back each pin it was granted, on each of its ways out. -/
theorem run_givesBack (index : Byte) (hv : s.session.valid = false) :
    ∃ st t evs, Op.apply (run index) s = (.ok st, t) ∧ t.session.valid = false ∧ t.trace = s.trace ++ evs ∧
      ∀ p, GivesBack s t evs p := by
  obtain hscl | ⟨hscl, hsda⟩ | ⟨hok, hfree⟩ := acquire_cases s
  · obtain ⟨t, hrun, htrace, hses, hsclPin, hsdaPin⟩ := run_sclRefused index hscl
    exact ⟨_, t, _, hrun, by rw [hses, hv], htrace, givesBack_sclRefused hsclPin hsdaPin⟩
  · obtain ⟨t, hrun, htrace, hses, hsclPin, hsdaPin⟩ := run_sdaRefused index hscl hsda
    rw [List.append_assoc] at htrace
    exact ⟨_, t, _, hrun, by rw [hses]; exact hv, htrace, givesBack_sdaRefused hsclPin hsdaPin⟩
  · obtain ⟨u, evs, hrun, htrace, hquiet⟩ := run_granted index hok hfree
    refine ⟨_, _, _, hrun, rfl, ?_, givesBack_granted s u hquiet⟩
    show u.trace ++ _ = _
    simp [htrace]

/-- The Sequencer's two operations, which differ in control point and result only. -/
theorem exec_givesBack (hi : 0xA ≤ i.opcode.toNat) (h : exec i s = .next t) :
    t.session.valid = false ∧ ∃ evs, t.trace = s.trace ++ evs ∧ ∀ p, GivesBack s t evs p := by
  have hready : s.RunReady := (exec_next h).2.2 hi
  obtain ⟨index, rfl | rfl⟩ := run_or_runErr_of_opcode hi
  all_goals obtain ⟨st, u, evs, hrun, hv, htrace, hgives⟩ := run_givesBack index hready.2
  · cases h.symm.trans (exec_run_of_apply hready hrun)
    exact ⟨hv, evs, htrace, hgives⟩
  · cases h.symm.trans (exec_runErr_of_apply hready hrun)
    exact ⟨hv, evs, htrace, hgives⟩

/-- Settles O19: operations 0x0 to 0x9 leave session and claims alone; `RUN` and `RUNERR` give back what they took. -/
theorem onlyTheSequencerOwnsTheSession : Obligations.OnlyTheSequencerOwnsTheSession := by
  refine fun i s t h => ⟨fun hi => ?_, fun hi => ?_⟩
  · obtain ⟨-, hses, -, hscl, hsda⟩ := exec_session_frame hi h
    exact ⟨hses, hscl, hsda⟩
  · obtain ⟨hidle, hnone⟩ : s.RunReady := (exec_next h).2.2 hi
    obtain ⟨hv, hgives⟩ := exec_givesBack hi h
    refine ⟨hidle, hnone, hv, fun hscl hsda => ?_, hgives⟩
    obtain ⟨-, ⟨-, handles⟩, -⟩ := exec_sequencer_ends hi ⟨hnone, hscl, hsda⟩ h
    exact handles

end Sys2Proof.Machine
end

section
/-! PROOFS of the family `60_exceptions.md`: which errors each operation reports, and that the two validations come before
the bus. -/

namespace Sys2Proof.Machine

variable {α : Type} {i : Instr} {index m p : Byte} {s t u : State} {e : Error} {kind : Validation}

/-! ## What an operation reports (R136) -/

/-- What the issuer received is the error, or the terminal wait with it. -/
def Result.Carries (r : Result) (e : Error) : Prop := r = .status (.error e) ∨ r = .status (.terminalIdle (.error e))

theorem not_carries_returned : ¬ Result.returned.Carries e := by rintro (h | h) <;> cases h
theorem not_carries_bit (b : Bool) : ¬ (Result.bit b).Carries e := by rintro (h | h) <;> cases h
theorem not_carries_byteAck (a : Ack) : ¬ (Result.byteAck a).Carries e := by rintro (h | h) <;> cases h
theorem not_carries_success : ¬ (returnsSuccess ()).Carries e := by rintro (h | h) <;> cases h

/-- An operation whose values carry no error reports only what its piece raises. -/
theorem finish_reports {P : Error → Bool} {ret : α → Result} {x : Op α}
    (hx : ∀ e, (Op.apply x s).1 = .error e → P e = true) (hret : ∀ a, ¬ (ret a).Carries e)
    (h : (finish ret x s).result.Carries e) : P e = true := by
  change (resultOf ret (Op.apply x s).1).Carries e at h
  rcases hr : (Op.apply x s).1 with e' | a <;> rw [hr] at h
  · obtain h | h := h <;> cases h
    exact hx e hr
  · exact absurd h (hret a)

/-! ## RUN (R137 to R140) -/

theorem hostPart_bringUp : BringUpClosed (Keeps hostPart) where
  path := keeps_path hostPart
  init := initialise_host
  top := fun _ _ => rfl
  attempt := fun _ _ => rfl
  dly := fun _ _ => rfl

/-- Bring-up touches neither the parameters nor the status registers. -/
theorem bringUp_frame {r : Except Error Unit} (h : Op.apply bringUp s = (r, t)) : t.cfg = s.cfg ∧ t.status = s.status := by
  have hkept : hostPart (Op.apply bringUp s).2 = hostPart s := respects_bringUp hostPart_bringUp s
  rw [h] at hkept
  obtain ⟨hcfg, -, hstatus, -⟩ := hostPart_eq hkept
  exact ⟨hcfg, hstatus⟩

theorem playTape_status {r : Except Error Unit} (h : Op.apply (playTape index) s = (r, t)) : t.status = s.status := by
  have hkept : hostPart (Op.apply (playTape index) s).2 = hostPart s := respects_playTape hostPart_prog index s
  rw [h] at hkept
  obtain ⟨-, -, hstatus, -⟩ := hostPart_eq hkept
  exact hstatus

/-- The errors of `PLAYTAPE` are among those of `RUN`. -/
theorem play_isRun (h : (transactionError e || e == .validation .index) = true) : runError e = true := by
  obtain h | h := Bool.or_eq_true_iff.mp h
  · exact transaction_isRun e h
  · rw [eq_of_beq h]
    rfl

/-- `PRIMARY_ERR` after bring-up and playback is an error that one of them raised (R125). -/
theorem bringUpAndPlay_primaryErr (hadm : s.cfg.admissible = true) (hnone : s.status.primaryErr = none)
    (hrun : Op.apply bringUpAndPlay s = (.ok (), u)) (he : u.status.primaryErr = some e) : runError e = true := by
  rcases hb : Op.apply bringUp s with ⟨e' | _, t⟩
  · cases hrun.symm.trans (bringUpAndPlay_fails s t e' hb)
    cases he
    exact raises_bringUp s e (congrArg (·.1) hb)
  · obtain ⟨hcfg, hstatus⟩ := bringUp_frame hb
    obtain ⟨hplayed, hfailed⟩ := bringUpAndPlay_plays s t hb
    rcases hp : Op.apply (playTape t.work.tape) (t.setTop .play) with ⟨e' | _, v⟩
    · cases hrun.symm.trans (hfailed e' v hp)
      cases he
      have hadm' : (t.setTop .play).cfg.admissible = true := hcfg ▸ hadm
      exact play_isRun (playTape_raises t.work.tape _ hadm' e (congrArg (·.1) hp))
    · cases hrun.symm.trans (hplayed v hp)
      have hkept : u.status = s.status := (playTape_status hp).trans hstatus
      rw [hkept, hnone] at he
      cases he

/-- The combined status is success, the primary error or the cleanup error (R126). -/
theorem combinedStatus_cases (primary cleanup : Option Error) :
    combinedStatus primary cleanup = .success ∨
      ∃ e, combinedStatus primary cleanup = .error e ∧ (primary = some e ∨ cleanup = some e) := by
  rcases primary with _ | e
  · rcases cleanup with _ | c
    · exact .inl rfl
    · exact .inr ⟨c, rfl, .inr rfl⟩
  · exact .inr ⟨e, by cases cleanup <;> rfl, .inl rfl⟩

/-- `RUN` returns success or an error: one of `Acquire`, of bring-up and playback, or of the cleanup. -/
theorem run_reports (index : Byte) (hadm : s.cfg.admissible = true) :
    ∃ st t, Op.apply (run index) s = (.ok st, t) ∧ (st = .success ∨ ∃ e, st = .error e ∧ runError e = true) := by
  obtain ⟨e, a, ha, h⟩ | ⟨a, u, ha, hu, h⟩ := run_cases index s
  · exact ⟨_, _, h, .inr ⟨e, rfl, raises_acquire _ e (congrArg (·.1) ha)⟩⟩
  · refine ⟨_, _, h, ?_⟩
    have hkeeps := respects_acquire seqKeeps_seq (s.runStarted index)
    have hstatus := acquire_keepsStatus (s.runStarted index)
    rw [ha] at hkeeps hstatus
    have hadm' : a.cfg.admissible = true := hkeeps.cfg ▸ hadm
    have hnone : a.status.primaryErr = none := congrArg StatusRegs.primaryErr hstatus
    obtain hs | ⟨e, hs, hprimary | hcleanup⟩ :=
      combinedStatus_cases u.status.primaryErr (releaseFailure (u.answer 0) (u.answer 1))
    · exact .inl hs
    · exact .inr ⟨e, hs, bringUpAndPlay_primaryErr hadm' hnone hu hprimary⟩
    · obtain ⟨p, rfl⟩ := releaseFailure_kind hcleanup
      exact .inr ⟨_, hs, rfl⟩

/-- The error carried by `RUN`'s status, or by the terminal wait with it, is the status's own. -/
theorem run_carries {st : Status} (hst : st = .success ∨ ∃ e, st = .error e ∧ runError e = true)
    (h : (Result.status st).Carries e ∨ (Result.status (.terminalIdle st)).Carries e) : runError e = true := by
  obtain rfl | ⟨e', rfl, he⟩ := hst <;> obtain (h | h) | (h | h) := h <;> cases h
  · exact he
  · exact he

/-! ## Every operation -/

/-- An error that an operation reports is one that its piece raises, or for the Sequencer one that `RUN` returns. -/
theorem sessionResult_reports (hadm : s.cfg.admissible = true) (h : (sessionResult i s).result.Carries e) :
    mayReport i e = true := by
  cases i with
  | start => exact finish_reports (raises_start s) (fun _ => not_carries_returned) h
  | stop => exact finish_reports (raises_stop s) (fun _ => not_carries_returned) h
  | writebit v => exact finish_reports (raises_writeBit v s) (fun _ => not_carries_returned) h
  | readbit => exact finish_reports (raises_readBit s) not_carries_bit h
  | writebyte b => exact finish_reports (raises_writeByte b s) not_carries_byteAck h
  | setreg dev sub val => exact finish_reports (raises_setReg dev sub val s) (fun _ => not_carries_success) h
  | writebulk dev start n => exact finish_reports (raises_writeBulk dev start _ s) (fun _ => not_carries_success) h
  | initialise => exact finish_reports (raises_initialise s) (fun _ => not_carries_success) h
  | loadprogram m p => exact finish_reports (raises_loadProgram _ _ s) (fun _ => not_carries_success) h
  | playtape index => exact finish_reports (playTape_raises index s hadm) (fun _ => not_carries_success) h
  | run index =>
    obtain ⟨st, t, hrun, hst⟩ := run_reports index hadm
    rw [show sessionResult (.run index) s = _ from finish_ok hrun] at h
    exact run_carries hst (.inl h)
  | runerr index =>
    obtain ⟨st, t, hrun, hst⟩ := run_reports index hadm
    rw [show sessionResult (.runerr index) s = _ from finish_ok (runErr_apply index s t st hrun)] at h
    exact run_carries hst (.inr h)

/-- Settles O20: a next state is the one the operation leaves, whose result is that of its piece. -/
theorem errorsByOperation : Obligations.ErrorsByOperation := by
  intro i s t e hadm h hreported
  rw [(exec_next h).1] at hreported
  exact sessionResult_reports hadm hreported

/-! ## The two validations (R139) -/

/-- Besides the Sequencer only `LOADPROGRAM` and `PLAYTAPE` report a `ValidationError`, of one kind each. -/
theorem mayReport_validation (hi : i.opcode.toNat < 0xA) (h : mayReport i (.validation kind) = true) :
    (∃ m p, i = .loadprogram m p ∧ kind = .size) ∨ (∃ index, i = .playtape index ∧ kind = .index) := by
  cases i with
  | loadprogram m p =>
    cases kind with
    | size => exact .inl ⟨m, p, rfl, rfl⟩
    | index => cases h
  | playtape index =>
    cases kind with
    | size => cases h
    | index => exact .inr ⟨index, rfl, rfl⟩
  | run index => simp [Instr.opcode] at hi
  | runerr index => simp [Instr.opcode] at hi
  | _ => cases h

/-- A `LOADPROGRAM` that returns a `ValidationError` has an oversized buffer. -/
theorem loadProgram_validation
    (h : (sessionResult (.loadprogram m p) s).result = .status (.error (.validation kind))) :
    32 < m.toNat ∨ 32 < p.toNat := by
  by_contra hfits
  have hm : (s.operand0 m).length ≤ 32 := by rw [operand0_length]; omega
  have hp : (s.operand1 p).length ≤ 32 := by rw [operand1_length]; omega
  have htransaction := raises_loadFitting hm hp s _ (error_of_result h)
  cases htransaction

/-- A `PLAYTAPE` that returns a `ValidationError` has an index out of range: the tables of a tape that exists fit. -/
theorem playTape_validation (hadm : s.cfg.admissible = true)
    (h : (sessionResult (.playtape index) s).result = .status (.error (.validation kind))) : 2 ≤ index.toNat := by
  by_contra hi
  obtain ⟨-, -, hprogram⟩ := admissible_tables hadm
  have hraised := error_of_result (x := playTape index) h
  rw [playTape_eq_loadProgram (by omega)] at hraised
  have htransaction := raises_loadFitting (admissible_muxTable hadm index).le hprogram.le _ _ hraised
  cases htransaction

/-- An operation issued with a session returns a `ValidationError` for an oversized buffer or an index out of range only. -/
theorem validation_cases (hi : i.opcode.toNat < 0xA) (hadm : s.cfg.admissible = true)
    (h : (sessionResult i s).result = .status (.error (.validation kind))) :
    (∃ m p : Byte, i = .loadprogram m p ∧ (32 < m.toNat ∨ 32 < p.toNat) ∧ kind = .size) ∨
      (∃ index : Byte, i = .playtape index ∧ 2 ≤ index.toNat ∧ kind = .index) := by
  obtain ⟨m, p, rfl, hkind⟩ | ⟨index, rfl, hkind⟩ := mayReport_validation hi (sessionResult_reports hadm (.inl h))
  · exact .inl ⟨m, p, rfl, loadProgram_validation h, hkind⟩
  · exact .inr ⟨index, rfl, playTape_validation hadm h, hkind⟩

/-- With a session, `RUN` and `RUNERR` do not execute (R67). -/
theorem opcode_of_session (hready : s.SessionReady) (h : exec i s = .next t) : i.opcode.toNat < 0xA := by
  obtain ⟨-, hv, -⟩ := hready
  obtain ⟨-, -, hrun⟩ := exec_next h
  by_contra hi
  obtain ⟨-, hnone⟩ := hrun (by omega)
  simp [hv] at hnone

/-- Settles O44: an oversized buffer and an index out of range are found with nothing done, and nothing else is validated. -/
theorem validationPrecedesTheBus : Obligations.ValidationPrecedesTheBus := by
  refine fun s hready hadm => ⟨fun m p hsize => ?_, fun index hindex => ?_, fun i t kind h hresult => ?_⟩
  · exact exec_loadProgram hready (loadProgram_oversized _ _ s (by simpa using hsize))
  · obtain ⟨hindexed, -⟩ := (playTapeIsItsLoadProgram index).2 s hready hadm
    exact hindexed hindex
  · rw [(exec_next h).1] at hresult
    exact validation_cases (opcode_of_session hready h) hadm hresult

end Sys2Proof.Machine
end

section
/-! PROOFS of the family `70_reset_and_hazards.md`: the wait at `Idle`, and the reset by a kill. -/

namespace Sys2Proof.Machine

variable {s : State} {rest : List HostInput}

/-! ## The two inputs that run no operation (R161, R162) -/

theorem step_of_no_input (hin : s.inputs = []) : step s = waitForCommand s := by
  simp [step, stepWith, hin]

/-- A kill is taken before the control point is looked at. -/
theorem step_kill (hin : s.inputs = .kill :: rest) : step s = .next { s.hostReset with inputs := rest } := by
  simp [step, stepWith, hin]

theorem waitForCommand_idle (hp : s.pc.top = .idle) : waitForCommand s = .next s := by
  simp [waitForCommand, hp]

/-- Settles O8: with no input the control point alone decides, and at `Idle` it waits. -/
theorem idleWaitsForACommand : Obligations.IdleWaitsForACommand :=
  fun _ hp hin => (step_of_no_input hin).trans (waitForCommand_idle hp)

/-- Settles O11: the step is the reset of the block with the kill taken, and each value is the one `hostReset` writes. -/
theorem killResetsTheBlock : Obligations.KillResetsTheBlock :=
  fun _ _ hin => ⟨_, step_kill hin, rfl, rfl, rfl, rfl, rfl, rfl, rfl, rfl, rfl, rfl, rfl, rfl, rfl, rfl⟩

end Sys2Proof.Machine
end

section
/-! PROOFS of the family `other`: the reset by a command presented after `Done`. -/

namespace Sys2Proof.Machine

variable {s : State} {st : Status} {w : Word} {b0 b1 : List Byte} {rest : List HostInput}

/-- After `Done` a presented command resets the block and is not yet taken: whichever word it is, `hostReset` keeps it. -/
theorem step_command_after_done (hp : s.pc.top = .done st) (hin : s.inputs = .command w b0 b1 :: rest) :
    step s = .next s.hostReset := by
  simp [step, stepWith, hin, acceptCommand, hp]

/-- Settles O12: the step is the reset of the block alone, and each value is the one `hostReset` writes or keeps. -/
theorem commandAfterDoneResets : Obligations.CommandAfterDoneResets :=
  fun s _ _ _ _ _ hp hin => ⟨s.hostReset, step_command_after_done hp hin, hostReset_pc s, rfl, rfl, rfl, rfl, rfl, rfl,
    hostReset_ghost s, hostReset_trace s, hostReset_scl s, hostReset_sda s, hostReset_remote s, hostReset_cfg s,
    hostReset_inputs s⟩

end Sys2Proof.Machine
end
